-- ==== Sys2Proof/Word.lean ====
section
/-!
DEFINITION. The words of the machine: scalar registers are 64 bits, instruction words and vector containers 32 bits,
memory is made of bytes (R59, R104, R112).
-/
namespace Sys2Proof

/-- A scalar register, a special register, an address while it is computed (R104). -/
abbrev Word := BitVec 64

/-- An instruction word, a vector container, a format code while it is packed (R59, R112). -/
abbrev W32 := BitVec 32

/-- A byte of memory. -/
abbrev Byte := BitVec 8

end Sys2Proof
end

