-- ==== Sys2Proof/Syntax.lean ====
section
/-!
DEFINITION. The syntax of the machine: one constructor of Instr for each row of the opcode table. The first 162 rows are
instructions with an encoding; the last 78 are the events of the device and of its hosts, whose arguments name the die, the
core, the port or the record the event befalls and carry the data an outside party brings with it.
-/
namespace Sys2Proof

/-- A scalar register s0 to s31 (R66). -/
abbrev Reg := Fin 32
/-- A vector register name v0 to v31 (R66). -/
abbrev VReg := Fin 32
/-- A predicate name p0 to p15 (R66). -/
abbrev PReg := Fin 16
/-- A link register x0 to x31 (R406). -/
abbrev LReg := Fin 32
/-- An element format code (R71, R129, R131). -/
abbrev EF := Fin 256
/-- A spark channel (R72). -/
abbrev Chan := Fin 8

/-- Vector arithmetic type TY (R70). -/
inductive VTy where
  | f32 | i32 | n32
  deriving DecidableEq, Repr

/-- Rounding modes 0 to 5 (R136). -/
inductive RMode where
  | near | zero | down | up | away | stoch
  deriving DecidableEq, Repr

/-- Condition codes 0 to 14 (R320). -/
inductive Cond where
  | eq | ne | lt | ge | ltu | geu | le | gt | leu | gtu | any | none | all | nall | al
  deriving DecidableEq, Repr

/-- The spark operation of an X-form instruction (R72). -/
inductive Spark where
  | none
  | push (ch : Chan)
  | pop (ch : Chan)
  | popPush (ch : Chan)
  deriving DecidableEq, Repr

/-- The element predicate P, PN (R68). -/
structure PredOp where
  p : PReg
  neg : Bool
  deriving DecidableEq, Repr

/-- A vector destination: a register, or a store queue under QD (R69). -/
inductive VDest where
  | reg (v : VReg)
  | queue (w : Fin 2)
  deriving DecidableEq, Repr

/-- A vector operand A: a register, or an operand queue under QA (R69). -/
inductive VSrc where
  | reg (v : VReg)
  | queue (q : Fin 4)
  deriving DecidableEq, Repr

/-- The fields common to a format V instruction with vector operand A and vector result (R63, R378). -/
structure VOp where
  d : VDest
  a : VSrc
  zm : Bool
  pred : PredOp
  deriving DecidableEq, Repr

/-- Rounding field of R378: mode, saturate bit, draw-base register (0 unless the mode is 5). -/
structure Rnd where
  rm : RMode
  sat : Bool
  c : Reg
  deriving DecidableEq, Repr

/-- The shift amount of VSHL and VSHR: a vector, or an immediate under F[0] (R388). -/
inductive VShAmt where
  | reg (b : VReg)
  | imm (n : Fin 32)
  deriving DecidableEq, Repr

/-- The three forms of LI (R350). -/
inductive LiForm where
  | sx | zx | hi
  deriving DecidableEq, Repr

/-- Sizes of LD (R348). -/
inductive LdSize where
  | n8 | n16 | n32 | w64 | i8 | i16 | i32
  deriving DecidableEq, Repr

/-- Sizes of ST (R373). -/
inductive StSize where
  | b8 | b16 | b32 | w64
  deriving DecidableEq, Repr

/-- Special registers that RDS reads (R106); the write-only one is not among them. -/
inductive RdReg where
  | strand | core | clamp | group | die | physcore
  | args | seed | mode | tenant | importTab
  | flags | cnt | status | qstat
  | vrot | prot | vbase | vsize | pbase
  | trapvec | trapcause | trappc | trapinfo | trapsave
  | cycle | tick | steptick | imcode
  deriving DecidableEq, Repr

/-- Special registers that the plain WRS writes (R404): those with access RW, the windows apart. -/
inductive WrReg where
  | importTab | flags | status | prot | trapvec | trappc | trapsave | steptick
  deriving DecidableEq, Repr

/-- Window registers that WRS_WINDOW writes (R113). -/
inductive WinReg where
  | vbase | vsize | vrot
  deriving DecidableEq, Repr

/-- Predicate logic operations of PLOG (R365). -/
inductive PLogOp where
  | and | or | xor | andn | orn | nand | nor | xnor
  deriving DecidableEq, Repr

/-- Modes of PSET (R366). -/
inductive PSetMode where
  | lt | ge | rowlt | collt
  deriving DecidableEq, Repr

/-- Conditions of VCMP (R382). -/
inductive VCond where
  | eq | ne | lt | le | gt | ge | uo
  deriving DecidableEq, Repr

/-- Index modes of VIOTA (R389). -/
inductive IotaMode where
  | elem | row | col
  deriving DecidableEq, Repr

/-- Reduction operations (R392). -/
inductive RedOp where
  | sum | max | min
  deriving DecidableEq, Repr

/-- Queues that CWAIT names, in the order of the QFENCE bits (R335). -/
inductive QName where
  | copy | matrix | coll | sampler | brand | vstq | other
  deriving DecidableEq, Repr

/-- Operations of ATOM (R316). -/
inductive AtomOp where
  | add | min | max | and | or | xor | xchg
  deriving DecidableEq, Repr

/-- Domains of RSV (R369). -/
inductive RsvDom where
  | d1 | d2 | d3
  deriving DecidableEq, Repr

/-- The parts SBIND selects (R273). -/
inductive BindSel where
  | parts (prog bias cnt key : Bool)
  | unbind
  deriving DecidableEq, Repr

/-- Option bits of MDRAIN (R169). -/
structure DrainOpt where
  bias : Bool
  act : Bool
  req : Bool
  clr : Bool
  csc : Bool
  deriving DecidableEq, Repr

/-- The push of a link instruction: none, or a register that holds the push target with a channel (R406). -/
inductive LPush where
  | none
  | to (d : LReg) (ch : Chan)
  deriving DecidableEq, Repr

/-! The data that outside parties bring. -/

/-- Rounds of one port's cabling in the pod configuration: the far end and the hop time of the cable class (R199, R9). -/
structure Cable where
  farDie : Nat
  farPort : Nat
  hop : Nat
  deriving DecidableEq, Repr

/-- A window of the plan in which a stack of a die serves requesters in Locked mode: a set of agent ids and the ticks from one up to
another (R196). -/
structure HbmWindow where
  die : Nat
  stack : Nat
  agents : List Nat
  first : Nat
  until_ : Nat
  deriving DecidableEq, Repr

/-- What the pod configuration fixes (R9, R186, R196, R238, R239, R247, R255, R264). Ports of die d are numbered 16 * d + p. -/
structure PodCfg where
  members : List Nat
  root : Nat
  cables : List (Nat × Cable)
  parents : List (Nat × Nat)
  planTenants : List (Nat × Nat)
  routes : List (Nat × List (Nat × Nat))
  recoveryLag : Nat
  hbmWindows : List HbmWindow
  /-- The PA of a die's side table of compression metadata (R186). -/
  sideTables : List (Nat × Nat)
  deriving DecidableEq, Repr

/-- A tenant's configuration on a die (R299). -/
structure TenantCfg where
  clamps : BitVec 16
  root : Nat
  allotBase : Nat
  allotLimit : Nat
  poolFirst : Nat
  poolLast : Nat
  schedFirst : Nat
  schedSize : Nat
  slotFirst : Nat
  slotCount : Nat
  qps : List (Nat × Nat)
  ringAddr : Word
  ringLog : Nat
  saveArea : Nat
  digestArea : Nat
  digestSize : Nat
  ikey : Option Nat
  inject : Bool
  deriving DecidableEq, Repr

/-- Kinds of error injection (R308). -/
inductive InjectKind where
  | flip (byte bit : Nat)
  | resid (strand reg : Nat)
  | stall (cycles : Nat)
  deriving DecidableEq, Repr

/-- A firmware image with its signature: security version, contents, signature number, signing modulus (R307). -/
structure FwImage where
  version : Nat
  body : List (BitVec 8)
  sig : Nat
  modulus : Nat
  deriving DecidableEq, Repr

/-- One constructor for each row of the opcode table. -/
inductive Instr where
  | add (d a b : Reg)  -- ADD (R312)
  | addi (d a : Reg) (imm : BitVec 20)  -- ADDI (R313)
  | sub (d a b : Reg)  -- SUB (R360)
  | mul (d a b : Reg)  -- MUL (R360)
  | mulh (u : Bool) (d a b : Reg)  -- MULH (R360)
  | div (u : Bool) (d a b : Reg)  -- DIV (R338)
  | rem (u : Bool) (d a b : Reg)  -- REM (R360)
  | and (d a b : Reg)  -- AND (R312)
  | or (d a b : Reg)  -- OR (R360)
  | xor (d a b : Reg)  -- XOR (R405)
  | andn (d a b : Reg)  -- ANDN (R312)
  | shlReg (d a b : Reg)  -- SHL_REG (R361)
  | shlImm (d a : Reg) (n : Fin 64)  -- SHL_IMM (R361)
  | shrReg (d a b : Reg)  -- SHR_REG (R361)
  | shrImm (d a : Reg) (n : Fin 64)  -- SHR_IMM (R361)
  | shaReg (d a b : Reg)  -- SHA_REG (R361)
  | shaImm (d a : Reg) (n : Fin 64)  -- SHA_IMM (R361)
  | rotReg (d a b : Reg)  -- ROT_REG (R361)
  | rotImm (d a : Reg) (n : Fin 64)  -- ROT_IMM (R361)
  | min (u : Bool) (d a b : Reg)  -- MIN (R352)
  | max (u : Bool) (d a b : Reg)  -- MAX (R352)
  | clz (d a : Reg)  -- CLZ (R312)
  | popc (d a : Reg)  -- POPC (R360)
  | ext (sx : Bool) (d a : Reg) (pos : Fin 64) (len : Fin 128)  -- EXT (R341)
  | ins (d a : Reg) (pos : Fin 64) (len : Fin 128)  -- INS (R341)
  | sel (cc : Cond) (d a b : Reg)  -- SEL (R362)
  | cmpReg (a b : Reg)  -- CMP_REG (R326)
  | cmpImm (a : Reg) (imm : BitVec 20)  -- CMP_IMM (R326)
  | setc (cc : Cond) (d : Reg)  -- SETC (R362)
  | li (form : LiForm) (d : Reg) (lit : BitVec 32)  -- LI (R350)
  | mov (d a : Reg)  -- MOV (R357)
  | adr (d : Reg) (lit : BitVec 32)  -- ADR (R314)
  | b (imm : BitVec 20)  -- B (R321)
  | bLong (lit : BitVec 32)  -- B_LONG (R321)
  | bc (cc : Cond) (imm : BitVec 20)  -- BC (R321)
  | brz (nz : Bool) (a : Reg) (imm : BitVec 20)  -- BRZ (R321)
  | call (imm : BitVec 20)  -- CALL (R321)
  | callLong (lit : BitVec 32)  -- CALL_LONG (R321)
  | callxReg (a : Reg)  -- CALLX_REG (R123)
  | callxImm (imm : BitVec 20)  -- CALLX_IMM (R123)
  | jx (d a : Reg)  -- JX (R342)
  | loop (rv rp : Bool) (a : Reg) (imm : BitVec 20)  -- LOOP (R351)
  | exit  -- EXIT (R51)
  | ld (sz : LdSize) (d a : Reg) (imm : BitVec 20)  -- LD (R349)
  | st (sz : StSize) (a b : Reg) (imm : BitVec 20)  -- ST (R374)
  | rds (d : Reg) (n : RdReg)  -- RDS (R368)
  | wrs (n : WrReg) (a : Reg)  -- WRS (R404)
  | wrsImfree (a : Reg)  -- WRS_IMFREE (R128)
  | wrsWindow (n : WinReg) (a : Reg)  -- WRS_WINDOW (R113)
  | wrsPbase (a : Reg)  -- WRS_PBASE (R115)
  | spush (ch : Chan)  -- SPUSH (R372)
  | spop (ch : Chan)  -- SPOP (R372)
  | qfence (mask : Fin 128)  -- QFENCE (R230)
  | nsend (a b : Reg) (len : BitVec 32) (sp : Spark)  -- NSEND (R364)
  | nrecv (a b : Reg) (len : BitVec 32) (sp : Spark)  -- NRECV (R364)
  | vadd (ty : VTy) (o : VOp) (b : VReg) (r : Rnd)  -- VADD (R380)
  | vsub (ty : VTy) (o : VOp) (b : VReg) (r : Rnd)  -- VSUB (R387)
  | vmul (ty : VTy) (o : VOp) (b : VReg) (r : Rnd)  -- VMUL (R387)
  | vfma (ty : VTy) (o : VOp) (b : VReg) (r : Rnd)  -- VFMA (R387)
  | vfnma (ty : VTy) (o : VOp) (b : VReg) (r : Rnd)  -- VFNMA (R387)
  | vmin (ty : VTy) (o : VOp) (b : VReg)  -- VMIN (R387)
  | vmax (ty : VTy) (o : VOp) (b : VReg)  -- VMAX (R387)
  | vabs (ty : VTy) (o : VOp)  -- VABS (R380)
  | vneg (ty : VTy) (o : VOp)  -- VNEG (R387)
  | vrcps (o : VOp)  -- VRCPS (R152)
  | vrsqs (o : VOp)  -- VRSQS (R152)
  | vexp2 (o : VOp)  -- VEXP2 (R154)
  | vlog2 (o : VOp)  -- VLOG2 (R154)
  | vand (o : VOp) (b : VReg)  -- VAND (R380)
  | vor (o : VOp) (b : VReg)  -- VOR (R388)
  | vxor (o : VOp) (b : VReg)  -- VXOR (R388)
  | vshl (ty : VTy) (o : VOp) (n : VShAmt)  -- VSHL (R388)
  | vshr (ty : VTy) (o : VOp) (n : VShAmt)  -- VSHR (R388)
  | vcmp (ty : VTy) (cc : VCond) (pd : PReg) (a : VSrc) (b : VReg) (zm : Bool) (pred : PredOp)  -- VCMP (R382)
  | vsel (o : VOp) (b : VReg) (pc : PReg)  -- VSEL (R389)
  | vmov (o : VOp)  -- VMOV (R389)
  | vbcs (d : VDest) (a : Reg) (zm : Bool) (pred : PredOp)  -- VBCS (R381)
  | viota (ty : VTy) (m : IotaMode) (d : VDest) (a : Reg) (step : BitVec 15) (zm : Bool) (pred : PredOp)  -- VIOTA (R389)
  | vcvt (ef : EF) (ty : VTy) (o : VOp) (r : Rnd)  -- VCVT (R383)
  | vquant (ef : EF) (a : Reg) (b : VReg) (e : Reg) (t : Fin 8) (rm : RMode) (sat : Bool) (sp : Spark)  -- VQUANT (R401)
  | vdeq (ef : EF) (z : Bool) (d : VReg) (a : Reg) (lit : BitVec 32) (pred : PredOp) (sp : Spark)  -- VDEQ (R384)
  | vrotr (o : VOp) (c : Reg) (imm : BitVec 15)  -- VROTR (R391)
  | vrotc (o : VOp) (c : Reg) (imm : BitVec 15)  -- VROTC (R391)
  | vbcr (o : VOp) (c : Reg) (imm : BitVec 15)  -- VBCR (R381)
  | vbcc (o : VOp) (c : Reg) (imm : BitVec 15)  -- VBCC (R381)
  | vredr (ty : VTy) (op : RedOp) (o : VOp)  -- VREDR (R393)
  | vredc (ty : VTy) (op : RedOp) (o : VOp)  -- VREDC (R393)
  | vsegr (ty : VTy) (op : RedOp) (o : VOp) (pb : PReg)  -- VSEGR (R393)
  | vflag (pa : PReg) (pred : PredOp)  -- VFLAG (R394)
  | vld (ef : EF) (z : Bool) (d : VReg) (a e : Reg) (lit : BitVec 32) (pred : PredOp) (sp : Spark)  -- VLD (R398)
  | vst (ef : EF) (ty : VTy) (a : Reg) (b : VReg) (e : Reg) (lit : BitVec 32) (pred : PredOp) (sp : Spark)  -- VST (R398)
  | vldq (ef : EF) (q : Fin 4) (a e : Reg) (lit : BitVec 32) (sp : Spark)  -- VLDQ (R398)
  | vstq (ef : EF) (ty : VTy) (a : Reg) (w : Fin 2) (e : Reg) (lit : BitVec 32) (sp : Spark)  -- VSTQ (R398)
  | vgath (ef : EF) (z : Bool) (part : Fin 4) (d : VReg) (a : Reg) (b : VReg) (lit : BitVec 32) (pred : PredOp) (sp : Spark)  -- VGATH (R399)
  | vscat (ef : EF) (ty : VTy) (part : Fin 4) (a : Reg) (b e : VReg) (lit : BitVec 32) (pred : PredOp) (sp : Spark)  -- VSCAT (R399)
  | vrag (ef : EF) (z : Bool) (d : VReg) (a : Reg) (b : VReg) (lit : BitVec 32) (pred : PredOp) (sp : Spark)  -- VRAG (R400)
  | vrng (u01 z : Bool) (d : VReg) (a : Reg) (pred : PredOp) (sp : Spark)  -- VRNG (R402)
  | plog (op : PLogOp) (d a b : PReg)  -- PLOG (R365)
  | pset (m : PSetMode) (d : PReg) (c : Reg) (imm : BitVec 15) (zm : Bool) (pred : PredOp)  -- PSET (R366)
  | mlease  -- MLEASE (R158)
  | mfree  -- MFREE (R158)
  | mfmt (a : Reg)  -- MFMT (R161)
  | mldw (a : Reg) (lit : BitVec 32) (sp : Spark)  -- MLDW (R164)
  | mswap  -- MSWAP (R158)
  | mstrm (a : Reg) (stride : Fin 65536) (m : Fin 256) (row0 : Fin 128) (sp : Spark)  -- MSTRM (R166)
  | mdrain (opt : DrainOpt) (a b e g : Reg) (stride : Fin 65536) (m : Fin 256) (row0 : Fin 128) (sp : Spark)  -- MDRAIN (R169)
  | mchk (clr : Bool) (d : Reg)  -- MCHK (R172)
  | cpy (a b e : Reg) (lit : BitVec 32) (sp : Spark)  -- CPY (R331)
  | cpys (a b e g : Reg) (sp : Spark)  -- CPYS (R331)
  | cpycs (first last : Bool) (d a b e g : Reg) (lit : BitVec 32) (sp : Spark)  -- CPYCS (R332)
  | coll (a : Reg) (lit : BitVec 32) (sp : Spark)  -- COLL (R328)
  | cwait (q : QName) (a : Reg)  -- CWAIT (R336)
  | smpl (a b e g : Reg) (n : Fin 4096) (sp : Spark)  -- SMPL (R277)
  | sbind (sel : BindSel) (a : Reg) (slot : Fin 2048) (sp : Spark)  -- SBIND (R274)
  | bclaim (d a : Reg) (lsize : Fin 64) (sp : Spark)  -- BCLAIM (R207)
  | bfree (d a : Reg) (push : Option Chan)  -- BFREE (R207)
  | blend (d a b : Reg) (push : Option Chan)  -- BLEND (R207)
  | bret (d a : Reg) (push : Option Chan)  -- BRET (R207)
  | bxfer (d a b : Reg) (push : Option Chan)  -- BXFER (R207)
  | bsplit (d a : Reg) (push : Option Chan)  -- BSPLIT (R207)
  | bjoin (d a b : Reg) (push : Option Chan)  -- BJOIN (R207)
  | bshare (d a b : Reg) (push : Option Chan)  -- BSHARE (R207)
  | bshareAtomic (d a : Reg) (push : Option Chan)  -- BSHARE_ATOMIC (R207)
  | bunsh (d a : Reg) (push : Option Chan)  -- BUNSH (R207)
  | bquery (d a : Reg) (push : Option Chan)  -- BQUERY (R210)
  | slotrd (d c : Reg) (slot : Fin 64) (push : Option Chan)  -- SLOTRD (R220)
  | slotsw (a : Reg) (slot : Fin 64) (push : Option Chan)  -- SLOTSW (R221)
  | bar (stp : Bool) (a : Reg) (imm : BitVec 20)  -- BAR (R42)
  | cbar  -- CBAR (R50)
  | waittReg (a : Reg)  -- WAITT_REG (R403)
  | waittImm (a : Reg) (imm : BitVec 20)  -- WAITT_IMM (R403)
  | segend (nosig : Bool) (a : Reg) (lit : BitVec 32)  -- SEGEND (R46)
  | atom (op : AtomOp) (ty : VTy) (d a b : Reg) (lit : BitVec 32) (sp : Spark)  -- ATOM (R317)
  | afence  -- AFENCE (R315)
  | rsv (dom : RsvDom) (a b e g : Reg) (sp : Spark)  -- RSV (R370)
  | place (d a b : Reg)  -- PLACE (R54)
  | trap (imm : BitVec 20)  -- TRAP (R375)
  | eret  -- ERET (R339)
  | sysc (imm : BitVec 20)  -- SYSC (R375)
  | tlbiq (all : Bool) (a b : Reg) (sp : Spark)  -- TLBIQ (R377)
  | capr (d a : Reg) (imm : BitVec 20)  -- CAPR (R325)
  | xsend (track part : Bool) (a b e : LReg) (lit : BitVec 32) (push : LPush)  -- XSEND (R409)
  | xrecv (a b e g : LReg) (lit : BitVec 32) (push : LPush)  -- XRECV (R410)
  | xfwd (a b e : LReg) (lit : BitVec 32) (push : LPush)  -- XFWD (R411)
  | xred (op : RedOp) (fin : Bool) (a b e g : LReg) (lit : BitVec 32) (push : LPush)  -- XRED (R411)
  | xguard (len : Fin 256) (lit : BitVec 32)  -- XGUARD (R412)
  | xopen (e : LReg) (lit : BitVec 32)  -- XOPEN (R412)
  | xstep (last : Bool) (lit : BitVec 32) (push : LPush)  -- XSTEP (R413)
  | lset (k : Fin 8) (f : BitVec 23)  -- LSET (R346)
  | ltemp (k : Fin 8)  -- LTEMP (R344)
  | lbias  -- LBIAS (R344)
  | lpen (k : Fin 8)  -- LPEN (R344)
  | lmask (inv : Bool)  -- LMASK (R345)
  | lcap (k : Fin 8)  -- LCAP (R344)
  | ltopk (n : BitVec 23)  -- LTOPK (R344)
  | ltopp (k : Fin 8)  -- LTOPP (R281)
  | lminp (k : Fin 8)  -- LMINP (R281)
  | lsoft  -- LSOFT (R280)
  | ldraw  -- LDRAW (R282)
  | ldrawGreedy  -- LDRAW_GREEDY (R282)
  | lcnt  -- LCNT (R283)
  | lstop  -- LSTOP (R346)
  | entryArm (d e t : Nat) (ctl : Word)  -- ENTRY_ARM (R31)
  | entryDisarm (d e t : Nat) (ctl : Word)  -- ENTRY_DISARM (R31)
  | entryDue (d e : Nat)  -- ENTRY_DUE (R32)
  | launchStart (d e : Nat)  -- LAUNCH_START (R34)
  | loadResume (d e : Nat)  -- LOAD_RESUME (R35)
  | loadComplete (d e : Nat)  -- LOAD_COMPLETE (R36)
  | launchFirstIssue (d slot : Nat)  -- LAUNCH_FIRST_ISSUE (R34)
  | loadLate (d e : Nat)  -- LOAD_LATE (R32)
  | coreRetire (d c : Nat)  -- CORE_RETIRE (R52)
  | barRelease (d slot : Nat)  -- BAR_RELEASE (R42)
  | barDeadline (d slot : Nat)  -- BAR_DEADLINE (R42)
  | cbarRelease (d c : Nat)  -- CBAR_RELEASE (R50)
  | steptickDeadline (d c k : Nat)  -- STEPTICK_DEADLINE (R47)
  | waittTarget (d c k : Nat)  -- WAITT_TARGET (R403)
  | vflagLand (d c k : Nat)  -- VFLAG_LAND (R111)
  | operandQueueFill (d c q : Nat)  -- OPERAND_QUEUE_FILL (R398)
  | sparkPopGrant (d c ch : Nat)  -- SPARK_POP_GRANT (R228)
  | heldPushRetry (d c ch : Nat)  -- HELD_PUSH_RETRY (R228)
  | engineFault (d c k : Nat)  -- ENGINE_FAULT (R290)
  | preemptHalt (d slot : Nat)  -- PREEMPT_HALT (R294)
  | contextSave (d slot : Nat)  -- CONTEXT_SAVE (R296)
  | saveComplete (d slot : Nat)  -- SAVE_COMPLETE (R296)
  | resume (d slot : Nat)  -- RESUME (R297)
  | leaseGrant (d m : Nat)  -- LEASE_GRANT (R157)
  | tenureEnd (d m : Nat)  -- TENURE_END (R157)
  | arrayCommandStart (d c : Nat)  -- ARRAY_COMMAND_START (R155)
  | arrayCommandComplete (d c id : Nat)  -- ARRAY_COMMAND_COMPLETE (R156)
  | fetchStageComplete (d c : Nat)  -- FETCH_STAGE_COMPLETE (R164)
  | copyStart (d c : Nat)  -- COPY_START (R190)
  | copyChunk (d c : Nat)  -- COPY_CHUNK (R331)
  | copyRetry (d c : Nat)  -- COPY_RETRY (R193)
  | copyComplete (d c : Nat)  -- COPY_COMPLETE (R334)
  | tlbiqComplete (d c id : Nat)  -- TLBIQ_COMPLETE (R197)
  | tlbiWatchdog (d c id : Nat)  -- TLBI_WATCHDOG (R198)
  | brandChange (d c : Nat)  -- BRAND_CHANGE (R206)
  | brandMessage (n : Nat)  -- BRAND_MESSAGE (R212)
  | brandReply (n : Nat)  -- BRAND_REPLY (R212)
  | atomicIntervalClose (d slot : Nat)  -- ATOMIC_INTERVAL_CLOSE (R233)
  | atomicBatch (d n : Nat)  -- ATOMIC_BATCH (R233)
  | sbindExecute (d : Nat)  -- SBIND_EXECUTE (R274)
  | sbindComplete (d : Nat)  -- SBIND_COMPLETE (R285)
  | smplStart (d : Nat)  -- SMPL_START (R277)
  | sequenceRun (d : Nat)  -- SEQUENCE_RUN (R279)
  | smplComplete (d : Nat)  -- SMPL_COMPLETE (R279)
  | neighbourArrival (d c : Nat)  -- NEIGHBOUR_ARRIVAL (R364)
  | collStart (d c : Nat)  -- COLL_START (R328)
  | collAdmission (d c : Nat)  -- COLL_ADMISSION (R257)
  | collComplete (d c id : Nat)  -- COLL_COMPLETE (R261)
  | linkArm (d p t : Nat)  -- LINK_ARM (R248)
  | linkDisarm (d p t : Nat)  -- LINK_DISARM (R248)
  | linkEngineStart (d p : Nat)  -- LINK_ENGINE_START (R249)
  | flitDelivery (d p : Nat)  -- FLIT_DELIVERY (R252)
  | landingBufferExpiry (d p : Nat)  -- LANDING_BUFFER_EXPIRY (R252)
  | receiveDeadline (d p : Nat)  -- RECEIVE_DEADLINE (R410)
  | guardOverdue (d p : Nat)  -- GUARD_OVERDUE (R246)
  | openFlitArrival (n : Nat)  -- OPEN_FLIT_ARRIVAL (R254)
  | idleGuard (d p : Nat)  -- IDLE_GUARD (R241)
  | timeExchange (d : Nat) (t1 t2 t3 t4 : Int)  -- TIME_EXCHANGE (R239)
  | slew (d : Nat)  -- SLEW (R239)
  | podFormation (cfg : PodCfg)  -- POD_FORMATION (R241)
  | portFailure (d p : Nat)  -- PORT_FAILURE (R243)
  | abortFlit (d p : Nat)  -- ABORT_FLIT (R263)
  | writeWithImmediate (d port t : Nat) (addr : Word) (data : List (BitVec 8)) (imm : W32)  -- WRITE_WITH_IMMEDIATE (R302)
  | rdmaWrite (d port t : Nat) (addr : Word) (data : List (BitVec 8))  -- RDMA_WRITE (R301)
  | rdmaRead (d port t : Nat) (addr : Word) (len : Nat)  -- RDMA_READ (R301)
  | tenantConfigure (d t : Nat) (cfg : TenantCfg)  -- TENANT_CONFIGURE (R299)
  | tenantRemove (d t : Nat)  -- TENANT_REMOVE (R299)
  | attestation (d : Nat) (nonce : List (BitVec 8))  -- ATTESTATION (R307)
  | errorInjection (d t c : Nat) (kind : InjectKind)  -- ERROR_INJECTION (R308)
  | errorLogRead (d first count : Nat)  -- ERROR_LOG_READ (R306)
  | telemetryRead (d : Nat)  -- TELEMETRY_READ (R309)
  | firmwareBoot (d : Nat) (mgmt engine : FwImage)  -- FIRMWARE_BOOT (R307)
  | throttleStep (d island eighths : Nat)  -- THROTTLE_STEP (R55)
  | thermalProtection (d island : Nat)  -- THERMAL_PROTECTION (R56)
  | dieReset (d : Nat) (failed : Bool)  -- DIE_RESET (R27)
  | illegalOp  -- ILLEGAL_OP (R89)
  | fetchInvalid  -- FETCH_INVALID (R60)
  | portRestore (d p : Nat)  -- PORT_RESTORE (R243)
  deriving DecidableEq, Repr

end Sys2Proof
end

