-- ==== Sys2Proof/Config.lean ====
section
/-!
DEFINITION. What one part of the machine fixes and the spec leaves open: free values, opaque constants of which no value can be
proved. Each is applied to the counter that the step reads and advances, or to what it depends on (log entry 4).
-/
namespace Sys2Proof.Config

/-- A physical capability value or a sensor reading, by die, entry and draw (R305, R309; log entry 4). -/
opaque sensor : Nat → Nat → Nat → Word

/-- The private operation of a die's identity key on a report digest (R307; log entry 5). -/
opaque identitySign : Nat → List Byte → Nat

/-- The fused SHA-256 digest of the vendor root public key (R307; log entry 5). -/
opaque vendorRootDigest : List Byte

/-- The byte layout of an attestation report before it is signed, given its parts (R307; log entry 5). -/
opaque reportLayout : List (List Byte) → List Byte

/-- The byte layout under which a tenant's configuration is hashed for a report (R307; log entry 5). -/
opaque configLayout : TenantCfg → List Byte

/-- The IEEE 1588 time of a die at a pod tick: seconds and nanoseconds (R306; log entry 6). -/
opaque ptpTime : Nat → Nat → Nat × Nat

/-- The 16 stochastic bits of an element that a link engine rounds in mode 5, for which no draw base is stated, by draw and element
(R259, R411; log entry 14). -/
opaque linkBits : Nat → Nat → BitVec 16

/-- The bytes of a port's collective area, whose layout the spec does not give, by offset and count of admitted sections
(R247; log entry 15). -/
opaque sectionByte : Nat → Nat → Byte

/-- The CAUSE byte of the error record of a refused configuration, for which no code is stated (R299, R306; log entry 23). -/
opaque refusedCause : Nat

/-- The bytes of a part of a save record whose contents the spec gives and whose inner layout it does not, from the part's number and its
contents (R296; log entry 21). -/
opaque saveLayout {α : Type} : Nat → α → List Byte

/-- The 20 bytes of cause-specific detail of an error record whose layout the spec does not give (R306; log entry 7). -/
opaque errorDetail : Nat → List Byte

/-- The 20 bytes of detail of the error record of an injection: its kind, its core and its operands, in a layout that the spec does not
give (R308; log entry 7). -/
opaque injectionDetail : Nat → Nat → List Nat → List Byte

/-- Which of the codes of R288 an abort has that a time fault or a port failure starts, for which R288 states none (R263, R288; log
entry 48). -/
opaque abortCode : Nat → Nat

/-- Does the CRC of a flit fail on arrival: what the line does to it, by draw (R243; log entry 61). -/
opaque lineError : Nat → Bool

/-- Bytes that a collective section takes in a port's collective area, by its hops (R247, R257; log entry 15). -/
opaque sectionBytes : Nat → Nat

/-- A length of time that the spec only bounds from above, by draw and bound (R36, R199, R294; log entry 29). -/
opaque latency : Nat → Nat → Nat

/-- Whether a die's reference clock has gained a tick on pod time, lost one, or neither, in each 100,000 nominal ticks, by die and number of
the stretch (R240; log entry 66). -/
opaque drift : Nat → Nat → Nat

end Sys2Proof.Config
end

