-- ==== Sys2Proof/Machine/Bits.lean ====
section
/-!
DEFINITION. Bits and bytes: byte order, bit streams (R130), the CRC-32C of R44, the Philox generator of R54, the SHA-256 of
R37 and R307, and the residues of R105. Every function here is over Nat or BitVec and recurses on a list or on a count.
-/
namespace Sys2Proof.Machine

/-- A two's complement number of n bits (R73). -/
def signedOf (bits n : Nat) : Int :=
  let m := n % 2 ^ bits
  if m < 2 ^ (bits - 1) then (m : Int) else (m : Int) - (2 ^ bits : Nat)

/-- An integer reduced modulo 2^64 (R6). -/
def wrap64 (i : Int) : Word := BitVec.ofInt 64 i

/-- An integer reduced modulo 2^32 (R6). -/
def wrap32 (i : Int) : W32 := BitVec.ofInt 32 i

/-- Sign extension of an immediate or literal to an exact integer (R73). -/
def sext {n : Nat} (b : BitVec n) : Int := b.toInt

/-- The low half of a register. -/
def low32 (w : Word) : W32 := w.setWidth 32

/-- The high half of a register. -/
def high32 (w : Word) : W32 := (w >>> 32).setWidth 32

/-- A word from its halves, the high half first. -/
def join32 (hi lo : W32) : Word := hi ++ lo

/-- Number of 1 bits among the low bits of n. -/
def popcount : Nat → Nat → Nat
  | 0, _ => 0
  | k + 1, n => n % 2 + popcount k (n / 2)

/-- Little-endian bytes of n, count of them given first. -/
def leBytes : Nat → Nat → List Byte
  | 0, _ => []
  | k + 1, n => BitVec.ofNat 8 n :: leBytes k (n / 256)

/-- The number of little-endian bytes. -/
def ofLeBytes : List Byte → Nat
  | [] => 0
  | b :: bs => b.toNat + 256 * ofLeBytes bs

/-- Element i of W-bit elements packed as a little-endian bit stream (R130). -/
def packedAt (stream w i : Nat) : Nat := stream / 2 ^ (w * i) % 2 ^ w

/-- The stream of elements of w bits, the first lowest (R130). -/
def packAll (w : Nat) : List Nat → Nat
  | [] => 0
  | c :: cs => c % 2 ^ w + 2 ^ w * packAll w cs

/-- The first n elements of a stream (R130). -/
def unpackAll (w : Nat) : Nat → Nat → List Nat
  | 0, _ => []
  | n + 1, stream => stream % 2 ^ w :: unpackAll w n (stream / 2 ^ w)

/-- Bytes of a byte list from an offset. -/
def slice {α : Type} (l : List α) (off len : Nat) : List α := (l.drop off).take len

/-- Cut a list into pieces of n, count of pieces first. -/
def chunks {α : Type} (n : Nat) : Nat → List α → List (List α)
  | 0, _ => []
  | k + 1, l => l.take n :: chunks n k (l.drop n)

/-! CRC-32C (R44). -/

/-- One bit of the reflected CRC. -/
def crcBit (c : W32) : W32 := if c.getLsbD 0 then (c >>> 1) ^^^ 0x82F63B78#32 else c >>> 1

/-- n bits. -/
def crcBits : Nat → W32 → W32
  | 0, c => c
  | n + 1, c => crcBits n (crcBit c)

/-- One byte enters the CRC state. -/
def crcByte (c : W32) (b : Byte) : W32 := crcBits 8 (c ^^^ b.setWidth 32)

/-- CrcUpdate of R332: bytes in ascending order. -/
def crcUpdate (c : W32) (bs : List Byte) : W32 := bs.foldl crcByte c

/-- A 32-bit instruction word enters the running signature, its bytes little-endian (R44). -/
def crcWord (c : W32) (w : Nat) : W32 := crcUpdate c (leBytes 4 w)

/-! Philox4x32_10 (R54). -/

/-- The four words of a counter or of a result. -/
structure Quad where
  a : W32
  b : W32
  c : W32
  d : W32
  deriving DecidableEq, Repr

/-- Word i of four. -/
def Quad.at (q : Quad) (i : Nat) : W32 :=
  match i % 4 with
  | 0 => q.a | 1 => q.b | 2 => q.c | _ => q.d

/-- One round (R54). -/
def philoxRound (k0 k1 : W32) (c : Quad) : Quad :=
  let p0 : Word := 0xD2511F53#64 * c.a.setWidth 64
  let p1 : Word := 0xCD9E8D57#64 * c.c.setWidth 64
  { a := high32 p1 ^^^ c.b ^^^ k0, b := low32 p1, c := high32 p0 ^^^ c.d ^^^ k1, d := low32 p0 }

/-- n rounds with the key schedule (R54). -/
def philoxRounds : Nat → W32 → W32 → Quad → Quad
  | 0, _, _, c => c
  | n + 1, k0, k1, c => philoxRounds n (k0 + 0x9E3779B9#32) (k1 + 0xBB67AE85#32) (philoxRound k0 k1 c)

/-- Philox4x32_10 under a 64-bit key (R54). -/
def philox (key : Word) (c : Quad) : Quad := philoxRounds 10 (low32 key) (high32 key) c

/-- The draw named by counter n, stream and domain under a key (R54, R138, R282, R284). -/
def philoxDraw (key n : Word) (stream domain : W32) : Quad :=
  philox key { a := low32 n, b := high32 n, c := stream, d := domain }

/-! SHA-256 (R37, R236, R307), of the published standard. Its constants are the first 32 fraction bits of roots of the first primes. -/

/-- The first 64 primes. -/
def smallPrimes : List Nat :=
  [2, 3, 5, 7, 11, 13, 17, 19, 23, 29, 31, 37, 41, 43, 47, 53, 59, 61, 67, 71, 73, 79, 83, 89,
   97, 101, 103, 107, 109, 113, 127, 131, 137, 139, 149, 151, 157, 163, 167, 173, 179, 181, 191, 193, 197, 199, 211, 223,
   227, 229, 233, 239, 241, 251, 257, 263, 269, 271, 277, 281, 283, 293, 307, 311]

/-- The greatest r whose k-th power does not exceed v, its last n binary digits still open. -/
def rootDigits (k v : Nat) : Nat → Nat → Nat
  | 0, r => r
  | n + 1, r => rootDigits k v n (if (r + 2 ^ n) ^ k ≤ v then r + 2 ^ n else r)

/-- The first 32 fraction bits of the k-th root of a prime. -/
def rootFraction (k p : Nat) : W32 := BitVec.ofNat 32 (rootDigits k (p * 2 ^ (32 * k)) 35 0)

/-- Three rotations of a word, added without carry. -/
def twist (i j k : Nat) (x : W32) : W32 := x.rotateRight i ^^^ x.rotateRight j ^^^ x.rotateRight k

/-- Two rotations and a shift of a word, added without carry. -/
def smear (i j k : Nat) (x : W32) : W32 := x.rotateRight i ^^^ x.rotateRight j ^^^ x >>> k

/-- The two sequences that a compression grows, and the message words still to come; the latest word of a sequence stands first. -/
structure Sha where
  up : List W32
  low : List W32
  msg : List W32
  deriving DecidableEq, Repr

/-- The word that follows 16 message words, given oldest first. -/
def shaNext (w : List W32) : W32 := w.getD 0 0 + smear 7 18 3 (w.getD 1 0) + w.getD 9 0 + smear 17 19 10 (w.getD 14 0)

/-- One step with the constant of a prime: both sequences and the message grow by a word. -/
def Sha.step (v : Sha) (p : Nat) : Sha :=
  let choice (i : Nat) : Bool := if (v.low.getD 0 0).getLsbD i then (v.low.getD 1 0).getLsbD i else (v.low.getD 2 0).getLsbD i
  let mixed : W32 := BitVec.ofNat 32 ((List.range 32).foldl (fun n i => n + (if choice i then 2 ^ i else 0)) 0)
  let most := (v.up.getD 0 0 &&& (v.up.getD 1 0 ||| v.up.getD 2 0)) ||| (v.up.getD 1 0 &&& v.up.getD 2 0)
  let x := v.low.getD 3 0 + twist 6 11 25 (v.low.getD 0 0) + mixed + rootFraction 3 p + v.msg.getD 0 0
  { up := (x + twist 2 13 22 (v.up.getD 0 0) + most) :: v.up.take 3, low := (v.up.getD 3 0 + x) :: v.low.take 3,
    msg := v.msg.drop 1 ++ [shaNext v.msg] }

/-- Big-endian bytes as a number. -/
def ofBeBytes (bs : List Byte) : Nat := ofLeBytes bs.reverse

/-- A block of 64 bytes enters the eight chaining words. -/
def shaBlock (h : List W32) (block : List Byte) : List W32 :=
  let v := smallPrimes.foldl Sha.step
    { up := h.take 4, low := h.drop 4, msg := (chunks 4 16 block).map (fun g => BitVec.ofNat 32 (ofBeBytes g)) }
  List.zipWith (· + ·) h (v.up ++ v.low)

/-- The SHA-256 digest, 32 bytes. -/
def sha256 (m : List Byte) : List Byte :=
  let blocks := (m.length + 72) / 64
  let padded := m ++ 0x80#8 :: List.replicate (64 * blocks - m.length - 9) 0#8 ++ (leBytes 8 (m.length * 8)).reverse
  let h := (chunks 64 blocks padded).foldl shaBlock ((smallPrimes.take 8).map (rootFraction 2))
  h.flatMap (fun w => (leBytes 4 w.toNat).reverse)

/-! Residues (R105). -/

/-- The residue of a 32-bit half: its value modulo 15. -/
def residue32 (h : W32) : Nat := h.toNat % 15

end Sys2Proof.Machine
end

