-- ==== Sys2Proof/WellFormed.lean ====
section
/-!
DEFINITION. When an instruction is one that the decoder can read: the checks on fields that a type does not make by itself
(reserved values, ranges, fields that must be zero), each from the entry of the instruction. An event has no encoding.
-/
namespace Sys2Proof

/-- Valid element format codes (R71, R129, R131). -/
def EF.ok (ef : EF) : Bool :=
  if ef.val < 128 then ef.val < 10
  else
    let w := ef.val / 32 % 4
    let p := ef.val / 4 % 8
    w < 3 && (1 ≤ p && p < 8 - 2 * w)

/-- Small-float codes, EF[7] = 1 (R131). -/
def EF.isSmall (ef : EF) : Bool := 128 ≤ ef.val

/-- Width in bits of an element format (R129, R131). -/
def EF.width (ef : EF) : Nat :=
  if ef.val < 128 then
    match ef.val with
    | 0 => 32 | 1 => 16 | 2 => 16 | 3 => 32 | 4 => 32 | 5 => 16 | 6 => 16 | 7 => 8 | 8 => 8 | _ => 4
  else 8 - 2 * (ef.val / 32 % 4)

/-- P = 0 with PN = 1 is reserved (R68). -/
def PredOp.ok (p : PredOp) : Bool := p.p != 0 || !p.neg

/-- The unpredicated case (R68). -/
def PredOp.all (p : PredOp) : Bool := p.p == 0 && !p.neg

/-- C must be 0 unless the mode is 5 (R378). -/
def Rnd.ok (r : Rnd) : Bool := r.rm == .stoch || r.c == 0

/-- For TY other than f32 the rounding field must be zero (R378). -/
def Rnd.okFor (ty : VTy) (r : Rnd) : Bool := r.ok && (ty == .f32 || (r.rm == .near && !r.sat))

/-- A vector destination that is a register (QD = 0). -/
def VDest.isReg : VDest → Bool
  | .reg _ => true
  | .queue _ => false

/-- The fields shared by vector instructions are legal. -/
def VOp.ok (o : VOp) : Bool := o.pred.ok

/-- Element formats that the gather forms take (R399, R400). -/
def EF.wide (ef : EF) : Bool := ef.ok && (ef.width == 8 || ef.width == 16 || ef.width == 32)

/-- The lengths NSEND and NRECV take (R363). -/
def neighbourLen (n : BitVec 32) : Bool := n.toNat % 256 == 0 && 256 ≤ n.toNat && n.toNat ≤ 65536

/-- Does SBIND select something (R273)? -/
def BindSel.ok : BindSel → Bool
  | .parts p b c k => p || b || c || k
  | .unbind => true

/-- The checks of the decoder beyond the zero fields: reserved values and ranges, each of which raises RESERVED_FIELD. -/
def wellFormed : Instr → Bool
  | .add _ _ _ => true
  | .addi _ _ _ => true
  | .sub _ _ _ => true
  | .mul _ _ _ => true
  | .mulh _ _ _ _ => true
  | .div _ _ _ _ => true
  | .rem _ _ _ _ => true
  | .and _ _ _ => true
  | .or _ _ _ => true
  | .xor _ _ _ => true
  | .andn _ _ _ => true
  | .shlReg _ _ _ => true
  | .shlImm _ _ _ => true
  | .shrReg _ _ _ => true
  | .shrImm _ _ _ => true
  | .shaReg _ _ _ => true
  | .shaImm _ _ _ => true
  | .rotReg _ _ _ => true
  | .rotImm _ _ _ => true
  | .min _ _ _ _ => true
  | .max _ _ _ _ => true
  | .clz _ _ => true
  | .popc _ _ => true
  | .ext _ _ _ pos len => (1 ≤ len.val && len.val ≤ 64 && pos.val + len.val ≤ 64)
  | .ins _ _ pos len => (1 ≤ len.val && len.val ≤ 64 && pos.val + len.val ≤ 64)
  | .sel _ _ _ _ => true
  | .cmpReg _ _ => true
  | .cmpImm _ _ => true
  | .setc _ _ => true
  | .li _ _ _ => true
  | .mov _ _ => true
  | .adr _ _ => true
  | .b _ => true
  | .bLong lit => lit.toNat % 4 == 0
  | .bc _ _ => true
  | .brz _ _ _ => true
  | .call _ => true
  | .callLong lit => lit.toNat % 4 == 0
  | .callxReg _ => true
  | .callxImm _ => true
  | .jx _ _ => true
  | .loop _ _ a _ => a != 0
  | .exit => true
  | .ld _ _ _ _ => true
  | .st _ _ _ _ => true
  | .rds _ _ => true
  | .wrs _ _ => true
  | .wrsImfree _ => true
  | .wrsWindow _ _ => true
  | .wrsPbase _ => true
  | .spush _ => true
  | .spop _ => true
  | .qfence _ => true
  | .nsend _ _ len _ => neighbourLen len
  | .nrecv _ _ len _ => neighbourLen len
  | .vadd ty o _ r => o.ok && r.okFor ty
  | .vsub ty o _ r => o.ok && r.okFor ty
  | .vmul ty o _ r => o.ok && r.okFor ty
  | .vfma ty o _ r => o.ok && o.d.isReg && r.okFor ty
  | .vfnma ty o _ r => o.ok && o.d.isReg && r.okFor ty
  | .vmin _ o _ => o.ok
  | .vmax _ o _ => o.ok
  | .vabs ty o => o.ok && ty != .n32
  | .vneg ty o => o.ok && ty != .n32
  | .vrcps o => o.ok
  | .vrsqs o => o.ok
  | .vexp2 o => o.ok
  | .vlog2 o => o.ok
  | .vand o _ => o.ok
  | .vor o _ => o.ok
  | .vxor o _ => o.ok
  | .vshl ty o _ => o.ok && ty != .f32
  | .vshr ty o _ => o.ok && ty != .f32
  | .vcmp ty cc _ _ _ _ pred => pred.ok && (ty == .f32 || cc != .uo)
  | .vsel o _ _ => o.ok
  | .vmov o => o.ok
  | .vbcs _ _ _ pred => pred.ok
  | .viota ty _ _ _ _ _ pred => pred.ok && ty != .f32
  | .vcvt ef _ o r => ef.ok && o.ok && r.ok
  | .vquant ef _ _ e _ rm _ _ => ef.ok && ef.isSmall && (rm == .stoch || e == 0)
  | .vdeq ef _ _ _ _ pred _ => ef.ok && ef.isSmall && pred.ok
  | .vrotr o _ _ => o.ok
  | .vrotc o _ _ => o.ok
  | .vbcr o _ _ => o.ok
  | .vbcc o _ _ => o.ok
  | .vredr _ _ o => o.ok && !o.zm
  | .vredc _ _ o => o.ok && !o.zm
  | .vsegr _ _ o _ => o.ok && !o.zm
  | .vflag _ pred => pred.ok
  | .vld ef _ _ _ _ _ pred _ => ef.ok && pred.ok
  | .vst ef _ _ _ _ _ pred _ => ef.ok && pred.ok
  | .vldq ef _ _ _ _ _ => ef.ok
  | .vstq ef _ _ _ _ _ _ => ef.ok
  | .vgath ef _ _ _ _ _ _ pred _ => ef.wide && pred.ok
  | .vscat ef _ _ _ _ _ _ pred _ => ef.wide && pred.ok
  | .vrag ef _ _ _ _ _ pred _ => ef.wide && pred.ok
  | .vrng _ _ _ _ pred _ => pred.ok
  | .plog _ _ _ _ => true
  | .pset _ _ _ _ _ pred => pred.ok
  | .mlease => true
  | .mfree => true
  | .mfmt _ => true
  | .mldw _ _ _ => true
  | .mswap => true
  | .mstrm _ _ m row0 _ => (1 ≤ m.val && row0.val + m.val ≤ 128)
  | .mdrain opt _ _ e g _ m row0 _ => (1 ≤ m.val && row0.val + m.val ≤ 128) && (e == 0 || opt.bias || opt.csc) && (g == 0 || opt.act) && (!opt.csc || opt.req)
  | .mchk _ _ => true
  | .cpy _ _ _ _ _ => true
  | .cpys _ _ _ _ _ => true
  | .cpycs _ last _ _ _ _ g _ _ => last || g == 0
  | .coll _ _ _ => true
  | .cwait _ _ => true
  | .smpl _ _ _ _ n _ => (1 ≤ n.val && n.val ≤ 2048)
  | .sbind sel _ _ _ => sel.ok
  | .bclaim _ _ lsize _ => (8 ≤ lsize.val && lsize.val ≤ 40)
  | .bfree _ _ _ => true
  | .blend _ _ _ _ => true
  | .bret _ _ _ => true
  | .bxfer _ _ _ _ => true
  | .bsplit _ _ _ => true
  | .bjoin _ _ _ _ => true
  | .bshare _ _ _ _ => true
  | .bshareAtomic _ _ _ => true
  | .bunsh _ _ _ => true
  | .bquery _ _ _ => true
  | .slotrd _ _ _ _ => true
  | .slotsw _ _ _ => true
  | .bar _ _ _ => true
  | .cbar => true
  | .waittReg _ => true
  | .waittImm _ _ => true
  | .segend _ _ _ => true
  | .atom op ty _ _ _ _ _ => (match op with | .and | .or | .xor => ty != .f32 | .add | .min | .max | .xchg => true)
  | .afence => true
  | .rsv _ _ _ _ _ _ => true
  | .place _ _ _ => true
  | .trap _ => true
  | .eret => true
  | .sysc _ => true
  | .tlbiq all a b _ => !all || (a == 0 && b == 0)
  | .capr _ _ _ => true
  | .xsend _ _ _ _ _ _ _ => true
  | .xrecv _ _ _ _ _ _ => true
  | .xfwd _ _ _ _ _ => true
  | .xred _ fin _ _ _ g _ _ => fin || g == 0
  | .xguard len _ => 16 ≤ len.val
  | .xopen _ _ => true
  | .xstep _ _ _ => true
  | .lset _ _ => true
  | .ltemp _ => true
  | .lbias => true
  | .lpen k => k.val ≤ 5
  | .lmask _ => true
  | .lcap _ => true
  | .ltopk n => (1 ≤ n.toNat && n.toNat ≤ 1048576)
  | .ltopp _ => true
  | .lminp _ => true
  | .lsoft => true
  | .ldraw => true
  | .ldrawGreedy => true
  | .lcnt => true
  | .lstop => true
  | .entryArm _ _ _ _ => true
  | .entryDisarm _ _ _ _ => true
  | .entryDue _ _ => true
  | .launchStart _ _ => true
  | .loadResume _ _ => true
  | .loadComplete _ _ => true
  | .launchFirstIssue _ _ => true
  | .loadLate _ _ => true
  | .coreRetire _ _ => true
  | .barRelease _ _ => true
  | .barDeadline _ _ => true
  | .cbarRelease _ _ => true
  | .steptickDeadline _ _ _ => true
  | .waittTarget _ _ _ => true
  | .vflagLand _ _ _ => true
  | .operandQueueFill _ _ _ => true
  | .sparkPopGrant _ _ _ => true
  | .heldPushRetry _ _ _ => true
  | .engineFault _ _ _ => true
  | .preemptHalt _ _ => true
  | .contextSave _ _ => true
  | .saveComplete _ _ => true
  | .resume _ _ => true
  | .leaseGrant _ _ => true
  | .tenureEnd _ _ => true
  | .arrayCommandStart _ _ => true
  | .arrayCommandComplete _ _ _ => true
  | .fetchStageComplete _ _ => true
  | .copyStart _ _ => true
  | .copyChunk _ _ => true
  | .copyRetry _ _ => true
  | .copyComplete _ _ => true
  | .tlbiqComplete _ _ _ => true
  | .tlbiWatchdog _ _ _ => true
  | .brandChange _ _ => true
  | .brandMessage _ => true
  | .brandReply _ => true
  | .atomicIntervalClose _ _ => true
  | .atomicBatch _ _ => true
  | .sbindExecute _ => true
  | .sbindComplete _ => true
  | .smplStart _ => true
  | .sequenceRun _ => true
  | .smplComplete _ => true
  | .neighbourArrival _ _ => true
  | .collStart _ _ => true
  | .collAdmission _ _ => true
  | .collComplete _ _ _ => true
  | .linkArm _ _ _ => true
  | .linkDisarm _ _ _ => true
  | .linkEngineStart _ _ => true
  | .flitDelivery _ _ => true
  | .landingBufferExpiry _ _ => true
  | .receiveDeadline _ _ => true
  | .guardOverdue _ _ => true
  | .openFlitArrival _ => true
  | .idleGuard _ _ => true
  | .timeExchange _ _ _ _ _ => true
  | .slew _ => true
  | .podFormation _ => true
  | .portFailure _ _ => true
  | .abortFlit _ _ => true
  | .writeWithImmediate _ _ _ _ _ _ => true
  | .rdmaWrite _ _ _ _ _ => true
  | .rdmaRead _ _ _ _ _ => true
  | .tenantConfigure _ _ _ => true
  | .tenantRemove _ _ => true
  | .attestation _ _ => true
  | .errorInjection _ _ _ _ => true
  | .errorLogRead _ _ _ => true
  | .telemetryRead _ => true
  | .firmwareBoot _ _ _ => true
  | .throttleStep _ _ _ => true
  | .thermalProtection _ _ => true
  | .dieReset _ _ => true
  | .illegalOp => true
  | .fetchInvalid => true
  | .portRestore _ _ => true

end Sys2Proof
end

