-- ==== Sys2Proof/Machine/Num.lean ====
section
/-!
DEFINITION. Numbers: element formats and their exact values (R129 to R135), the one rounding of R137 with its modes and its
status bits, the exact quotient of R432, f32 arithmetic (R139, R140), the summation orders of R148 to R151, block scales and
segment records (R142 to R147). An exact value is sign, numerator, denominator and a power of two.
-/
namespace Sys2Proof.Machine

/-- The sticky bits of %status (R108). -/
abbrev Status := BitVec 7
/-- NONDET, bit 0. -/
def stNondet : Status := 1
/-- XRACE, bit 1. -/
def stXrace : Status := 2
/-- RNG_UNRESERVED, bit 2. -/
def stRng : Status := 4
/-- CHECK_VOID, bit 3. -/
def stVoid : Status := 8
/-- INVALID, bit 4. -/
def stInvalid : Status := 16
/-- OVERFLOW, bit 5. -/
def stOverflow : Status := 32
/-- INEXACT, bit 6. -/
def stInexact : Status := 64

/-- A status bit set under a condition. -/
def stIf (c : Bool) (s : Status) : Status := if c then s else 0

/-- An exact value: NaN, an infinity, or (-1)^neg * n / d * 2^e with d > 0; zero keeps its sign (R137). -/
inductive XVal where
  | nan
  | inf (neg : Bool)
  | num (neg : Bool) (n d : Nat) (e : Int)
  deriving DecidableEq, Repr

/-- A floating format: precision, bias, largest finite magnitude code, infinity's magnitude code, NaN code (R129 to R132). -/
structure Flt where
  width : Nat
  prec : Nat
  bias : Nat
  maxIdx : Nat
  hasInf : Bool
  unsign : Bool
  small : Bool
  nan : Nat
  deriving DecidableEq, Repr

/-- The kinds of element format: floating, or an integer with its sign and width. -/
inductive EKind where
  | flt (f : Flt)
  | int (signed : Bool) (bits : Nat)
  deriving DecidableEq, Repr

/-- f32 (R129, R139). -/
def fltF32 : Flt :=
  { width := 32, prec := 24, bias := 127, maxIdx := 0x7F7FFFFF, hasInf := true, unsign := false, small := false,
    nan := 0x7FC00000 }
/-- bf16. -/
def fltBf16 : Flt :=
  { width := 16, prec := 8, bias := 127, maxIdx := 0x7F7F, hasInf := true, unsign := false, small := false, nan := 0x7FC0 }
/-- f16. -/
def fltF16 : Flt :=
  { width := 16, prec := 11, bias := 15, maxIdx := 0x7BFF, hasInf := true, unsign := false, small := false, nan := 0x7E00 }
/-- A member of the small-float family (R131, R132). -/
def fltSmall (k p : Nat) (u x : Bool) : Flt :=
  if u then
    { width := k, prec := p, bias := 2 ^ (k - p), maxIdx := 2 ^ k - 2 - (if x then 1 else 0), hasInf := x, unsign := true,
      small := true, nan := 2 ^ k - 1 }
  else
    { width := k, prec := p, bias := 2 ^ (k - p - 1), maxIdx := 2 ^ (k - 1) - 1 - (if x then 1 else 0), hasInf := x,
      unsign := false, small := true, nan := 2 ^ (k - 1) }

/-- The kind of a valid format code (R129, R131). -/
def efKind (ef : EF) : EKind :=
  if ef.val < 128 then
    match ef.val with
    | 0 => .flt fltF32 | 1 => .flt fltBf16 | 2 => .flt fltF16
    | 3 => .int true 32 | 4 => .int false 32 | 5 => .int true 16 | 6 => .int false 16
    | 7 => .int true 8 | 8 => .int false 8 | _ => .int true 4
  else .flt (fltSmall (8 - 2 * (ef.val / 32 % 4)) (ef.val / 4 % 8) (ef.val / 2 % 2 == 1) (ef.val % 2 == 1))

/-- The exponent of the format's least quantum: 1 - bias - (P - 1). -/
def Flt.qmin (f : Flt) : Int := 2 - (f.bias : Int) - (f.prec : Int)

/-- The value of magnitude code k: the subnormal points and then the binades (R132). -/
def Flt.ofIdx (f : Flt) (neg : Bool) (k : Nat) : XVal :=
  let t := 2 ^ (f.prec - 1)
  if k < t then .num neg k 1 f.qmin else .num neg (t + k % t) 1 (f.qmin + ((k / t : Nat) : Int) - 1)

/-- Decode of R132, and of the IEEE formats (R129). -/
def Flt.decode (f : Flt) (c : Nat) : XVal :=
  if f.unsign then
    if c = f.nan then .nan else if f.maxIdx < c then .inf false else f.ofIdx false c
  else
    let neg := c / 2 ^ (f.width - 1) % 2 == 1
    let m := c % 2 ^ (f.width - 1)
    if f.small then
      if c = f.nan then .nan else if f.maxIdx < m then .inf neg else f.ofIdx neg m
    else if m ≤ f.maxIdx then f.ofIdx neg m
    else if m = f.maxIdx + 1 then .inf neg else .nan

/-- The code of a magnitude with its sign. -/
def Flt.code (f : Flt) (neg : Bool) (k : Nat) : Nat := if neg && !f.unsign then 2 ^ (f.width - 1) + k else k

/-- The exact value of a code of a format (R130, R132). -/
def efValue (ef : EF) (c : Nat) : XVal :=
  match efKind ef with
  | .flt f => f.decode (c % 2 ^ f.width)
  | .int true w => let v := signedOf w c; .num (v < 0) v.natAbs 1 0
  | .int false w => .num false (c % 2 ^ w) 1 0

/-- floor of the base-2 logarithm of n / d, both positive. -/
def ratLog2 (n d : Nat) : Int :=
  let l : Int := (Nat.log2 n : Int) - (Nat.log2 d : Int)
  if n * 2 ^ (-l).toNat < d * 2 ^ l.toNat then l - 1 else l

/-- Where n / d * 2^e stands between two magnitude codes: the lower code, and the remainder over its denominator. -/
def Flt.locate (f : Flt) (n d : Nat) (e : Int) : Nat × Nat × Nat :=
  if n = 0 then (0, 0, 1)
  else
    let t := f.prec - 1
    let q := max f.qmin (ratLog2 n d + e - (t : Int))
    let nn := n * 2 ^ (e - q).toNat
    let dd := d * 2 ^ (q - e).toNat
    ((q - f.qmin).toNat * 2 ^ t + nn / dd, nn % dd, dd)

/-- Does the magnitude round up from its lower grid point k, with remainder r of d, in a mode (R136, R138)? -/
def roundsUp (m : RMode) (neg : Bool) (sr k r d : Nat) : Bool :=
  if r = 0 then false
  else
    match m with
    | .near => d < 2 * r || (2 * r == d && k % 2 == 1)
    | .zero => false
    | .down => neg
    | .up => !neg
    | .away => d ≤ 2 * r
    | .stoch => if neg then !(sr < 65536 * (d - r) / d) else sr < 65536 * r / d

/-- Round to a floating format: code and status bits (R137). -/
def Flt.round (f : Flt) (m : RMode) (sat : Bool) (sr : Nat) : XVal → Nat × Status
  | .nan => (f.nan, 0)
  | .inf neg =>
    if f.unsign && neg then (if sat then (0, stOverflow ||| stInexact) else (f.nan, stInvalid))
    else if f.hasInf then (f.code neg (f.maxIdx + 1), 0)
    else if sat then (f.code neg f.maxIdx, stInexact)
    else (f.nan, stInvalid)
  | .num neg n d e =>
    let (k, r, dd) := f.locate n d e
    let kk := if roundsUp m neg sr k r dd then k + 1 else k
    if f.unsign && neg && kk != 0 then (if sat then (0, stOverflow ||| stInexact) else (f.nan, stInvalid))
    else if f.maxIdx < kk then
      let st := stOverflow ||| stInexact
      if sat || m == .zero || (m == .down && !neg) || (m == .up && neg) then (f.code neg f.maxIdx, st)
      else if f.hasInf then (f.code neg (f.maxIdx + 1), st)
      else (f.nan, st)
    else if kk = 0 then (if f.small then 0 else f.code neg 0, stIf (r != 0) stInexact)
    else (f.code neg kk, stIf (r != 0) stInexact)

/-- Least and greatest integer of a format (R129). -/
def intRange (signed : Bool) (bits : Nat) : Int × Int :=
  if signed then (-(2 ^ (bits - 1) : Nat), (2 ^ (bits - 1) : Nat) - 1) else (0, (2 ^ bits : Nat) - 1)

/-- Round to an integer format: the integer and the status bits (R137). -/
def roundInt (signed : Bool) (bits : Nat) (m : RMode) (sr : Nat) : XVal → Int × Status
  | .nan => (0, stInvalid)
  | .inf neg =>
    let (lo, hi) := intRange signed bits
    (if neg then lo else hi, stOverflow ||| stInexact)
  | .num neg n d e =>
    let nn := n * 2 ^ e.toNat
    let dd := d * 2 ^ (-e).toNat
    let k := nn / dd
    let kk := if roundsUp m neg sr k (nn % dd) dd then k + 1 else k
    let y : Int := if neg then -(kk : Int) else kk
    let (lo, hi) := intRange signed bits
    if y < lo then (lo, stOverflow ||| stInexact)
    else if hi < y then (hi, stOverflow ||| stInexact)
    else (y, stIf (nn % dd != 0) stInexact)

/-- Round(x, ef, mode, sat): the code of the result in ef and the status bits (R137). -/
def roundTo (ef : EF) (m : RMode) (sat : Bool) (sr : Nat) (x : XVal) : Nat × Status :=
  match efKind ef with
  | .flt f => f.round m sat sr x
  | .int s w => let (y, st) := roundInt s w m sr x; ((BitVec.ofInt w y).toNat, st)

/-- Round to f32. -/
def round32 (m : RMode) (sat : Bool) (sr : Nat) (x : XVal) : W32 × Status :=
  let (c, st) := fltF32.round m sat sr x
  (BitVec.ofNat 32 c, st)

/-- Round to f32 in mode 0. -/
def near32 (x : XVal) : W32 × Status := round32 .near false 0 x

/-- The canonical f32 NaN (R139). -/
def nan32 : W32 := 0x7FC00000#32

/-- The value of an f32 container. -/
def f32v (w : W32) : XVal := fltF32.decode w.toNat

/-- A code widened into a container: f32, or the integer extended (R130, R135). -/
def widen (ef : EF) (c : Nat) : W32 :=
  match efKind ef with
  | .flt _ => (near32 (efValue ef c)).1
  | .int true w => BitVec.ofInt 32 (signedOf w c)
  | .int false w => BitVec.ofNat 32 (c % 2 ^ w)

/-- The exact value of a container under TY (R383, R396). -/
def tyValue : VTy → W32 → XVal
  | .f32, w => f32v w
  | .i32, w => .num (w.toInt < 0) w.toInt.natAbs 1 0
  | .n32, w => .num false w.toNat 1 0

/-! Exact operations. -/

/-- Is this a NaN? -/
def XVal.isNan : XVal → Bool
  | .nan => true
  | _ => false
/-- Is this an infinity? -/
def XVal.isInf : XVal → Bool
  | .inf _ => true
  | _ => false
/-- Is this a zero of either sign? -/
def XVal.isZero : XVal → Bool
  | .num _ 0 _ _ => true
  | _ => false
/-- Is this finite? -/
def XVal.isFin : XVal → Bool
  | .num _ _ _ _ => true
  | _ => false
/-- The sign bit of a value. -/
def XVal.sign : XVal → Bool
  | .nan => false
  | .inf s => s
  | .num s _ _ _ => s

/-- Negation. -/
def XVal.neg : XVal → XVal
  | .nan => .nan
  | .inf s => .inf (!s)
  | .num s n d e => .num (!s) n d e

/-- Absolute value. -/
def XVal.abs : XVal → XVal
  | .nan => .nan
  | .inf _ => .inf false
  | .num _ n d e => .num false n d e

/-- An integer as an exact value. -/
def XVal.ofInt (i : Int) : XVal := .num (i < 0) i.natAbs 1 0

/-- Signed numerator over a common denominator, at exponent e0 not above e. -/
def scaledNum (s : Bool) (n : Nat) (e e0 : Int) : Int :=
  let v : Int := (n * 2 ^ (e - e0).toNat : Nat)
  if s then -v else v

/-- Exact sum; the sign of an exact zero sum is that of R140, minus under mode 2. The flag says INVALID. -/
def XVal.add (down : Bool) : XVal → XVal → XVal × Bool
  | .nan, _ => (.nan, false)
  | _, .nan => (.nan, false)
  | .inf s, .inf t => if s = t then (.inf s, false) else (.nan, true)
  | .inf s, .num _ _ _ _ => (.inf s, false)
  | .num _ _ _ _, .inf t => (.inf t, false)
  | .num s n d e, .num t m c g =>
    let e0 := min e g
    let v := scaledNum s (n * c) e e0 + scaledNum t (m * d) g e0
    if v = 0 then (.num (if n = 0 ∧ m = 0 ∧ s = t then s else down) 0 1 0, false)
    else (.num (v < 0) v.natAbs (d * c) e0, false)

/-- Exact product; the flag says INVALID, 0 times an infinity. -/
def XVal.mul : XVal → XVal → XVal × Bool
  | .nan, _ => (.nan, false)
  | _, .nan => (.nan, false)
  | .inf s, .inf t => (.inf (s != t), false)
  | .inf s, .num t m _ _ => if m = 0 then (.nan, true) else (.inf (s != t), false)
  | .num s n _ _, .inf t => if n = 0 then (.nan, true) else (.inf (s != t), false)
  | .num s n d e, .num t m c g => (.num (s != t) (n * m) (d * c) (e + g), false)

/-- The exact quotient of R432; the flag says INVALID. -/
def XVal.quot : XVal → XVal → XVal × Bool
  | .nan, _ => (.nan, false)
  | _, .nan => (.nan, false)
  | .inf _, .inf _ => (.nan, true)
  | .inf s, .num t _ _ _ => (.inf (s != t), false)
  | .num s _ _ _, .inf t => (.num (s != t) 0 1 0, false)
  | .num s n d e, .num t m c g =>
    if m = 0 then (if n = 0 then (.nan, true) else (.inf (s != t), false))
    else if n = 0 then (.num (s != t) 0 1 0, false)
    else (.num (s != t) (n * c) (d * m) (e - g), false)

/-- The order of real values; a NaN is below nothing. -/
def XVal.lt : XVal → XVal → Bool
  | .nan, _ => false
  | _, .nan => false
  | .inf s, .inf t => s && !t
  | .inf s, .num _ _ _ _ => s
  | .num _ _ _ _, .inf t => !t
  | .num s n d e, .num t m c g =>
    let e0 := min e g
    scaledNum s (n * c) e e0 < scaledNum t (m * d) g e0

/-- Equality of real values; -0 equals +0. -/
def XVal.eqv (a b : XVal) : Bool := !a.isNan && !b.isNan && !(a.lt b) && !(b.lt a)

/-- Not above. -/
def XVal.le (a b : XVal) : Bool := a.lt b || a.eqv b

/-! f32 arithmetic (R140). -/

/-- Round(a + b); a NaN operand sets no status bit (R139). -/
def sumF (m : RMode) (sat : Bool) (sr : Nat) (a b : XVal) : W32 × Status :=
  let (x, bad) := XVal.add (m == .down) a b
  let (w, st) := round32 m sat sr x
  (w, st ||| stIf bad stInvalid)

/-- Round(a * b). -/
def mulF (m : RMode) (sat : Bool) (sr : Nat) (a b : XVal) : W32 × Status :=
  let (x, bad) := XVal.mul a b
  let (w, st) := round32 m sat sr x
  (w, st ||| stIf bad stInvalid)

/-- Round(d + a * b), one rounding; 0 times an infinity sets INVALID even when d is NaN (R387). -/
def fmaF (m : RMode) (sat : Bool) (sr : Nat) (d a b : XVal) : W32 × Status :=
  let (p, bad) := XVal.mul a b
  let (x, bad2) := XVal.add (m == .down) d p
  let (w, st) := round32 m sat sr x
  (w, st ||| stIf (bad || bad2) stInvalid)

/-- Round(a / b) of the exact quotient. -/
def divF (ef : EF) (m : RMode) (sat : Bool) (sr : Nat) (a b : XVal) : Nat × Status :=
  let (x, bad) := XVal.quot a b
  let (c, st) := roundTo ef m sat sr x
  (c, st ||| stIf bad stInvalid)

/-- Is a below b in the order of VMIN and VMAX, -0 below +0 (R140)? -/
def fltBelow (a b : XVal) : Bool := a.lt b || (a.isZero && b.isZero && a.sign && !b.sign)

/-- VMIN and VMAX on f32 (R140). -/
def minF (a b : W32) : W32 :=
  if (f32v a).isNan || (f32v b).isNan then nan32 else if fltBelow (f32v b) (f32v a) then b else a
/-- The greater of two f32 containers (R140). -/
def maxF (a b : W32) : W32 :=
  if (f32v a).isNan || (f32v b).isNan then nan32 else if fltBelow (f32v a) (f32v b) then b else a

/-! Sums (R148 to R151). -/

/-- One level of the tree: neighbours are added, an odd last one is kept. -/
def pairUp : List W32 → List W32 × Status
  | a :: b :: rest =>
    let (w, st) := sumF .near false 0 (f32v a) (f32v b)
    let (ws, st') := pairUp rest
    (w :: ws, st ||| st')
  | ws => (ws, 0)

/-- Levels of the tree, a count given first. -/
def treeLevels : Nat → List W32 → List W32 × Status
  | 0, ws => (ws, 0)
  | n + 1, ws =>
    let (us, st) := pairUp ws
    let (vs, st') := treeLevels n us
    (vs, st ||| st')

/-- What special terms decide over a whole set (R151): a NaN with its INVALID, an infinity, or nothing. -/
def judgeTerms (xs : List XVal) : Option (XVal × Status) :=
  let pos := xs.any (· == .inf false)
  let neg := xs.any (· == .inf true)
  let st := stIf (pos && neg) stInvalid
  if xs.any XVal.isNan || (pos && neg) then some (.nan, st)
  else if pos then some (.inf false, 0) else if neg then some (.inf true, 0) else none

/-- Tree of R148 with the special values of R151. -/
def treeSum (ws : List W32) : W32 × Status :=
  match judgeTerms (ws.map f32v) with
  | some (x, st) => ((near32 x).1, st)
  | none =>
    let (us, st) := treeLevels (Nat.log2 ws.length + 1) ws
    (us.headD 0x80000000#32, st)

/-- The exact sum of finite values. -/
def exactSum : List XVal → XVal
  | [] => .num false 0 1 0
  | x :: xs => (XVal.add false x (exactSum xs)).1

/-- The exact sum judged by R151, rounded once (R149). -/
def exactSum32 (xs : List XVal) : W32 × Status :=
  match judgeTerms xs with
  | some (x, st) => ((near32 x).1, st)
  | none => near32 (exactSum xs)

/-! Block scales and quantisation (R142 to R145). -/

/-- Is a scale code one of R142's values? -/
def scaleOk (sc : Nat) : Bool :=
  sc < 1024 && (if sc / 4 = 0 then sc % 4 == 0 else if sc / 4 = 255 then sc % 4 == 3 else true)

/-- The value of a finite nonzero scale code (R142). -/
def scaleValue (sc : Nat) : XVal := .num false (4 + sc % 4) 1 (((sc / 4 : Nat) : Int) - 129)

/-- The largest finite value of a format. -/
def maxFinite (ef : EF) : XVal :=
  match efKind ef with
  | .flt f => f.ofIdx false f.maxIdx
  | .int s w => .ofInt (intRange s w).2

/-- The smallest code from lo up to hi at which a monotone test holds, by halving; the count bounds the halvings. -/
def leastCode (p : Nat → Bool) : Nat → Nat → Nat → Nat
  | 0, lo, _ => lo
  | k + 1, lo, hi =>
    if hi ≤ lo then lo
    else
      let mid := (lo + hi) / 2
      if p mid then leastCode p k lo mid else leastCode p k (mid + 1) hi

/-- SC of R143: the smallest finite code with a / scale not above MaxFinite. -/
def chooseScale (ef : EF) (a : XVal) : Nat :=
  leastCode (fun sc => a.le (XVal.mul (maxFinite ef) (scaleValue sc)).1) 11 4 0x3FB

/-- The greater of two nonnegative values. -/
def XVal.maxOf (a b : XVal) : XVal := if a.lt b then b else a

/-- The canonical NaN of a format (R139). -/
def efNan (ef : EF) : Nat :=
  match efKind ef with
  | .flt f => f.nan
  | .int _ _ => 0

/-- QuantBlock of R143: scale code, element codes, status; each element comes with its stochastic bits. -/
def quantBlock (ef : EF) (m : RMode) (sat : Bool) (xs : List (XVal × Nat)) : Nat × List Nat × Status :=
  if xs.any (fun x => !x.1.isFin) then
    (0x3FF, xs.map (fun _ => efNan ef), stIf (xs.any (fun x => x.1.isInf)) stOverflow)
  else
    let a := (xs.map (fun x => x.1.abs)).foldl XVal.maxOf (.num false 0 1 0)
    if a.isZero then (0, xs.map (fun _ => 0), 0)
    else
      let sc := chooseScale ef a
      let rs := xs.map (fun x => divF ef m sat x.2 x.1 (scaleValue sc))
      (sc, rs.map Prod.fst, (rs.map Prod.snd).foldl (· ||| ·) 0)

/-- The largest magnitude of a granule; none for a special granule (R145). -/
def granuleMax (g : List (XVal × Nat)) : Option XVal :=
  if g.any (fun x => !x.1.isFin) then none
  else some ((g.map (fun x => x.1.abs)).foldl XVal.maxOf (.num false 0 1 0))

/-- Within of R145. -/
def withinT (t : Nat) (g a : XVal) : Bool :=
  let p2 : XVal := .num false 1 1 t
  (g.isZero && a.isZero) ||
    (!g.isZero && !a.isZero && g.le (XVal.mul a p2).1 && a.le (XVal.mul g p2).1)

/-- Block lengths in granules, given each granule's maximum: the open block's maximum and length come first (R145). -/
def blockLens (t : Nat) : Option XVal → Nat → List (Option XVal) → List Nat
  | _, len, [] => if len = 0 then [] else [len]
  | open_, len, g :: gs =>
    if len = 0 then blockLens t g 1 gs
    else
      match open_, g with
      | some a, some b =>
        if len < 8 && withinT t b a then blockLens t (some (XVal.maxOf a b)) (len + 1) gs
        else len :: blockLens t g 1 gs
      | _, _ => len :: blockLens t g 1 gs

/-- Split a list by lengths. -/
def splitLens {α : Type} : List Nat → List α → List (List α)
  | [], _ => []
  | n :: ns, l => l.take n :: splitLens ns (l.drop n)

/-- The granule bitmap of block lengths, starting at granule g (R146). -/
def blockBitmap : Nat → List Nat → Nat
  | _, [] => 0
  | g, n :: ns => 2 ^ g + blockBitmap (g + n) ns

/-- The segment record of 256 elements: bytes and status (R145, R146). -/
def segRecord (ef : EF) (t : Nat) (m : RMode) (sat : Bool) (xs : List (XVal × Nat)) : List Byte × Status :=
  let lens := blockLens t none 0 ((chunks 8 32 xs).map granuleMax)
  let bs := (splitLens (lens.map (· * 8)) xs).map (quantBlock ef m sat)
  let header := lens.length + ef.val * 256 + t * 65536
  let codes := bs.flatMap (fun b => b.2.1)
  (leBytes 4 header ++ leBytes 4 (blockBitmap 0 lens) ++ leBytes 40 (packAll 10 (bs.map (fun b => b.1)))
      ++ leBytes (32 * ef.width) (packAll ef.width codes),
    (bs.map (fun b => b.2.2)).foldl (· ||| ·) 0)

/-- Bytes of a segment record for width K (R146). -/
def recBytes (k : Nat) : Nat := 48 + 32 * k

/-- The block number and the length run of each granule: is a block longer than 8 granules? -/
def runsOk : Nat → Nat → Nat → Bool
  | 0, _, _ => true
  | n + 1, bm, run =>
    let run' := if bm % 2 = 1 then 1 else run + 1
    run' ≤ 8 && runsOk n (bm / 2) run'

/-- The block index of each granule. -/
def granuleBlocks : Nat → Nat → Nat → List Nat
  | 0, _, _ => []
  | n + 1, bm, b =>
    let b' := if bm % 2 = 1 then b + 1 else b
    b' :: granuleBlocks n (bm / 2) b'

/-- A segment record read under the checks of R147 for an expected width: its format, and the scale code and element code of
each of its 256 elements; none where a check fails. -/
def readRecord (k : Nat) (bs : List Byte) : Option (EF × List (Nat × Nat)) :=
  let header := ofLeBytes (slice bs 0 4)
  let bm := ofLeBytes (slice bs 4 4)
  let scs := unpackAll 10 32 (ofLeBytes (slice bs 8 40))
  let ef : EF := Fin.ofNat 256 (header / 256)
  let nblk := header % 64
  if header / 64 % 4 = 0 && header / 524288 = 0 && 4 ≤ nblk && nblk ≤ 32 && popcount 32 bm == nblk && bm % 2 == 1
      && runsOk 32 bm 0 && ef.ok && ef.isSmall && ef.width == k
      && (scs.take nblk).all scaleOk && (scs.drop nblk).all (· == 0) then
    let codes := unpackAll k 256 (ofLeBytes (slice bs 48 (32 * k)))
    let blk := (granuleBlocks 32 bm 0).flatMap (fun b => List.replicate 8 (scs.getD (b - 1) 0))
    some (ef, blk.zip codes)
  else none

/-- The exact value of an element of a record: the zero scale gives +0, the NaN scale NaN (R147, R165). -/
def recordValue (ef : EF) (sc code : Nat) : XVal :=
  if sc = 0 then .num false 0 1 0 else if sc = 0x3FF then .nan else (XVal.mul (scaleValue sc) (efValue ef code)).1

/-- The lesser of two containers of a type (R140, R387). -/
def vmin (ty : VTy) (a b : W32) : W32 :=
  match ty with
  | .f32 => minF a b
  | .i32 => if b.toInt < a.toInt then b else a
  | .n32 => if b.toNat < a.toNat then b else a

/-- The greater of two containers of a type (R140, R387). -/
def vmax (ty : VTy) (a b : W32) : W32 :=
  match ty with
  | .f32 => maxF a b
  | .i32 => if a.toInt < b.toInt then b else a
  | .n32 => if a.toNat < b.toNat then b else a

end Sys2Proof.Machine
end

