-- ==== Sys2Proof/Machine/Table.lean ====
section
/-!
DEFINITION. The two containers of the state: sparse tables, in which a key that is not listed holds the value its reader
names, and byte memories, lists of cells in one canonical form (addresses strictly rising, no zero byte listed). A byte that
nothing has written reads as zero (log entry 3).
-/
namespace Sys2Proof.Machine

/-- A sparse table by number, keys rising. -/
abbrev Tab (α : Type) := List (Nat × α)

/-- The value at a key, or the value an unlisted key holds. -/
def Tab.get {α : Type} (t : Tab α) (k : Nat) (dflt : α) : α :=
  match t with
  | [] => dflt
  | (i, v) :: r => if i = k then v else Tab.get r k dflt

/-- Write a key. -/
def Tab.set {α : Type} (t : Tab α) (k : Nat) (v : α) : Tab α :=
  match t with
  | [] => [(k, v)]
  | (i, w) :: r => if i = k then (k, v) :: r else if k < i then (k, v) :: (i, w) :: r else (i, w) :: Tab.set r k v

/-- Write a key, unless it holds more. -/
def Tab.setMax (t : Tab Nat) (k n : Nat) : Tab Nat := Tab.set t k (max (Tab.get t k 0) n)

/-- Forget a key, which then holds its reader's value again. -/
def Tab.erase {α : Type} (t : Tab α) (k : Nat) : Tab α := t.filter (fun e => e.1 != k)

/-- An element takes its place in a sorted list, before those that it may stand before. -/
def insertBy {α : Type} (le : α → α → Bool) (a : α) : List α → List α
  | [] => [a]
  | b :: r => if le a b then a :: b :: r else b :: insertBy le a r

/-- A list in order; elements that may each stand before the other keep theirs. -/
def sortBy {α : Type} (le : α → α → Bool) : List α → List α
  | [] => []
  | a :: r => insertBy le a (sortBy le r)

/-- A byte memory. -/
abbrev Mem := List Host.Cell

/-- What an address that is not listed reads as (log entry 3). -/
def Mem.blank : Byte := 0#8

/-- One byte. -/
def Mem.byte (m : Mem) (a : Nat) : Byte :=
  match m with
  | [] => Mem.blank
  | (k, b) :: r => if k = a then b else Mem.byte r a

/-- n bytes from a. -/
def Mem.bytes (m : Mem) (a n : Nat) : List Byte :=
  let w : Mem := m.filter (fun c => a ≤ c.1 && c.1 < a + n)
  (List.range n).map (fun i => Mem.byte w (a + i))

/-- The cells of bytes laid from a, blanks left out. -/
def Mem.cells (a : Nat) : List Byte → Mem
  | [] => []
  | b :: bs => if b = Mem.blank then Mem.cells (a + 1) bs else (a, b) :: Mem.cells (a + 1) bs

/-- Write bytes from a. -/
def Mem.write (m : Mem) (a : Nat) (bs : List Byte) : Mem :=
  m.filter (fun c => c.1 < a) ++ Mem.cells a bs ++ m.filter (fun c => a + bs.length ≤ c.1)

/-- The canonical form: addresses strictly rising from lo, no blank listed. -/
def Mem.wfFrom (lo : Nat) : Mem → Bool
  | [] => true
  | (k, b) :: r => lo ≤ k && b != Mem.blank && Mem.wfFrom (k + 1) r

/-- The canonical form of a memory. -/
def Mem.wf (m : Mem) : Bool := Mem.wfFrom 0 m

/-- A little-endian number of n bytes. -/
def Mem.load (m : Mem) (a n : Nat) : Nat :=
  (Mem.bytes m a n).foldr (fun b acc => b.toNat + 256 * acc) 0

end Sys2Proof.Machine
end

