-- ==== Sys2Proof/Machine/State.lean ====
section
/-!
DEFINITION. The state of the machine: a pod of dies with everything the spec gives them, as plain data, and the state right
after reset. Tables are sparse: an unlisted core, register or entry holds the reset value that its reader names. The last
fields of State, agenda, actor, freeCount and steps, are the model's own (log entries 1, 4 and 66).
-/
namespace Sys2Proof.Machine

/-- Why exec stops. Safe: no step of the machine raises it, since step names the agent before it runs an instruction. -/
inductive Fault where
  /-- Raised by exec alone, when an instruction of a stream is run while no agent of that stream acts. Safe. -/
  | noActor
  deriving DecidableEq, Repr

/-- Why an instruction has no meaning. -/
inductive Refusal where
  /-- Raised by exec for an instruction of the table that is not modelled yet. Safe. -/
  | notModelled (mnemonic : String)
  deriving DecidableEq, Repr

/-- Causes of traps, records and aborts (R288), and of aborts for which R306 alone has a code: a time fault, a failed port. -/
inductive Cause where
  | illegalOp | illegalLen | reservedField | operandOverlap | windowName | fetchInvalid
  | spadBounds | queueUnderflow
  | unowned | brandState | forfeit | exitHeld
  | sparseMeta | shadowInvalid | planeTag | matrixCheck
  | copyPage | copyChecksum
  | timingLate | timingUnmatched | planConflict | launchFailed
  | segSignature | segCycles | residue
  | tlbiWatchdog | rngOverlap
  | softTrap | syscall | preempt | engineFault
  | timeFault | portFailed
  deriving DecidableEq, Repr

/-! ## Strands -/

/-- A scalar register: its value and the residue of each half, low then high (R104, R105). -/
structure SReg where
  val : Word
  lo : Nat
  hi : Nat
  deriving DecidableEq, Repr

/-- A pending VFLAG result with its remaining count of issues (R111). -/
structure PendFlag where
  left : Nat
  any : Bool
  all : Bool
  none : Bool
  cnt : Nat
  deriving DecidableEq, Repr

/-- An entry of the forwarding table: scratchpad offset and bytes (R224). -/
structure FwdEntry where
  off : Nat
  data : List Byte
  deriving DecidableEq, Repr

/-- What an instruction that has issued still waits for (R290, R336). The numbers are command numbers of the core. -/
inductive Wait where
  | none
  | bar
  | cbar
  | cwait (ids : List Nat) (n : Nat)
  | qfence (ids : List Nat)
  | waitt (target : Int)
  | afence
  | heldPush (ch : Nat)
  deriving DecidableEq, Repr

/-- A strand (R10, R11, R104 to R111). -/
structure Strand where
  regs : Tab SReg
  pc : BitVec 18
  /-- A fetch address outside instruction memory, when a transfer went there (R74, R342). -/
  far : Option Word
  args : Word
  importTab : Word
  flags : BitVec 8
  cnt : BitVec 11
  status : Status
  vrot : BitVec 4
  prot : BitVec 3
  vbase : BitVec 6
  vsize : BitVec 5
  pbase : BitVec 6
  trapvec : BitVec 18
  trapcause : BitVec 8
  trappc : BitVec 18
  trapinfo : Word
  trapsave : Word
  steptick : Word
  segCount : Nat
  segStart : Nat
  sig : W32
  void : Bool
  vflags : List PendFlag
  fwd : List FwdEntry
  wait : Wait
  /-- Held before the issue of its next instruction by a wait that %steptick bounds (R47, R290). -/
  stalled : Bool
  /-- The spark channel of a pop it waits for: all else that its instruction needs is there, or it stalls on the channel (R228). -/
  popWait : Option Nat
  /-- In this cycle the channel's pop is granted to it (R228). -/
  granted : Bool
  /-- Scalar registers that await an engine result, with the command's number (R310). -/
  await : List (Nat × Nat)
  /-- %flags awaits MCHK with this command number (R172). -/
  awaitFlags : Option Nat
  atomCount : Nat
  arrivedAtomic : Bool
  /-- Scalar registers with a delayed result: the cycle from which each can be read (R358). -/
  delays : Tab Nat
  /-- The tick after the one in which it last took its turn (R49). -/
  turn : Nat
  exited : Bool
  running : Bool
  deriving DecidableEq, Repr

/-- A leaf of the translation tables as a TLB holds it (R184, R187). -/
structure TlbEntry where
  tenant : Nat
  va : Nat
  size : Nat
  pa : Nat
  w : Bool
  cmp : Nat
  meta_ : Bool
  pin : Bool
  deriving DecidableEq, Repr

/-! ## Commands of the engines -/

/-- Brand operations as the engine port accepted them (R205, R219): names and targets as numbers. -/
inductive BrandOp where
  | claim (addr lsize : Nat)
  | free (n : Nat)
  | lend (n t : Nat)
  | ret (n : Nat)
  | xfer (n t : Nat)
  | split (n : Nat)
  | join (n m : Nat)
  | share (n t : Nat)
  | atomic (n : Nat)
  | unshare (n : Nat)
  | query (n : Nat)
  | slotRead (slot : Nat)
  | slotSwitch (n slot : Nat)
  /-- The fate that a failed agent's roles on another die bring: of the title, of the loan, of some share records (R216). -/
  | fate (n : Nat) (title cur : Bool) (mine : Nat)
  deriving DecidableEq, Repr

/-- Where a copy stands (R190, R193): held is a suspended chunk whose retry is due. -/
inductive CopyPhase where
  | queued
  | moving
  | suspended (va : Nat)
  | remote
  | held
  deriving DecidableEq, Repr

/-- A copy command (R330 to R334): rows, row length, strides, progress. -/
structure CopyJob where
  dst : Nat
  src : Nat
  rows : Nat
  rlen : Nat
  dstr : Nat
  sstr : Nat
  crc : Bool
  first : Bool
  last : Bool
  expect : W32
  row : Nat
  off : Nat
  moved : Nat
  /-- The chain's read value after the chunk on its way (R332). -/
  crcNext : W32
  pages : List Nat
  /-- The leaf under which the end on this die of a chunk that crosses the fabric was translated (R197). -/
  leaf : Option TlbEntry
  phase : CopyPhase
  deriving DecidableEq, Repr

/-- A collective's parameter block with its member list (R256). -/
structure CollBlock where
  opn : Nat
  alg : Nat
  ef : Nat
  rop : Nat
  root : Nat
  rowlen : Nat
  stepabs : Bool
  sat : Bool
  rm : Nat
  /-- Every reserved bit and byte is zero. -/
  reservedOk : Bool
  count : Nat
  send : Nat
  recv : Nat
  group : Nat
  nmem : Nat
  rank : Nat
  stept : Nat
  budget : Nat
  stage : Nat
  stagesz : Nat
  spk : Option Nat
  members : List Nat
  deriving DecidableEq, Repr

/-- What the checked rows of an MSTRM add to the counters: mismatches, void rows, and the first mismatching row (R171). -/
structure Tally where
  mism : Nat
  voids : Nat
  first : Option Nat
  deriving DecidableEq, Repr

/-- A counter reservation (R284). -/
structure Rsv where
  tenant : Nat
  gang : Nat
  key : Word
  domain : Nat
  stream : Nat
  first : Nat
  count : Nat
  deriving DecidableEq, Repr

/-- What a command does. An MLDW from HBM keeps what it has fetched and the cycle in which the chunk on its way arrives (R164,
R193); an MSTRM notes whether the plane that it uses has become the shadow one (R155). -/
inductive CmdBody where
  | copy (j : CopyJob)
  | mldw (addr : Int) (fw : Word) (hbm : Bool) (susp : Option Nat) (fetchDone : Bool) (next : Option Nat) (tile : List Byte)
  | mswap
  | mstrm (addr : Nat) (fw : Word) (stride m row0 : Nat) (old : Bool) (tally : Tally)
  | mdrain (out bias table draw : Nat) (opt : DrainOpt) (fw : Word) (stride m row0 : Nat)
  | mchk (clr : Bool)
  | mfree
  | coll (addr : Int) (blk : Option CollBlock) (admitted : Bool)
  | smpl (logits v list out n : Nat)
  | sbind (sel : BindSel) (addr slot : Nat)
  | drain
  | brand (op : BrandOp) (sent : Bool)
  | atom (op : AtomOp) (ty : VTy) (addr : Int) (val : W32) (seq : Nat)
  | rsv (r : Rsv)
  | tlbiq (all : Bool) (start len : Nat)
  deriving DecidableEq, Repr

/-- Where a command stands: queued, running since a tick until a tick, or done but for a held push (R72). -/
inductive Stage where
  | queued
  | running (since until_ : Nat)
  | pushing
  deriving DecidableEq, Repr

/-- Spaces a range lies in: a scratchpad named by SPACE 0x8 or 0x9, instruction memory, or a pod address (R191). -/
inductive RngSpace where
  | spad | imem | pod
  deriving DecidableEq, Repr

/-- A range that a command reads or writes, by pod address or by offset in the core's instruction memory (R191). -/
structure Rng where
  sp : RngSpace
  at_ : Nat
  len : Nat
  wr : Bool
  deriving DecidableEq, Repr

/-- A command of one of the core's queues. -/
structure Cmd where
  id : Nat
  strand : Nat
  cpc : Nat
  push : Option Nat
  /-- Scalar registers it writes at completion, and the value when it is known. -/
  dregs : List Nat
  stage : Stage
  status : Status
  /-- What it reads and writes, as far as it is known (R191, R206). -/
  ranges : List Rng
  body : CmdBody
  /-- A fault found while it ran, to be raised at its completion: cause and progress. -/
  bad : Option (Cause × Nat)
  deriving DecidableEq, Repr

/-- An engine record with its strand (R289). -/
structure EngRec where
  strand : Nat
  cause : Cause
  progress : Nat
  cpc : Nat
  nopush : Bool
  queue : Nat
  /-- The tick in which the fault arose, and the number of the command (R291). -/
  tick : Nat
  cmd : Nat
  deriving DecidableEq, Repr

/-- Who holds a push at count 15 (R228). -/
inductive Pusher where
  | spush (k : Nat)
  | retire (k : Nat)
  | cmd (id : Nat)
  | outside
  deriving DecidableEq, Repr

/-- A push that has not been applied: channel, agent id, strand, whether it reached the channel in this cycle, and its pusher. -/
structure HeldPush where
  ch : Nat
  agent : Nat
  strand : Nat
  fresh : Bool
  by_ : Pusher
  deriving DecidableEq, Repr

/-! ## Translation, brands -/

/-- States of a brand (R201). -/
inductive BState where
  | free | owned | lent | shared | atomic | forfeit
  deriving DecidableEq, Repr

/-- A brand table entry (R201); BASE is kept as VA[47:0]. -/
structure Brand where
  hdie : Nat
  base : Nat
  lsize : Nat
  title : Nat
  cur : Nat
  shr : Nat
  tenant : Nat
  home : Bool
  proxy : Bool
  state : BState
  pxidx : Nat
  gen : Nat
  inslot : Bool
  outgoing : Bool
  slot : Nat
  deriving DecidableEq, Repr

/-- A share record (R208); a gang record permits every core context of the agent's context slot. -/
structure Share where
  agent : Nat
  gang : Bool
  idx : Nat
  deriving DecidableEq, Repr

/-! ## Cores and clamps -/

/-- States of an instruction-memory page (R125). -/
inductive Page where
  | free | filling | code
  deriving DecidableEq, Repr

/-- A posted neighbour receive (R364). -/
structure NRecv where
  sender : Nat
  off : Nat
  len : Nat
  push : Option Nat
  strand : Nat
  /-- A send has been matched to it and fills it. -/
  taken : Bool
  deriving DecidableEq, Repr

/-- Neighbour data on its way (R195, R364). -/
structure NSendJob where
  fromCore : Nat
  strand : Nat
  cpc : Nat
  push : Option Nat
  /-- Bytes still to arrive, the tick of the next 256, and once matched the offset they are written at. -/
  data : List Byte
  arrives : Nat
  target : Option Nat
  deriving DecidableEq, Repr

/-- An entry of an operand queue, reserved at acceptance and present from its tick on (R117, R398). -/
structure OpEntry where
  due : Nat
  present : Bool
  data : List W32
  deriving DecidableEq, Repr

/-- A vector store that the vector unit has accepted: the cycle at which it is due at the banks, its strand, the command that its
completion ends if it drains a store queue, and its ranges with their bytes and the bits of them that it writes (R395 to R398). -/
structure VStore where
  due : Nat
  strand : Nat
  cmd : Option Nat
  /-- The number that the core's next command was to take: commands of this number and above were accepted later. -/
  seq : Nat
  rows : List (Nat × List Byte × List Byte)
  deriving DecidableEq, Repr

/-- A core (R10, R12). Queues list the oldest first; times are cycles of its island (R5). -/
structure Core where
  spad : Mem
  imem : Mem
  pages : Tab Page
  vregs : Tab (List W32)
  preds : Tab (BitVec 1024)
  strands : Tab Strand
  opq : Tab (List OpEntry)
  stq : Tab (List (List W32))
  sparks : Tab Nat
  held : List HeldPush
  fmtq : List Word
  copyQ : List Cmd
  matrixQ : List Cmd
  collQ : List Cmd
  samplerQ : List Cmd
  brandQ : List Cmd
  drainQ : List Cmd
  otherQ : List Cmd
  nextCmd : Nat
  crcR : W32
  crcW : W32
  crcValid : Bool
  acc : Tab (List W32)
  mism : Nat
  voids : Nat
  firstRow : Option Nat
  /-- The tick at which the pending lease request was posted (R157). -/
  leaseReq : Option Nat
  records : List EngRec
  tlb : List TlbEntry
  /-- The brand window: indexes of table entries, the one used last first (R204). -/
  window : List Nat
  /-- Lookups of entries that the window missed, each with the cycle in which it ends (R204). -/
  lookups : List (Nat × Nat)
  nrecvs : List NRecv
  arriving : List NSendJob
  /-- Vector stores that are not performed yet, in acceptance order (R224, R396). -/
  vstores : List VStore
  /-- The strand whose instruction the vector unit accepted last, and the cycle from which the unit is free (R49). -/
  lastVec : Nat
  vfree : Nat
  /-- For each shared unit of 1-cycle occupancy, the cycle after its last acceptance (R48). -/
  unitAt : Tab Nat
  /-- The cycle from which each vector and predicate register can be read (R114, R379). -/
  vready : Tab Nat
  pready : Tab Nat
  /-- For each spark channel, the cycle after its last pop (R228). -/
  popAt : Tab Nat
  /-- Pushes on retire of vector instructions: cycle, channel, strand (R385). -/
  retiring : List (Nat × Nat × Nat)
  issueFrom : Nat
  cbarDone : Option Nat
  /-- The gang's context slot and this core's rank in it, while a gang holds the core. -/
  ctx : Option (Nat × Nat)
  /-- Of a retired core: the context slot, rank and tenant for which its last commands act (R52). -/
  was : Option (Nat × Nat × Nat)
  retired : Bool
  deriving DecidableEq, Repr

/-- Whose plane it is (R162). -/
inductive PlaneTag where
  | own (agent : Nat)
  | shared (slot : Nat)
  deriving DecidableEq, Repr

/-- A weight plane with its record; the stored tile bytes hold the weights (R162, R163). -/
structure Plane where
  valid : Bool
  wef : Nat
  sparse : Nat
  ck : Bool
  spec : Bool
  tag : PlaneTag
  /-- The format word of the MLDW that loaded it. -/
  fw : Word
  tile : List Byte
  deriving DecidableEq, Repr

/-- A line of the clamp cache: its physical address and the virtual one it was reached by, the leaf that maps it, its brand tag, its
dirty bit with the agent whose write set it, and its bytes (R15, R189). -/
structure CacheLine where
  pa : Nat
  va : Nat
  leaf : TlbEntry
  idx : Nat
  gen : Nat
  dirty : Bool
  agent : Nat
  data : List Byte
  deriving DecidableEq, Repr

/-- A clamp: planes, lease, cache (R157, R162, R189). -/
structure Clamp where
  active : Plane
  shadow : Plane
  holder : Option Nat
  granted : Nat
  started : Nat
  refused : Bool
  /-- The tick since which the holder has had no array command ready (R157). -/
  idleFrom : Nat
  /-- The core that held the lease last: the rotation goes on after it. -/
  last : Nat
  /-- The next grant: core and earliest tick. -/
  handover : Option (Nat × Nat)
  cache : List CacheLine
  deriving DecidableEq, Repr

/-! ## Gangs -/

/-- Where a live gang stands (R34, R40, R293 to R297). -/
inductive GangPhase where
  | loading
  | suspendedLoad (va : Nat)
  | loaded
  | running
  | halting (by_ : Nat) (due : Nat)
  | halted (by_ : Nat)
  | saving (by_ : Nat)
  | saved
  deriving DecidableEq, Repr

/-- What the save of one core keeps (R296, R297). -/
structure SavedCore where
  core : Nat
  image : Core
  withSpad : Bool
  /-- Once the home entry has been reused: the entry as it stood, with its share records (R297). -/
  entry : Option Brand
  shares : List Share
  deriving DecidableEq, Repr

/-- A gang: the cores one entry starts, lowest rank first (R19, R40). -/
structure Gang where
  entry : Nat
  tenant : Nat
  cores : List Nat
  locked : Bool
  det : Bool
  prio : Nat
  seed : Word
  start : Nat
  phase : GangPhase
  /-- The tick from which the load, or the save, is done. -/
  loadDone : Nat
  haltTick : Nat
  /-- The barrier: deadline and STEP of the first arrival, and the tick it completed (R42). -/
  barDl : Option (Int × Bool)
  /-- With it, whether the die had no RUNNING engine then. -/
  barDone : Option (Nat × Bool)
  /-- The atomic interval (R233): open, and closed batches still on their way. -/
  atomOpen : Bool
  batches : Nat
  saved : List SavedCore
  savedPlanes : List (Nat × Plane × Plane)
  image : List Byte
  argBlock : List Byte
  deriving DecidableEq, Repr

/-- A request of an atomic interval in a batch (R233, R317), with its place in logical order. -/
structure AtomReq where
  core : Nat
  agent : Nat
  rank : Nat
  strand : Nat
  seq : Nat
  cmd : Nat
  op : AtomOp
  ty : VTy
  addr : Nat
  val : W32
  /-- The cause for which the proxy of the region on the requester's die refused it, when the interval closed (R211). -/
  refused : Option Cause
  deriving DecidableEq, Repr

/-- Untimed traffic between dies (R254, R255): the die that sent it, the die it goes to, the die it stands at or reaches next, the
tick from which it stands there, the port it comes by, the agent it serves, its flits that have left that die already, and whether it
is at its end, so that it leaves its list with the tick. -/
structure Transit where
  fromDie : Nat
  toDie : Nat
  at_ : Nat
  due : Nat
  via : Option Nat
  agent : Nat
  gone : Nat
  spent : Bool
  deriving DecidableEq, Repr

/-- How a request of an atomic interval ended at its home (R233, R318): with the element it found, or in a fault. -/
inductive AtomEnd where
  | ticket (v : W32) (st : Status)
  | failed (c : Cause)
  deriving DecidableEq, Repr

/-- A closed batch on its way to a home die, or its tickets on their way back (R233). -/
structure Batch where
  tr : Transit
  slot : Nat
  tenant : Nat
  reqs : List AtomReq
  ends : Option (List AtomEnd)
  deriving DecidableEq, Repr

/-! ## Schedule table and tenants -/

/-- STATE of a schedule entry (R30). -/
inductive SchedState where
  | empty | armed | loading | running | retired | failed
  deriving DecidableEq, Repr

/-- A schedule entry: the host's words, the status, the snapshot's words and the due flag (R28 to R33). -/
structure SchedEntry where
  words : Tab Word
  snap : Tab Word
  state : SchedState
  cause : Nat
  slot : Nat
  due : Bool
  deriving DecidableEq, Repr

/-- Kinds of event record (R303). -/
inductive EvKind where
  | launchFail | retired | failed | pageFault | preempted | resumed | abort | orphan | intake | digest
  deriving DecidableEq, Repr

/-- An event record (R303). -/
structure EventRec where
  seq : Nat
  tick : Nat
  kind : EvKind
  cause : Nat
  die : Nat
  tenant : Nat
  cslot : Nat
  rank : Nat
  strand : Nat
  agent : Nat
  entry : Nat
  pc : Nat
  info : Nat
  va : Nat
  progress : Nat
  deriving DecidableEq, Repr

/-- A weight slot: current and pending brand names, and the context slot of the gang whose switch point is awaited (R218). -/
structure WSlot where
  current : Option Nat
  pending : Option Nat
  by_ : Nat
  deriving DecidableEq, Repr

/-- A tenant on a die. -/
structure Tenant where
  cfg : TenantCfg
  wslots : Tab WSlot
  lowerActive : Bool
  recovery : Option Nat
  seq : Nat
  ring : Tab EventRec
  pages : List Nat
  mark : Nat
  deriving DecidableEq, Repr

/-! ## Links -/

/-- STATE of a link engine (R248). -/
inductive LState where
  | idle | armed | running | done | faulted
  deriving DecidableEq, Repr

/-- What a flit carries (R242, R407): 256 raw bytes, or 64 partial elements with their side bits. -/
inductive Payload where
  | raw (bytes : List Byte)
  | part (elems : List (W32 × Bool × Bool))
  deriving DecidableEq, Repr

/-- A timed flit in flight or in a landing buffer (R242 to R245, R252): where it goes, the die that sent it with the tick and the hop
time, the difference of the two dies' counts at which the read delay that it meets is 32, whether its CRC fails on arrival, and, once
it is delivered, the tick. -/
structure Flit where
  die : Nat
  port : Nat
  tag : Nat
  idx : Nat
  payload : Payload
  src : Nat
  sent : Nat
  hop : Nat
  skew : Int
  bad : Bool
  tick : Nat
  /-- It landed while no stream ran on the port (R252). -/
  idle : Bool
  deriving DecidableEq, Repr

/-- A decoded link instruction of the plan stream: plan offset, tick, instruction (R249). -/
structure LinkOp where
  off : Nat
  tick : Nat
  instr : Instr
  deriving DecidableEq, Repr

/-- A write of a plan stream or of a section that its stack has not served yet (R196): the instruction, address and bytes. -/
structure LinkWrite where
  op : LinkOp
  va : Nat
  data : List Byte
  deriving DecidableEq, Repr

/-- A receive: posted at its tick by XRECV, or by XFWD and XRED, which relay the flits (R252, R410, R411). -/
structure Recv where
  op : LinkOp
  tag : Nat
  flits : Nat
  /-- Where raw flits are written, if anywhere. -/
  addr : Option Nat
  posted : Bool
  deadline : Option Nat
  got : List Nat
  /-- Of a relay: the flits by index, the own contribution read ahead, and how many have gone on. -/
  relay : Bool
  data : Tab Payload
  own : Tab (List Byte)
  ownTo : Nat
  sent : Nat
  status : Status
  deriving DecidableEq, Repr

/-- A send in progress: flits read ahead and sent so far (R409). -/
structure Send where
  op : LinkOp
  addr : Nat
  tag : Nat
  flits : Nat
  part : Bool
  ef : Nat
  read : Tab (List Byte)
  readTo : Nat
  sent : Nat
  deriving DecidableEq, Repr

/-- Slots of a port's send side that an instruction claims: flits from a tick on at a rate per tick, or a stretch of ticks that no
timed flit may use. With it the claimer: its tick and port, and either its plan offset or the collective (R249, R250, R412). -/
structure Claim where
  first : Nat
  flits : Nat
  rate : Nat
  wall : Bool
  tick : Nat
  port : Nat
  off : Nat
  coll : Option (Nat × Nat)
  deriving DecidableEq, Repr

/-- A tracker entry (R253): plan offset of its XSEND, the count of sectors of its source, those that are mapped when it is armed, and
those of them written since. -/
structure Tracker where
  off : Nat
  count : Nat
  sectors : List Nat
  written : List Nat
  deriving DecidableEq, Repr

/-- An exchange of line symbols on an edge of the time tree, kept at the child's end (R239): the four stamps, and the tick, by the
count of the die that it reaches, at which a symbol on the line arrives. -/
structure Exchange where
  t1 : Option Nat
  t2 : Option Nat
  t3 : Option Nat
  t4 : Option Nat
  up : Option Nat
  down : Option Nat
  deriving DecidableEq, Repr

/-- An abort's name: origin, tick, cause, launch cause (R263). -/
structure AbortId where
  die : Nat
  tick : Nat
  cause : Cause
  lcause : Nat
  deriving DecidableEq, Repr

/-- A port and its link engine (R242 to R254). -/
structure Port where
  start : Nat
  state : LState
  occ : Nat
  base : Nat
  pc : Nat
  step : Nat
  lastg : Nat
  fault : Nat
  pmode : Nat
  regs : Tab Word
  plan : Mem
  snapStart : Nat
  snapLocked : Bool
  snapRegs : Tab Word
  snapPlan : Mem
  /-- The plan stream: the tick of the instruction decoded last, the BASE of the step it stands in, the instructions that are
  decoded and not taken yet, and whether the LAST XSTEP has been decoded (R249, R413). -/
  prevTick : Nat
  decBase : Nat
  ops : List LinkOp
  ended : Bool
  landing : List Flit
  recvs : List Recv
  sends : List Send
  claims : List Claim
  guards : List (Nat × Nat)
  windows : List (Nat × Nat)
  /-- Writes that wait for their stacks, in order (R196). -/
  toWrite : List LinkWrite
  trackers : List Tracker
  /-- By how much this end's count was ahead of the far one's when the read delay was last set to 32, and, for what this end sends from
  now on, by how much the far end's is taken to be ahead (R244, R246). -/
  skew : Int
  skewOut : Int
  /-- The tick from which what arrives comes after a guard, so that the read delay is 32 again (R246). -/
  recentreAt : Option Nat
  /-- Flits since the last guard whose CRC failed on arrival, and what is on the line to the port: ticks of arrival, and whether the CRC fails
  (R243). -/
  crcFails : Nat
  line : List (Nat × Bool)
  failed : Bool
  /-- The tick since which the port receives no valid symbol (R243). -/
  silent : Option Nat
  /-- The tick at which the engine last left RUNNING: idle guards begin from there on (R241). -/
  idleFrom : Nat
  /-- The flits that have left in a tick, and aborts that wait for a slot (R242, R263). -/
  used : Nat × Nat
  abortOut : List AbortId
  exch : Exchange
  /-- By how many XSTEPs the engine is ahead of the die's step (R251). -/
  ahead : Nat
  deriving DecidableEq, Repr

/-! ## Collectives -/

/-- The place of a piece in memory (R259): base, the byte offset of each of its sub-blocks, flits of a sub-block, bytes of a
flit's elements, whether the elements stand as 32-bit containers, as in STAGE, and whether a phase before wrote it, so that it is
read in its slot. -/
structure Piece where
  base : Nat
  starts : List Nat
  sub : Nat
  unit : Nat
  wide : Bool
  fresh : Bool
  deriving DecidableEq, Repr

/-- What a member sends in one hop: a piece of its own, with the place where it is written too, or the piece that the hop before
left at its sequencer (R259). -/
inductive LaneSend where
  | own (p : Piece) (copy : Option Piece)
  | held
  deriving DecidableEq, Repr

/-- What a member does with a piece that arrives: combine it with its own, round it as the final member, write it (R259, R260). -/
structure LaneRecv where
  own : Option Piece
  fin : Bool
  dst : List Piece
  deriving DecidableEq, Repr

/-- One hop of a lane. -/
structure LaneHop where
  send : Option LaneSend
  recv : Option LaneRecv
  deriving DecidableEq, Repr

/-- One ring run of a collective (R259): its send and receive port, the tick of hop 0, the hop period, flits of a piece, its hops,
and how far it has come: hops decoded, flits sent, the hop being received with the flits that are in, the flits at the sequencer by
the number under which they go on, and the own flits read ahead. -/
structure Lane where
  out : Nat
  inn : Nat
  start : Nat
  period : Nat
  flits : Nat
  hops : List LaneHop
  part : Bool
  claimed : Nat
  sent : Nat
  rhop : Nat
  got : List Nat
  held : Tab Payload
  read : Tab (List Byte)
  readTo : Nat
  /-- Own contributions to the flits received that are read ahead, by the number of the flit, and up to which (R411). -/
  mine : Tab (List Byte)
  mineTo : Nat
  /-- Once an abort has discarded what the lane had still to send: the flits that had left (R263, R329). -/
  left : Option Nat
  deriving DecidableEq, Repr

/-- An admitted collective with its sections (R257, R261). -/
structure CollRun where
  core : Nat
  cmd : Nat
  tag : Nat
  ef : Nat
  rop : Nat
  rm : Nat
  sat : Bool
  locked : Bool
  first : Nat
  budget : Nat
  stage : Nat
  stagesz : Nat
  spk : Option Nat
  /-- Side bits of the elements in STAGE, by flit (R260). -/
  side : Tab (List (Bool × Bool))
  lanes : List Lane
  status : Status
  lastWrite : Nat
  spkDone : Bool
  /-- Writes that wait for their stacks, in order (R196). -/
  toWrite : List (Nat × List Byte)
  deriving DecidableEq, Repr

/-! ## Sampler -/

/-- A sequence slot (R267). -/
structure SeqSlot where
  bound : Bool
  tenant : Nat
  plen : Nat
  mask : Word
  key : Word
  step : Word
  prog : List Nat
  kreg : Tab W32
  cnt : Tab Nat
  bias : Tab Nat
  deriving DecidableEq, Repr

/-- A run of a logit program (R271, R279). -/
structure LogitRun where
  slot : Nat
  tenant : Nat
  prog : List Nat
  pc : Nat
  x : List W32
  prob : Bool
  k : Tab W32
  code : Nat
  token : Option Nat
  count : Bool
  done : Bool
  st : Status
  /-- The mask's bytes, once LMASK has read them (R345). -/
  maskBits : List Byte
  /-- The cycle from which an LMASK that waits for its mask is tried again; 0: none waits. -/
  held : Nat
  deriving DecidableEq, Repr

/-- The sampler's command under way (R278): core, command number, and an SMPL's next sequence or an SBIND's new slot. -/
inductive SamplerJob where
  | smpl (core cmd : Nat) (slots : List Nat) (next : Nat) (st : Status)
  | sbind (core cmd slot : Nat) (value : SeqSlot) (read : Nat)
  deriving DecidableEq, Repr

/-! ## Die -/

/-- Untimed traffic on its way (R254): reads, writes and brand messages, with the command they belong to. -/
inductive OpenBody where
  | read (addr len : Nat) (dst : Nat)
  | data (bytes : List Byte) (dst : Nat)
  | write (addr : Nat) (bytes : List Byte) (crc : W32)
  | ack (crc : W32)
  | fault (cause : Cause) (va : Nat) (page : Bool)
  deriving DecidableEq, Repr

/-- An access that the sampler's command makes on another die (R255, R277): its number, the core and the command it serves, its address
and length, and the answer. -/
structure Fetch where
  id : Nat
  core : Nat
  cmd : Nat
  va : Nat
  len : Nat
  answer : Option OpenBody
  deriving DecidableEq, Repr

/-- An invalidation in progress (R197): the issuing core and command, range, contexts still to acknowledge. -/
structure Tlbi where
  core : Nat
  cmd : Nat
  tenant : Nat
  start : Nat
  len : Nat
  accepted : Nat
  pending : List (Nat × Nat)
  /-- Contexts past their SEGEND whose chunk under a dropped entry is still on its way. -/
  late : List (Nat × Nat)
  deriving DecidableEq, Repr

/-- An error record (R306). -/
structure ErrRec where
  sev : Nat
  cause : Nat
  agent : Nat
  tenant : Nat
  port : Nat
  seq : Nat
  tick : Nat
  addr : Nat
  detail : List Byte
  ptp : Nat × Nat
  deriving DecidableEq, Repr

/-- An injection armed (R308). -/
structure Injection where
  tenant : Nat
  core : Nat
  byte : Nat
  bit : Nat
  deriving DecidableEq, Repr

/-- An intake transfer queued for the step end (R302). -/
structure Intake where
  tenant : Nat
  port : Nat
  imm : W32
  deriving DecidableEq, Repr

/-- What the die has answered to its host and its board controller, newest first. -/
inductive Reply where
  | rdmaOk (tenant : Nat)
  | rdmaData (tenant : Nat) (data : List Byte)
  | rdmaError (tenant : Nat)
  | log (recs : List ErrRec)
  | telemetry (vals : List (Nat × Word × Word × Nat))
  | report (data : List Byte) (sig : Nat)
  | refused
  deriving DecidableEq, Repr

/-- A request that has come to the controller of a stack and is not served yet (R192, R196): the stack, the agent that makes it, what tells
the agent's requests apart, the tick in which it came, its bytes, whether only a window of the plan lets it in, and the tick in
which the requester stood by it last. -/
structure StackAsk where
  stack : Nat
  agent : Nat
  tag : List Nat
  came : Nat
  bytes : Nat
  locked : Bool
  seen : Nat
  deriving DecidableEq, Repr

/-- A die (R8, R17). -/
structure Die where
  tick : Nat
  /-- The delay of the edge to the parent that the last exchange measured, in half ticks (R239). -/
  delay : Int
  /-- Slewing (R239): half ticks still to remove, the tick before which no tick is added or withheld again, and whether the next
  tick is withheld. -/
  slewLeft : Int
  slewNext : Nat
  withhold : Bool
  cores : Tab Core
  clamps : Tab Clamp
  hbm : Mem
  /-- The PA of the side table of compression metadata (R186). -/
  sideBase : Nat
  /-- For each stack, the bytes of its rate that are taken, counted from pod time 0 (R192). -/
  stackBusy : Tab Nat
  /-- The requests that the stacks have still to serve, in the order in which they came (R196). -/
  asks : List StackAsk
  brands : Tab Brand
  shares : List Share
  /-- Indexes set aside for a proxy, or for a share record under one, until a reply returns (R211). -/
  pledged : List (Nat × Bool)
  sched : Tab SchedEntry
  gangs : Tab Gang
  tenants : Tab Tenant
  ports : Tab Port
  slots : Tab SeqSlot
  job : Option SamplerJob
  run : Option LogitRun
  /-- Reads of the sampler's command on other dies, and the number of the next one. -/
  fetches : List Fetch
  fetchNext : Nat
  rsvs : List Rsv
  memTlb : List TlbEntry
  tlbis : List Tlbi
  /-- Event records of the current tick, not yet written to their rings (R303). -/
  events : List EventRec
  errlog : List ErrRec
  errSeq : Nat
  aborts : List AbortId
  /-- Abort flits on their way: port, tick of arrival, name. -/
  abortIn : List (Nat × Nat × AbortId)
  /-- Aborts that a gang of a tenant raised here and that the die has still to act on (R263). -/
  abortBy : List (AbortId × Nat)
  injections : List Injection
  /-- Clock step and demanded step of each island, in eighths of 1.0 GHz, and the tick its halt ends (R55, R309). -/
  islands : Tab Nat
  demand : Tab Nat
  islandHalt : Tab Nat
  /-- For each island, the ticks in which it had no cycle: its cycles are the ticks less these (R5, R55). -/
  lag : Tab Nat
  stepEnd : Option Nat
  intakes : List Intake
  /-- Pushes kept for pre-empted contexts: context slot, rank, channel, port (R406). -/
  kept : List (Nat × Nat × Nat × Nat)
  batches : List Batch
  colls : List CollRun
  replies : List Reply
  inReset : Bool
  dead : Bool
  fwVersion : Word
  fwDigests : List (List Byte)
  fused : Word
  deriving DecidableEq, Repr

/-! ## The pod -/

/-- What an open message serves (R254): a copy of a core, a request of a host through an Ethernet port, with its immediate data, or the
sampler's command. -/
inductive OpenBy where
  | copy
  | ether (port : Nat) (imm : Option W32)
  | sampler
  deriving DecidableEq, Repr

/-- An open message: where it is, where it goes, what it serves, and the command of the core if it is a copy's. -/
structure OpenMsg where
  tr : Transit
  by_ : OpenBy
  core : Nat
  cmd : Nat
  tenant : Nat
  locked : Bool
  body : OpenBody
  deriving DecidableEq, Repr

/-- What a home die answers: a cause, or the result values (R212). -/
inductive BrandAnswer where
  | failed (c : Cause)
  | done (vals : List Nat)
  deriving DecidableEq, Repr

/-- A brand message to a home die, or its reply (R212). -/
structure BrandMsg where
  tr : Transit
  core : Nat
  cmd : Nat
  tenant : Nat
  agent : Nat
  op : BrandOp
  reply : Option BrandAnswer
  /-- With the reply: the entries of the home table that changed, and the index set aside for a proxy with its die and whether it is
  for a share record (R211). -/
  touched : List Nat
  pledge : Option (Nat × Nat × Bool)
  deriving DecidableEq, Repr

/-- The instruction stream an agent of which acts. -/
inductive Actor where
  | none
  | strand (d c k : Nat)
  /-- The engine decodes an instruction of its plan stream. -/
  | link (d p : Nat)
  /-- The engine takes a decoded instruction at its tick. -/
  | taken (d p : Nat)
  | logit (d : Nat)
  deriving DecidableEq, Repr

/-- One move of the agenda: a strand takes its turn (sync: if its next instruction is one of the sync unit; early: unless it is one of
the vector unit, which has an order of its own), a link engine decodes or takes an instruction, the sampler runs its next word, the
strands that lack only the pop of a channel are found, what the vector units owe is delivered, the ports and collective sections of
a die send what is due, a die's reference clock has drifted by a tick, an event befalls the machine, one part of a die's tick is planned, or every die's pod time advances (log
entry 1). -/
inductive Move where
  | strand (d c k : Nat)
  | link (d p : Nat)
  | take (d p : Nat)
  | logit (d : Nat)
  | sync (d c k : Nat)
  | early (d c k : Nat)
  | pops (d : Nat)
  | settle (d : Nat)
  | ports (d : Nat)
  | drift (d : Nat)
  | intakes (d : Nat)
  | event (i : Instr)
  | plan (d k : Nat)
  | tick
  deriving DecidableEq, Repr

/-- The whole machine: a pod (R8, R9), with the model's own agenda, actor and counter of free values. -/
structure State where
  dies : Tab Die
  pod : PodCfg
  formed : Bool
  /-- A launch has started since reset: no pod is formed any more (R9). -/
  launched : Bool
  flits : List Flit
  opens : List OpenMsg
  brandMsgs : List BrandMsg
  agenda : List Move
  actor : Actor
  freeCount : Nat
  /-- Nominal ticks since reset, by which the dies' reference clocks drift (R240; log entry 66). -/
  steps : Nat
  deriving DecidableEq, Repr

/-! ## Reset -/

/-- A register of value zero. -/
def SReg.zero : SReg := { val := 0, lo := 0, hi := 0 }

/-- Strand k after reset (R106; log entry 2). -/
def Strand.reset (k : Nat) : Strand :=
  { regs := [], pc := 0, far := none, args := 0, importTab := 0, flags := 0, cnt := 0, status := 0, vrot := 0, prot := 0,
    vbase := BitVec.ofNat 6 (16 + 12 * k), vsize := 12, pbase := BitVec.ofNat 6 (8 + 8 * k), trapvec := 0, trapcause := 0,
    trappc := 0, trapinfo := 0, trapsave := 0, steptick := 0, segCount := 0, segStart := 0, sig := 0xFFFFFFFF#32,
    void := false, vflags := [], fwd := [], wait := .none, stalled := false, popWait := none, granted := false, await := [],
    awaitFlags := none, atomCount := 0, arrivedAtomic := false, delays := [], turn := 0, exited := false, running := false }

/-- A core after reset (R38, R117, R125, R228, R332; log entries 2 and 3). -/
def Core.reset : Core :=
  { spad := [], imem := [], pages := [], vregs := [], preds := [], strands := [], opq := [], stq := [], sparks := [],
    held := [], fmtq := [], copyQ := [], matrixQ := [], collQ := [], samplerQ := [], brandQ := [], drainQ := [], otherQ := [], nextCmd := 0,
    crcR := 0, crcW := 0, crcValid := false, acc := [], mism := 0, voids := 0, firstRow := none, leaseReq := none,
    records := [], tlb := [], window := [], lookups := [], nrecvs := [], arriving := [], vstores := [], lastVec := 3, vfree := 0, unitAt := [], vready := [],
    pready := [], popAt := [], retiring := [], issueFrom := 0,
    cbarDone := none, ctx := none, was := none, retired := false }

/-- A plane that holds nothing (R162). -/
def Plane.invalid : Plane :=
  { valid := false, wef := 0, sparse := 0, ck := false, spec := false, tag := .own 0, fw := 0, tile := [] }

/-- A clamp after reset (R157, R162, R189). -/
def Clamp.reset : Clamp :=
  { active := Plane.invalid, shadow := Plane.invalid, holder := none, granted := 0, started := 0, refused := false,
    idleFrom := 0, last := 3, handover := none, cache := [] }

/-- A FREE brand entry (R201). -/
def Brand.free : Brand :=
  { hdie := 0, base := 0, lsize := 0, title := 0, cur := 0, shr := 0, tenant := 0, home := false, proxy := false,
    state := .free, pxidx := 0, gen := 0, inslot := false, outgoing := false, slot := 0 }

/-- A schedule entry after reset (R28, R30). -/
def SchedEntry.reset : SchedEntry :=
  { words := [], snap := [], state := .empty, cause := 0, slot := 0, due := false }

/-- A weight slot at tenant creation (R218). -/
def WSlot.reset : WSlot := { current := none, pending := none, by_ := 0 }

/-- No exchange under way (R239). -/
def Exchange.none : Exchange :=
  { t1 := Option.none, t2 := Option.none, t3 := Option.none, t4 := Option.none, up := Option.none, down := Option.none }

/-- A port after reset (R248). -/
def Port.reset : Port :=
  { start := 0, state := .idle, occ := 32, base := 0, pc := 0, step := 0, lastg := 0, fault := 0, pmode := 0, regs := [],
    plan := [], snapStart := 0, snapLocked := false, snapRegs := [], snapPlan := [], prevTick := 0, decBase := 0, ops := [],
    ended := false, landing := [], recvs := [], sends := [], claims := [], guards := [], windows := [], toWrite := [], trackers := [],
    skew := 0, skewOut := 0, recentreAt := none, crcFails := 0, failed := false, silent := none, idleFrom := 0, used := (0, 0),
    line := [], abortOut := [], exch := Exchange.none, ahead := 0 }

/-- A sampler slot after reset (R267). -/
def SeqSlot.reset : SeqSlot :=
  { bound := false, tenant := 0, plen := 0, mask := 0, key := 0, step := 0, prog := [], kreg := [], cnt := [], bias := [] }

/-- A die after reset: no tenant, nothing armed, nothing running (R26 to R30, R201, R238; log entry 2). -/
def Die.reset : Die :=
  { tick := 0, delay := 0, slewLeft := 0, slewNext := 0, withhold := false, cores := [], clamps := [], hbm := [], sideBase := 0, stackBusy := [], asks := [], brands := [], shares := [], pledged := [],
    sched := [], gangs := [], tenants := [], ports := [], slots := [], job := none, run := none, fetches := [], fetchNext := 0, rsvs := [], memTlb := [],
    tlbis := [], events := [], errlog := [], errSeq := 0, aborts := [], abortIn := [], abortBy := [], injections := [], islands := [], demand := [],
    islandHalt := [], lag := [], stepEnd := none, intakes := [], kept := [], batches := [], colls := [], replies := [], inReset := false, dead := false,
    fwVersion := 0, fwDigests := [], fused := 0 }

/-- The configuration of a lone package: dies 0 and 1, die 0 the root, joined by the die-to-die link (R9, R18, R199, R238). -/
def lonePod : PodCfg :=
  { members := [0, 1], root := 0,
    cables := [(8, { farDie := 1, farPort := 8, hop := 40 }), (24, { farDie := 0, farPort := 8, hop := 40 })],
    parents := [(1, 8)], planTenants := [], routes := [(0, [(1, 8)]), (1, [(0, 8)])], recoveryLag := 0, hbmWindows := [], sideTables := [] }

/-- The machine right after reset: a lone package whose dies run and hold nothing (log entries 1 and 2). -/
def State.reset : State :=
  { dies := [], pod := lonePod, formed := true, launched := false, flits := [], opens := [], brandMsgs := [], agenda := [], actor := .none,
    freeCount := 0, steps := 0 }

end Sys2Proof.Machine
end

