-- ==== Sys2Proof/Machine/Access.lean ====
section
/-!
DEFINITION. The parts of the state by name: dies, cores, strands, registers, vectors, predicates, clamps, gangs, ports, brand
entries. Every read and every write of a register goes through this file; an unlisted part holds its reset value.
-/
namespace Sys2Proof.Machine

/-- The value a table lists at a key. -/
def Tab.find {α : Type} : Tab α → Nat → Option α
  | [], _ => none
  | (i, v) :: r, k => if i = k then some v else Tab.find r k

/-- The place of a strand: die, physical core, strand (R18). -/
structure At where
  d : Nat
  c : Nat
  k : Nat
  deriving DecidableEq, Repr

/-- Die d. -/
def State.die (s : State) (d : Nat) : Die := Tab.get s.dies d Die.reset
/-- Write die d. -/
def State.setDie (s : State) (d : Nat) (x : Die) : State := { s with dies := Tab.set s.dies d x }
/-- Change die d. -/
def State.modDie (s : State) (d : Nat) (f : Die → Die) : State := s.setDie d (f (s.die d))

/-- Physical core c of a die. -/
def Die.core (x : Die) (c : Nat) : Core := Tab.get x.cores c Core.reset
/-- Write core c. -/
def Die.setCore (x : Die) (c : Nat) (y : Core) : Die := { x with cores := Tab.set x.cores c y }
/-- Core c of die d. -/
def State.core (s : State) (d c : Nat) : Core := (s.die d).core c
/-- Write core c of die d. -/
def State.setCore (s : State) (d c : Nat) (y : Core) : State := s.setDie d ((s.die d).setCore c y)
/-- Change core c of die d. -/
def State.modCore (s : State) (d c : Nat) (f : Core → Core) : State := s.setCore d c (f (s.core d c))

/-- Strand k of a core. -/
def Core.strand (y : Core) (k : Nat) : Strand := Tab.get y.strands k (Strand.reset k)
/-- Write strand k. -/
def Core.setStrand (y : Core) (k : Nat) (z : Strand) : Core := { y with strands := Tab.set y.strands k z }
/-- The strand at a place. -/
def State.strand (s : State) (p : At) : Strand := (s.core p.d p.c).strand p.k
/-- Write the strand at a place. -/
def State.setStrand (s : State) (p : At) (z : Strand) : State := s.setCore p.d p.c ((s.core p.d p.c).setStrand p.k z)
/-- Change the strand at a place. -/
def State.modStrand (s : State) (p : At) (f : Strand → Strand) : State := s.setStrand p (f (s.strand p))

/-- Clamp m of a die. -/
def Die.clamp (x : Die) (m : Nat) : Clamp := Tab.get x.clamps m Clamp.reset
/-- Clamp m of die d. -/
def State.clamp (s : State) (d m : Nat) : Clamp := (s.die d).clamp m
/-- Write clamp m of die d. -/
def State.setClamp (s : State) (d m : Nat) (x : Clamp) : State :=
  s.modDie d (fun e => { e with clamps := Tab.set e.clamps m x })
/-- The live gang in a context slot (R23). -/
def State.gang (s : State) (d slot : Nat) : Option Gang := Tab.find (s.die d).gangs slot
/-- Write the gang of a slot. -/
def State.setGang (s : State) (d slot : Nat) (g : Gang) : State :=
  s.modDie d (fun e => { e with gangs := Tab.set e.gangs slot g })
/-- Tenant t of die d, if configured. -/
def State.tenant (s : State) (d t : Nat) : Option Tenant := Tab.find (s.die d).tenants t
/-- Write tenant t of die d. -/
def State.setTenant (s : State) (d t : Nat) (x : Tenant) : State :=
  s.modDie d (fun e => { e with tenants := Tab.set e.tenants t x })
/-- Port p of die d. -/
def State.port (s : State) (d p : Nat) : Port := Tab.get (s.die d).ports p Port.reset
/-- Write port p of die d. -/
def State.setPort (s : State) (d p : Nat) (x : Port) : State :=
  s.modDie d (fun e => { e with ports := Tab.set e.ports p x })
/-- Brand entry i of a die. -/
def Die.brand (x : Die) (i : Nat) : Brand := Tab.get x.brands i Brand.free
/-- Write brand entry i. -/
def Die.setBrand (x : Die) (i : Nat) (b : Brand) : Die := { x with brands := Tab.set x.brands i b }
/-- Brand entry i of die d. -/
def State.brand (s : State) (d i : Nat) : Brand := (s.die d).brand i
/-- Write brand entry i of die d. -/
def State.setBrand (s : State) (d i : Nat) (b : Brand) : State := s.modDie d (fun e => e.setBrand i b)
/-- Schedule entry e of die d. -/
def State.sched (s : State) (d e : Nat) : SchedEntry := Tab.get (s.die d).sched e SchedEntry.reset
/-- Write schedule entry e of die d. -/
def State.setSched (s : State) (d e : Nat) (x : SchedEntry) : State :=
  s.modDie d (fun y => { y with sched := Tab.set y.sched e x })
/-- Pod time of die d (R238). -/
def State.now (s : State) (d : Nat) : Nat := (s.die d).tick
/-- Cycles of an island of the die (R5). -/
def Die.cycle (x : Die) (island : Nat) : Nat := x.tick - Tab.get x.lag island 0
/-- Does an island have a cycle in this tick, at its clock step (R5, R55)? -/
def Die.clocked (x : Die) (island : Nat) : Bool :=
  let e := Tab.get x.islands island 8
  x.tick * e / 8 < (x.tick + 1) * e / 8
/-- The islands of the sampler, and of the tables and the time unit, when the islands are numbered as R309 lists them (log entry 56). -/
def samplerIsland : Nat := 29
/-- The island of the tables and the time unit. -/
def tableIsland : Nat := 31
/-- Cycles of the island that hosts core c of die d (R5, R309). -/
def State.cyc (s : State) (d c : Nat) : Nat := (s.die d).cycle (c / 4)
/-- A length of time that the spec bounds by n, drawn at the counter (log entry 29). -/
@[noinline] def State.latency (s : State) (n : Nat) : Nat := min n (Config.latency s.freeCount n)
/-- The counter of free values advances (log entry 4). -/
def State.drawn (s : State) : State := { s with freeCount := s.freeCount + 1 }

/-! Agents and contexts (R18 to R24). -/

/-- The context slot, rank and gang that hold core c. -/
def State.ctx (s : State) (d c : Nat) : Option (Nat × Nat × Gang) :=
  match (s.core d c).ctx with
  | none => none
  | some (slot, rank) => (s.gang d slot).map (fun g => (slot, rank, g))

/-- The agent id of class cls for a context (R21, R22). -/
def agentOf (cls slot rank : Nat) : Nat := cls * 4096 + slot * 64 + rank
/-- The class of an agent id. -/
def agentClass (a : Nat) : Nat := a / 4096
/-- The context slot of an agent id of class 0 to 2. -/
def agentSlot (a : Nat) : Nat := a / 64 % 64
/-- The agent id of link port p. -/
def portAgent (p : Nat) : Nat := 3 * 4096 + p
/-- The agent id of the sampler. -/
def samplerAgent : Nat := 4 * 4096
/-- The agent id of Ethernet port n. -/
def etherAgent (n : Nat) : Nat := 5 * 4096 + n
/-- The agent id of another die. -/
def dieAgent (d : Nat) : Nat := 6 * 4096 + d
/-- The agent id of a tenant's pool. -/
def poolAgent (t : Nat) : Nat := 7 * 4096 + t

/-- An agent id that R22 admits. -/
def agentOk (a : Nat) : Bool :=
  let cls := a / 4096
  let ix := a % 4096
  match cls with
  | 0 | 1 | 2 => true
  | 3 => ix ≤ 8
  | 4 => ix == 0
  | 5 => ix ≤ 1
  | 6 => true
  | 7 => ix ≤ 7
  | _ => false

/-- Do the strands and engines of a gang in a phase run: it has issued, and no stop has reached it (R294)? -/
def GangPhase.active : GangPhase → Bool
  | .running | .halting _ _ => true
  | _ => false

/-- Does the gang that holds core c run? -/
def State.gangRuns (s : State) (d c : Nat) : Bool :=
  match s.ctx d c with
  | some (_, _, g) => g.phase.active
  | none => false

/-- Is the context of core c in a Locked-mode launch (R3)? -/
def State.locked (s : State) (d c : Nat) : Bool :=
  match s.ctx d c with
  | some (_, _, g) => g.locked
  | none => false

/-- Is the launch of core c marked deterministic (R57)? -/
def State.det (s : State) (d c : Nat) : Bool :=
  match s.ctx d c with
  | some (_, _, g) => g.det
  | none => false

/-- START of the launch that holds core c. -/
def State.launchStart (s : State) (d c : Nat) : Nat :=
  match s.ctx d c with
  | some (_, _, g) => g.start
  | none => 0

/-- The tenant that core c runs for. -/
def State.tenantOf (s : State) (d c : Nat) : Nat :=
  match s.ctx d c with
  | some (_, _, g) => g.tenant
  | none => (match (s.core d c).was with
    | some (_, _, t) => t
    | none => 0)

/-- The context slot and rank for which a core acts: of its context, or of the one that has retired (R52). -/
def Core.place (y : Core) : Option (Nat × Nat) :=
  match y.ctx with
  | some e => some e
  | none => y.was.map (fun w => (w.1, w.2.1))

/-- The class 0 agent id of core c's context. -/
def State.coreAgent (s : State) (d c : Nat) : Nat :=
  match (s.core d c).place with
  | some (slot, rank) => agentOf 0 slot rank
  | none => 0

/-- The agent ids under which core c acts in a class, its own first (R24). -/
def State.agentsOf (s : State) (d c cls : Nat) : List Nat :=
  match (s.core d c).place with
  | some (slot, rank) => if cls = 0 then [agentOf 0 slot rank] else [agentOf cls slot rank, agentOf 0 slot rank]
  | none => []

/-- How many of the units n, n + 1, ... below hi satisfy a test: the number of groups or clamps with a selected core. -/
def countUnits (sel : Nat → Bool) : Nat → Nat → Nat
  | 0, _ => 0
  | n + 1, i => (if sel i then 1 else 0) + countUnits sel n (i + 1)

/-- `%group`, `%clamp`, `%core` of core c among a gang's cores (R19). -/
def logicalIds (cores : List Nat) (c : Nat) : Nat × Nat × Nat :=
  let has (p : Nat → Bool) : Bool := cores.any p
  (countUnits (fun g => has (fun x => x / 16 == g)) (c / 16) 0,
   countUnits (fun m => has (fun x => x / 4 == m)) (c / 4 - 4 * (c / 16)) (4 * (c / 16)),
   countUnits (fun x => cores.contains x) (c - 4 * (c / 4)) (4 * (c / 4)))

/-! Registers (R104, R105). -/

/-- A word with the residues of its halves (R105). -/
def SReg.of (v : Word) : SReg := { val := v, lo := residue32 (low32 v), hi := residue32 (high32 v) }

/-- Do the residues match (R105)? -/
def SReg.ok (r : SReg) : Bool := r.lo == residue32 (low32 r.val) && r.hi == residue32 (high32 r.val)

/-- Does the residue of the low half match? -/
def SReg.lowOk (r : SReg) : Bool := r.lo == residue32 (low32 r.val)

/-- A scalar register with its residues; s0 reads zero (R104). -/
def Strand.sreg (z : Strand) (r : Reg) : SReg := if r = 0 then SReg.zero else Tab.get z.regs r.val SReg.zero
/-- The value of a scalar register. -/
def Strand.reg (z : Strand) (r : Reg) : Word := (z.sreg r).val
/-- Write a scalar register with residues; a write to s0 is discarded (R104). -/
def Strand.setSReg (z : Strand) (r : Reg) (v : SReg) : Strand :=
  if r = 0 then z else { z with regs := Tab.set z.regs r.val v }
/-- Write a scalar register, its residues formed from the value. -/
def Strand.setReg (z : Strand) (r : Reg) (v : Word) : Strand := z.setSReg r (SReg.of v)
/-- The value of scalar register r of the strand at a place. -/
def State.reg (s : State) (p : At) (r : Reg) : Word := (s.strand p).reg r
/-- Write scalar register r of the strand at a place. -/
def State.setReg (s : State) (p : At) (r : Reg) (v : Word) : State := s.modStrand p (fun z => z.setReg r v)

/-- The physical vector register of a name (R112). -/
def Strand.vphys (z : Strand) (v : VReg) : Nat :=
  if v.val < 16 then v.val else z.vbase.toNat + (v.val - 16 + z.vrot.toNat) % z.vsize.toNat
/-- Is the name inside the window (R66)? -/
def Strand.vnameOk (z : Strand) (v : VReg) : Bool := v.val < 16 + z.vsize.toNat
/-- The physical predicate of a name (R115). -/
def Strand.pphys (z : Strand) (q : PReg) : Nat :=
  if q.val < 8 then q.val else z.pbase.toNat + (q.val - 8 + z.prot.toNat) % 8

/-- A vector of zeros. -/
def zeroVec : List W32 := List.replicate 1024 0#32

/-- A physical vector register (R112). -/
def Core.vreg (y : Core) (n : Nat) : List W32 := Tab.get y.vregs n zeroVec
/-- Write a physical vector register. -/
def Core.setVreg (y : Core) (n : Nat) (v : List W32) : Core := { y with vregs := Tab.set y.vregs n v }
/-- A physical predicate; physical 0 is all true (R115). -/
def Core.pred (y : Core) (n : Nat) : BitVec 1024 := if n = 0 then BitVec.allOnes 1024 else Tab.get y.preds n 0
/-- Write a physical predicate; a write to physical 0 is discarded (R115). -/
def Core.setPred (y : Core) (n : Nat) (v : BitVec 1024) : Core :=
  if n = 0 then y else { y with preds := Tab.set y.preds n v }

/-- Set sticky status bits of the strand at a place (R108). -/
def State.orStatus (s : State) (p : At) (st : Status) : State :=
  s.modStrand p (fun z => { z with status := z.status ||| st })

/-! Address spaces (R175 to R178). -/

/-- Bytes of a scratchpad. -/
def spadSize : Nat := 0x400000
/-- Bytes of an instruction memory. -/
def imemSize : Nat := 0x40000
/-- A scratchpad address of offset 0 (R175). -/
def spadAddr : Nat := 0x8000000000000000

/-- The pod address of byte off of core c's scratchpad on die d (R177, R178). -/
def spadVa (d c off : Nat) : Nat := d * 2 ^ 48 + c * spadSize + off
/-- The die a pod address names. -/
def vaDie (va : Nat) : Nat := va / 2 ^ 48 % 4096
/-- The 48 bits below the die. -/
def vaLow (va : Nat) : Nat := va % 2 ^ 48
/-- Does it lie in translated space (R177)? -/
def vaTranslated (va : Nat) : Bool := va / 2 ^ 47 % 2 == 1

/-- The core and offset that a scratchpad address of the direct window names. -/
def vaSpad (va : Nat) : Option (Nat × Nat) :=
  if vaLow va < 64 * spadSize then some (vaLow va / spadSize, vaLow va % spadSize) else none

/-- The code of a cause (R288). -/
def Cause.code : Cause → Nat
  | .illegalOp => 0x01 | .illegalLen => 0x02 | .reservedField => 0x03 | .operandOverlap => 0x04 | .windowName => 0x05
  | .fetchInvalid => 0x06 | .spadBounds => 0x08 | .queueUnderflow => 0x09 | .unowned => 0x10 | .brandState => 0x11
  | .forfeit => 0x12 | .exitHeld => 0x13 | .sparseMeta => 0x18 | .shadowInvalid => 0x19 | .planeTag => 0x1A
  | .matrixCheck => 0x1B | .copyPage => 0x20 | .copyChecksum => 0x21 | .timingLate => 0x28 | .timingUnmatched => 0x29
  | .planConflict => 0x2A | .launchFailed => 0x2B | .segSignature => 0x30 | .segCycles => 0x31 | .residue => 0x32
  | .tlbiWatchdog => 0x38 | .rngOverlap => 0x3C | .softTrap => 0x40 | .syscall => 0x41 | .preempt => 0x48
  | .engineFault => 0x50 | .timeFault => 0x60 | .portFailed => 0x61

/-- The strands of a core. -/
def strandIds : List Nat := [0, 1, 2, 3]

/-- Apply a change for each number of a list, in order. -/
def State.each (s : State) (l : List Nat) (f : State → Nat → State) : State := l.foldl f s

end Sys2Proof.Machine
end

