-- ==== Sys2Proof/Machine/BrandTable.lean ====
section
/-!
DEFINITION. The brand table: an entry's words as the management agent reads them (R201), the change of an entry (R202), proxies and
free indexes (R207, R211), and the state table of R207 with R208, R210, R220 and R221.
-/
namespace Sys2Proof.Machine

/-! The words of an entry (R201). -/

/-- The code of STATE. -/
def BState.code : BState → Nat
  | .free => 0 | .owned => 1 | .lent => 2 | .shared => 3 | .atomic => 4 | .forfeit => 5

/-- The four words of an entry. -/
def Brand.words (b : Brand) : List Nat :=
  [b.hdie * 2 ^ 48 + b.base / 2 ^ 8 * 2 ^ 8 + b.lsize,
   b.title * 2 ^ 48 + b.cur * 2 ^ 32 + b.shr * 2 ^ 24 + b.tenant * 2 ^ 21 + (if b.home then 2 ^ 20 else 0)
     + (if b.proxy then 2 ^ 19 else 0) + b.state.code * 2 ^ 16 + b.pxidx,
   b.gen,
   (if b.inslot then 2 ^ 7 else 0) + (if b.outgoing then 2 ^ 6 else 0) + b.slot]

/-- The 32 bytes of an entry. -/
def Brand.bytes (b : Brand) : List Byte := b.words.flatMap (leBytes 8)

/-! The change of an entry. -/

/-- An entry changes: its generation advances, and at the wrap the cache forgets the index (R202). -/
def Die.changeBrand (x : Die) (i : Nat) (b : Brand) : Die :=
  let g := ((x.brand i).gen + 1) % 2 ^ 32
  let x1 := x.setBrand i { b with gen := g }
  if g = 0 then
    { x1 with clamps := x1.clamps.map (fun e => (e.1, { e.2 with cache := e.2.cache.filter (fun l => l.idx != i) })) }
  else x1

/-- An entry of the table made FREE, its share records gone. -/
def Die.freeBrand (x : Die) (i : Nat) : Die :=
  { x.changeBrand i Brand.free with shares := x.shares.filter (fun r => r.idx != i) }

/-- A FORFEIT entry becomes OWNED by its title (R217). -/
def Die.regain (x : Die) (i : Nat) : Die :=
  if (x.brand i).state = .forfeit then x.changeBrand i { x.brand i with state := .owned } else x

/-- Does a live entry cover byte va (48 bits) of die hd (R202)? -/
def Brand.covers (b : Brand) (hd va : Nat) : Bool :=
  b.state != .free && b.hdie == hd && b.base ≤ va && va < b.base + 2 ^ b.lsize

/-- May one of the agents use a share record of entry idx (R24, R208)? -/
def Share.permits (r : Share) (idx : Nat) (agents : List Nat) : Bool :=
  r.idx == idx && agents.any (fun a => a == r.agent || (r.gang && agentClass a ≤ 2 && agentSlot a == agentSlot r.agent))

/-! Proxies and free indexes (R207, R211). -/

/-- The proxy on a die of entry i of die hd. -/
def Die.proxyOf (x : Die) (hd i : Nat) : Option Nat :=
  (x.brands.find? (fun e => e.2.state != .free && e.2.proxy && e.2.hdie == hd && e.2.pxidx == i)).map Prod.fst

/-- The lowest free index of a pool from i on, count given: FREE, and set aside for no proxy. -/
def Die.freeFrom (x : Die) : Nat → Nat → Option Nat
  | 0, _ => none
  | n + 1, i => if (x.brand i).state = .free ∧ x.pledged.any (fun e => e.1 == i) = false then some i else x.freeFrom n (i + 1)

/-- The lowest free index of a tenant's pool (R207, R211). -/
def Die.freeIndex (x : Die) (t : Nat) : Option Nat :=
  match Tab.find x.tenants t with
  | none => none
  | some te => x.freeFrom (te.cfg.poolLast + 1 - te.cfg.poolFirst) te.cfg.poolFirst

/-- Entries of a share table (R208). -/
def shareTable : Nat := 16384

/-- Entries of a die's share table in use: its records, those put by with a saved context, and those set aside (R208, R211). -/
def Die.shareCount (x : Die) : Nat :=
  x.shares.length + (x.gangs.flatMap (fun g => g.2.saved.flatMap (fun sc => sc.shares))).length
    + (x.pledged.filter (fun e => e.2)).length

/-- Roles that an operation may give to an agent. -/
inductive Role where
  | title | cur | share
  deriving DecidableEq, Repr

/-! Operands and roles. -/

/-- The brand a command names, and a second one. -/
def BrandOp.names : BrandOp → List Nat
  | .claim _ _ | .slotRead _ => []
  | .join n m => [n, m]
  | .fate n _ _ _ => [n]
  | .free n | .lend n _ | .ret n | .xfer n _ | .split n | .share n _ | .atomic n | .unshare n | .query n | .slotSwitch n _ => [n]

/-- The target of an operation and the role it receives. -/
def BrandOp.gives : BrandOp → Option (Nat × Role)
  | .lend _ t => some (t, .cur)
  | .xfer _ t => some (t, .title)
  | .share _ t => some (t, .share)
  | _ => none

/-- The die and the table index of a brand name. -/
def nameDie (n : Nat) : Nat := n / 65536 % 4096
/-- The table index of a brand name. -/
def nameIdx (n : Nat) : Nat := n % 65536
/-- The global name of an entry (R200). -/
def nameOf (d i : Nat) : Nat := d * 65536 + i

/-- The home die of an operation (R212). -/
def BrandOp.home (d : Nat) : BrandOp → Nat
  | .claim a _ => vaDie a
  | .slotRead _ | .slotSwitch _ _ => d
  | op => nameDie (op.names.headD 0)

/-- Is the agent the borrower of an entry? -/
def Brand.borrower (b : Brand) (a : Nat) : Bool := b.state == .lent && b.cur == a

/-- The first share record of entry i that an agent may use (R208; log entry 74). -/
def recordOf (shares : List Share) (i a : Nat) : Option Share := shares.find? (fun r => r.permits i [a])

/-- The operation with its brands renamed. -/
def BrandOp.rename (f : Nat → Nat) : BrandOp → BrandOp
  | .claim a l => .claim a l
  | .free n => .free (f n)
  | .lend n t => .lend (f n) t
  | .ret n => .ret (f n)
  | .xfer n t => .xfer (f n) t
  | .split n => .split (f n)
  | .join n m => .join (f n) (f m)
  | .share n t => .share (f n) t
  | .atomic n => .atomic (f n)
  | .unshare n => .unshare (f n)
  | .query n => .query (f n)
  | .slotRead k => .slotRead k
  | .slotSwitch n k => .slotSwitch (f n) k
  | .fate n a b c => .fate (f n) a b c

/-! The state table (R207). -/

/-- A region of an entry meets another. -/
def Brand.overlaps (b : Brand) (base size : Nat) : Bool := b.base < base + size && base < b.base + 2 ^ b.lsize

/-- What an operation on the table answers: a cause with an entry to hand back, or the table with the result values. -/
abbrev TableOut := Except (Cause × Option Nat) (Die × List Nat)

/-- An operation that is refused (R207). -/
def refuse (role : Bool) : TableOut := .error (if role then .brandState else .unowned, none)

/-- BCLAIM at the table (R207, R217; log entry 73). -/
def Die.claim (x : Die) (hd t ia base lsize : Nat) : TableOut :=
  let live := x.brands.filter (fun e => e.2.state != .free && !e.2.proxy && e.2.tenant == t)
  match live.find? (fun e => e.2.overlaps base (2 ^ lsize)) with
  | some (i, b) =>
    if b.state == .forfeit && agentClass b.title == 7 && b.base == base && b.lsize == lsize then
      .ok (x.changeBrand i { b with state := .owned, title := ia, cur := ia }, [nameOf hd i])
    else refuse true
  | none =>
    match x.freeIndex t with
    | none => refuse true
    | some i =>
      .ok (x.changeBrand i { Brand.free with hdie := hd, base := base, lsize := lsize, title := ia, cur := ia, tenant := t,
                                             state := .owned }, [nameOf hd i])

/-- Does an index lie in another tenant's pool (R207)? -/
def Die.otherPool (x : Die) (t i : Nat) : Bool :=
  x.tenants.any (fun e => e.1 != t && e.2.cfg.poolFirst ≤ i && i ≤ e.2.cfg.poolLast)

/-- The entry that a name gives, or why it gives none (R207, R217). -/
def Die.named (x : Die) (t ia i : Nat) : Except (Cause × Option Nat) Brand :=
  let b := x.brand i
  if x.otherPool t i || (b.state != .free && b.tenant != t) then .error (.unowned, none)
  else if b.state == .free || b.proxy then .error (.brandState, none)
  else if b.state == .forfeit then .error (.forfeit, if b.title == ia then some i else none)
  else .ok b

/-- The issuer has a role in the entry. -/
def Die.hasRole (x : Die) (i a : Nat) : Bool :=
  let b := x.brand i
  b.title == a || b.borrower a || (recordOf x.shares i a).isSome

/-- The entry changes, and its new generation is the result. -/
def Die.answerGen (x : Die) (i : Nat) (b : Brand) : TableOut :=
  let x1 := x.changeBrand i b
  .ok (x1, [(x1.brand i).gen])

/-- A share record goes, with what its end brings (R207, R218). -/
def Die.unshareOne (x : Die) (i : Nat) (r : Share) : TableOut :=
  let b := x.brand i
  let x1 : Die := { x with shares := x.shares.erase r }
  let n := b.shr - 1
  if n != 0 then x1.answerGen i { b with shr := n }
  else if agentClass b.title != 7 then x1.answerGen i { b with shr := 0, state := .owned }
  else if b.outgoing then x1.answerGen i Brand.free
  else x1.answerGen i { b with shr := 0 }

/-- The query word (R210). -/
def Brand.query (b : Brand) : Nat :=
  b.title * 2 ^ 48 + b.cur * 2 ^ 32 + b.shr * 2 ^ 24
    + b.state.code * 2 ^ 21
    + (if b.home then 2 ^ 20 else 0) + b.gen % 2 ^ 20

/-- BJOIN at the table (R207). -/
def Die.join (x : Die) (hd t ia n m : Nat) : TableOut :=
  let i := nameIdx n
  let j := nameIdx m
  match x.named t ia i with
  | .error e => .error e
  | .ok b =>
    if nameDie m ≠ nameDie n then refuse true
    else
      match x.named t ia j with
      | .error e => .error e
      | .ok f =>
        let lo := if b.base < f.base then i else j
        let hi := if b.base < f.base then j else i
        let l := x.brand lo
        if i ≠ j && b.title == ia && f.title == ia && b.state == .owned && f.state == .owned && b.home == f.home
            && b.lsize == f.lsize && l.base % 2 ^ (b.lsize + 1) == 0 && (x.brand hi).base == l.base + 2 ^ b.lsize then
          .ok ((x.changeBrand lo { l with lsize := l.lsize + 1 }).changeBrand hi Brand.free, [nameOf hd lo])
        else refuse (x.hasRole i ia && x.hasRole j ia)

/-- SLOTRD at the table (R220). -/
def Die.readSlot (x : Die) (t ia slot : Nat) : TableOut :=
  match (Tab.find x.tenants t).bind (fun te => (Tab.get te.wslots slot WSlot.reset).current) with
  | none => .error (.unowned, none)
  | some n =>
    let i := nameIdx n
    let b := x.brand i
    if b.state != .shared || b.shr == 255 || shareTable ≤ x.shareCount then refuse true
    else
      let x1 : Die := { x with shares := x.shares ++ [{ agent := ia, gang := true, idx := i }] }
      .ok (x1.changeBrand i { b with shr := b.shr + 1 }, [b.hdie * 2 ^ 48 + b.base, n])

/-- SLOTSW at the table, for a gang of a context slot (R221). -/
def Die.switchSlot (x : Die) (hd t ia gslot n slot : Nat) : TableOut :=
  if nameDie n ≠ hd then .error (.reservedField, none)
  else
    match x.named t ia (nameIdx n), Tab.find x.tenants t with
    | .error e, _ => .error e
    | .ok _, none => .error (.unowned, none)
    | .ok b, some te =>
      let w := Tab.get te.wslots slot WSlot.reset
      if !(b.title == ia && b.state == .owned && b.shr == 0 && !b.inslot) || w.pending.isSome then refuse true
      else
        let x1 := x.changeBrand (nameIdx n)
          { b with state := .shared, title := poolAgent t, cur := poolAgent t, inslot := true, outgoing := false, slot := slot }
        let te1 := { te with wslots := Tab.set te.wslots slot { w with pending := some n, by_ := gslot } }
        .ok ({ x1 with tenants := Tab.set x1.tenants t te1 }, [])

/-- An operation at the table of its home die (R207): its issuer and the holder of a given role as the table records them; `same`
says that the target is the issuer. -/
def Die.table (x : Die) (hd t ia gslot holder : Nat) (same : Bool) : BrandOp → TableOut
  | .claim a lsize => x.claim hd t ia (vaLow a) lsize
  | .join n m => x.join hd t ia n m
  | .slotRead slot => x.readSlot t ia slot
  | .slotSwitch n slot => x.switchSlot hd t ia gslot n slot
  | op =>
    let i := nameIdx (op.names.headD 0)
    match x.named t ia i with
    | .error e => .error e
    | .ok b =>
      let role := x.hasRole i ia
      let title := b.title == ia
      let owned := title && b.state == .owned
      match op with
      | .free _ => if owned && !b.home && !b.inslot then x.answerGen i Brand.free else refuse role
      | .lend _ _ => if owned && !same then x.answerGen i { b with state := .lent, cur := holder } else refuse role
      | .ret _ => if b.borrower ia then x.answerGen i { b with state := .owned, cur := b.title } else refuse role
      | .xfer _ _ => if owned && !same && !b.inslot then x.answerGen i { b with title := holder, cur := holder } else refuse role
      | .split _ =>
        match x.freeIndex t with
        | some j =>
          if owned && 8 < b.lsize then
            let low : Brand := { b with lsize := b.lsize - 1 }
            .ok ((x.changeBrand i low).changeBrand j
              { low with base := b.base + 2 ^ (b.lsize - 1), inslot := false, outgoing := false, slot := 0 }, [nameOf hd j])
          else refuse role
        | none => refuse role
      | .share _ _ =>
        if title && (b.state == .owned || (b.state == .shared && b.shr < 255)) && !same && x.shareCount < shareTable then
          Die.answerGen { x with shares := x.shares ++ [{ agent := holder, gang := false, idx := i }] } i
            { b with state := .shared, shr := b.shr + 1 }
        else refuse role
      | .atomic _ => if owned then x.answerGen i { b with state := .atomic } else refuse role
      | .unshare _ =>
        if b.state == .atomic then (if title then x.answerGen i { b with state := .owned } else refuse role)
        else
          match b.state, recordOf x.shares i ia with
          | .shared, some r => x.unshareOne i r
          | _, _ => refuse role
      | .query _ => .ok (x, [b.query])
      | _ => refuse role

/-- The entry of this die's table for a brand name: the entry itself, or its proxy (R211). -/
def Die.localEntry (x : Die) (d n : Nat) : Option Nat := if nameDie n = d then some (nameIdx n) else x.proxyOf (nameDie n) (nameIdx n)

/-! Pending operations (R206). -/

/-- The brand operations of a core that have not changed their entries, of those issued before command number `before`. -/
def Core.pendingOps (y : Core) (before : Nat) : List BrandOp :=
  y.brandQ.filterMap (fun m => match m.body with
    | .brand op _ => if m.id < before ∧ m.stage ≠ .pushing then some op else none
    | _ => none)

/-- The table of die d as though an operation of an agent of it had completed; a proxy stands for its home entry (R206, R211). -/
def Die.asDone (x : Die) (d t agent : Nat) (op : BrandOp) : Die :=
  let far := op.names.filterMap (fun n => if nameDie n = d then none else x.proxyOf (nameDie n) (nameIdx n))
  let x1 := far.foldl (fun x j => x.setBrand j { x.brand j with proxy := false }) x
  let op1 := op.rename (fun n => match x.localEntry d n with
    | some j => nameOf d j
    | none => n)
  let (same, holder) : Bool × Nat := match op.gives with
    | none => (false, 0)
    | some (target, _) =>
      let td := target / 65536 % 4096
      (td == d && target % 65536 == agent, if td = d then target % 65536 else dieAgent td)
  if op1.names.any (fun n => nameDie n != d) then x
  else
    match x1.table d t agent (agentSlot agent) holder same op1 with
    | .ok (x2, _) => x2
    | .error _ => x

end Sys2Proof.Machine
end

