-- ==== Sys2Proof/Machine/Records.lean ====
section
/-!
DEFINITION. Records: event records and their rings (R303, R304), engine records (R289, R291) and error records (R306).
-/
namespace Sys2Proof.Machine

/-- The KIND code of an event record (R303). -/
def EvKind.code : EvKind → Nat
  | .launchFail => 1 | .retired => 2 | .failed => 3 | .pageFault => 4 | .preempted => 5 | .resumed => 6 | .abort => 7
  | .orphan => 8 | .intake => 9 | .digest => 10

/-- A record of a kind with every optional field at the value it has when it does not apply (R304). -/
def EventRec.blank (kind : EvKind) : EventRec :=
  { seq := 0, tick := 0, kind := kind, cause := 0, die := 0, tenant := 0, cslot := 0xFF, rank := 0xFF, strand := 0xFF,
    agent := 0, entry := 0, pc := 0, info := 0, va := 0, progress := 0 }

/-- An event of a tenant on die d; it reaches the ring at the end of the tick, in the order of R303. -/
def State.event (s : State) (d t : Nat) (r : EventRec) : State :=
  s.modDie d (fun e => { e with events := e.events ++ [{ r with tick := e.tick, die := d, tenant := t }] })

/-- Does record a go before record b of the same tick (R303)? -/
def EventRec.before (a b : EventRec) : Bool :=
  if a.agent != b.agent then a.agent < b.agent
  else if a.entry != b.entry then a.entry < b.entry
  else if a.kind.code != b.kind.code then a.kind.code < b.kind.code
  else a.cslot < b.cslot

/-- Put a record into an ordered list, after those it does not go before. -/
def insertEvent (r : EventRec) : List EventRec → List EventRec
  | [] => [r]
  | x :: xs => if r.before x then r :: x :: xs else x :: insertEvent r xs

/-- Write a record into its tenant's ring (R303). -/
def Die.ringWrite (x : Die) (r : EventRec) : Die :=
  match Tab.find x.tenants r.tenant with
  | none => x
  | some t =>
    let ring := Tab.set t.ring (t.seq % 2 ^ t.cfg.ringLog) { r with seq := t.seq }
    { x with tenants := Tab.set x.tenants r.tenant { t with seq := t.seq + 1, ring := ring } }

/-- The tick's records go to their rings (R303). -/
def Die.flushEvents (x : Die) : Die :=
  let sorted := x.events.foldl (fun l r => insertEvent r l) []
  { sorted.foldl Die.ringWrite x with events := [] }

/-- The 64 bytes of an event record (R303). -/
def EventRec.bytes (r : EventRec) : List Byte :=
  leBytes 8 r.seq ++ leBytes 8 r.tick ++ leBytes 1 r.kind.code ++ leBytes 1 r.cause ++ leBytes 2 r.die ++ leBytes 1 r.tenant
    ++ leBytes 1 r.cslot ++ leBytes 1 r.rank ++ leBytes 1 r.strand ++ leBytes 2 r.agent ++ leBytes 2 r.entry ++ leBytes 4 r.pc
    ++ leBytes 8 r.info ++ leBytes 8 r.va ++ leBytes 8 r.progress ++ leBytes 8 0

/-- The engine record word of R289. -/
def EngRec.word (r : EngRec) : Nat :=
  r.progress % 2 ^ 32 * 2 ^ 32 + r.cpc % 2 ^ 18 * 2 ^ 12 + (if r.nopush then 2 ^ 11 else 0) + r.queue * 2 ^ 8 + r.cause.code

/-- The event record that an engine record for an exited strand becomes (R291). -/
def State.orphan (s : State) (d c : Nat) (r : EngRec) : State :=
  match (s.core d c).place with
  | none => s
  | some (slot, rank) =>
    s.event d (s.tenantOf d c)
      { EventRec.blank .orphan with agent := agentOf 0 slot rank, pc := r.cpc, info := r.word, cslot := slot, rank := rank }

/-- Does a record stand before another: it arose in an earlier tick, or in the same one in a lower queue, or for a command of the
queue that was accepted before (R291)? -/
def EngRec.before (a b : EngRec) : Bool :=
  a.tick < b.tick || (a.tick == b.tick && (a.queue < b.queue || (a.queue == b.queue && a.cmd ≤ b.cmd)))

/-- Put an engine record among those that wait. -/
def insertRecord (r : EngRec) : List EngRec → List EngRec
  | [] => [r]
  | x :: xs => if x.before r then x :: insertRecord r xs else r :: x :: xs

/-- The records that a core keeps; its engines hold those beyond the sixteenth (R291). -/
def Core.keptRecords (y : Core) : List EngRec := y.records.take 16

/-- An engine record arises: it waits for its strand, or becomes an ORPHAN when the strand has exited (R291). -/
def State.engRecord (s : State) (d c : Nat) (r : EngRec) : State :=
  let r1 := { r with tick := s.now d }
  if ((s.core d c).strand r.strand).exited then s.orphan d c r1
  else s.modCore d c (fun y => { y with records := insertRecord r1 y.records })

/-- An error record with its detail enters the die's log, which keeps the last 1,024 (R306). Its cause is a code of R288 or one of 0x60
to 0x63. -/
def State.logError (s : State) (d sev cause agent tenant port addr : Nat) (detail : List Byte) : State :=
  let x := s.die d
  let r : ErrRec :=
    { sev := sev, cause := cause, agent := agent, tenant := tenant, port := port, seq := x.errSeq, tick := x.tick, addr := addr,
      detail := detail, ptp := Config.ptpTime d x.tick }
  { s.setDie d { x with errSeq := x.errSeq + 1, errlog := (r :: x.errlog).take 1024 } with freeCount := s.freeCount + 1 }

/-- An error record whose detail the spec leaves open (R306; log entry 7). -/
def State.errRecord (s : State) (d sev cause agent tenant port addr : Nat) : State :=
  s.logError d sev cause agent tenant port addr (Config.errorDetail s.freeCount)

/-- The error record of an injection that has fired, whose detail gives its kind, 0 for FLIP, 1 for RESID and 2 for STALL, its core and
its operands (R308). -/
def State.injected (s : State) (d t agent addr kind core : Nat) (operands : List Nat) : State :=
  s.logError d 0 0x63 agent t 0xFF addr (Config.injectionDetail kind core operands)

/-- The 64 bytes of an error record (R306). -/
def ErrRec.bytes (d : Nat) (r : ErrRec) : List Byte :=
  let b := leBytes 6 r.ptp.1 ++ leBytes 2 0 ++ leBytes 4 r.ptp.2 ++ leBytes 1 r.sev ++ leBytes 1 r.cause ++ leBytes 2 d
    ++ leBytes 2 r.agent ++ leBytes 1 r.tenant ++ leBytes 1 r.port ++ leBytes 4 r.seq ++ leBytes 8 r.tick ++ leBytes 8 r.addr
    ++ r.detail.take 20 ++ List.replicate (20 - r.detail.length) 0#8
  b ++ leBytes 4 (~~~(crcUpdate 0xFFFFFFFF#32 b)).toNat

end Sys2Proof.Machine
end

