-- ==== Sys2Proof/Machine/Rights.lean ====
section
/-!
DEFINITION. Brands as rights (R24, R203, R206, R217, R297): what an access under an entry meets, and the same over a range.
-/
namespace Sys2Proof.Machine

/-- What an access wants. -/
inductive Access where
  | read | write | atom
  deriving DecidableEq, Repr

/-- What an access meets: it is permitted, it fails (with the FORFEIT entry that the failing access hands back, if any), or it
waits for a pre-empted context (R297). -/
inductive Verdict where
  | ok
  | bad (c : Cause) (handBack : Option Nat)
  | hold
  deriving DecidableEq, Repr

/-- The outcome of R203 for agents of the entry's tenant; outside an ATOMIC region an ATOM is a read and a write (log entry 11). -/
def judgeEntry (b : Brand) (idx : Nat) (shares : List Share) (agents : List Nat) (acc : Access) : Verdict :=
  let title := agents.contains b.title
  match b.state with
  | .free => .bad .unowned none
  | .owned => if title then .ok else .bad .unowned none
  | .lent => if agents.contains b.cur then .ok else if title then .bad .brandState none else .bad .unowned none
  | .shared =>
    if title || shares.any (fun r => r.permits idx agents) then (if acc = .read then .ok else .bad .brandState none)
    else .bad .unowned none
  | .atomic => if acc = .atom then .ok else if title then .bad .brandState none else .bad .unowned none
  | .forfeit => .bad .forfeit (if title && b.title == b.cur then some idx else none)

/-- Does core p of the die hold a scratchpad that belongs to a saved context of the tenant (R297)? -/
def spadSaved (x : Die) (t p : Nat) : Bool :=
  x.gangs.any (fun g => g.2.tenant == t && g.2.saved.any (fun sc => sc.core == p && sc.withSpad))

/-- Judge len bytes from va on die hd with entries of tenant t, entry by entry; the count bounds the entries met. Where the entries
of die `here` cover no byte, its agents hold no role under the entry of the home die, whose table is given for another die. -/
def judgeFrom (x : Die) (here hd t : Nat) (agents : List Nat) (acc : Access) (home : List (Nat × Brand)) : Nat → Nat → Nat → Verdict
  | 0, _, _ => .ok
  | n + 1, va, len =>
    if len = 0 then .ok
    else
      let go (b : Brand) : Verdict :=
        let done := b.base + 2 ^ b.lsize - va
        judgeFrom x here hd t agents acc home n (va + done) (len - done)
      match x.brands.find? (fun e => e.2.tenant == t && e.2.covers hd va) with
      | none =>
        (match home.find? (fun e => e.2.tenant == t && !e.2.proxy && e.2.covers hd va) with
          | none => .bad .unowned none
          | some (_, b) => (match judgeEntry b 0 [] [] acc with
            | .ok => go b
            | v => v))
      | some (idx, b) =>
        match judgeEntry b idx x.shares agents acc with
        | .ok => if hd == here && va < 64 * spadSize && spadSaved x t (va / spadSize) then .hold else go b
        | v => v

/-- Judge an access of agents of tenant t, from die d with a table, to len bytes at a pod address (R203). -/
def State.judgeIn (s : State) (x : Die) (d t : Nat) (agents : List Nat) (acc : Access) (va len : Nat) : Verdict :=
  let home := if vaDie va ≠ d ∧ s.pod.members.contains (vaDie va) = true then (s.die (vaDie va)).brands else []
  judgeFrom x d (vaDie va) t agents acc home (len / 256 + 2) (vaLow va) len

/-- The table of a core's die with the operations that it issued before a command done (R206). -/
def State.tableAfter (s : State) (d c before : Nat) : Die :=
  ((s.core d c).pendingOps before).foldl (fun x op => x.asDone d (s.tenantOf d c) (s.coreAgent d c) op) (s.die d)

/-- Judge an access of agents of tenant t from die d (R203). Of a core, the command number says which of its brand operations were
issued before: the access is made under the rights that stand and that those operations leave (R206, R323). -/
def State.judge (s : State) (d t : Nat) (agents : List Nat) (core : Option (Nat × Nat)) (acc : Access) (va len : Nat) : Verdict :=
  match s.judgeIn (s.die d) d t agents acc va len, core with
  | .ok, some (c, before) =>
    if (s.core d c).pendingOps before = [] then .ok else s.judgeIn (s.tableAfter d c before) d t agents acc va len
  | v, _ => v

/-! The brand window (R204). -/

/-- The entries of a tenant that cover part of a range, proxies too. -/
def Die.entryIds (x : Die) (t va len : Nat) : List Nat :=
  (x.brands.filter (fun e => e.2.tenant == t && e.2.state != .free && e.2.hdie == vaDie va && e.2.base < vaLow va + len
    && vaLow va < e.2.base + 2 ^ e.2.lsize)).map Prod.fst

/-- An entry is the one used last; the least recently used of more than 16 goes. -/
def useEntry (l : List Nat) (i : Nat) : List Nat := (i :: l.filter (fun j => j != i)).take 16

/-- The window after checks under some entries, of which some may stay in it, when it holds each of them or a lookup of it has ended. -/
def Core.seek (y : Core) (now : Nat) (ids : List Nat) (stays : Nat → Bool) : Option Core :=
  if ids.all (fun i => y.window.contains i || y.lookups.any (fun l => l.1 == i && l.2 ≤ now)) then
    some { y with window := (ids.filter stays).foldl useEntry y.window, lookups := y.lookups.filter (fun l => !ids.contains l.1) }
  else none

/-- Lookups of the entries that the window misses begin: each takes 24 cycles. -/
def Core.lookUp (y : Core) (now : Nat) (ids : List Nat) : Core :=
  { y with lookups := y.lookups ++
      (ids.filter (fun i => !y.window.contains i && !y.lookups.any (fun l => l.1 == i))).map (fun i => (i, now + 24)) }

/-- Do the context of a core or its engines hold a role under an entry (R24, R204)? -/
def State.holdsRole (s : State) (d c i : Nat) : Bool := ([0, 1, 2].flatMap (s.agentsOf d c)).any ((s.die d).hasRole i)

/-- A core with only such entries in its window (R204). -/
def State.windowCore (s : State) (d c : Nat) : Core :=
  let y := s.core d c
  { y with window := y.window.filter (s.holdsRole d c) }

/-- The state in which an access of a core under some entries is made: none while the window misses one. An entry without a role does not stay
in the window. -/
def State.seek (s : State) (d c : Nat) (ids : List Nat) : Option State :=
  match ids with
  | [] => some s
  | ids => ((s.windowCore d c).seek (s.cyc d c) ids (s.holdsRole d c)).map (s.setCore d c)

/-- Lookups begin for an access of a core. -/
def State.lookUp (s : State) (d c : Nat) (ids : List Nat) : State := s.setCore d c ((s.windowCore d c).lookUp (s.cyc d c) ids)

/-- The hand-back of R217: an access that met a FORFEIT entry of its own makes it OWNED, and with a proxy its home entry. -/
def State.handBack (s : State) (d : Nat) : Option Nat → State
  | none => s
  | some i =>
    let b := s.brand d i
    let s1 := s.modDie d (fun x => x.regain i)
    if b.proxy then s1.modDie b.hdie (fun x => x.regain b.pxidx) else s1

/-- Every strand access of a core counts as later than its commands. -/
def allCmds (y : Core) : Nat := y.nextCmd

/-- Judge a strand's access to its own scratchpad (R24, R203). -/
def State.judgeStrand (s : State) (d c : Nat) (acc : Access) (off len : Nat) : Verdict :=
  s.judge d (s.tenantOf d c) (s.agentsOf d c 0) (some (c, allCmds (s.core d c))) acc (spadVa d c off) len

end Sys2Proof.Machine
end

