-- ==== Sys2Proof/Machine/Memory.lean ====
section
/-!
DEFINITION. Memory by pod address on its owner die: the walk of R185, the TLBs of R187, HBM with the compression of R186, the
scratchpads of the direct window (R178), and reads and writes of ranges. Rights are judged elsewhere (Rights).
-/
namespace Sys2Proof.Machine

/-- Bytes of HBM of a die (R182). -/
def hbmSize : Nat := 0x3000000000

/-- What a walk finds: a leaf, a page fault, or a fault that ends the command (R185). -/
inductive Walk where
  | leaf (e : TlbEntry)
  | page
  | hard (c : Cause)
  deriving DecidableEq, Repr

/-- Is a frame or a table wholly inside a tenant's allotment (R183)? -/
def inAllot (cfg : TenantCfg) (pa size : Nat) : Bool := cfg.allotBase ≤ pa && pa + size ≤ cfg.allotLimit

/-- log2 of what a leaf of a level maps, and of the bytes of its table (R183). -/
def levelShift (level : Nat) : Nat := if level = 1 then 36 else if level = 2 then 26 else 16
/-- Bytes of a table of a level. -/
def tableSize (level : Nat) : Nat := if level = 1 then 0x4000 else 0x2000
/-- The index of a level in an address (R183). -/
def levelIndex (level va : Nat) : Nat := va / 2 ^ levelShift level % (if level = 1 then 2048 else 1024)

/-- One level of the walk: the entry that the table at base holds for va, judged (R185). -/
def walkLevel (x : Die) (cfg : TenantCfg) (t va : Nat) (write : Bool) : Nat → Nat → Nat → Walk
  | 0, _, _ => .hard .reservedField
  | n + 1, level, base =>
    let e := Mem.load x.hbm (base + 8 * levelIndex level va) 8
    let pa := e / 4096 % 2 ^ 26 * 4096
    if e % 2 = 0 then .page
    else if e / 2 ^ 38 != 0 || e / 256 % 16 != 0 then .hard .reservedField
    else if e / 2 % 2 = 0 then
      if level == 3 || e / 4 % 64 != 0 || pa % tableSize (level + 1) != 0 then .hard .reservedField
      else if !inAllot cfg pa (tableSize (level + 1)) then .hard .unowned
      else walkLevel x cfg t va write n (level + 1) pa
    else
      let size := 2 ^ levelShift level
      let cmp := e / 8 % 8
      if pa % size != 0 || 3 ≤ cmp || hbmSize < pa + size then .hard .reservedField
      else if !inAllot cfg pa size then .hard .unowned
      else if write && e / 4 % 2 == 0 then .page
      else
        .leaf { tenant := t, va := va / size * size, size := size, pa := pa, w := e / 4 % 2 == 1, cmp := cmp,
                meta_ := e / 64 % 2 == 1, pin := e / 128 % 2 == 1 }

/-- The walk for the low 48 bits of an address of tenant t, its root judged first (R185). -/
def walk (x : Die) (t va : Nat) (write : Bool) : Walk :=
  match Tab.find x.tenants t with
  | none => .hard .unowned
  | some te =>
    if te.cfg.root % 0x4000 != 0 then .hard .reservedField
    else if !inAllot te.cfg te.cfg.root 0x4000 then .hard .unowned
    else walkLevel x te.cfg t va write 3 1 te.cfg.root

/-- Which translations an access may use (R187): a core's TLB, the memory-side TLB, or the walker alone; and whether it goes by the
clamp's cache. -/
inductive TlbUse where
  | core (c : Nat)
  /-- A core's TLB and its clamp's cache, on behalf of an agent: copies and fetch stages (R189). -/
  | cached (c agent : Nat)
  | memSide
  | walker
  deriving DecidableEq, Repr

/-- Does a TLB entry map an address of a tenant? -/
def TlbEntry.hits (e : TlbEntry) (t va : Nat) : Bool := e.tenant == t && e.va ≤ va && va < e.va + e.size

/-- Entries of a TLB with e as the one used last; the least recently used goes when it is full (R187). -/
def tlbUse (cap : Nat) (e : TlbEntry) (l : List TlbEntry) : List TlbEntry := (e :: l.filter (fun f => f != e)).take cap

/-- Translate the low 48 bits of an address, with the TLB updated (R185, R187). -/
def Die.translate (x : Die) (u : TlbUse) (t va : Nat) (write : Bool) : Walk × Die :=
  let l := match u with
    | .core c | .cached c _ => (x.core c).tlb
    | .memSide => x.memTlb
    | .walker => []
  let put (e : TlbEntry) : Die :=
    match u with
    | .core c | .cached c _ => let y := x.core c; x.setCore c { y with tlb := tlbUse 256 e y.tlb }
    | .memSide => { x with memTlb := tlbUse 4096 e x.memTlb }
    | .walker => x
  match l.find? (fun e => e.hits t va) with
  | some e => if write && !e.w then (.page, x) else (.leaf e, put e)
  | none =>
    match walk x t va write with
    | .leaf e => (.leaf e, put e)
    | w => (w, x)

/-! Compressed pages (R186). -/

/-- Where the metadata of the 64 KiB page that holds pa stands: in the side table, or in the page's tail. -/
def metaBytes (x : Die) (e : TlbEntry) (pa : Nat) : List Byte :=
  if e.meta_ then Mem.bytes x.hbm (x.sideBase + 64 * (pa / 65536)) 64 else Mem.bytes x.hbm (pa / 65536 * 65536 + 0xFFC0) 64

/-- Data bytes of the sector at pa: the last sector of a page with its metadata in the tail has 192. -/
def sectorData (e : TlbEntry) (pa : Nat) : Nat := if e.cmp != 0 && !e.meta_ && pa % 65536 == 0xFF00 then 192 else 256

/-- Bytes of a plane of a sector blanked: the odd bytes, or the even ones. -/
def blankPlane (odd : Bool) : Nat → List Byte → List Byte
  | _, [] => []
  | i, b :: bs => (if (i % 2 == 1) == odd then 0#8 else b) :: blankPlane odd (i + 1) bs

/-- A sector as an agent reads it (R186). -/
def sectorRead (x : Die) (e : TlbEntry) (pa : Nat) : List Byte :=
  let raw := Mem.bytes x.hbm pa (sectorData e pa)
  let i := pa / 256 % 256
  let m := metaBytes x e pa
  let lo := ofLeBytes (slice m 0 32) / 2 ^ i % 2 == 1
  let hi := ofLeBytes (slice m 32 32) / 2 ^ i % 2 == 1
  if e.cmp = 0 then raw
  else if e.cmp = 1 then (if lo then raw.map (fun _ => 0#8) else raw)
  else
    let r1 := if lo then blankPlane true 0 raw else raw
    if hi then blankPlane false 0 r1 else r1

/-- A number with bit i set to a value. -/
def putBit (n i : Nat) (b : Bool) : Nat := n - n / 2 ^ i % 2 * 2 ^ i + (if b then 2 ^ i else 0)

/-- The bytes of a sector that a write transfers, over those that stand there: not those of a plane that is marked zero (R186; log
entry 60). -/
def transferred (lo hi : Bool) : Nat → List Byte → List Byte → List Byte
  | i, o :: os, d :: ds => (if (if i % 2 == 1 then lo else hi) then o else d) :: transferred lo hi (i + 1) os ds
  | _, _, ds => ds

/-- Write a whole sector, its metadata with it (R186). -/
def sectorWrite (x : Die) (e : TlbEntry) (pa : Nat) (data : List Byte) : Die :=
  if e.cmp = 0 then { x with hbm := Mem.write x.hbm pa data }
  else
    let i := pa / 256 % 256
    let m := metaBytes x e pa
    let lo := if e.cmp = 1 then data.all (· == 0) else (blankPlane false 0 data).all (· == 0)
    let hi := if e.cmp = 1 then lo else (blankPlane true 0 data).all (· == 0)
    let m' := leBytes 32 (putBit (ofLeBytes (slice m 0 32)) i lo)
      ++ leBytes 32 (putBit (ofLeBytes (slice m 32 32)) i (hi && e.cmp != 1))
    let x1 := { x with hbm := Mem.write x.hbm pa (transferred lo hi 0 (Mem.bytes x.hbm pa data.length) data) }
    { x1 with hbm := Mem.write x1.hbm (if e.meta_ then x1.sideBase + 64 * (pa / 65536) else pa / 65536 * 65536 + 0xFFC0) m' }

/-- Does a range of a page touch the tail that holds metadata (R186)? -/
def touchesTail (e : TlbEntry) (pa len : Nat) : Bool := e.cmp != 0 && !e.meta_ && 0xFFC0 < pa % 65536 + len

/-- Sectors that len bytes from pa touch. -/
def sectorsOf (pa len : Nat) : List Nat :=
  (List.range ((pa % 256 + len + 255) / 256)).map (fun i => pa / 256 * 256 + 256 * i)

/-- Read within one page. -/
def hbmRead (x : Die) (e : TlbEntry) (pa len : Nat) : List Byte :=
  slice ((sectorsOf pa len).flatMap (sectorRead x e)) (pa % 256) len

/-- Replace bytes of a list from an offset. -/
def splice (l : List Byte) (off : Nat) (d : List Byte) : List Byte := l.take off ++ d ++ l.drop (off + d.length)

/-- Write within one page, sector by sector; the bytes go with the sectors that hold them. -/
def hbmWriteSectors (e : TlbEntry) : List Nat → Nat → List Byte → Die → Die
  | [], _, _, x => x
  | sa :: rest, pa, d, x =>
    let n := min d.length (256 - pa % 256)
    hbmWriteSectors e rest (pa + n) (d.drop n) (sectorWrite x e sa (splice (sectorRead x e sa) (pa % 256) (d.take n)))

/-- Add a number to a list that repeats none. -/
def addOnce (l : List Nat) (n : Nat) : List Nat := if l.contains n then l else l ++ [n]

/-- The tracker entries of a port note written sectors (R253). -/
def Port.noteWrite (q : Port) (sectors : List Nat) : Port :=
  { q with trackers := q.trackers.map (fun k => { k with written := (sectors.filter k.sectors.contains).foldl addOnce k.written }) }

/-- Write within one page of translated space: the bytes, the page record of the digest (R236), the trackers (R253). -/
def hbmWrite (x : Die) (e : TlbEntry) (va pa : Nat) (d : List Byte) : Die :=
  let x1 := hbmWriteSectors e (sectorsOf pa d.length) pa d x
  let x2 : Die := match Tab.find x1.tenants e.tenant with
    | none => x1
    | some t => { x1 with tenants := Tab.set x1.tenants e.tenant { t with pages := addOnce t.pages (vaLow va / 65536) } }
  { x2 with ports := x2.ports.map (fun q => (q.1, q.2.noteWrite (sectorsOf pa d.length))) }

/-! The rate of the stacks (R182, R192, R196). -/

/-- Bytes that a stack gives in a tick: 2.0 TB/s. -/
def stackRate : Nat := 2000

/-- The stack that holds a physical address. -/
def stackOf (pa : Nat) : Nat := pa / 0xC00000000

/-- Bytes of a stack's rate are taken, from this tick on. -/
def Die.takeRate (x : Die) (pa n : Nat) : Die :=
  { x with stackBusy := Tab.set x.stackBusy (stackOf pa) (max (Tab.get x.stackBusy (stackOf pa) 0) (stackRate * x.tick) + n) }

/-- Has a stack rate left in this tick, when some bytes go first? -/
def Die.rateLeft (x : Die) (stack first : Nat) : Bool :=
  max (Tab.get x.stackBusy stack 0) (stackRate * x.tick) + first < stackRate * (x.tick + 1)

/-- Is a request the one that an agent has made under a tag at a stack? -/
def StackAsk.is (a : StackAsk) (stack agent : Nat) (tag : List Nat) : Bool := a.stack == stack && a.agent == agent && a.tag == tag

/-- Does a request go before those of an agent that come in a tick (R196)? -/
def StackAsk.before (a : StackAsk) (came agent : Nat) : Bool := a.came < came || (a.came == came && a.agent ≤ agent)

/-- A request stands by a stack: it keeps its place, or takes the one that the tick in which it comes and its agent id give it
(R196). -/
def Die.putAsk (x : Die) (a : StackAsk) : Die :=
  let same (b : StackAsk) : Bool := b.is a.stack a.agent a.tag
  if x.asks.any same then { x with asks := x.asks.map (fun b => if same b then { b with seen := x.tick } else b) }
  else { x with asks := x.asks.filter (fun b => b.before a.came a.agent) ++ a :: x.asks.filter (fun b => !b.before a.came a.agent) }

/-- The requests of an agent under a tag have been served. -/
def Die.dropAsks (x : Die) (agent : Nat) (tag : List Nat) : Die :=
  { x with asks := x.asks.filter (fun a => !(a.agent == agent && a.tag == tag)) }

/-- Requests by which no one has stood for 8 ticks are given up: their commands have ended. -/
def Die.pruneAsks (x : Die) : Die := { x with asks := x.asks.filter (fun a => x.tick ≤ a.seen + 8) }

/-! The clamp cache (R15, R189). -/

/-- The index and the generation of the brand entry that covers a pod address for a tenant. -/
def Die.brandOver (x : Die) (t va : Nat) : Option (Nat × Nat) :=
  (x.brands.find? (fun e => e.2.tenant == t && e.2.covers (vaDie va) (vaLow va))).map (fun e => (e.1, e.2.gen))

/-- Write the cache of clamp m. -/
def Die.setCache (x : Die) (m : Nat) (l : List CacheLine) : Die := { x with clamps := Tab.set x.clamps m { x.clamp m with cache := l } }

/-- A dirty line goes back to HBM. -/
def Die.writeBack (x : Die) (l : CacheLine) : Die :=
  if l.dirty then (hbmWrite x l.leaf l.va l.pa l.data).takeRate l.pa l.data.length else x

/-- Is a line the one of a sector under a brand? -/
def CacheLine.isAt (l : CacheLine) (pa idx gen : Nat) : Bool := l.pa == pa && l.idx == idx && l.gen == gen

/-- The line of a sector under another brand or generation leaves the cache, written back when it is dirty: one line stands for a
sector (log entry 10). -/
def Die.dropOther (x : Die) (m pa idx gen : Nat) : Die :=
  let other (l : CacheLine) : Bool := l.pa == pa && !l.isAt pa idx gen
  if (x.clamp m).cache.any other then
    let x1 := ((x.clamp m).cache.filter other).foldl Die.writeBack x
    x1.setCache m ((x.clamp m).cache.filter (fun l => !other l))
  else x

/-- What a write from a column of bytes at pa leaves of a line's data. -/
def CacheLine.spliced (l : CacheLine) (pa : Nat) (d : List Byte) : CacheLine :=
  let lo := max l.pa pa
  let hi := min (l.pa + l.data.length) (pa + d.length)
  if lo < hi then
    { l with data := l.data.take (lo - l.pa) ++ (d.drop (lo - pa)).take (hi - lo) ++ l.data.drop (hi - l.pa) }
  else l

/-- A write that bypasses the caches shows in every line of its sectors, so that no later lookup gives older bytes (R223, R227; log
entry 10). -/
def Die.refresh (x : Die) (pa : Nat) (d : List Byte) : Die :=
  { x with clamps := x.clamps.map (fun m => (m.1, { m.2 with cache := m.2.cache.map (fun l => l.spliced pa d) })) }

/-- A line is the one used last; the least recently used of 16 leaves a full set, written back when it is dirty. -/
def Die.putLine (x : Die) (m : Nat) (l : CacheLine) : Die :=
  let others := (x.clamp m).cache.filter (fun e => !e.isAt l.pa l.idx l.gen)
  let mates := others.filter (fun e => e.pa / 256 % 1024 == l.pa / 256 % 1024)
  match (if 16 ≤ mates.length then mates.getLast? else none) with
  | some o => (x.writeBack o).setCache m (l :: others.erase o)
  | none => x.setCache m (l :: others)

/-- The line of a sector in the cache of clamp m, under the brand that covers its address: a hit, or filled from HBM, and whether it
was a hit. -/
def Die.lineOf (x : Die) (m t : Nat) (e : TlbEntry) (va pa : Nat) : CacheLine × Bool :=
  let (idx, gen) := (x.brandOver t va).getD (0, 0)
  match (x.clamp m).cache.find? (fun l => l.isAt pa idx gen) with
  | some l => (l, true)
  | none =>
    let bytes := sectorRead (x.dropOther m pa idx gen) e pa
    ({ pa := pa, va := va, leaf := e, idx := idx, gen := gen, dirty := false, agent := 0, data := bytes }, false)

/-- A read of some sectors by the cache. -/
def Die.cacheRead (m t : Nat) (e : TlbEntry) (va pa : Nat) : List Nat → Die → List Byte × Die
  | [], x => ([], x)
  | sa :: rest, x =>
    let (l, hit) := x.lineOf m t e (va + sa - pa) sa
    let x1 := if hit then x else x.takeRate sa 256
    let (bs, x2) := Die.cacheRead m t e va pa rest ((x1.dropOther m l.pa l.idx l.gen).putLine m l)
    (l.data ++ bs, x2)

/-- A write of some sectors into the cache: a line that is not there is allocated, and read first where it is written in part. -/
def Die.cacheWrite (m t agent : Nat) (e : TlbEntry) (va : Nat) : List Nat → Nat → List Byte → Die → Die
  | [], _, _, x => x
  | sa :: rest, pa, d, x =>
    let n := min d.length (256 - pa % 256)
    let (l, hit) := x.lineOf m t e (va + sa - pa) sa
    let x1 := if hit || n = l.data.length then x else x.takeRate sa 256
    let l' : CacheLine := { l with dirty := true, agent := agent, data := splice l.data (pa % 256) (d.take n) }
    Die.cacheWrite m t agent e (va + n) rest (pa + n) (d.drop n) ((x1.dropOther m l.pa l.idx l.gen).putLine m l')

/-- Every dirty line of the cache of clamp m that satisfies a test is written back; it stays as a clean one. -/
def Die.cleanCache (x : Die) (m : Nat) (test : CacheLine → Bool) : Die :=
  let l := (x.clamp m).cache
  ((l.filter test).foldl Die.writeBack x).setCache m (l.map (fun e => if test e then { e with dirty := false } else e))

/-- A read of a piece of a page (R186, R189). -/
def Die.readPiece (x : Die) (u : TlbUse) (t : Nat) (e : TlbEntry) (va pa k : Nat) : List Byte × Die :=
  match u with
  | .cached c _ =>
    let (bs, x') := Die.cacheRead (c / 4) t e va pa (sectorsOf pa k) x
    (slice bs (pa % 256) k, x')
  | _ => (hbmRead x e pa k, x.takeRate pa k)

/-- A write of a piece of a page. -/
def Die.writePiece (x : Die) (u : TlbUse) (t : Nat) (e : TlbEntry) (va pa : Nat) (d : List Byte) : Die :=
  match u with
  | .cached c agent => Die.cacheWrite (c / 4) t agent e va (sectorsOf pa d.length) pa d x
  | _ => ((hbmWrite x e va pa d).refresh pa d).takeRate pa d.length

/-- The stack that an end of a chunk asks, for a core's engine: none where it lies elsewhere, and none where every sector of it is
in the cache, or is written whole. -/
def Die.stackAsked (x : Die) (c t va len : Nat) (write : Bool) : Option Nat :=
  match (x.translate (.core c) t (vaLow va) write).1 with
  | .leaf e =>
    let pa := e.pa + (vaLow va - e.va)
    let asks (sa : Nat) : Bool :=
      !(x.lineOf (c / 4) t e (va + sa - pa) sa).2 && !(write && pa ≤ sa && sa + sectorData e sa ≤ pa + len)
    if (sectorsOf pa len).any asks then some (stackOf pa) else none
  | _ => none

/-! The sampler's slots in the direct window (R266, R267, R270). -/

/-- A table of 4-byte or 8-byte entries as bytes, count given. -/
def tableBytes (t : Tab Nat) (size count : Nat) : List Byte := (List.range count).flatMap (fun i => leBytes size (Tab.get t i 0))

/-- The 8 KiB of a slot (R267). -/
def SeqSlot.bytes (q : SeqSlot) : List Byte :=
  leBytes 4 (if q.bound then 1 + 2 * q.tenant else 0) ++ leBytes 1 q.plen ++ leBytes 3 0 ++ leBytes 8 q.mask.toNat
    ++ leBytes 8 q.key.toNat ++ leBytes 8 q.step.toNat ++ leBytes 32 0
    ++ (List.range 32).flatMap (fun i => leBytes 4 (q.prog.getD i 0))
    ++ (List.range 8).flatMap (fun i => leBytes 4 (Tab.get q.kreg i 0).toNat) ++ leBytes 32 0
    ++ tableBytes q.cnt 4 512 ++ tableBytes q.bias 8 256 ++ List.replicate 3840 0#8

/-- The slot and the offset that a pod address of the slot window names (R178, R266). -/
def vaSlot (va : Nat) : Option (Nat × Nat) :=
  if 0x12000000 ≤ vaLow va ∧ vaLow va < 0x13000000 then some ((vaLow va - 0x12000000) / 0x2000, vaLow va % 0x2000) else none

/-- Does slot n lie in a tenant's range (R266)? -/
def Die.ownsSlot (x : Die) (t n : Nat) : Bool :=
  match Tab.find x.tenants t with
  | some te => te.cfg.slotFirst ≤ n && n < te.cfg.slotFirst + te.cfg.slotCount
  | none => false

/-- A read of the slot window by an agent of a tenant (R179, R270). -/
def Die.slotRead (x : Die) (t va len : Nat) : Option (List Byte) :=
  match vaSlot va with
  | some (n, off) => if x.ownsSlot t n then some (slice (Tab.get x.slots n SeqSlot.reset).bytes off len) else none
  | none => none

/-! Ranges. -/

/-- What reaching a range gives: a result, a page fault at an address, or a fault. -/
inductive Reach (α : Type) where
  | ok (a : α) (x : Die)
  | page (va : Nat)
  | hard (c : Cause)

/-- Read len bytes at a pod address of this die, cut at 4 KiB boundaries; `pinned` asks for pinned leaves (R194). -/
def Die.readFrom (u : TlbUse) (t : Nat) (pinned : Bool) : Nat → Nat → Nat → Die → Reach (List Byte)
  | 0, _, _, x => .ok [] x
  | n + 1, va, len, x =>
    if len = 0 then .ok [] x
    else
      let k := min len (4096 - va % 4096)
      let piece : Reach (List Byte) :=
        match vaTranslated va, vaSpad va with
        | false, some (c, off) => .ok (Mem.bytes (x.core c).spad off k) x
        | false, none => (match x.slotRead t va k with
          | some b => .ok b x
          | none => .hard .unowned)
        | true, _ =>
          match x.translate u t (vaLow va) false with
          | (.leaf e, x') =>
            let pa := e.pa + (vaLow va - e.va)
            if pinned && !e.pin then .page va
            else if touchesTail e pa k then .hard .unowned
            else (fun r => .ok r.1 r.2) (x'.readPiece u t e va pa k)
          | (.page, _) => .page va
          | (.hard c, _) => .hard c
      match piece with
      | .ok b x' =>
        match Die.readFrom u t pinned n (va + k) (len - k) x' with
        | .ok bs x'' => .ok (b ++ bs) x''
        | r => r
      | r => r

/-- Read a range of a die. -/
def Die.read (x : Die) (u : TlbUse) (t : Nat) (pinned : Bool) (va len : Nat) : Reach (List Byte) :=
  Die.readFrom u t pinned (len / 4096 + 2) va len x

/-- Write bytes at a pod address of this die, cut at 4 KiB boundaries; nothing is written when some piece cannot be. -/
def Die.writeFrom (u : TlbUse) (t : Nat) (pinned : Bool) : Nat → Nat → List Byte → Die → Reach Unit
  | 0, _, _, x => .ok () x
  | n + 1, va, d, x =>
    if d = [] then .ok () x
    else
      let k := min d.length (4096 - va % 4096)
      let piece : Reach Unit :=
        match vaTranslated va, vaSpad va with
        | false, some (c, off) => .ok () (x.setCore c { x.core c with spad := Mem.write (x.core c).spad off (d.take k) })
        | false, none => .hard .unowned
        | true, _ =>
          match x.translate u t (vaLow va) true with
          | (.leaf e, x') =>
            let pa := e.pa + (vaLow va - e.va)
            if pinned && !e.pin then .page va
            else if touchesTail e pa k then .hard .unowned
            else .ok () (x'.writePiece u t e va pa (d.take k))
          | (.page, _) => .page va
          | (.hard c, _) => .hard c
      match piece with
      | .ok _ x' => Die.writeFrom u t pinned n (va + k) (d.drop k) x'
      | r => r

/-- Write a range of a die. -/
def Die.write (x : Die) (u : TlbUse) (t : Nat) (pinned : Bool) (va : Nat) (d : List Byte) : Reach Unit :=
  Die.writeFrom u t pinned (d.length / 4096 + 2) va d x

/-! The scratchpad of a core. -/

/-- Bytes of a core's scratchpad. -/
def Core.spadBytes (y : Core) (off n : Nat) : List Byte := Mem.bytes y.spad off n
/-- Write bytes of a core's scratchpad. -/
def Core.spadWrite (y : Core) (off : Nat) (d : List Byte) : Core := { y with spad := Mem.write y.spad off d }

end Sys2Proof.Machine
end

