-- ==== Sys2Proof/Machine/Far.lean ====
section
/-!
DEFINITION. The pod as one memory: which links work (R27, R199, R243), the way from die to die (R255), and the bytes that an
engine of one die reads and writes here or on another die of the pod (R177, R187). Rights are judged apart from translation.
-/
namespace Sys2Proof.Machine

/-- The cable of a port of a die. -/
def State.cable (s : State) (d p : Nat) : Option Cable := Tab.find s.pod.cables (16 * d + p)

/-- Is the link at a port usable: cabled, neither end failed, neither die dead (R27, R243)? -/
def State.linkUp (s : State) (d p : Nat) : Bool :=
  match s.cable d p with
  | none => false
  | some k => !(s.port d p).failed && !(s.port k.farDie k.farPort).failed && !(s.die d).dead && !(s.die k.farDie).dead

/-- The output port of a die toward another die (R255). -/
def State.route (s : State) (here there : Nat) : Option Nat :=
  match Tab.find s.pod.routes here with
  | none => none
  | some t => Tab.find t there

/-- Is a die of the pod (R177)? -/
def State.inPod (s : State) (d : Nat) : Bool := s.pod.members.contains d

/-- Does the way from one die to another, by the route tables, cross working links only; the count bounds its hops (R255)? -/
def State.pathUp (s : State) : Nat → Nat → Nat → Bool
  | 0, here, there => here == there
  | n + 1, here, there =>
    here == there ||
      (match s.route here there with
        | none => false
        | some p =>
          match s.cable here p with
          | none => false
          | some k => s.linkUp here p && s.pathUp n k.farDie there)

/-- Can traffic of die d reach a die of the pod (R177, R255)? -/
def State.reaches (s : State) (d h : Nat) : Bool := s.inPod h && s.pathUp s.pod.members.length d h

/-- A message that a die sends now to another die, or to itself, for an agent. -/
def State.transit (s : State) (d dest agent : Nat) : Transit :=
  { fromDie := d, toDie := dest, at_ := d, due := s.now d, via := none, agent := agent, gone := 0, spent := false }

/-- The way back of a message. -/
def State.reply (s : State) (t : Transit) : Transit := s.transit t.toDie t.fromDie t.agent

/-- The message at an index of a list is at its end: it leaves the list with the tick. -/
def OpenMsg.end_ (o : OpenMsg) : OpenMsg := { o with tr := { o.tr with spent := true } }

/-- The n-th open message is at its end. -/
def State.endOpen (s : State) (n : Nat) : State := { s with opens := s.opens.modify n OpenMsg.end_ }

/-- The n-th brand message is at its end. -/
def State.endMsg (s : State) (n : Nat) : State :=
  { s with brandMsgs := s.brandMsgs.modify n (fun b => { b with tr := { b.tr with spent := true } }) }

/-- What a read or a write of an engine gives: a result with the state it leaves, or the cause that ends the command. -/
inductive Got (α : Type) where
  | ok (a : α) (s : State)
  | bad (c : Cause)

/-- What reaching a range of a die gives its reader (R13). -/
def State.got {α : Type} (s : State) (h : Nat) : Reach α → Got α
  | .ok a x => .ok a (s.setDie h x)
  | .page _ => .bad .copyPage
  | .hard c => .bad c

/-- Bytes that core c's engines on die d read at a pod address for tenant t (R187; log entry 71). -/
def State.fetchAt (s : State) (d c t : Nat) (pinned : Bool) (va len : Nat) : Got (List Byte) :=
  let h := vaDie va
  if h = d then s.got d ((s.die d).read (.core c) t pinned va len)
  else if s.reaches d h then s.got h ((s.die h).read .memSide t pinned va len)
  else .bad .unowned

/-- Bytes that core c's engines on die d write at a pod address for tenant t (R187). -/
def State.storeAt (s : State) (d c t : Nat) (pinned : Bool) (va : Nat) (bs : List Byte) : Got Unit :=
  let h := vaDie va
  if h = d then s.got d ((s.die d).write (.core c) t pinned va bs)
  else if s.reaches d h then s.got h ((s.die h).write .memSide t pinned va bs)
  else .bad .unowned

/-- Judge an engine's access to a range: by the entries and proxies of its own die, and by the owner die's entries for the die as
a whole (R203, R211). -/
def State.judgeFar (s : State) (d t : Nat) (agents : List Nat) (core : Option (Nat × Nat)) (acc : Access) (va len : Nat) : Verdict :=
  match s.judge d t agents core acc va len with
  | .ok =>
    if vaDie va = d then .ok
    else if s.reaches d (vaDie va) then
      (match s.judge (vaDie va) t [dieAgent d] none acc va len with
        | .bad c _ => .bad c none
        | v => v)
    else .bad .unowned none
  | v => v

/-- Is it a read of a sampler slot, which needs no brand (R270)? -/
def brandless (acc : Access) (va : Nat) : Bool := acc == .read && (vaSlot va).isSome

/-- The owner die reads or writes for another die, through its memory-side TLB and under the class 6 id (R187, R203, R211):
the answer and the die, or nothing while the access waits for a pre-empted context. -/
def State.serveOpen (s : State) (h : Nat) (o : OpenMsg) : Option (OpenBody × State) :=
  let x := s.die h
  let agents := [dieAgent o.tr.fromDie]
  let judge (acc : Access) (va len : Nat) (ok : OpenBody × State) : Option (OpenBody × State) :=
    match if brandless acc va then .ok else s.judge h o.tenant agents none acc va len with
    | .hold => none
    | .bad c hb => some (.fault c va false, s.handBack h hb)
    | .ok => some ok
  match o.body with
  | .read va len dst =>
    match x.read .memSide o.tenant o.locked va len with
    | .page at_ => some (.fault .copyPage at_ true, s)
    | .hard c => some (.fault c va false, s)
    | .ok bs x' => judge .read va len (.data bs dst, s.setDie h x')
  | .write va bs crc =>
    match x.write .memSide o.tenant o.locked va bs with
    | .page at_ => some (.fault .copyPage at_ true, s)
    | .hard c => some (.fault c va false, s)
    | .ok _ x' => judge .write va bs.length (.ack (crcUpdate crc bs), s.setDie h x')
  | b => some (b, s)

/-- The writes that a core has sent to other dies are performed there now (R215). -/
def State.performSent (s : State) (d c : Nat) : State :=
  let mine (o : OpenMsg) : Bool := !o.tr.spent && o.by_ == .copy && o.tr.fromDie == d && o.core == c && (match o.body with
    | .write _ _ _ => s.reaches d o.tr.toDie
    | _ => false)
  let s1 := (s.opens.filter mine).foldl (fun s o => match s.serveOpen o.tr.toDie o with
    | some (_, s2) => s2
    | none => s) s
  { s1 with opens := s1.opens.map (fun o => if mine o then o.end_ else o) }

/-! Slots (R242, R250). -/

/-- Flits that leave a port in one tick (R242). -/
def portRate (p : Nat) : Nat := if p = 8 then 4 else 1

/-- Flits that have left a port in a tick. -/
def Port.usedAt (q : Port) (now : Nat) : Nat := if q.used.1 = now then q.used.2 else 0

/-- A flit leaves a port in a tick. -/
def Port.use (q : Port) (now : Nat) : Port := { q with used := (now, q.usedAt now + 1) }

/-- A flit is on the line to the far port of a cable, where its CRC is checked on arrival (R243). -/
def State.onLine (s : State) (k : Cable) (bad : Bool) : State :=
  let f := s.port k.farDie k.farPort
  s.setPort k.farDie k.farPort { f with line := f.line ++ [(s.now k.farDie + (k.hop - 32), bad)] }

end Sys2Proof.Machine
end

