-- ==== Sys2Proof/Machine/Roles.lean ====
section
/-!
DEFINITION. Brand operations between dies: proxies and how they follow their home entries (R211, R212), an operation at its home die
(R207, R217), the returns that the device makes (R222, R279), and the fates of a failed agent's roles (R215, R216).
-/
namespace Sys2Proof.Machine

/-! Proxies (R211, R212). -/

/-- Records of the list but for n that satisfy a test, the first ones going. -/
def dropSome {α : Type} (test : α → Bool) : Nat → List α → List α
  | 0, l => l
  | _, [] => []
  | n + 1, a :: l => if test a then dropSome test n l else a :: dropSome test (n + 1) l

/-- The share records of a proxy, of which n remain: new ones are made for the agent, and of too many its own go first. -/
def fitShares (shares : List Share) (i n : Nat) (agent : Option Nat) : List Share :=
  let mine := (shares.filter (fun r => r.idx == i)).length
  if mine < n then
    match agent with
    | some a => shares ++ List.replicate (n - mine) { agent := a, gang := false, idx := i }
    | none => shares
  else
    let own (r : Share) : Bool := r.idx == i && agent == some r.agent
    let mineOwn := (shares.filter own).length
    let l := dropSome own (min (mine - n) mineOwn) shares
    dropSome (fun r => r.idx == i) (mine - n - min (mine - n) mineOwn) l

/-- The proxy that die k keeps of entry i of die hd follows its home entry; an agent of die k that an operation concerned is
named with the role it was given, if any; a new proxy takes the index set aside for it, and HOME is 0 in every one (R211, R212;
log entry 72). -/
def State.mirror (s : State) (hd i k : Nat) (agent : Option Nat) (role : Option Role) (index : Option Nat) : State :=
  let home := s.brand hd i
  let x := s.die k
  let six := dieAgent k
  let n := ((s.die hd).shares.filter (fun r => r.idx == i && r.agent == six)).length
  let live := home.state != .free
  let title := live && home.title == six
  let cur := live && home.state == .lent && home.cur == six
  let old := x.proxyOf hd i
  if !title && !cur && (n == 0 || !live) then
    match old with
    | none => s
    | some j => s.setDie k (x.freeBrand j)
  else
    match (match old with
      | some j => some j
      | none => if agent.isSome then (match index with
        | some j => some j
        | none => x.freeIndex home.tenant) else none) with
    | none => s
    | some j =>
      let p := x.brand j
      let kept (had : Option Nat) (given : Role) : Nat :=
        match agent, had with
        | some a, none => a
        | some a, some h => if role = some given || agentClass h == 6 then a else h
        | none, some h => h
        | none, none => dieAgent hd
      let had (b : Bool) (v : Nat) : Option Nat := if old.isSome && b then some v else none
      let ti := if title then kept (had true p.title) .title else dieAgent hd
      let ci :=
        if home.state == .lent then (if cur then kept (had (p.state == .lent) p.cur) .cur else dieAgent hd)
        else if home.cur == home.title then ti else dieAgent hd
      let b : Brand :=
        { home with title := ti, cur := ci, home := false, proxy := true, pxidx := i, inslot := false, outgoing := false,
                    slot := 0, gen := p.gen }
      let same := old.isSome && p.state == b.state && p.title == ti && p.cur == ci && p.lsize == b.lsize && p.base == b.base
      let x1 := if same then x.setBrand j b else x.changeBrand j b
      s.setDie k { x1 with shares := fitShares x1.shares j n agent }

/-- The proxies of every other die follow an entry (R212). -/
def State.mirrorAll (s : State) (hd i : Nat) : State :=
  s.each (s.pod.members.filter (fun k => k != hd)) (fun s k => s.mirror hd i k none none none)

/-! An operation at its home die. -/

/-- Does the target belong to an agent of the tenant (R207, R430)? -/
def State.targetOf (s : State) (t target : Nat) : Bool :=
  let d := target / 65536 % 4096
  let a := target % 65536
  s.inPod d &&
    (match agentClass a with
      | 0 | 1 | 2 => (match s.gang d (agentSlot a) with
        | some g => g.tenant == t && a % 64 < g.cores.length
        | none => false)
      | 3 => Tab.find s.pod.planTenants (16 * d + a % 4096) == some t
      | 7 => a % 4096 == t
      | _ => true)

/-- The indices of the home table that an operation changed. -/
def BrandOp.touched (op : BrandOp) (vals : List Nat) : List Nat :=
  match op with
  | .claim _ _ => vals.map nameIdx
  | .split n => nameIdx n :: vals.map nameIdx
  | .query _ => []
  | op => op.names.map nameIdx

/-- The index that die k has for a proxy of an entry of die hd, and for a share record under it if asked: the proxy's, or the lowest
free one of the pool (R208, R211). -/
def State.proxyRoom (s : State) (k t hd : Nat) (i : Option Nat) (share : Bool) : Option Nat :=
  let x := s.die k
  if share && shareTable ≤ x.shareCount then none
  else
    match i.bind (x.proxyOf hd) with
    | some j => some j
    | none => x.freeIndex t

/-- What the issuer's die judges on the proxy, where all its agents are one for the home die (R211): the role is there. -/
def proxyJudge (s : State) (d hd a : Nat) (op : BrandOp) : Option Cause :=
  let x := s.die d
  let roleOf (n : Nat) : Option Cause :=
    match x.proxyOf hd (nameIdx n) with
    | none => some .unowned
    | some j =>
      let b := x.brand j
      if !x.hasRole j a then some .unowned
      else
        let ok : Bool := match op with
          | .ret _ => b.borrower a
          | .unshare _ => if b.state == .atomic then b.title == a else (recordOf x.shares j a).isSome
          | _ => b.title == a
        if ok then none else some .brandState
  match op with
  | .claim _ _ | .query _ | .slotRead _ | .slotSwitch _ _ => none
  | op => (op.names.filter (fun n => nameDie n == hd)).findSome? roleOf

/-- Why the entries that an operation from die d names on die hd give it nothing, with the entry that its title takes back: the state
of an entry comes before the roles of its agents, which only the proxy tells (R207, R211, R217). -/
def State.namesJudge (s : State) (d hd t ia agent : Nat) (op : BrandOp) : Option (Cause × Option Nat) :=
  match (op.names.filter (fun n => nameDie n == hd)).findSome? (fun n => match (s.die hd).named t ia (nameIdx n) with
    | .error e => some (e, n)
    | .ok _ => none) with
  | none => none
  | some ((c, hb), n) =>
    let mine := (((s.die d).proxyOf hd (nameIdx n)).map (fun j => ((s.die d).brand j).title)) == some agent
    some (c, if d = hd ∨ mine then hb else none)

/-- What an operation at its home die gives: the answer, the entries that changed, the index set aside for a proxy, the state. -/
structure HomeOut where
  answer : BrandAnswer
  touched : List Nat
  pledge : Option (Nat × Nat × Bool)
  state : State

/-- The fate of an entry whose failed agent was its title holder, its borrower, or held some share records on it (R216). -/
def Brand.fate (b : Brand) (title cur : Bool) (mine : Nat) : Brand :=
  let n := b.shr - mine
  if title then { b with state := .forfeit, title := poolAgent b.tenant, cur := poolAgent b.tenant, shr := 0 }
  else if b.state == .lent && cur then { b with state := .forfeit, cur := b.title }
  else if n != 0 || b.state != .shared then { b with shr := n }
  else if agentClass b.title != 7 then { b with shr := 0, state := .owned }
  else if b.outgoing then Brand.free
  else { b with shr := 0 }

/-- The fate of entry i of a die for the roles that the agents hold in it; the records of a lost title go with it (R216). -/
def Die.fateOf (x : Die) (i : Nat) (title cur : Bool) (gone : Share → Bool) (mine : Nat) : Die :=
  let b := x.brand i
  if b.state == .free || !(title || (b.state == .lent && cur) || mine != 0) then x
  else
    let x1 := x.changeBrand i (b.fate title cur mine)
    { x1 with shares := if title then x1.shares.filter (fun r => r.idx != i)
                        else dropSome (fun r => r.idx == i && gone r) mine x1.shares }

/-- An operation that an agent of die d may do is done at the table of die hd. -/
def State.tableAt (s : State) (d hd t ia agent gslot : Nat) (op : BrandOp) : HomeOut :=
  let failed (c : Cause) : HomeOut := { answer := .failed c, touched := [], pledge := none, state := s }
  let bad : Option Cause := op.gives.bind (fun g => if s.targetOf t g.1 then none else some .unowned)
  let td := match op.gives with
    | some (target, _) => target / 65536 % 4096
    | none => hd
  let (same, holder) : Bool × Nat := match op.gives with
    | none => (false, 0)
    | some (target, _) => (td == d && target % 65536 == agent, if td = hd then target % 65536 else dieAgent td)
  let share := match op with
    | .share _ _ => true
    | _ => false
  let room : Option (Nat × Option Nat × Bool) :=
    if td ≠ hd then some (td, s.proxyRoom td t hd (op.names.head?.map nameIdx) share, share)
    else if d = hd then none
    else
      match op with
      | .claim _ _ | .split _ => some (d, s.proxyRoom d t hd none false, false)
      | _ => none
  match bad, room with
  | some c, _ => failed c
  | none, some (_, none, _) => failed .brandState
  | none, room =>
    match (s.die hd).table hd t ia gslot holder same op with
    | .error (c, hb) => { failed c with touched := hb.toList, state := s.handBack hd hb }
    | .ok (x, vals) =>
      let s1 := s.setDie hd x
      match room with
      | some (k, some j, sh) =>
        { answer := .done vals, touched := op.touched vals, pledge := some (k, j, sh),
          state := s1.modDie k (fun x => { x with pledged := x.pledged ++ [(j, sh)] }) }
      | _ => { answer := .done vals, touched := op.touched vals, pledge := none, state := s1 }

/-- An operation at its home die hd, for an agent of die d (R207, R211, R217). -/
def State.changeBrandAt (s : State) (d hd t agent gslot : Nat) (op : BrandOp) : HomeOut :=
  let ia := if d ≠ hd then dieAgent d else agent
  match op with
  | .fate n title cur mine =>
    { answer := .done [], touched := [nameIdx n], pledge := none,
      state := s.modDie hd (fun x => x.fateOf (nameIdx n) title cur (fun r => r.agent == ia) mine) }
  | op =>
    if d = hd then s.tableAt d hd t ia agent gslot op
    else
      match s.namesJudge d hd t ia agent op, proxyJudge s d hd agent op with
      | some (c, hb), _ => { answer := .failed c, touched := hb.toList, pledge := none, state := s.handBack hd hb }
      | none, some c => { answer := .failed c, touched := [], pledge := none, state := s }
      | none, none => s.tableAt d hd t ia agent gslot op

/-- An index that was set aside is so no longer. -/
def State.redeem (s : State) : Option (Nat × Nat × Bool) → State
  | none => s
  | some (k, j, sh) => s.modDie k (fun x => { x with pledged := x.pledged.erase (j, sh) })

/-- The role that an operation has given to an agent, if it has: a refused one gives none (R207). -/
def BrandAnswer.gives (a : BrandAnswer) (op : BrandOp) : Option (Nat × Role) :=
  match a with
  | .done _ => op.gives
  | .failed _ => none

/-- The proxies follow the home entries that an operation of an agent of die d changed, with the role that it gave; a new one takes the index
set aside for it (R211, R212). -/
def State.settleProxies (s : State) (d hd agent : Nat) (gives : Option (Nat × Role)) (touched : List Nat) (pledge : Option (Nat × Nat × Bool)) :
    State :=
  let index (k : Nat) : Option Nat := pledge.bind (fun p => if p.1 = k then some p.2.1 else none)
  (s.redeem pledge).each touched (fun s i =>
    let given : Option Nat := gives.map (fun g => g.1 / 65536 % 4096)
    let s1 := match gives with
      | some (target, role) =>
        let td := target / 65536 % 4096
        if td = hd then s else s.mirror hd i td (some (target % 65536)) (some role) (index td)
      | none => s
    let s2 := if d = hd ∨ given = some d then s1
      else s1.mirror hd i d (some agent) none (index d)
    s2.each (s2.pod.members.filter (fun k => k != hd && k != d && some k != given)) (fun s k => s.mirror hd i k none none none))

/-! Operations that the device makes for an agent. -/

/-- The number of a core that no die has: it stands in a brand message that serves no command. -/
def noCore : Nat := 64

/-- An agent of die d does an operation without a command: at once on its own die, else by a message (R212, R222). -/
def State.doBrand (s : State) (d t agent hd : Nat) (op : BrandOp) : State :=
  if hd = d then
    let r := s.changeBrandAt d hd t agent (agentSlot agent) op
    r.state.settleProxies d hd agent (r.answer.gives op) r.touched r.pledge
  else
    { s with brandMsgs := s.brandMsgs ++ [{ tr := s.transit d hd agent, core := noCore, cmd := 0, tenant := t, agent := agent, op := op,
                                             reply := none, touched := [], pledge := none }] }

/-- An agent of die d gives back entry i, as though by BRET or BUNSH; of a proxy it is the home entry (R212, R222). -/
def State.giveBack (s : State) (d agent i : Nat) (unshare : Bool) : State :=
  let b := s.brand d i
  let hd := if b.proxy then b.hdie else d
  let n := nameOf hd (if b.proxy then b.pxidx else i)
  s.doBrand d b.tenant agent hd (if unshare then .unshare n else .ret n)

/-- An agent returns the brands lent to it that satisfy a test, and its share records (R222). -/
def State.giveAll (s : State) (d agent : Nat) (test : Brand → Bool) (shares : Bool) : State :=
  let lent := ((s.die d).brands.filter (fun e => e.2.borrower agent && test e.2)).map Prod.fst
  let s1 := s.each lent (fun s i => s.giveBack d agent i false)
  let recs := if shares then ((s1.die d).shares.filter (fun r => r.agent == agent)).map (fun r => r.idx) else []
  s1.each recs (fun s i => s.giveBack d agent i true)

/-! Fates (R215, R216). -/

/-- Entry i takes the fate of the roles that failed agents of die d hold in it. Of a proxy, the home entry takes it by a message
(R212, R216). -/
def State.fateAt (s : State) (d : Nat) (agents : List Nat) (i : Nat) : State :=
  let x := s.die d
  let b := x.brand i
  let title := agents.contains b.title
  let cur := agents.contains b.cur
  let mine := (x.shares.filter (fun r => r.idx == i && agents.contains r.agent)).length
  if b.state == .free || (!title && !(b.state == .lent && cur) && mine == 0) then s
  else
    let s1 := s.setDie d (x.fateOf i title cur (fun r => agents.contains r.agent) mine)
    if b.proxy then s1.doBrand d b.tenant (agents.headD 0) b.hdie (.fate (nameOf b.hdie b.pxidx) title cur mine) else s1.mirrorAll d i

/-- Every entry takes the fate of the failed agents' roles, in ascending order (R215, R216). -/
def State.fates (s : State) (d : Nat) (agents : List Nat) : State :=
  s.each ((s.die d).brands.map Prod.fst) (fun s i => s.fateAt d agents i)

end Sys2Proof.Machine
end

