-- ==== Sys2Proof/Machine/AtomHome.lean ====
section
/-!
DEFINITION. Requests of atomic intervals at their home die (R233, R317, R318): what one computes, the rights it is judged by, and a
batch of them in order.
-/
namespace Sys2Proof.Machine

/-- The new element and the status bits of a request (R317). -/
def combineAtom (op : AtomOp) (ty : VTy) (old v : W32) : W32 × Status :=
  match op with
  | .add => (match ty with
    | .f32 => sumF .near false 0 (f32v old) (f32v v)
    | _ => (old + v, 0))
  | .min => (vmin ty old v, 0)
  | .max => (vmax ty old v, 0)
  | .and => (old &&& v, 0)
  | .or => (old ||| v, 0)
  | .xor => (old ^^^ v, 0)
  | .xchg => (v, 0)

/-- The agents by which a request is judged at its home h (R203, R211). -/
def State.atomAgents (s : State) (h : Nat) (b : Batch) (r : AtomReq) : List Nat :=
  let from_ := b.tr.fromDie
  if from_ = h then [r.agent] else if (s.die from_).entryIds b.tenant r.addr 4 = [] then [] else [dieAgent from_]

/-- Does a request of a batch meet an entry of a pre-empted context, for which it waits (R297)? -/
def State.atomsHeld (s : State) (h : Nat) (b : Batch) : Bool :=
  b.reqs.any (fun r => r.refused.isNone && s.judge h b.tenant (s.atomAgents h b r) none .atom r.addr 4 == .hold)

/-- One request at its home h, judged against the entry then standing; a requester of another die by the proxy that its die keeps, as
the die as a whole, else as an agent without a role (R203, R211, R233, R318). -/
def State.atomAt (s : State) (h : Nat) (b : Batch) (r : AtomReq) : AtomEnd × State :=
  let x := s.die h
  let from_ := b.tr.fromDie
  let use : TlbUse := if from_ = h then .walker else .memSide
  match r.refused with
  | some c => (.failed c, s)
  | none =>
    match x.read use b.tenant false r.addr 4 with
    | .page _ => (.failed .copyPage, s)
    | .hard c => (.failed c, s)
    | .ok bs x1 =>
      match s.judge h b.tenant (s.atomAgents h b r) none .atom r.addr 4 with
      | .bad c hb => (.failed c, s.handBack h hb)
      | _ =>
        let old : W32 := BitVec.ofNat 32 (ofLeBytes bs)
        let (v, st) := combineAtom r.op r.ty old r.val
        match x1.write use b.tenant false r.addr (leBytes 4 v.toNat) with
        | .ok _ x2 => (.ticket old st, s.setDie h x2)
        | .page _ => (.failed .copyPage, s)
        | .hard c => (.failed c, s)

/-- The requests of a batch, in order (R233). -/
def State.atomsAt (s : State) (h : Nat) (b : Batch) : List AtomReq → List AtomEnd × State
  | [] => ([], s)
  | r :: rs =>
    let (e, s1) := s.atomAt h b r
    let (es, s2) := s1.atomsAt h b rs
    (e :: es, s2)

/-- The ticket of a request (R317). -/
def ticketOf (ty : VTy) (old : W32) : Word :=
  match ty with
  | .i32 => wrap64 old.toInt
  | _ => old.setWidth 64

/-- The requests that a gang has sent in closed batches are applied now (R215). -/
def State.performBatches (s : State) (d slot : Nat) : State :=
  let mine (b : Batch) : Bool := b.slot == slot && b.ends.isNone
  let s1 := ((s.die d).batches.filter mine).foldl (fun s b =>
    if s.reaches d b.tr.toDie then (s.atomsAt b.tr.toDie b b.reqs).2 else s) s
  s1.modDie d (fun x => { x with batches := x.batches.filter (fun b => b.slot != slot) })

end Sys2Proof.Machine
end

