-- ==== Sys2Proof/Decode.lean ====
section
/-!
DEFINITION. The decoder and the encoder. Words are cut into the fields of the four formats (R59 to R64), the fields are
read as an instruction of the opcode map (R88 to R102) with the reserved-field checks of R66 to R73 and of the entries, and
encode lays the same fields out again. The strand, the link and the logit streams each have their own decoder (R75, R102).
-/
namespace Sys2Proof

/-- Why a word is no instruction: the three decoding faults that do not depend on the strand (R75). -/
inductive DecodeFault where
  | illegalLen
  | illegalOp
  | reservedField
  deriving DecidableEq, Repr

/-- The fields of word 0 above the length (R61). -/
structure Head where
  f : Fin 32
  b : Fin 32
  a : Fin 32
  d : Fin 32
  op : Fin 1024
  deriving DecidableEq, Repr

/-- The fields of an instruction in each format (R61 to R64). -/
inductive Raw where
  | r (h : Head)
  | i (h : Head) (top : Fin 128) (c : Fin 32) (imm : BitVec 20)
  | v (h : Head) (imm : BitVec 15) (c : Fin 32) (ty : Fin 16) (qd qa zm pn : Bool) (p : Fin 16)
  | x (h : Head) (lit : BitVec 32) (x8 : Fin 256) (ty : Fin 16) (pn : Bool) (p : Fin 16) (g e : Fin 32)
      (sop : Fin 4) (sch : Fin 8)
  deriving DecidableEq, Repr

/-- Bits [lo + n - 1 : lo] of a number, n given by its power of two. -/
def bitsAt (w lo size : Nat) : Nat := w / 2 ^ lo % size

/-- A field as a bounded number. -/
def fieldFin (w lo size : Nat) [NeZero size] : Fin size := Fin.ofNat size (w / 2 ^ lo)

/-- A one-bit field. -/
def fieldBool (w lo : Nat) : Bool := w / 2 ^ lo % 2 == 1

/-- A bit as a number. -/
def bitNat (b : Bool) : Nat := if b then 1 else 0

/-- The fields of word 0 (R61). -/
def Head.ofWord (w : Nat) : Head :=
  { f := fieldFin w 27 32, b := fieldFin w 22 32, a := fieldFin w 17 32, d := fieldFin w 12 32, op := fieldFin w 2 1024 }

/-- Word 0 with the length L (R59, R61). -/
def Head.toWord (h : Head) (l : Nat) : Nat :=
  h.f.val * 134217728 + h.b.val * 4194304 + h.a.val * 131072 + h.d.val * 4096 + h.op.val * 4 + l

/-- The opcodes whose 64-bit form has layout V: the vector opcodes and PSET (R65, R93, R94). -/
def layoutV (op : Nat) : Bool := (128 ≤ op && op < 256) || op == 257

/-- The fields of the instruction whose words are w0, w1, w2 (R59 to R65); none for the length 0b11. -/
def Raw.ofWords (w0 w1 w2 : Nat) : Option Raw :=
  let h := Head.ofWord w0
  if w0 % 4 = 0 then some (.r h)
  else if w0 % 4 = 1 then
    if layoutV h.op.val then
      some (.v h (BitVec.ofNat 15 (w1 / 131072)) (fieldFin w1 12 32) (fieldFin w1 8 16) (fieldBool w1 7) (fieldBool w1 6)
        (fieldBool w1 5) (fieldBool w1 4) (fieldFin w1 0 16))
    else some (.i h (fieldFin w1 25 128) (fieldFin w1 20 32) (BitVec.ofNat 20 w1))
  else if w0 % 4 = 2 then
    some (.x h (BitVec.ofNat 32 w1) (fieldFin w2 24 256) (fieldFin w2 20 16) (fieldBool w2 19) (fieldFin w2 15 16)
      (fieldFin w2 10 32) (fieldFin w2 5 32) (fieldFin w2 3 4) (fieldFin w2 0 8))
  else none

/-- The words of the fields (R59 to R64). -/
def Raw.toWords : Raw → List Nat
  | .r h => [h.toWord 0]
  | .i h top c imm => [h.toWord 1, top.val * 33554432 + c.val * 1048576 + imm.toNat]
  | .v h imm c ty qd qa zm pn p =>
    [h.toWord 1, imm.toNat * 131072 + c.val * 4096 + ty.val * 256 + bitNat qd * 128 + bitNat qa * 64 + bitNat zm * 32
      + bitNat pn * 16 + p.val]
  | .x h lit x8 ty pn p g e sop sch =>
    [h.toWord 2, lit.toNat, x8.val * 16777216 + ty.val * 1048576 + bitNat pn * 524288 + p.val * 32768 + g.val * 1024
      + e.val * 32 + sop.val * 8 + sch.val]

/-! Codes of the enumerated fields. -/

/-- TY (R70). -/
def VTy.code : VTy → Fin 16
  | .f32 => 0 | .i32 => 1 | .n32 => 2
/-- TY read. -/
def VTy.ofCode (n : Fin 16) : Option VTy :=
  match n.val with
  | 0 => some .f32 | 1 => some .i32 | 2 => some .n32 | _ => none

/-- Rounding mode codes (R136). -/
def RMode.code : RMode → Nat
  | .near => 0 | .zero => 1 | .down => 2 | .up => 3 | .away => 4 | .stoch => 5
/-- Rounding mode read. -/
def RMode.ofCode : Nat → Option RMode
  | 0 => some .near | 1 => some .zero | 2 => some .down | 3 => some .up | 4 => some .away | 5 => some .stoch | _ => none

/-- Condition codes (R320). -/
def Cond.code : Cond → Fin 32
  | .eq => 0 | .ne => 1 | .lt => 2 | .ge => 3 | .ltu => 4 | .geu => 5 | .le => 6 | .gt => 7 | .leu => 8 | .gtu => 9
  | .any => 10 | .none => 11 | .all => 12 | .nall => 13 | .al => 14
/-- Condition code read. -/
def Cond.ofCode (n : Fin 32) : Option Cond :=
  match n.val with
  | 0 => some .eq | 1 => some .ne | 2 => some .lt | 3 => some .ge | 4 => some .ltu | 5 => some .geu | 6 => some .le
  | 7 => some .gt | 8 => some .leu | 9 => some .gtu | 10 => some .any | 11 => some .none | 12 => some .all
  | 13 => some .nall | 14 => some .al | _ => Option.none

/-- SOP of a spark operation (R72). -/
def Spark.sop : Spark → Fin 4
  | .none => 0 | .push _ => 1 | .pop _ => 2 | .popPush _ => 3
/-- SCH of a spark operation (R72). -/
def Spark.sch : Spark → Fin 8
  | .none => 0 | .push c => c | .pop c => c | .popPush c => c
/-- The spark operation of SOP and SCH; SOP = 0 with a channel is reserved (R72). -/
def Spark.ofCode (sop : Fin 4) (sch : Fin 8) : Option Spark :=
  match sop.val with
  | 0 => if sch = 0 then some .none else Option.none
  | 1 => some (.push sch)
  | 2 => some (.pop sch)
  | _ => some (.popPush sch)

/-- D and QD of a vector destination (R69). -/
def VDest.code : VDest → Fin 32 × Bool
  | .reg v => (v, false)
  | .queue w => (⟨w.val, by omega⟩, true)
/-- The vector destination of D and QD (R69). -/
def VDest.ofCode (d : Fin 32) (qd : Bool) : Option VDest :=
  if qd then if h : d.val < 2 then some (.queue ⟨d.val, h⟩) else none else some (.reg d)

/-- A and QA of a vector operand (R69). -/
def VSrc.code : VSrc → Fin 32 × Bool
  | .reg v => (v, false)
  | .queue q => (⟨q.val, by omega⟩, true)
/-- The vector operand of A and QA (R69). -/
def VSrc.ofCode (a : Fin 32) (qa : Bool) : Option VSrc :=
  if qa then if h : a.val < 4 then some (.queue ⟨a.val, h⟩) else none else some (.reg a)

/-- LI's F (R350). -/
def LiForm.code : LiForm → Fin 32
  | .sx => 0 | .zx => 1 | .hi => 2
/-- LI's F read. -/
def LiForm.ofCode (n : Fin 32) : Option LiForm :=
  match n.val with
  | 0 => some .sx | 1 => some .zx | 2 => some .hi | _ => none

/-- LD's F (R348). -/
def LdSize.code : LdSize → Fin 32
  | .n8 => 0 | .n16 => 1 | .n32 => 2 | .w64 => 3 | .i8 => 4 | .i16 => 5 | .i32 => 6
/-- LD's F read. -/
def LdSize.ofCode (n : Fin 32) : Option LdSize :=
  match n.val with
  | 0 => some .n8 | 1 => some .n16 | 2 => some .n32 | 3 => some .w64 | 4 => some .i8 | 5 => some .i16 | 6 => some .i32
  | _ => none

/-- ST's F (R373). -/
def StSize.code : StSize → Fin 32
  | .b8 => 0 | .b16 => 1 | .b32 => 2 | .w64 => 3
/-- ST's F read. -/
def StSize.ofCode (n : Fin 32) : Option StSize :=
  match n.val with
  | 0 => some .b8 | 1 => some .b16 | 2 => some .b32 | 3 => some .w64 | _ => none

/-- Numbers of the special registers that can be read (R106). -/
def RdReg.code : RdReg → Nat
  | .strand => 0x000 | .core => 0x001 | .clamp => 0x002 | .group => 0x003 | .die => 0x004 | .physcore => 0x005
  | .args => 0x010 | .seed => 0x011 | .mode => 0x012 | .tenant => 0x013 | .importTab => 0x014
  | .flags => 0x020 | .cnt => 0x021 | .status => 0x022 | .qstat => 0x023
  | .vrot => 0x030 | .prot => 0x031 | .vbase => 0x032 | .vsize => 0x033 | .pbase => 0x034
  | .trapvec => 0x040 | .trapcause => 0x041 | .trappc => 0x042 | .trapinfo => 0x043 | .trapsave => 0x044
  | .cycle => 0x050 | .tick => 0x051 | .steptick => 0x052 | .imcode => 0x060
/-- A readable special register by number (R106, R107). -/
def RdReg.ofCode : Nat → Option RdReg
  | 0x000 => some .strand | 0x001 => some .core | 0x002 => some .clamp | 0x003 => some .group | 0x004 => some .die
  | 0x005 => some .physcore | 0x010 => some .args | 0x011 => some .seed | 0x012 => some .mode | 0x013 => some .tenant
  | 0x014 => some .importTab | 0x020 => some .flags | 0x021 => some .cnt | 0x022 => some .status | 0x023 => some .qstat
  | 0x030 => some .vrot | 0x031 => some .prot | 0x032 => some .vbase | 0x033 => some .vsize | 0x034 => some .pbase
  | 0x040 => some .trapvec | 0x041 => some .trapcause | 0x042 => some .trappc | 0x043 => some .trapinfo
  | 0x044 => some .trapsave | 0x050 => some .cycle | 0x051 => some .tick | 0x052 => some .steptick | 0x060 => some .imcode
  | _ => none

/-- Numbers of the special registers that the plain WRS writes (R106). -/
def WrReg.code : WrReg → Nat
  | .importTab => 0x014 | .flags => 0x020 | .status => 0x022 | .prot => 0x031
  | .trapvec => 0x040 | .trappc => 0x042 | .trapsave => 0x044 | .steptick => 0x052
/-- Numbers of the window registers (R106). -/
def WinReg.code : WinReg → Nat
  | .vrot => 0x030 | .vbase => 0x032 | .vsize => 0x033

/-- PLOG's F (R365). -/
def PLogOp.code : PLogOp → Fin 32
  | .and => 0 | .or => 1 | .xor => 2 | .andn => 3 | .orn => 4 | .nand => 5 | .nor => 6 | .xnor => 7
/-- PLOG's F read. -/
def PLogOp.ofCode (n : Fin 32) : Option PLogOp :=
  match n.val with
  | 0 => some .and | 1 => some .or | 2 => some .xor | 3 => some .andn | 4 => some .orn | 5 => some .nand | 6 => some .nor
  | 7 => some .xnor | _ => none

/-- PSET's F (R366). -/
def PSetMode.code : PSetMode → Fin 32
  | .lt => 0 | .ge => 1 | .rowlt => 2 | .collt => 3
/-- PSET's F read. -/
def PSetMode.ofCode (n : Fin 32) : Option PSetMode :=
  match n.val with
  | 0 => some .lt | 1 => some .ge | 2 => some .rowlt | 3 => some .collt | _ => none

/-- VCMP's F (R382). -/
def VCond.code : VCond → Fin 32
  | .eq => 0 | .ne => 1 | .lt => 2 | .le => 3 | .gt => 4 | .ge => 5 | .uo => 6
/-- VCMP's F read. -/
def VCond.ofCode (n : Fin 32) : Option VCond :=
  match n.val with
  | 0 => some .eq | 1 => some .ne | 2 => some .lt | 3 => some .le | 4 => some .gt | 5 => some .ge | 6 => some .uo | _ => none

/-- VIOTA's F (R389). -/
def IotaMode.code : IotaMode → Fin 32
  | .elem => 0 | .row => 1 | .col => 2
/-- VIOTA's F read. -/
def IotaMode.ofCode (n : Fin 32) : Option IotaMode :=
  match n.val with
  | 0 => some .elem | 1 => some .row | 2 => some .col | _ => none

/-- F of the reductions and ROP of XRED (R392, R408). -/
def RedOp.code : RedOp → Nat
  | .sum => 0 | .max => 1 | .min => 2
/-- A reduction read. -/
def RedOp.ofCode : Nat → Option RedOp
  | 0 => some .sum | 1 => some .max | 2 => some .min | _ => none

/-- CWAIT's F: the queue's QFENCE bit number (R335). -/
def QName.code : QName → Fin 32
  | .copy => 0 | .matrix => 1 | .coll => 2 | .sampler => 3 | .brand => 4 | .vstq => 5 | .other => 6
/-- CWAIT's F read. -/
def QName.ofCode (n : Fin 32) : Option QName :=
  match n.val with
  | 0 => some .copy | 1 => some .matrix | 2 => some .coll | 3 => some .sampler | 4 => some .brand | 5 => some .vstq
  | 6 => some .other | _ => none

/-- ATOM's X8 (R316). -/
def AtomOp.code : AtomOp → Fin 256
  | .add => 0 | .min => 1 | .max => 2 | .and => 3 | .or => 4 | .xor => 5 | .xchg => 6
/-- ATOM's X8 read. -/
def AtomOp.ofCode (n : Fin 256) : Option AtomOp :=
  match n.val with
  | 0 => some .add | 1 => some .min | 2 => some .max | 3 => some .and | 4 => some .or | 5 => some .xor | 6 => some .xchg
  | _ => none

/-- RSV's X8 (R369). -/
def RsvDom.code : RsvDom → Fin 256
  | .d1 => 1 | .d2 => 2 | .d3 => 3
/-- RSV's X8 read. -/
def RsvDom.ofCode (n : Fin 256) : Option RsvDom :=
  match n.val with
  | 1 => some .d1 | 2 => some .d2 | 3 => some .d3 | _ => none

/-- SBIND's X8 (R273). -/
def BindSel.code : BindSel → Fin 256
  | .parts p b c k => Fin.ofNat 256 (bitNat p + bitNat b * 2 + bitNat c * 4 + bitNat k * 8)
  | .unbind => 16
/-- SBIND's X8 read; an empty selection is left to the well-formedness check. -/
def BindSel.ofCode (n : Fin 256) : Option BindSel :=
  if n.val < 16 then some (.parts (fieldBool n.val 0) (fieldBool n.val 1) (fieldBool n.val 2) (fieldBool n.val 3))
  else if n.val = 16 then some .unbind else none

/-- MDRAIN's X8 (R169). -/
def DrainOpt.code (o : DrainOpt) : Fin 256 :=
  Fin.ofNat 256 (bitNat o.bias + bitNat o.act * 2 + bitNat o.req * 4 + bitNat o.clr * 8 + bitNat o.csc * 16)
/-- MDRAIN's X8 read. -/
def DrainOpt.ofCode (n : Fin 256) : Option DrainOpt :=
  if n.val < 32 then
    some { bias := fieldBool n.val 0, act := fieldBool n.val 1, req := fieldBool n.val 2, clr := fieldBool n.val 3,
           csc := fieldBool n.val 4 }
  else none

/-- F of an R-form brand instruction: PUSH, channel, ATOMIC (R205). -/
def pushCode (push : Option Chan) (atomic : Bool) : Fin 32 :=
  match push with
  | none => Fin.ofNat 32 (bitNat atomic)
  | some c => Fin.ofNat 32 (16 + c.val * 2 + bitNat atomic)
/-- The push of F, its bit 0 apart; F[3:1] must be 0 when PUSH = 0 (R205). -/
def pushOf (f : Fin 32) : Option (Option Chan) :=
  if 16 ≤ f.val then some (some (Fin.ofNat 8 (f.val / 2)))
  else if f.val < 2 then some none else none

/-- A flag in F[0], the rest of F zero. -/
def flagF (b : Bool) : Fin 32 := if b then 1 else 0
/-- F[0] read, none when another bit of F is set. -/
def flagOf (f : Fin 32) : Option Bool :=
  match f.val with
  | 0 => some false | 1 => some true | _ => none

/-- A predicate field: values 16 to 31 are reserved (R66). -/
def predOf (n : Fin 32) : Option PReg := if h : n.val < 16 then some ⟨n.val, h⟩ else none
/-- A predicate as a register field. -/
def predF (p : PReg) : Fin 32 := ⟨p.val, by omega⟩

/-- The link push of D, SOP and SCH (R406). -/
def LPush.ofCode (d : Fin 32) (sop : Fin 4) (sch : Fin 8) : Option LPush :=
  match sop.val with
  | 0 => if d = 0 ∧ sch = 0 then some .none else Option.none
  | 1 => some (.to d sch)
  | _ => Option.none
/-- D of a link push. -/
def LPush.d : LPush → Fin 32
  | .none => 0 | .to d _ => d
/-- SOP of a link push. -/
def LPush.sop : LPush → Fin 4
  | .none => 0 | .to _ _ => 1
/-- SCH of a link push. -/
def LPush.sch : LPush → Fin 8
  | .none => 0 | .to _ c => c

/-- IMM15[3:0] and C of a rounding field (R378). -/
def Rnd.imm (r : Rnd) : BitVec 15 := BitVec.ofNat 15 (r.rm.code + bitNat r.sat * 8)
/-- The rounding field of IMM15 and C. -/
def Rnd.ofCode (imm : BitVec 15) (c : Fin 32) : Option Rnd :=
  if imm.toNat < 16 then (RMode.ofCode (imm.toNat % 8)).map fun m => { rm := m, sat := fieldBool imm.toNat 3, c := c }
  else none
/-- VCVT's IMM15 (R383). -/
def cvtImm (ef : EF) (r : Rnd) : BitVec 15 := BitVec.ofNat 15 (ef.val + r.rm.code * 256 + bitNat r.sat * 2048)
/-- VCVT's IMM15 read: EF and the rounding field. -/
def cvtOf (imm : BitVec 15) (c : Fin 32) : Option (EF × Rnd) :=
  if imm.toNat < 4096 then
    (RMode.ofCode (imm.toNat / 256 % 8)).map fun m =>
      (Fin.ofNat 256 imm.toNat, { rm := m, sat := fieldBool imm.toNat 11, c := c })
  else none

/-- POS and LEN in IMM20 (R340). -/
def fieldImm (pos : Fin 64) (len : Fin 128) : BitVec 20 := BitVec.ofNat 20 (len.val * 64 + pos.val)
/-- STRIDE, M and ROW0 in LIT32 (R166, R169). -/
def rowsLit (stride : Fin 65536) (m : Fin 256) (row0 : Fin 128) : BitVec 32 :=
  BitVec.ofNat 32 (stride.val * 65536 + m.val * 256 + row0.val)
/-- VQUANT's LIT32 (R401). -/
def quantLit (t : Fin 8) (rm : RMode) (sat : Bool) : BitVec 32 := BitVec.ofNat 32 (t.val + rm.code * 8 + bitNat sat * 64)

/-! Reading the fields as an instruction. A candidate is built where the opcode, the length and the zero fields allow it; the
other checks are those of wellFormed, and every one of them raises RESERVED_FIELD. -/

/-- The vector fields of format V with operands A and D (R378). -/
def vopOf (h : Head) (qd qa zm pn : Bool) (p : Fin 16) : Option VOp :=
  (VDest.ofCode h.d qd).bind fun d => (VSrc.ofCode h.a qa).map fun a => { d := d, a := a, zm := zm, pred := ⟨p, pn⟩ }

/-- Keep a candidate only where the condition on zero fields holds. -/
def whenZ (c : Bool) (i : Option Instr) : Option Instr := if c then i else none

/-- Format R: the outer Option says whether the opcode has this format, the inner whether its fields are legal. -/
def Raw.readR (h : Head) : Option (Option Instr) :=
  match h.op.val with
  | 0x001 => some (whenZ (h.f == 0) (some (.add h.d h.a h.b)))
  | 0x003 => some (whenZ (h.f == 0) (some (.sub h.d h.a h.b)))
  | 0x004 => some (whenZ (h.f == 0) (some (.mul h.d h.a h.b)))
  | 0x005 => some ((flagOf h.f).map fun u => .mulh u h.d h.a h.b)
  | 0x006 => some ((flagOf h.f).map fun u => .div u h.d h.a h.b)
  | 0x007 => some ((flagOf h.f).map fun u => .rem u h.d h.a h.b)
  | 0x008 => some (whenZ (h.f == 0) (some (.and h.d h.a h.b)))
  | 0x009 => some (whenZ (h.f == 0) (some (.or h.d h.a h.b)))
  | 0x00A => some (whenZ (h.f == 0) (some (.xor h.d h.a h.b)))
  | 0x00B => some (whenZ (h.f == 0) (some (.andn h.d h.a h.b)))
  | 0x00C => some (whenZ (h.f == 0) (some (.shlReg h.d h.a h.b)))
  | 0x00D => some (whenZ (h.f == 0) (some (.shrReg h.d h.a h.b)))
  | 0x00E => some (whenZ (h.f == 0) (some (.shaReg h.d h.a h.b)))
  | 0x00F => some (whenZ (h.f == 0) (some (.rotReg h.d h.a h.b)))
  | 0x010 => some ((flagOf h.f).map fun u => .min u h.d h.a h.b)
  | 0x011 => some ((flagOf h.f).map fun u => .max u h.d h.a h.b)
  | 0x012 => some (whenZ (h.f == 0 && h.b == 0) (some (.clz h.d h.a)))
  | 0x013 => some (whenZ (h.f == 0 && h.b == 0) (some (.popc h.d h.a)))
  | 0x016 => some ((Cond.ofCode h.f).map fun c => .sel c h.d h.a h.b)
  | 0x017 => some (whenZ (h.f == 0 && h.d == 0) (some (.cmpReg h.a h.b)))
  | 0x018 => some (whenZ (h.a == 0 && h.b == 0) ((Cond.ofCode h.f).map fun c => .setc c h.d))
  | 0x01A => some (whenZ (h.f == 0 && h.b == 0) (some (.mov h.d h.a)))
  | 0x044 => some (whenZ (h.f == 0 && h.d == 0 && h.b == 0) (some (.callxReg h.a)))
  | 0x045 => some (whenZ (h.f == 0 && h.b == 0) (some (.jx h.d h.a)))
  | 0x047 => some (whenZ (h.f == 0 && h.d == 0 && h.a == 0 && h.b == 0) (some .exit))
  | 0x064 => some (whenZ (h.d == 0 && h.a == 0 && h.b == 0 && h.f.val < 8) (some (.spush (Fin.ofNat 8 h.f.val))))
  | 0x065 => some (whenZ (h.d == 0 && h.a == 0 && h.b == 0 && h.f.val < 8) (some (.spop (Fin.ofNat 8 h.f.val))))
  | 0x100 => some ((PLogOp.ofCode h.f).bind fun o => (predOf h.d).bind fun d => (predOf h.a).bind fun a =>
      (predOf h.b).map fun b => .plog o d a b)
  | 0x120 => some (whenZ (h.f == 0 && h.d == 0 && h.a == 0 && h.b == 0) (some .mlease))
  | 0x121 => some (whenZ (h.f == 0 && h.d == 0 && h.a == 0 && h.b == 0) (some .mfree))
  | 0x122 => some (whenZ (h.f == 0 && h.d == 0 && h.b == 0) (some (.mfmt h.a)))
  | 0x124 => some (whenZ (h.f == 0 && h.d == 0 && h.a == 0 && h.b == 0) (some .mswap))
  | 0x127 => some (whenZ (h.a == 0 && h.b == 0) ((flagOf h.f).map fun c => .mchk c h.d))
  | 0x144 => some (whenZ (h.d == 0 && h.b == 0) ((QName.ofCode h.f).map fun q => .cwait q h.a))
  | 0x161 => some (whenZ (h.b == 0 && h.f.val % 2 == 0) ((pushOf h.f).map fun p => .bfree h.d h.a p))
  | 0x162 => some (whenZ (h.f.val % 2 == 0) ((pushOf h.f).map fun p => .blend h.d h.a h.b p))
  | 0x163 => some (whenZ (h.b == 0 && h.f.val % 2 == 0) ((pushOf h.f).map fun p => .bret h.d h.a p))
  | 0x164 => some (whenZ (h.f.val % 2 == 0) ((pushOf h.f).map fun p => .bxfer h.d h.a h.b p))
  | 0x165 => some (whenZ (h.b == 0 && h.f.val % 2 == 0) ((pushOf h.f).map fun p => .bsplit h.d h.a p))
  | 0x166 => some (whenZ (h.f.val % 2 == 0) ((pushOf h.f).map fun p => .bjoin h.d h.a h.b p))
  | 0x167 => some (if h.f.val % 2 = 0 then (pushOf h.f).map fun p => .bshare h.d h.a h.b p
      else whenZ (h.b == 0) ((pushOf h.f).map fun p => .bshareAtomic h.d h.a p))
  | 0x168 => some (whenZ (h.b == 0 && h.f.val % 2 == 0) ((pushOf h.f).map fun p => .bunsh h.d h.a p))
  | 0x169 => some (whenZ (h.b == 0 && h.f.val % 2 == 0) ((pushOf h.f).map fun p => .bquery h.d h.a p))
  | 0x181 => some (whenZ (h.f == 0 && h.d == 0 && h.a == 0 && h.b == 0) (some .cbar))
  | 0x182 => some (whenZ (h.f == 0 && h.d == 0 && h.b == 0) (some (.waittReg h.a)))
  | 0x185 => some (whenZ (h.f == 0 && h.d == 0 && h.a == 0 && h.b == 0) (some .afence))
  | 0x187 => some (whenZ (h.f == 0) (some (.place h.d h.a h.b)))
  | 0x1A1 => some (whenZ (h.f == 0 && h.d == 0 && h.a == 0 && h.b == 0) (some .eret))
  | _ => none

/-- The field position and length of EXT and INS (R340). -/
def extOf (imm : BitVec 20) : Option (Fin 64 × Fin 128) :=
  if imm.toNat < 8192 then some (Fin.ofNat 64 imm.toNat, Fin.ofNat 128 (imm.toNat / 64)) else none

/-- WRS by the number of its register; numbers that are unassigned or read only are reserved (R107, R404). -/
def wrsOf (n : Nat) (a : Reg) : Option Instr :=
  match n with
  | 0x014 => some (.wrs .importTab a) | 0x020 => some (.wrs .flags a) | 0x022 => some (.wrs .status a)
  | 0x031 => some (.wrs .prot a) | 0x040 => some (.wrs .trapvec a) | 0x042 => some (.wrs .trappc a)
  | 0x044 => some (.wrs .trapsave a) | 0x052 => some (.wrs .steptick a) | 0x061 => some (.wrsImfree a)
  | 0x030 => some (.wrsWindow .vrot a) | 0x032 => some (.wrsWindow .vbase a) | 0x033 => some (.wrsWindow .vsize a)
  | 0x034 => some (.wrsPbase a) | _ => none

/-- Format I (R62). -/
def Raw.readI (h : Head) (top : Fin 128) (c : Fin 32) (imm : BitVec 20) : Option (Option Instr) :=
  let t := top == 0
  let tc := top == 0 && c == 0
  match h.op.val with
  | 0x002 => some (whenZ (tc && h.f == 0 && h.b == 0) (some (.addi h.d h.a imm)))
  | 0x00C => some (whenZ (tc && h.f == 0 && h.b == 0 && imm.toNat < 64) (some (.shlImm h.d h.a (Fin.ofNat 64 imm.toNat))))
  | 0x00D => some (whenZ (tc && h.f == 0 && h.b == 0 && imm.toNat < 64) (some (.shrImm h.d h.a (Fin.ofNat 64 imm.toNat))))
  | 0x00E => some (whenZ (tc && h.f == 0 && h.b == 0 && imm.toNat < 64) (some (.shaImm h.d h.a (Fin.ofNat 64 imm.toNat))))
  | 0x00F => some (whenZ (tc && h.f == 0 && h.b == 0 && imm.toNat < 64) (some (.rotImm h.d h.a (Fin.ofNat 64 imm.toNat))))
  | 0x014 => some (whenZ (tc && h.b == 0) ((flagOf h.f).bind fun s => (extOf imm).map fun e => .ext s h.d h.a e.1 e.2))
  | 0x015 => some (whenZ (tc && h.f == 0 && h.b == 0) ((extOf imm).map fun e => .ins h.d h.a e.1 e.2))
  | 0x017 => some (whenZ (tc && h.f == 0 && h.d == 0 && h.b == 0) (some (.cmpImm h.a imm)))
  | 0x040 => some (whenZ (tc && h.f == 0 && h.d == 0 && h.a == 0 && h.b == 0) (some (.b imm)))
  | 0x041 => some (whenZ (tc && h.d == 0 && h.a == 0 && h.b == 0) ((Cond.ofCode h.f).map fun k => .bc k imm))
  | 0x042 => some (whenZ (tc && h.d == 0 && h.b == 0) ((flagOf h.f).map fun n => .brz n h.a imm))
  | 0x043 => some (whenZ (tc && h.f == 0 && h.d == 0 && h.a == 0 && h.b == 0) (some (.call imm)))
  | 0x044 => some (whenZ (tc && h.f == 0 && h.d == 0 && h.a == 0 && h.b == 0) (some (.callxImm imm)))
  | 0x046 => some (whenZ (tc && h.d == 0 && h.b == 0 && h.f.val < 4)
      (some (.loop (fieldBool h.f.val 0) (fieldBool h.f.val 1) h.a imm)))
  | 0x060 => some (whenZ (tc && h.b == 0) ((LdSize.ofCode h.f).map fun z => .ld z h.d h.a imm))
  | 0x061 => some (whenZ (tc && h.d == 0) ((StSize.ofCode h.f).map fun z => .st z h.a h.b imm))
  | 0x062 => some (whenZ (tc && h.f == 0 && h.a == 0 && h.b == 0 && imm.toNat < 1024)
      ((RdReg.ofCode imm.toNat).map fun n => .rds h.d n))
  | 0x063 => some (whenZ (tc && h.f == 0 && h.d == 0 && h.b == 0 && imm.toNat < 1024) (wrsOf imm.toNat h.a))
  | 0x066 => some (whenZ (tc && h.f == 0 && h.d == 0 && h.a == 0 && h.b == 0 && imm.toNat < 128)
      (some (.qfence (Fin.ofNat 128 imm.toNat))))
  | 0x16A => some (whenZ (t && h.f.val % 2 == 0 && h.a == 0 && h.b == 0 && imm.toNat < 64)
      ((pushOf h.f).map fun p => .slotrd h.d c (Fin.ofNat 64 imm.toNat) p))
  | 0x16B => some (whenZ (tc && h.f.val % 2 == 0 && h.d == 0 && h.b == 0 && imm.toNat < 64)
      ((pushOf h.f).map fun p => .slotsw h.a (Fin.ofNat 64 imm.toNat) p))
  | 0x180 => some (whenZ (tc && h.d == 0 && h.b == 0) ((flagOf h.f).map fun st => .bar st h.a imm))
  | 0x182 => some (whenZ (tc && h.f == 0 && h.d == 0 && h.b == 0) (some (.waittImm h.a imm)))
  | 0x1A0 => some (whenZ (tc && h.f == 0 && h.d == 0 && h.a == 0 && h.b == 0) (some (.trap imm)))
  | 0x1A2 => some (whenZ (tc && h.f == 0 && h.d == 0 && h.a == 0 && h.b == 0) (some (.sysc imm)))
  | 0x1A4 => some (whenZ (tc && h.f == 0 && h.b == 0) (some (.capr h.d h.a imm)))
  | _ => none

/-- Format V (R63). -/
def Raw.readV (h : Head) (imm : BitVec 15) (c : Fin 32) (ty : Fin 16) (qd qa zm pn : Bool) (p : Fin 16) :
    Option (Option Instr) :=
  let op := vopOf h qd qa zm pn p
  let f0 := h.f == 0
  let b0 := h.b == 0
  let ic := imm == 0 && c == 0
  let t0 := ty == 0
  let pr : PredOp := ⟨p, pn⟩
  let rnd3 (k : VTy → VOp → VReg → Rnd → Instr) : Option (Option Instr) :=
    some (whenZ f0 ((VTy.ofCode ty).bind fun y => op.bind fun o => (Rnd.ofCode imm c).map fun r => k y o h.b r))
  let int3 (k : VTy → VOp → VReg → Instr) : Option (Option Instr) :=
    some (whenZ (f0 && ic) ((VTy.ofCode ty).bind fun y => op.map fun o => k y o h.b))
  let int2 (k : VTy → VOp → Instr) : Option (Option Instr) :=
    some (whenZ (f0 && ic && b0) ((VTy.ofCode ty).bind fun y => op.map fun o => k y o))
  let log3 (k : VOp → VReg → Instr) : Option (Option Instr) := some (whenZ (f0 && ic && t0) (op.map fun o => k o h.b))
  let one (k : VOp → Instr) : Option (Option Instr) := some (whenZ (f0 && ic && t0 && b0) (op.map k))
  let shift (k : VTy → VOp → VShAmt → Instr) : Option (Option Instr) :=
    some (whenZ (c == 0) ((VTy.ofCode ty).bind fun y => op.bind fun o => (flagOf h.f).bind fun i =>
      if i then (if b0 && imm.toNat < 32 then some (k y o (.imm (Fin.ofNat 32 imm.toNat))) else none)
      else (if imm == 0 then some (k y o (.reg h.b)) else none)))
  let axis (k : VOp → Reg → BitVec 15 → Instr) : Option (Option Instr) :=
    some (whenZ (f0 && b0 && t0) (op.map fun o => k o c imm))
  let red (k : VTy → RedOp → VOp → Instr) : Option (Option Instr) :=
    some (whenZ (ic && b0) ((VTy.ofCode ty).bind fun y => (RedOp.ofCode h.f.val).bind fun r => op.map fun o => k y r o))
  match h.op.val with
  | 0x080 => rnd3 .vadd
  | 0x081 => rnd3 .vsub
  | 0x082 => rnd3 .vmul
  | 0x083 => rnd3 .vfma
  | 0x084 => rnd3 .vfnma
  | 0x085 => int3 .vmin
  | 0x086 => int3 .vmax
  | 0x087 => int2 .vabs
  | 0x088 => int2 .vneg
  | 0x089 => one .vrcps
  | 0x08A => one .vrsqs
  | 0x08B => one .vexp2
  | 0x08C => one .vlog2
  | 0x08D => log3 .vand
  | 0x08E => log3 .vor
  | 0x08F => log3 .vxor
  | 0x090 => shift .vshl
  | 0x091 => shift .vshr
  | 0x092 => some (whenZ (ic && !qd) ((VTy.ofCode ty).bind fun y => (VCond.ofCode h.f).bind fun k =>
      (predOf h.d).bind fun pd => (VSrc.ofCode h.a qa).map fun a => .vcmp y k pd a h.b zm pr))
  | 0x093 => some (whenZ (f0 && imm == 0 && t0) (op.bind fun o => (predOf c).map fun q => .vsel o h.b q))
  | 0x094 => one .vmov
  | 0x095 => some (whenZ (f0 && ic && t0 && b0 && !qa) ((VDest.ofCode h.d qd).map fun d => .vbcs d h.a zm pr))
  | 0x096 => some (whenZ (c == 0 && b0 && !qa) ((VTy.ofCode ty).bind fun y => (IotaMode.ofCode h.f).bind fun m =>
      (VDest.ofCode h.d qd).map fun d => .viota y m d h.a imm zm pr))
  | 0x097 => some (whenZ (f0 && b0) ((VTy.ofCode ty).bind fun y => op.bind fun o =>
      (cvtOf imm c).map fun e => .vcvt e.1 y o e.2))
  | 0x09A => axis .vrotr
  | 0x09B => axis .vrotc
  | 0x09C => axis .vbcr
  | 0x09D => axis .vbcc
  | 0x09E => red .vredr
  | 0x09F => red .vredc
  | 0x0A0 => some (whenZ (f0 && ic && t0 && b0 && h.d == 0 && !zm && !qa && !qd) ((predOf h.a).map fun a => .vflag a pr))
  | 0x0A8 => some (whenZ ic ((VTy.ofCode ty).bind fun y => (RedOp.ofCode h.f.val).bind fun r => op.bind fun o =>
      (predOf h.b).map fun q => .vsegr y r o q))
  | 0x101 => some (whenZ (t0 && b0 && h.a == 0 && !qa && !qd) ((PSetMode.ofCode h.f).bind fun m =>
      (predOf h.d).map fun d => .pset m d c imm zm pr))
  | _ => none

/-- Format X of a strand (R64). -/
def Raw.readX (h : Head) (lit : BitVec 32) (x8 : Fin 256) (ty : Fin 16) (pn : Bool) (p : Fin 16) (g e : Fin 32)
    (sop : Fin 4) (sch : Fin 8) : Option (Option Instr) :=
  let sp := Spark.ofCode sop sch
  let f0 := h.f == 0
  let b0 := h.b == 0
  let a0 := h.a == 0
  let d0 := h.d == 0
  let x0 := x8 == 0
  let t0 := ty == 0
  let p0 := p == 0 && !pn
  let g0 := g == 0
  let e0 := e == 0
  let l0 := lit == 0
  let s0 := sop == 0 && sch == 0
  let w2 := x0 && t0 && p0 && g0 && e0
  let pr : PredOp := ⟨p, pn⟩
  match h.op.val with
  | 0x019 => some (whenZ (b0 && a0 && w2 && s0) ((LiForm.ofCode h.f).map fun k => .li k h.d lit))
  | 0x01B => some (whenZ (f0 && b0 && a0 && w2 && s0) (some (.adr h.d lit)))
  | 0x040 => some (whenZ (f0 && b0 && a0 && d0 && w2 && s0) (some (.bLong lit)))
  | 0x043 => some (whenZ (f0 && b0 && a0 && d0 && w2 && s0) (some (.callLong lit)))
  | 0x067 => some (whenZ (f0 && d0 && w2) (sp.map fun k => .nsend h.a h.b lit k))
  | 0x068 => some (whenZ (f0 && d0 && w2) (sp.map fun k => .nrecv h.a h.b lit k))
  | 0x098 => some (whenZ (f0 && d0 && g0 && t0 && p0 && lit.toNat < 128) (sp.bind fun k =>
      (RMode.ofCode (lit.toNat / 8 % 8)).map fun m =>
        .vquant x8 h.a h.b e (Fin.ofNat 8 lit.toNat) m (fieldBool lit.toNat 6) k))
  | 0x099 => some (whenZ (b0 && t0 && g0 && e0) ((flagOf h.f).bind fun z => sp.map fun k => .vdeq x8 z h.d h.a lit pr k))
  | 0x0A1 => some (whenZ (b0 && t0 && g0) ((flagOf h.f).bind fun z => sp.map fun k => .vld x8 z h.d h.a e lit pr k))
  | 0x0A2 => some (whenZ (f0 && d0 && g0) ((VTy.ofCode ty).bind fun y => sp.map fun k => .vst x8 y h.a h.b e lit pr k))
  | 0x0A3 => some (whenZ (f0 && b0 && g0 && t0 && p0 && h.d.val < 4) (sp.map fun k =>
      .vldq x8 (Fin.ofNat 4 h.d.val) h.a e lit k))
  | 0x0A4 => some (whenZ (f0 && d0 && g0 && p0 && h.b.val < 2) ((VTy.ofCode ty).bind fun y => sp.map fun k =>
      .vstq x8 y h.a (Fin.ofNat 2 h.b.val) e lit k))
  | 0x0A5 => some (whenZ (e0 && g0 && t0 && h.f.val < 8) (sp.map fun k =>
      .vgath x8 (fieldBool h.f.val 0) (fieldFin h.f.val 1 4) h.d h.a h.b lit pr k))
  | 0x0A6 => some (whenZ (d0 && g0 && h.f.val < 8 && h.f.val % 2 == 0) ((VTy.ofCode ty).bind fun y => sp.map fun k =>
      .vscat x8 y (fieldFin h.f.val 1 4) h.a h.b e lit pr k))
  | 0x0A7 => some (whenZ (e0 && g0 && t0) ((flagOf h.f).bind fun z => sp.map fun k => .vrag x8 z h.d h.a h.b lit pr k))
  | 0x0A9 => some (whenZ (b0 && e0 && g0 && t0 && l0 && x8.val < 2) ((flagOf h.f).bind fun z => sp.map fun k =>
      .vrng (fieldBool x8.val 0) z h.d h.a pr k))
  | 0x123 => some (whenZ (f0 && b0 && d0 && w2) (sp.map fun k => .mldw h.a lit k))
  | 0x125 => some (whenZ (f0 && b0 && d0 && w2 && lit.toNat / 128 % 2 == 0) (sp.map fun k =>
      .mstrm h.a (fieldFin lit.toNat 16 65536) (fieldFin lit.toNat 8 256) (fieldFin lit.toNat 0 128) k))
  | 0x126 => some (whenZ (f0 && d0 && t0 && p0 && lit.toNat / 128 % 2 == 0) ((DrainOpt.ofCode x8).bind fun o => sp.map fun k =>
      .mdrain o h.a h.b e g (fieldFin lit.toNat 16 65536) (fieldFin lit.toNat 8 256) (fieldFin lit.toNat 0 128) k))
  | 0x140 => some (whenZ (f0 && d0 && g0 && x0 && t0 && p0) (sp.map fun k => .cpy h.a h.b e lit k))
  | 0x141 => some (whenZ (f0 && d0 && l0 && x0 && t0 && p0) (sp.map fun k => .cpys h.a h.b e g k))
  | 0x142 => some (whenZ (f0 && t0 && p0 && x8.val < 4) (sp.map fun k =>
      .cpycs (fieldBool x8.val 0) (fieldBool x8.val 1) h.d h.a h.b e g lit k))
  | 0x143 => some (whenZ (f0 && b0 && d0 && w2) (sp.map fun k => .coll h.a lit k))
  | 0x145 => some (whenZ (f0 && d0 && x0 && t0 && p0 && lit.toNat < 4096) (sp.map fun k =>
      .smpl h.a h.b e g (Fin.ofNat 4096 lit.toNat) k))
  | 0x146 => some (whenZ (f0 && b0 && d0 && t0 && p0 && g0 && e0 && lit.toNat < 2048) ((BindSel.ofCode x8).bind fun s =>
      sp.map fun k => .sbind s h.a (Fin.ofNat 2048 lit.toNat) k))
  | 0x160 => some (whenZ (f0 && b0 && w2 && lit.toNat < 64) (sp.map fun k => .bclaim h.d h.a (Fin.ofNat 64 lit.toNat) k))
  | 0x183 => some (whenZ (b0 && d0 && w2 && s0) ((flagOf h.f).map fun n => .segend n h.a lit))
  | 0x184 => some (whenZ (f0 && p0 && g0 && e0) ((AtomOp.ofCode x8).bind fun o => (VTy.ofCode ty).bind fun y =>
      sp.map fun k => .atom o y h.d h.a h.b lit k))
  | 0x186 => some (whenZ (f0 && d0 && l0 && t0 && p0) ((RsvDom.ofCode x8).bind fun m => sp.map fun k =>
      .rsv m h.a h.b e g k))
  | 0x1A3 => some (whenZ (f0 && d0 && l0 && t0 && p0 && g0 && e0 && x8.val < 2) (sp.map fun k =>
      .tlbiq (fieldBool x8.val 0) h.a h.b k))
  | _ => none

/-- Format X of a link engine (R406, R408). -/
def Raw.readLink (h : Head) (lit : BitVec 32) (x8 : Fin 256) (ty : Fin 16) (pn : Bool) (p : Fin 16) (g e : Fin 32)
    (sop : Fin 4) (sch : Fin 8) : Option (Option Instr) :=
  let lp := LPush.ofCode h.d sop sch
  let z := ty == 0 && p == 0 && !pn
  let ns := h.d == 0 && sop == 0 && sch == 0
  match h.op.val with
  | 0x1C0 => some (whenZ (h.f == 0 && z && g == 0 && x8.val < 4) (lp.map fun k =>
      .xsend (fieldBool x8.val 0) (fieldBool x8.val 1) h.a h.b e lit k))
  | 0x1C1 => some (whenZ (h.f == 0 && z && x8 == 0) (lp.map fun k => .xrecv h.a h.b e g lit k))
  | 0x1C2 => some (whenZ (h.f == 0 && z && g == 0 && x8 == 0) (lp.map fun k => .xfwd h.a h.b e lit k))
  | 0x1C3 => some (whenZ (h.f.val < 8 && z && x8 == 0) ((RedOp.ofCode (h.f.val % 4)).bind fun o => lp.map fun k =>
      .xred o (fieldBool h.f.val 2) h.a h.b e g lit k))
  | 0x1C4 => some (whenZ (h.f == 0 && z && ns && h.a == 0 && h.b == 0 && g == 0 && e == 0) (some (.xguard x8 lit)))
  | 0x1C5 => some (whenZ (h.f == 0 && z && ns && h.a == 0 && h.b == 0 && g == 0 && x8 == 0) (some (.xopen e lit)))
  | 0x1C6 => some (whenZ (h.f == 0 && z && h.a == 0 && h.b == 0 && g == 0 && e == 0 && x8.val < 2) (lp.map fun k =>
      .xstep (fieldBool x8.val 0) lit k))
  | _ => none

/-- The decoder's verdict on a candidate (R75): the opcode first, then every reserved field. -/
def judge : Option (Option Instr) → Except DecodeFault Instr
  | none => .error .illegalOp
  | some none => .error .reservedField
  | some (some i) => if wellFormed i then .ok i else .error .reservedField

/-- A strand's instruction from its fields (R75). -/
def Raw.decode : Raw → Except DecodeFault Instr
  | .r h => judge (Raw.readR h)
  | .i h top c imm => judge (Raw.readI h top c imm)
  | .v h imm c ty qd qa zm pn p => judge (Raw.readV h imm c ty qd qa zm pn p)
  | .x h lit x8 ty pn p g e sop sch => judge (Raw.readX h lit x8 ty pn p g e sop sch)

/-- A link engine's instruction from its fields (R75, R406). -/
def Raw.decodeLink : Raw → Except DecodeFault Instr
  | .x h lit x8 ty pn p g e sop sch => judge (Raw.readLink h lit x8 ty pn p g e sop sch)
  | .r _ => .error .illegalOp
  | .i _ _ _ _ => .error .illegalOp
  | .v _ _ _ _ _ _ _ _ _ => .error .illegalOp

/-- A strand's instruction from its words; words past its length are not read (R75). -/
def decodeStrand (w0 w1 w2 : Nat) : Except DecodeFault Instr :=
  match Raw.ofWords w0 w1 w2 with
  | none => .error .illegalLen
  | some r => r.decode

/-- A link engine's instruction from its words (R75, R406). -/
def decodeLink (w0 w1 w2 : Nat) : Except DecodeFault Instr :=
  match Raw.ofWords w0 w1 w2 with
  | none => .error .illegalLen
  | some r => r.decodeLink

/-- A logit word: IMM23 × 512 + K × 64 + OP (R102, R343); fields an opcode does not use must be zero (R271). -/
def readLogit (w : Nat) : Option (Option Instr) :=
  let k : Fin 8 := fieldFin w 6 8
  let imm := w / 512 % 8388608
  let i0 := imm == 0
  let none0 (i : Instr) : Option (Option Instr) := some (whenZ (i0 && k == 0) (some i))
  let par (i : Fin 8 → Instr) : Option (Option Instr) := some (whenZ i0 (some (i k)))
  match w % 64 with
  | 0x01 => some (some (.lset k (BitVec.ofNat 23 imm)))
  | 0x02 => par .ltemp
  | 0x03 => none0 .lbias
  | 0x04 => par .lpen
  | 0x05 => some (whenZ (k == 0 && imm < 2) (some (.lmask (fieldBool imm 0))))
  | 0x06 => par .lcap
  | 0x07 => some (whenZ (k == 0) (some (.ltopk (BitVec.ofNat 23 imm))))
  | 0x08 => par .ltopp
  | 0x09 => par .lminp
  | 0x0A => none0 .lsoft
  | 0x0B => some (whenZ (k == 0 && imm < 2) (some (if imm = 0 then .ldraw else .ldrawGreedy)))
  | 0x0C => none0 .lcnt
  | 0x0D => none0 .lstop
  | _ => none

/-- A logit instruction from its word (R103, R272 checks 1 and 2). -/
def decodeLogit (w : Nat) : Except DecodeFault Instr := judge (readLogit w)

/-! The encoder: the fields of each instruction as its entry of the spec lays them out. -/

/-- Word 0 fields of an R-form instruction. -/
def hd (op : Fin 1024) (f b a d : Fin 32) : Head := { f := f, b := b, a := a, d := d, op := op }

/-- Format I with C = 0. -/
def encI (op : Fin 1024) (f b a d : Fin 32) (imm : BitVec 20) : Raw := .i (hd op f b a d) 0 0 imm

/-- Format V from a VOp. -/
def encV (op : Fin 1024) (f b : Fin 32) (o : VOp) (imm : BitVec 15) (c : Fin 32) (ty : Fin 16) : Raw :=
  .v (hd op f b o.a.code.1 o.d.code.1) imm c ty o.d.code.2 o.a.code.2 o.zm o.pred.neg o.pred.p

/-- Format V with a rounding field. -/
def encRnd (op : Fin 1024) (b : Fin 32) (o : VOp) (r : Rnd) (ty : VTy) : Raw := encV op 0 b o r.imm r.c ty.code

/-- The shift forms of VSHL and VSHR (R388). -/
def encShift (op : Fin 1024) (o : VOp) (ty : VTy) : VShAmt → Raw
  | .reg b => encV op 0 b o 0 0 ty.code
  | .imm n => encV op 1 0 o (BitVec.ofNat 15 n.val) 0 ty.code

/-- Format X without predicate. -/
def encX (op : Fin 1024) (f b a d : Fin 32) (lit : BitVec 32) (x8 : Fin 256) (g e : Fin 32) (sp : Spark) : Raw :=
  .x (hd op f b a d) lit x8 0 false 0 g e sp.sop sp.sch

/-- Format X of a vector memory instruction. -/
def encXV (op : Fin 1024) (f b a d : Fin 32) (lit : BitVec 32) (x8 : Fin 256) (ty : Fin 16) (pr : PredOp) (g e : Fin 32)
    (sp : Spark) : Raw :=
  .x (hd op f b a d) lit x8 ty pr.neg pr.p g e sp.sop sp.sch

/-- Format X of a link instruction (R408). -/
def encL (op : Fin 1024) (f b a : Fin 32) (lit : BitVec 32) (x8 : Fin 256) (g e : Fin 32) (lp : LPush) : Raw :=
  .x (hd op f b a lp.d) lit x8 0 false 0 g e lp.sop lp.sch

/-- The fields of a strand or link instruction; none for a logit instruction, whose word has no such fields, and for an
event, which has no encoding. -/
def toRaw : Instr → Option Raw
  | .add d a b => some (.r (hd 0x001 0 b a d))
  | .addi d a imm => some (encI 0x002 0 0 a d imm)
  | .sub d a b => some (.r (hd 0x003 0 b a d))
  | .mul d a b => some (.r (hd 0x004 0 b a d))
  | .mulh u d a b => some (.r (hd 0x005 (flagF u) b a d))
  | .div u d a b => some (.r (hd 0x006 (flagF u) b a d))
  | .rem u d a b => some (.r (hd 0x007 (flagF u) b a d))
  | .and d a b => some (.r (hd 0x008 0 b a d))
  | .or d a b => some (.r (hd 0x009 0 b a d))
  | .xor d a b => some (.r (hd 0x00A 0 b a d))
  | .andn d a b => some (.r (hd 0x00B 0 b a d))
  | .shlReg d a b => some (.r (hd 0x00C 0 b a d))
  | .shlImm d a n => some (encI 0x00C 0 0 a d (BitVec.ofNat 20 n.val))
  | .shrReg d a b => some (.r (hd 0x00D 0 b a d))
  | .shrImm d a n => some (encI 0x00D 0 0 a d (BitVec.ofNat 20 n.val))
  | .shaReg d a b => some (.r (hd 0x00E 0 b a d))
  | .shaImm d a n => some (encI 0x00E 0 0 a d (BitVec.ofNat 20 n.val))
  | .rotReg d a b => some (.r (hd 0x00F 0 b a d))
  | .rotImm d a n => some (encI 0x00F 0 0 a d (BitVec.ofNat 20 n.val))
  | .min u d a b => some (.r (hd 0x010 (flagF u) b a d))
  | .max u d a b => some (.r (hd 0x011 (flagF u) b a d))
  | .clz d a => some (.r (hd 0x012 0 0 a d))
  | .popc d a => some (.r (hd 0x013 0 0 a d))
  | .ext sx d a pos len => some (encI 0x014 (flagF sx) 0 a d (fieldImm pos len))
  | .ins d a pos len => some (encI 0x015 0 0 a d (fieldImm pos len))
  | .sel cc d a b => some (.r (hd 0x016 cc.code b a d))
  | .cmpReg a b => some (.r (hd 0x017 0 b a 0))
  | .cmpImm a imm => some (encI 0x017 0 0 a 0 imm)
  | .setc cc d => some (.r (hd 0x018 cc.code 0 0 d))
  | .li form d lit => some (encX 0x019 form.code 0 0 d lit 0 0 0 .none)
  | .mov d a => some (.r (hd 0x01A 0 0 a d))
  | .adr d lit => some (encX 0x01B 0 0 0 d lit 0 0 0 .none)
  | .b imm => some (encI 0x040 0 0 0 0 imm)
  | .bLong lit => some (encX 0x040 0 0 0 0 lit 0 0 0 .none)
  | .bc cc imm => some (encI 0x041 cc.code 0 0 0 imm)
  | .brz nz a imm => some (encI 0x042 (flagF nz) 0 a 0 imm)
  | .call imm => some (encI 0x043 0 0 0 0 imm)
  | .callLong lit => some (encX 0x043 0 0 0 0 lit 0 0 0 .none)
  | .callxReg a => some (.r (hd 0x044 0 0 a 0))
  | .callxImm imm => some (encI 0x044 0 0 0 0 imm)
  | .jx d a => some (.r (hd 0x045 0 0 a d))
  | .loop rv rp a imm => some (encI 0x046 (Fin.ofNat 32 (bitNat rv + bitNat rp * 2)) 0 a 0 imm)
  | .exit => some (.r (hd 0x047 0 0 0 0))
  | .ld sz d a imm => some (encI 0x060 sz.code 0 a d imm)
  | .st sz a b imm => some (encI 0x061 sz.code b a 0 imm)
  | .rds d n => some (encI 0x062 0 0 0 d (BitVec.ofNat 20 n.code))
  | .wrs n a => some (encI 0x063 0 0 a 0 (BitVec.ofNat 20 n.code))
  | .wrsImfree a => some (encI 0x063 0 0 a 0 0x061)
  | .wrsWindow n a => some (encI 0x063 0 0 a 0 (BitVec.ofNat 20 n.code))
  | .wrsPbase a => some (encI 0x063 0 0 a 0 0x034)
  | .spush ch => some (.r (hd 0x064 (Fin.ofNat 32 ch.val) 0 0 0))
  | .spop ch => some (.r (hd 0x065 (Fin.ofNat 32 ch.val) 0 0 0))
  | .qfence mask => some (encI 0x066 0 0 0 0 (BitVec.ofNat 20 mask.val))
  | .nsend a b len sp => some (encX 0x067 0 b a 0 len 0 0 0 sp)
  | .nrecv a b len sp => some (encX 0x068 0 b a 0 len 0 0 0 sp)
  | .vadd ty o b r => some (encRnd 0x080 b o r ty)
  | .vsub ty o b r => some (encRnd 0x081 b o r ty)
  | .vmul ty o b r => some (encRnd 0x082 b o r ty)
  | .vfma ty o b r => some (encRnd 0x083 b o r ty)
  | .vfnma ty o b r => some (encRnd 0x084 b o r ty)
  | .vmin ty o b => some (encV 0x085 0 b o 0 0 ty.code)
  | .vmax ty o b => some (encV 0x086 0 b o 0 0 ty.code)
  | .vabs ty o => some (encV 0x087 0 0 o 0 0 ty.code)
  | .vneg ty o => some (encV 0x088 0 0 o 0 0 ty.code)
  | .vrcps o => some (encV 0x089 0 0 o 0 0 0)
  | .vrsqs o => some (encV 0x08A 0 0 o 0 0 0)
  | .vexp2 o => some (encV 0x08B 0 0 o 0 0 0)
  | .vlog2 o => some (encV 0x08C 0 0 o 0 0 0)
  | .vand o b => some (encV 0x08D 0 b o 0 0 0)
  | .vor o b => some (encV 0x08E 0 b o 0 0 0)
  | .vxor o b => some (encV 0x08F 0 b o 0 0 0)
  | .vshl ty o n => some (encShift 0x090 o ty n)
  | .vshr ty o n => some (encShift 0x091 o ty n)
  | .vcmp ty cc pd a b zm pred => some (.v (hd 0x092 cc.code b a.code.1 (predF pd)) 0 0 ty.code false a.code.2 zm pred.neg pred.p)
  | .vsel o b pc => some (encV 0x093 0 b o 0 (predF pc) 0)
  | .vmov o => some (encV 0x094 0 0 o 0 0 0)
  | .vbcs d a zm pred => some (.v (hd 0x095 0 0 a d.code.1) 0 0 0 d.code.2 false zm pred.neg pred.p)
  | .viota ty m d a step zm pred => some (.v (hd 0x096 m.code 0 a d.code.1) step 0 ty.code d.code.2 false zm pred.neg pred.p)
  | .vcvt ef ty o r => some (encV 0x097 0 0 o (cvtImm ef r) r.c ty.code)
  | .vquant ef a b e t rm sat sp => some (encX 0x098 0 b a 0 (quantLit t rm sat) ef 0 e sp)
  | .vdeq ef z d a lit pred sp => some (encXV 0x099 (flagF z) 0 a d lit ef 0 pred 0 0 sp)
  | .vrotr o c imm => some (encV 0x09A 0 0 o imm c 0)
  | .vrotc o c imm => some (encV 0x09B 0 0 o imm c 0)
  | .vbcr o c imm => some (encV 0x09C 0 0 o imm c 0)
  | .vbcc o c imm => some (encV 0x09D 0 0 o imm c 0)
  | .vredr ty op o => some (encV 0x09E (Fin.ofNat 32 op.code) 0 o 0 0 ty.code)
  | .vredc ty op o => some (encV 0x09F (Fin.ofNat 32 op.code) 0 o 0 0 ty.code)
  | .vsegr ty op o pb => some (encV 0x0A8 (Fin.ofNat 32 op.code) (predF pb) o 0 0 ty.code)
  | .vflag pa pred => some (.v (hd 0x0A0 0 0 (predF pa) 0) 0 0 0 false false false pred.neg pred.p)
  | .vld ef z d a e lit pred sp => some (encXV 0x0A1 (flagF z) 0 a d lit ef 0 pred 0 e sp)
  | .vst ef ty a b e lit pred sp => some (encXV 0x0A2 0 b a 0 lit ef ty.code pred 0 e sp)
  | .vldq ef q a e lit sp => some (encX 0x0A3 0 0 a (Fin.ofNat 32 q.val) lit ef 0 e sp)
  | .vstq ef ty a w e lit sp => some (encXV 0x0A4 0 (Fin.ofNat 32 w.val) a 0 lit ef ty.code ⟨0, false⟩ 0 e sp)
  | .vgath ef z part d a b lit pred sp => some (encXV 0x0A5 (Fin.ofNat 32 (bitNat z + part.val * 2)) b a d lit ef 0 pred 0 0 sp)
  | .vscat ef ty part a b e lit pred sp => some (encXV 0x0A6 (Fin.ofNat 32 (part.val * 2)) b a 0 lit ef ty.code pred 0 e sp)
  | .vrag ef z d a b lit pred sp => some (encXV 0x0A7 (flagF z) b a d lit ef 0 pred 0 0 sp)
  | .vrng u01 z d a pred sp => some (encXV 0x0A9 (flagF z) 0 a d 0 (Fin.ofNat 256 (bitNat u01)) 0 pred 0 0 sp)
  | .plog op d a b => some (.r (hd 0x100 op.code (predF b) (predF a) (predF d)))
  | .pset m d c imm zm pred => some (.v (hd 0x101 m.code 0 0 (predF d)) imm c 0 false false zm pred.neg pred.p)
  | .mlease => some (.r (hd 0x120 0 0 0 0))
  | .mfree => some (.r (hd 0x121 0 0 0 0))
  | .mfmt a => some (.r (hd 0x122 0 0 a 0))
  | .mldw a lit sp => some (encX 0x123 0 0 a 0 lit 0 0 0 sp)
  | .mswap => some (.r (hd 0x124 0 0 0 0))
  | .mstrm a stride m row0 sp => some (encX 0x125 0 0 a 0 (rowsLit stride m row0) 0 0 0 sp)
  | .mdrain opt a b e g stride m row0 sp => some (encX 0x126 0 b a 0 (rowsLit stride m row0) opt.code g e sp)
  | .mchk clr d => some (.r (hd 0x127 (flagF clr) 0 0 d))
  | .cpy a b e lit sp => some (encX 0x140 0 b a 0 lit 0 0 e sp)
  | .cpys a b e g sp => some (encX 0x141 0 b a 0 0 0 g e sp)
  | .cpycs first last d a b e g lit sp => some (encX 0x142 0 b a d lit (Fin.ofNat 256 (bitNat first + bitNat last * 2)) g e sp)
  | .coll a lit sp => some (encX 0x143 0 0 a 0 lit 0 0 0 sp)
  | .cwait q a => some (.r (hd 0x144 q.code 0 a 0))
  | .smpl a b e g n sp => some (encX 0x145 0 b a 0 (BitVec.ofNat 32 n.val) 0 g e sp)
  | .sbind sel a slot sp => some (encX 0x146 0 0 a 0 (BitVec.ofNat 32 slot.val) sel.code 0 0 sp)
  | .bclaim d a lsize sp => some (encX 0x160 0 0 a d (BitVec.ofNat 32 lsize.val) 0 0 0 sp)
  | .bfree d a push => some (.r (hd 0x161 (pushCode push false) 0 a d))
  | .blend d a b push => some (.r (hd 0x162 (pushCode push false) b a d))
  | .bret d a push => some (.r (hd 0x163 (pushCode push false) 0 a d))
  | .bxfer d a b push => some (.r (hd 0x164 (pushCode push false) b a d))
  | .bsplit d a push => some (.r (hd 0x165 (pushCode push false) 0 a d))
  | .bjoin d a b push => some (.r (hd 0x166 (pushCode push false) b a d))
  | .bshare d a b push => some (.r (hd 0x167 (pushCode push false) b a d))
  | .bshareAtomic d a push => some (.r (hd 0x167 (pushCode push true) 0 a d))
  | .bunsh d a push => some (.r (hd 0x168 (pushCode push false) 0 a d))
  | .bquery d a push => some (.r (hd 0x169 (pushCode push false) 0 a d))
  | .slotrd d c slot push => some (.i (hd 0x16A (pushCode push false) 0 0 d) 0 c (BitVec.ofNat 20 slot.val))
  | .slotsw a slot push => some (encI 0x16B (pushCode push false) 0 a 0 (BitVec.ofNat 20 slot.val))
  | .bar stp a imm => some (encI 0x180 (flagF stp) 0 a 0 imm)
  | .cbar => some (.r (hd 0x181 0 0 0 0))
  | .waittReg a => some (.r (hd 0x182 0 0 a 0))
  | .waittImm a imm => some (encI 0x182 0 0 a 0 imm)
  | .segend nosig a lit => some (encX 0x183 (flagF nosig) 0 a 0 lit 0 0 0 .none)
  | .atom op ty d a b lit sp => some (encXV 0x184 0 b a d lit op.code ty.code ⟨0, false⟩ 0 0 sp)
  | .afence => some (.r (hd 0x185 0 0 0 0))
  | .rsv dom a b e g sp => some (encX 0x186 0 b a 0 0 dom.code g e sp)
  | .place d a b => some (.r (hd 0x187 0 b a d))
  | .trap imm => some (encI 0x1A0 0 0 0 0 imm)
  | .eret => some (.r (hd 0x1A1 0 0 0 0))
  | .sysc imm => some (encI 0x1A2 0 0 0 0 imm)
  | .tlbiq all a b sp => some (encX 0x1A3 0 b a 0 0 (Fin.ofNat 256 (bitNat all)) 0 0 sp)
  | .capr d a imm => some (encI 0x1A4 0 0 a d imm)
  | .xsend track part a b e lit push => some (encL 0x1C0 0 b a lit (Fin.ofNat 256 (bitNat track + bitNat part * 2)) 0 e push)
  | .xrecv a b e g lit push => some (encL 0x1C1 0 b a lit 0 g e push)
  | .xfwd a b e lit push => some (encL 0x1C2 0 b a lit 0 0 e push)
  | .xred op fin a b e g lit push => some (encL 0x1C3 (Fin.ofNat 32 (op.code + bitNat fin * 4)) b a lit 0 g e push)
  | .xguard len lit => some (encL 0x1C4 0 0 0 lit len 0 0 .none)
  | .xopen e lit => some (encL 0x1C5 0 0 0 lit 0 0 e .none)
  | .xstep last lit push => some (encL 0x1C6 0 0 0 lit (Fin.ofNat 256 (bitNat last)) 0 0 push)
  | .lset _ _ => none
  | .ltemp _ => none
  | .lbias => none
  | .lpen _ => none
  | .lmask _ => none
  | .lcap _ => none
  | .ltopk _ => none
  | .ltopp _ => none
  | .lminp _ => none
  | .lsoft => none
  | .ldraw => none
  | .ldrawGreedy => none
  | .lcnt => none
  | .lstop => none
  | .entryArm _ _ _ _ => none
  | .entryDisarm _ _ _ _ => none
  | .entryDue _ _ => none
  | .launchStart _ _ => none
  | .loadResume _ _ => none
  | .loadComplete _ _ => none
  | .launchFirstIssue _ _ => none
  | .loadLate _ _ => none
  | .coreRetire _ _ => none
  | .barRelease _ _ => none
  | .barDeadline _ _ => none
  | .cbarRelease _ _ => none
  | .steptickDeadline _ _ _ => none
  | .waittTarget _ _ _ => none
  | .vflagLand _ _ _ => none
  | .operandQueueFill _ _ _ => none
  | .sparkPopGrant _ _ _ => none
  | .heldPushRetry _ _ _ => none
  | .engineFault _ _ _ => none
  | .preemptHalt _ _ => none
  | .contextSave _ _ => none
  | .saveComplete _ _ => none
  | .resume _ _ => none
  | .leaseGrant _ _ => none
  | .tenureEnd _ _ => none
  | .arrayCommandStart _ _ => none
  | .arrayCommandComplete _ _ _ => none
  | .fetchStageComplete _ _ => none
  | .copyStart _ _ => none
  | .copyChunk _ _ => none
  | .copyRetry _ _ => none
  | .copyComplete _ _ => none
  | .tlbiqComplete _ _ _ => none
  | .tlbiWatchdog _ _ _ => none
  | .brandChange _ _ => none
  | .brandMessage _ => none
  | .brandReply _ => none
  | .atomicIntervalClose _ _ => none
  | .atomicBatch _ _ => none
  | .sbindExecute _ => none
  | .sbindComplete _ => none
  | .smplStart _ => none
  | .sequenceRun _ => none
  | .smplComplete _ => none
  | .neighbourArrival _ _ => none
  | .collStart _ _ => none
  | .collAdmission _ _ => none
  | .collComplete _ _ _ => none
  | .linkArm _ _ _ => none
  | .linkDisarm _ _ _ => none
  | .linkEngineStart _ _ => none
  | .flitDelivery _ _ => none
  | .landingBufferExpiry _ _ => none
  | .receiveDeadline _ _ => none
  | .guardOverdue _ _ => none
  | .openFlitArrival _ => none
  | .idleGuard _ _ => none
  | .timeExchange _ _ _ _ _ => none
  | .slew _ => none
  | .podFormation _ => none
  | .portFailure _ _ => none
  | .abortFlit _ _ => none
  | .writeWithImmediate _ _ _ _ _ _ => none
  | .rdmaWrite _ _ _ _ _ => none
  | .rdmaRead _ _ _ _ _ => none
  | .tenantConfigure _ _ _ => none
  | .tenantRemove _ _ => none
  | .attestation _ _ => none
  | .errorInjection _ _ _ _ => none
  | .errorLogRead _ _ _ => none
  | .telemetryRead _ => none
  | .firmwareBoot _ _ _ => none
  | .throttleStep _ _ _ => none
  | .thermalProtection _ _ => none
  | .dieReset _ _ => none
  | .illegalOp => none
  | .fetchInvalid => none
  | .portRestore _ _ => none

/-- The word of a logit instruction (R343). -/
def toLogit : Instr → Option Nat
  | .add _ _ _ => none
  | .addi _ _ _ => none
  | .sub _ _ _ => none
  | .mul _ _ _ => none
  | .mulh _ _ _ _ => none
  | .div _ _ _ _ => none
  | .rem _ _ _ _ => none
  | .and _ _ _ => none
  | .or _ _ _ => none
  | .xor _ _ _ => none
  | .andn _ _ _ => none
  | .shlReg _ _ _ => none
  | .shlImm _ _ _ => none
  | .shrReg _ _ _ => none
  | .shrImm _ _ _ => none
  | .shaReg _ _ _ => none
  | .shaImm _ _ _ => none
  | .rotReg _ _ _ => none
  | .rotImm _ _ _ => none
  | .min _ _ _ _ => none
  | .max _ _ _ _ => none
  | .clz _ _ => none
  | .popc _ _ => none
  | .ext _ _ _ _ _ => none
  | .ins _ _ _ _ => none
  | .sel _ _ _ _ => none
  | .cmpReg _ _ => none
  | .cmpImm _ _ => none
  | .setc _ _ => none
  | .li _ _ _ => none
  | .mov _ _ => none
  | .adr _ _ => none
  | .b _ => none
  | .bLong _ => none
  | .bc _ _ => none
  | .brz _ _ _ => none
  | .call _ => none
  | .callLong _ => none
  | .callxReg _ => none
  | .callxImm _ => none
  | .jx _ _ => none
  | .loop _ _ _ _ => none
  | .exit => none
  | .ld _ _ _ _ => none
  | .st _ _ _ _ => none
  | .rds _ _ => none
  | .wrs _ _ => none
  | .wrsImfree _ => none
  | .wrsWindow _ _ => none
  | .wrsPbase _ => none
  | .spush _ => none
  | .spop _ => none
  | .qfence _ => none
  | .nsend _ _ _ _ => none
  | .nrecv _ _ _ _ => none
  | .vadd _ _ _ _ => none
  | .vsub _ _ _ _ => none
  | .vmul _ _ _ _ => none
  | .vfma _ _ _ _ => none
  | .vfnma _ _ _ _ => none
  | .vmin _ _ _ => none
  | .vmax _ _ _ => none
  | .vabs _ _ => none
  | .vneg _ _ => none
  | .vrcps _ => none
  | .vrsqs _ => none
  | .vexp2 _ => none
  | .vlog2 _ => none
  | .vand _ _ => none
  | .vor _ _ => none
  | .vxor _ _ => none
  | .vshl _ _ _ => none
  | .vshr _ _ _ => none
  | .vcmp _ _ _ _ _ _ _ => none
  | .vsel _ _ _ => none
  | .vmov _ => none
  | .vbcs _ _ _ _ => none
  | .viota _ _ _ _ _ _ _ => none
  | .vcvt _ _ _ _ => none
  | .vquant _ _ _ _ _ _ _ _ => none
  | .vdeq _ _ _ _ _ _ _ => none
  | .vrotr _ _ _ => none
  | .vrotc _ _ _ => none
  | .vbcr _ _ _ => none
  | .vbcc _ _ _ => none
  | .vredr _ _ _ => none
  | .vredc _ _ _ => none
  | .vsegr _ _ _ _ => none
  | .vflag _ _ => none
  | .vld _ _ _ _ _ _ _ _ => none
  | .vst _ _ _ _ _ _ _ _ => none
  | .vldq _ _ _ _ _ _ => none
  | .vstq _ _ _ _ _ _ _ => none
  | .vgath _ _ _ _ _ _ _ _ _ => none
  | .vscat _ _ _ _ _ _ _ _ _ => none
  | .vrag _ _ _ _ _ _ _ _ => none
  | .vrng _ _ _ _ _ _ => none
  | .plog _ _ _ _ => none
  | .pset _ _ _ _ _ _ => none
  | .mlease => none
  | .mfree => none
  | .mfmt _ => none
  | .mldw _ _ _ => none
  | .mswap => none
  | .mstrm _ _ _ _ _ => none
  | .mdrain _ _ _ _ _ _ _ _ _ => none
  | .mchk _ _ => none
  | .cpy _ _ _ _ _ => none
  | .cpys _ _ _ _ _ => none
  | .cpycs _ _ _ _ _ _ _ _ _ => none
  | .coll _ _ _ => none
  | .cwait _ _ => none
  | .smpl _ _ _ _ _ _ => none
  | .sbind _ _ _ _ => none
  | .bclaim _ _ _ _ => none
  | .bfree _ _ _ => none
  | .blend _ _ _ _ => none
  | .bret _ _ _ => none
  | .bxfer _ _ _ _ => none
  | .bsplit _ _ _ => none
  | .bjoin _ _ _ _ => none
  | .bshare _ _ _ _ => none
  | .bshareAtomic _ _ _ => none
  | .bunsh _ _ _ => none
  | .bquery _ _ _ => none
  | .slotrd _ _ _ _ => none
  | .slotsw _ _ _ => none
  | .bar _ _ _ => none
  | .cbar => none
  | .waittReg _ => none
  | .waittImm _ _ => none
  | .segend _ _ _ => none
  | .atom _ _ _ _ _ _ _ => none
  | .afence => none
  | .rsv _ _ _ _ _ _ => none
  | .place _ _ _ => none
  | .trap _ => none
  | .eret => none
  | .sysc _ => none
  | .tlbiq _ _ _ _ => none
  | .capr _ _ _ => none
  | .xsend _ _ _ _ _ _ _ => none
  | .xrecv _ _ _ _ _ _ => none
  | .xfwd _ _ _ _ _ => none
  | .xred _ _ _ _ _ _ _ _ => none
  | .xguard _ _ => none
  | .xopen _ _ => none
  | .xstep _ _ _ => none
  | .lset k f => some (f.toNat * 512 + k.val * 64 + 0x01)
  | .ltemp k => some (k.val * 64 + 0x02)
  | .lbias => some 0x03
  | .lpen k => some (k.val * 64 + 0x04)
  | .lmask inv => some (bitNat inv * 512 + 0x05)
  | .lcap k => some (k.val * 64 + 0x06)
  | .ltopk n => some (n.toNat * 512 + 0x07)
  | .ltopp k => some (k.val * 64 + 0x08)
  | .lminp k => some (k.val * 64 + 0x09)
  | .lsoft => some 0x0A
  | .ldraw => some 0x0B
  | .ldrawGreedy => some 0x20B
  | .lcnt => some 0x0C
  | .lstop => some 0x0D
  | .entryArm _ _ _ _ => none
  | .entryDisarm _ _ _ _ => none
  | .entryDue _ _ => none
  | .launchStart _ _ => none
  | .loadResume _ _ => none
  | .loadComplete _ _ => none
  | .launchFirstIssue _ _ => none
  | .loadLate _ _ => none
  | .coreRetire _ _ => none
  | .barRelease _ _ => none
  | .barDeadline _ _ => none
  | .cbarRelease _ _ => none
  | .steptickDeadline _ _ _ => none
  | .waittTarget _ _ _ => none
  | .vflagLand _ _ _ => none
  | .operandQueueFill _ _ _ => none
  | .sparkPopGrant _ _ _ => none
  | .heldPushRetry _ _ _ => none
  | .engineFault _ _ _ => none
  | .preemptHalt _ _ => none
  | .contextSave _ _ => none
  | .saveComplete _ _ => none
  | .resume _ _ => none
  | .leaseGrant _ _ => none
  | .tenureEnd _ _ => none
  | .arrayCommandStart _ _ => none
  | .arrayCommandComplete _ _ _ => none
  | .fetchStageComplete _ _ => none
  | .copyStart _ _ => none
  | .copyChunk _ _ => none
  | .copyRetry _ _ => none
  | .copyComplete _ _ => none
  | .tlbiqComplete _ _ _ => none
  | .tlbiWatchdog _ _ _ => none
  | .brandChange _ _ => none
  | .brandMessage _ => none
  | .brandReply _ => none
  | .atomicIntervalClose _ _ => none
  | .atomicBatch _ _ => none
  | .sbindExecute _ => none
  | .sbindComplete _ => none
  | .smplStart _ => none
  | .sequenceRun _ => none
  | .smplComplete _ => none
  | .neighbourArrival _ _ => none
  | .collStart _ _ => none
  | .collAdmission _ _ => none
  | .collComplete _ _ _ => none
  | .linkArm _ _ _ => none
  | .linkDisarm _ _ _ => none
  | .linkEngineStart _ _ => none
  | .flitDelivery _ _ => none
  | .landingBufferExpiry _ _ => none
  | .receiveDeadline _ _ => none
  | .guardOverdue _ _ => none
  | .openFlitArrival _ => none
  | .idleGuard _ _ => none
  | .timeExchange _ _ _ _ _ => none
  | .slew _ => none
  | .podFormation _ => none
  | .portFailure _ _ => none
  | .abortFlit _ _ => none
  | .writeWithImmediate _ _ _ _ _ _ => none
  | .rdmaWrite _ _ _ _ _ => none
  | .rdmaRead _ _ _ _ _ => none
  | .tenantConfigure _ _ _ => none
  | .tenantRemove _ _ => none
  | .attestation _ _ => none
  | .errorInjection _ _ _ _ => none
  | .errorLogRead _ _ _ => none
  | .telemetryRead _ => none
  | .firmwareBoot _ _ _ => none
  | .throttleStep _ _ _ => none
  | .thermalProtection _ _ => none
  | .dieReset _ _ => none
  | .illegalOp => none
  | .fetchInvalid => none
  | .portRestore _ _ => none

/-- The words of an instruction, first word first; none of an event. -/
def encode (i : Instr) : List Nat :=
  match toRaw i with
  | some r => r.toWords
  | none =>
    match toLogit i with
    | some w => [w]
    | none => []

/-- The instruction of an opcode-table row: the strand decoder first, then the link decoder, then the logit decoder, whose
words live in memories of their own (R102, R103, R247). -/
def decodeTableWord (nbits w : Nat) : Option Instr :=
  let v := w % 2 ^ nbits
  let w0 := v % 4294967296
  let w1 := v / 4294967296 % 4294967296
  let w2 := v / 18446744073709551616 % 4294967296
  match decodeStrand w0 w1 w2 with
  | .ok i => some i
  | .error _ =>
    match decodeLink w0 w1 w2 with
    | .ok i => some i
    | .error _ =>
      match decodeLogit w0 with
      | .ok i => some i
      | .error _ => none

end Sys2Proof
end

