-- ==== Sys2Proof/Machine/CollBlock.lean ====
section
/-!
DEFINITION. The parameter block of a collective (R256): its fields, the sizes of its operands, and its bytes as words.
-/
namespace Sys2Proof.Machine

/-- A format code as the decoder's. -/
def efOf (n : Nat) : EF := Fin.ofNat 256 n

/-- f32 elements of bytes. -/
def rowWords : Nat → List Byte → List W32
  | 0, _ => []
  | n + 1, bs => BitVec.ofNat 32 (ofLeBytes (bs.take 4)) :: rowWords n (bs.drop 4)

/-- The fields of a block, and its members' numbers from the list's bytes. -/
def parseBlock (b : List Byte) (list : List Byte) : CollBlock :=
  let f (off len : Nat) : Nat := ofLeBytes (slice b off len)
  let flags := f 4 4
  let spk := f 0x4C 1
  let members := (rowWords (list.length / 4) list).map (fun w => w.toNat)
  { opn := f 0 1, alg := f 1 1, ef := f 2 1, rop := f 3 1, root := flags / 2 ^ 16 % 2 ^ 12, rowlen := flags / 2 ^ 8 % 2 ^ 8,
    stepabs := flags / 16 % 2 == 1, sat := flags / 8 % 2 == 1, rm := flags % 8,
    reservedOk := flags / 2 ^ 28 == 0 && flags / 32 % 8 == 0 && f 0x20 4 < 2 ^ 15 && f 0x3C 4 == 0 && spk / 8 % 16 == 0 && f 0x4D 51 == 0
      && members.all (fun w => w < 4096),
    count := f 8 8, send := f 0x10 8, recv := f 0x18 8, group := f 0x20 4, nmem := f 0x24 2, rank := f 0x26 2, stept := f 0x30 8,
    budget := f 0x38 4, stage := f 0x40 8, stagesz := f 0x48 4, spk := if 128 ≤ spk then some (spk % 8) else none,
    members := members }

/-- Bytes of elements of the block's format. -/
def CollBlock.bytes (b : CollBlock) (elems : Nat) : Nat := elems * (efOf b.ef).width / 8

/-- Bytes of SEND and RECV that the member uses (R256). -/
def CollBlock.sizes (b : CollBlock) : Nat × Nat :=
  let n := b.bytes b.count
  match b.opn with
  | 0 => (n, n)
  | 1 => (n, b.bytes (b.count / b.nmem))
  | 2 => (n, b.nmem * n)
  | 3 => (if b.rank = b.root then n else 0, n)
  | _ => (n, if b.rank = b.root then n else 0)

end Sys2Proof.Machine
end

