-- ==== Sys2Proof/Machine/Queues.lean ====
section
/-!
DEFINITION. Spark channels (R72, R228) and the queues of engine commands (R229): acceptance, the end of a command with its result
and its push, and its end in a fault (R289, R310).
-/
namespace Sys2Proof.Machine

/-- The count of a spark channel. -/
def Core.spark (y : Core) (ch : Nat) : Nat := Tab.get y.sparks ch 0
/-- Set the count of a spark channel. -/
def Core.setSpark (y : Core) (ch n : Nat) : Core := { y with sparks := Tab.set y.sparks ch n }

/-- The pushes of a channel that are not applied yet: held ones, and those that reached it in this cycle (R228). -/
def Core.pushesOf (y : Core) (ch : Nat) : List HeldPush := y.held.filter (fun h => h.ch == ch)

/-- A push reaches the channel; it is applied with the other pushes of its cycle (R228). -/
def Core.push (y : Core) (ch agent strand : Nat) (by_ : Pusher) : Core :=
  { y with held := y.held ++ [{ ch := ch, agent := agent, strand := strand, fresh := true, by_ := by_ }] }

/-- The pushes of a channel in the order in which they are applied: those held in an earlier cycle, oldest first, then those of this
cycle by agent id and strand (R228). -/
def Core.pushOrder (y : Core) (ch : Nat) : List HeldPush :=
  (y.pushesOf ch).filter (fun h => !h.fresh)
    ++ sortBy (fun a b => a.agent < b.agent || (a.agent == b.agent && a.strand ≤ b.strand))
      ((y.pushesOf ch).filter (fun h => h.fresh))

/-! Queues, numbered as the bits of QFENCE (R230). -/

/-- A queue's commands, oldest first. -/
def Core.queue (y : Core) (q : Nat) : List Cmd :=
  match q with
  | 0 => y.copyQ | 1 => y.matrixQ | 2 => y.collQ | 3 => y.samplerQ | 4 => y.brandQ | 5 => y.drainQ | 6 => y.otherQ
  | _ => []
/-- Write a queue. -/
def Core.setQueue (y : Core) (q : Nat) (l : List Cmd) : Core :=
  match q with
  | 0 => { y with copyQ := l } | 1 => { y with matrixQ := l } | 2 => { y with collQ := l } | 3 => { y with samplerQ := l }
  | 4 => { y with brandQ := l } | 5 => { y with drainQ := l } | 6 => { y with otherQ := l }
  | _ => y

end Sys2Proof.Machine
namespace Sys2Proof
open Sys2Proof.Machine

/-- The number of a queue (R230). -/
def QName.num : QName → Nat
  | .copy => 0 | .matrix => 1 | .coll => 2 | .sampler => 3 | .brand => 4 | .vstq => 5 | .other => 6

end Sys2Proof
namespace Sys2Proof.Machine

/-- All commands of a core that have not ended. -/
def Core.cmds (y : Core) : List Cmd := y.copyQ ++ y.matrixQ ++ y.collQ ++ y.samplerQ ++ y.brandQ ++ y.drainQ ++ y.otherQ

/-- The numbers of a queue's commands. -/
def Core.ids (y : Core) (q : Nat) : List Nat := (y.queue q).map (fun m => m.id)

/-- A command by its number. -/
def Core.cmd (y : Core) (q id : Nat) : Option Cmd := (y.queue q).find? (fun m => m.id == id)

/-- Replace a command of a queue. -/
def Core.putCmd (y : Core) (q : Nat) (m : Cmd) : Core :=
  y.setQueue q ((y.queue q).map (fun n => if n.id = m.id then m else n))

/-- Does a wait for commands end, given the numbers of those still incomplete (R230, R336)? -/
def Wait.ends (w : Wait) (open_ : List Nat) : Bool :=
  match w with
  | .cwait ids n => (ids.filter open_.contains).length ≤ n
  | .qfence ids => ids.all (fun i => !open_.contains i)
  | _ => false

/-- Strands whose CWAIT or QFENCE ends go on (R230, R336). -/
def Core.wake (y : Core) : Core :=
  let open_ := y.cmds.map (fun m => m.id)
  { y with strands := y.strands.map (fun e =>
      if e.2.wait.ends open_ then (e.1, { e.2 with wait := .none }) else e) }

/-- Take a command out of a queue; what awaited it no longer waits (R310, R336). -/
def Core.dropCmd (y : Core) (q : Nat) (m : Cmd) : Core :=
  let y1 := (y.setQueue q ((y.queue q).filter (fun n => n.id != m.id))).wake
  let z := y1.strand m.strand
  y1.setStrand m.strand
    { z with await := z.await.filter (fun a => a.2 != m.id), awaitFlags := if z.awaitFlags = some m.id then none else z.awaitFlags }

/-- The class of the agent that makes a queue's pushes (R21, R24). -/
def queueClass (q : Nat) : Nat := match q with | 0 => 1 | 1 => 2 | _ => 0

/-- Add a command to a queue for strand k: its results are awaited from now on (R310). -/
def Core.accept (y : Core) (q : Nat) (m : Cmd) : Core :=
  let y1 := { y.setQueue q (y.queue q ++ [m]) with nextCmd := y.nextCmd + 1 }
  let z := y1.strand m.strand
  y1.setStrand m.strand { z with await := z.await ++ (m.dregs.filter (fun r => r != 0)).map (fun r => (r, m.id)) }

/-- Write results into a strand's registers, in order. -/
def Strand.results (z : Strand) : List (Nat × Word) → Strand
  | [] => z
  | (r, v) :: rest => Strand.results (z.setReg (Fin.ofNat 32 r) v) rest

/-- A command completes: its results and status bits reach the strand, then its push is made; it has completed when its push is
applied (R72, R108, R228, R310). -/
def State.complete (s : State) (d c q : Nat) (m : Cmd) (vals : List (Nat × Word)) : State :=
  s.modCore d c (fun y =>
    let z := y.strand m.strand
    let y1 := y.setStrand m.strand { z.results vals with status := z.status ||| m.status }
    match m.push with
    | none => y1.dropCmd q m
    | some ch =>
      let agent := match y.place with
        | some (slot, rank) => agentOf (queueClass q) slot rank
        | none => 0
      (y1.push ch agent m.strand (.cmd m.id)).putCmd q { m with stage := .pushing })

/-- A command ends in ENGINE_FAULT: no result, no push, its record for its strand, and the status bits that it has set (R289, R310; log entry
68). -/
def State.failCmd (s : State) (d c q : Nat) (m : Cmd) (cause : Cause) (progress : Nat) : State :=
  let s1 := s.modCore d c (fun y =>
    let z := y.strand m.strand
    (y.setStrand m.strand { z with status := z.status ||| m.status }).dropCmd q m)
  s1.engRecord d c
    { strand := m.strand, cause := cause, progress := progress, cpc := m.cpc, nopush := m.push.isSome, queue := q, tick := 0, cmd := m.id }

/-- A command waits only for its push. -/
def Cmd.isPushing (m : Cmd) : Bool := m.stage == .pushing

/-- A command has not started. -/
def Cmd.isQueued (m : Cmd) : Bool := m.stage == .queued

/-- Do two ranges share a byte? -/
def Rng.meets (a b : Rng) : Bool :=
  a.sp == b.sp && a.len != 0 && b.len != 0 && a.at_ < b.at_ + b.len && b.at_ < a.at_ + a.len

/-- Must a later command wait for an earlier one: scratchpad or instruction-memory ranges that overlap, one of them written
(R191)? -/
def Cmd.blocks (early late : Cmd) : Bool :=
  early.ranges.any (fun a => a.sp != .pod && late.ranges.any (fun b => a.meets b && (a.wr || b.wr)))

/-- The range that an address operand names, where it lies in the core's own scratchpad (R175). -/
def Core.ownRng (y : Core) (d c a len : Nat) (wr : Bool) : List Rng :=
  let low := a % 2 ^ 60
  let here (va : Nat) : List Rng := if len = 0 then [] else [{ sp := .spad, at_ := va, len := len, wr := wr }]
  match a / 2 ^ 60 with
  | 0 => here low
  | 8 => here (spadVa d c low)
  | 9 => if y.ctx.map Prod.snd = some (low / 2 ^ 22) then here (spadVa d c (low % 2 ^ 22)) else []
  | _ => []

/-- The ranges of the core's own scratchpad that a COLL which has not read its block will use: those that the block names as it stands
(R256, R328, R374). -/
def Core.collOwn (y : Core) (d c : Nat) (m : Cmd) : List Rng :=
  match m.body with
  | .coll a none _ =>
    let off := (a - 2 ^ 63).toNat
    if a < 2 ^ 63 ∨ spadSize < off + 128 then []
    else
      let bs := Mem.bytes y.spad off 128
      let b := parseBlock bs []
      y.ownRng d c (ofLeBytes (slice bs 0x28 8)) (4 * b.nmem) false ++ y.ownRng d c b.send b.sizes.1 false
        ++ y.ownRng d c b.recv b.sizes.2 true ++ y.ownRng d c b.stage (if 2 ≤ b.alg then b.stagesz else 0) true
  | _ => []

/-- Does a scratchpad store of a strand meet an incomplete command of the core, in whatever space its range was named (R374)? -/
def Core.storeHeld (y : Core) (d c off len : Nat) : Bool :=
  y.cmds.any (fun m => m.body != .drain && (m.ranges ++ y.collOwn d c m).any (fun r =>
    r.sp != .imem && { r with sp := .spad }.meets { sp := .spad, at_ := spadVa d c off, len := len, wr := true }))

/-! Address operands of engine commands (R175, R176). -/

/-- The place an address operand names: a pod address, an offset in the core's instruction memory, or a fault. -/
inductive Spot where
  | pod (va : Nat)
  | spad (va : Nat)
  | imem (off : Nat)
  | bad (c : Cause)
  deriving DecidableEq, Repr

/-- The spaces an entry accepts. -/
structure Spaces where
  pod : Bool
  own : Bool
  gang : Bool
  im : Bool

/-- Every space (R331). -/
def anySpace : Spaces := { pod := true, own := true, gang := true, im := true }
/-- SPACE 0x0, 0x8 and 0x9 (R258, R318). -/
def dataSpace : Spaces := { pod := true, own := true, gang := true, im := false }
/-- SPACE 0x8 alone. -/
def ownSpace : Spaces := { pod := false, own := true, gang := false, im := false }

/-- Judge an address operand with its length for core c of die d (R175, R176). -/
def State.spot (s : State) (d c : Nat) (sp : Spaces) (a : Int) (len : Nat) : Spot :=
  if a < 0 ∨ 2 ^ 64 ≤ a then .bad .reservedField
  else
    let n := a.toNat
    let low := n % 2 ^ 60
    let space := n / 2 ^ 60
    if space = 0 && sp.pod then .pod low
    else if space = 8 && sp.own then (if spadSize < low + len then .bad .spadBounds else .spad (spadVa d c low))
    else if space = 9 && sp.gang then
      if low / 2 ^ 28 != 0 then .bad .reservedField
      else
        match s.ctx d c with
        | none => .bad .spadBounds
        | some (_, _, g) =>
          match g.cores[low / 2 ^ 22]? with
          | none => .bad .spadBounds
          | some core => if spadSize < low % 2 ^ 22 + len then .bad .spadBounds else .spad (spadVa d core (low % 2 ^ 22))
    else if space = 10 && sp.im then
      if low / 2 ^ 18 != 0 then .bad .reservedField else if imemSize < low + len then .bad .spadBounds else .imem low
    else .bad .reservedField

/-- The range of a spot. -/
def Spot.rng (p : Spot) (len : Nat) (wr : Bool) : List Rng :=
  match p with
  | .pod va => [{ sp := .pod, at_ := va, len := len, wr := wr }]
  | .spad va => [{ sp := .spad, at_ := va, len := len, wr := wr }]
  | .imem off => [{ sp := .imem, at_ := off, len := len, wr := wr }]
  | .bad _ => []

/-- Ranges of a collective beside its block: its member list and its operands (R191, R328). -/
def State.collRanges (s : State) (d c list : Nat) (b : CollBlock) : List Rng :=
  let (n, k) := b.sizes
  let rng (a len : Nat) (wr : Bool) : List Rng := if len = 0 then [] else (s.spot d c dataSpace a len).rng len wr
  rng list (4 * b.nmem) false ++ rng b.send n false ++ rng b.recv k true ++ rng b.stage (if 2 ≤ b.alg then b.stagesz else 0) true

/-- What a command reads and writes: a COLL that has not read its block, what the block names as it stands (R191, R206, R328). -/
def State.rangesOf (s : State) (d c : Nat) (m : Cmd) : List Rng :=
  match m.body with
  | .coll a none _ =>
    let off := (a - 2 ^ 63).toNat
    if a < 2 ^ 63 ∨ spadSize < off + 128 then m.ranges
    else
      let bs := Mem.bytes (s.core d c).spad off 128
      m.ranges ++ s.collRanges d c (ofLeBytes (slice bs 0x28 8)) (parseBlock bs [])
  | _ => m.ranges

/-- The range checker of the core lets a command start (R191). -/
def State.rangeFree (s : State) (d c : Nat) (m : Cmd) : Bool :=
  (s.core d c).cmds.all (fun e => !(e.id < m.id) || !({ e with ranges := s.rangesOf d c e }.blocks m))

/-- The pod address of a spot, if it has one. -/
def Spot.va? : Spot → Option Nat
  | .pod va => some va
  | .spad va => some va
  | _ => none

/-- An address operand: register read unsigned plus a signed offset, exact (R431). -/
def addrSum (base : Word) (off : Int) : Int := (base.toNat : Int) + off

end Sys2Proof.Machine
end

