-- ==== Sys2Proof/Machine/Trans.lean ====
section
/-!
DEFINITION. The functions of R152, R154, R280 and R344: reciprocal and reciprocal square-root seeds, 2^x, log2 x, e^x and
c * tanh(x / c), each correctly rounded from the exact real. The irrational ones are enclosed between two fixed-point numbers
of growing precision until both ends round alike (log entry 9).
-/
namespace Sys2Proof.Machine

/-- Round a positive n / d * 2^e to p significant bits, ties to even, exponent unbounded: mantissa, exponent (R152). -/
def roundSig (p n d : Nat) (e : Int) : Nat × Int :=
  let q := ratLog2 n d + e - (p - 1 : Nat)
  let nn := n * 2 ^ (e - q).toNat
  let dd := d * 2 ^ (q - e).toNat
  let k := nn / dd
  (if roundsUp .near false 0 k (nn % dd) dd then k + 1 else k, q)

/-- A seed's f32 result and status, judged as one operation against the exact value (R152). -/
def seedResult (neg : Bool) (n d : Nat) (e : Int) (exact : Bool) : W32 × Status :=
  let (m, q) := roundSig 15 n d e
  let (w, st) := near32 (.num neg m 1 q)
  (w, st ||| stIf (!exact || !(XVal.eqv (f32v w) (.num neg n d e))) stInexact)

/-- VRCPS (R152). -/
def rcpSeed (a : W32) : W32 × Status :=
  match f32v a with
  | .nan => (nan32, 0)
  | .inf s => near32 (.num s 0 1 0)
  | .num s n d e =>
    if n = 0 then near32 (.inf s) else seedResult s d n (-e) true

/-- Integer square root by n binary digits from the top: the greatest r with r * r ≤ v, r below 2^n times its start. -/
def sqrtBits : Nat → Nat → Nat → Nat
  | 0, _, r => r
  | n + 1, v, r =>
    let r' := r + 2 ^ n
    sqrtBits n v (if r' * r' ≤ v then r' else r)

/-- VRSQS (R152): 1 / sqrt(n / d * 2^e), its square root taken to 40 bits and a sticky bit. -/
def rsqrtSeed (a : W32) : W32 × Status :=
  match f32v a with
  | .nan => (nan32, 0)
  | .inf s => if s then (nan32, stInvalid) else near32 (.num false 0 1 0)
  | .num s n d e =>
    if n = 0 then near32 (.inf s)
    else if s then (nan32, stInvalid)
    else
      let e2 := e - e % 2
      let n2 := n * 2 ^ (e % 2).toNat
      let v := d * 2 ^ 160 / n2
      let r := sqrtBits 84 v 0
      let exact := r * r * n2 == d * 2 ^ 160
      seedResult false (2 * r + (if exact then 0 else 1)) 1 (-81 - e2 / 2) exact

/-! Fixed point: a number v stands for v / 2^p. -/

/-- e^r for 0 ≤ r < 1 by its series; the term, the index and the count of terms. -/
def expSeries (p r : Nat) : Nat → Nat → Nat → Nat
  | 0, _, _ => 0
  | k + 1, i, term => term + expSeries p r k (i + 1) (term * r / 2 ^ p / (i + 1))

/-- Number of terms enough for p bits. -/
def seriesTerms (p : Nat) : Nat := p / 2 + 8

/-- 2 * atanh(z) for 0 ≤ z ≤ 1/3 by its series: z^(2i+1) * 2 / (2i+1). -/
def atanhSeries (p z2 : Nat) : Nat → Nat → Nat → Nat
  | 0, _, _ => 0
  | k + 1, i, zp => 2 * zp / (2 * i + 1) + atanhSeries p z2 k (i + 1) (zp * z2 / 2 ^ p)

/-- ln(n / d) for 1 ≤ n / d ≤ 2. -/
def lnRatio (p n d : Nat) : Nat :=
  let z := (n - d) * 2 ^ p / (n + d)
  atanhSeries p (z * z / 2 ^ p) (seriesTerms p) 0 z

/-- ln 2. -/
def ln2 (p : Nat) : Nat := lnRatio p 2 1

/-- Slack of an enclosure at precision p, in units of the last place: covers the truncations of the series. -/
def slack (p : Nat) : Nat := 16 * (p + 64)

/-- An enclosure: lower and upper end, as numerators over 2^p, with a power of two. -/
structure Encl where
  lo : Nat
  hi : Nat
  p : Nat
  e : Int
  deriving DecidableEq, Repr

/-- Round both ends; answer when they agree, else try the next enclosure. -/
def settle (neg : Bool) : List Encl → W32 × Status
  | [] => (nan32, stInvalid)
  | [c] =>
    let a := near32 (.num neg c.lo 1 (c.e - (c.p : Int)))
    (a.1, a.2 ||| stInexact)
  | c :: cs =>
    let a := near32 (.num neg c.lo 1 (c.e - (c.p : Int)))
    let b := near32 (.num neg c.hi 1 (c.e - (c.p : Int)))
    if a.1 = b.1 then (a.1, a.2 ||| stInexact) else settle neg cs

/-- Working precisions. -/
def precisions : List Nat := [128, 192, 256, 384, 512]

/-- 2^(k + f) with f = fn / 2^fp below 1. -/
def enclExp2 (k : Int) (fn fp p : Nat) : Encl :=
  let r := fn * ln2 p / 2 ^ fp
  let v := expSeries p r (seriesTerms p) 0 (2 ^ p)
  { lo := v - slack p, hi := v + slack p, p := p, e := k }

/-- VEXP2 (R154). -/
def exp2F (a : W32) : W32 × Status :=
  match f32v a with
  | .nan => (nan32, 0)
  | .inf s => if s then (0, 0) else (0x7F800000#32, 0)
  | .num s n _ e =>
    let big := 1024
    if n * 2 ^ e.toNat ≥ big * 2 ^ (-e).toNat then
      (if s then near32 (.num false 1 1 (-1000)) else near32 (.num false 1 1 1000))
    else
      let x := scaledNum s n e (min e 0)
      let fp := (-(min e 0)).toNat
      let k := x / (2 ^ fp : Nat)
      let f := (x % (2 ^ fp : Nat)).toNat
      if f = 0 then near32 (.num false 1 1 k)
      else settle false (precisions.map (enclExp2 k f fp))

/-- e^x for an f32 value; -∞ gives +0 and +∞ gives +∞ (R280). -/
def expF (a : W32) : W32 × Status :=
  match f32v a with
  | .nan => (nan32, 0)
  | .inf s => if s then (0, 0) else (0x7F800000#32, 0)
  | .num s n _ e =>
    if n = 0 then (0x3F800000#32, 0)
    else if n * 2 ^ e.toNat ≥ 512 * 2 ^ (-e).toNat then
      (if s then near32 (.num false 1 1 (-1000)) else near32 (.num false 1 1 1000))
    else
      settle false (precisions.map fun p =>
        -- x as a multiple of 2^-(p+16), rounded down, then x = k * ln 2 + r
        let q := p + 16
        let x := (scaledNum s n e (min e 0) * (2 ^ q : Nat)) / (2 ^ (-(min e 0)).toNat : Nat)
        let l : Int := (ln2 q : Nat)
        let k := x / l
        let r := (x % l).toNat / 2 ^ 16
        let v := expSeries p r (seriesTerms p) 0 (2 ^ p)
        { lo := v - slack p, hi := v + slack p, p := p, e := k })

/-- The magnitude of k + log2 (n / 2^l) with n / 2^l from 1 to 2. -/
def enclLog2 (k : Int) (n l p : Nat) : Encl :=
  let m : Int := (lnRatio p n (2 ^ l) * 2 ^ p / ln2 p : Nat)
  let lo := k * (2 ^ p : Nat) + m - (slack p : Nat)
  let hi := k * (2 ^ p : Nat) + m + (slack p : Nat)
  if hi < 0 then { lo := (-hi).toNat, hi := (-lo).toNat, p := p, e := 0 } else { lo := lo.toNat, hi := hi.toNat, p := p, e := 0 }

/-- VLOG2 (R154). -/
def log2F (a : W32) : W32 × Status :=
  match f32v a with
  | .nan => (nan32, 0)
  | .inf s => if s then (nan32, stInvalid) else (0x7F800000#32, 0)
  | .num s n _ e =>
    if n = 0 then (0xFF800000#32, 0)
    else if s then (nan32, stInvalid)
    else
      let l := Nat.log2 n
      let k : Int := (l : Int) + e
      if n = 2 ^ l then near32 (.ofInt k) else
        settle (k < 0) (precisions.map (enclLog2 k n l))

/-- Round(c * tanh(x / c)) with c positive and finite (R271, R344). A quotient below 2^-14 leaves x with INEXACT, and one of
32 or more gives c: the exact real is then nearer to that f32 than to any other. -/
def tanhF (x c : W32) : W32 × Status :=
  match f32v x, f32v c with
  | .nan, _ => (nan32, 0)
  | _, .nan => (nan32, 0)
  | .inf s, _ => (if s then c ||| 0x80000000#32 else c, 0)
  | _, .inf _ => (x, 0)
  | .num s n _ e, .num _ m _ g =>
    if n = 0 ∨ m = 0 then (x, 0)
    else
      -- u = un / ud
      let un := n * 2 ^ (e - g).toNat
      let ud := m * 2 ^ (g - e).toNat
      if un * 16384 < ud then (x, stInexact)
      else if 32 * ud ≤ un then (if s then c ||| 0x80000000#32 else c, stInexact)
      else
        settle s (precisions.map fun p0 =>
          let p := p0 + 64
          let q := p + 16
          let y := 2 * un * 2 ^ q / ud
          let l := ln2 q
          let k := y / l
          let r := y % l / 2 ^ 16
          let ex := expSeries p r (seriesTerms p) 0 (2 ^ p) * 2 ^ k
          let sl := slack p * 2 ^ k
          -- tanh u = 1 - 2 / (e^(2u) + 1)
          let lo := 2 ^ p - 2 * 2 ^ (2 * p) / (ex - sl + 2 ^ p) - 2
          let hi := 2 ^ p - 2 * 2 ^ (2 * p) / (ex + sl + 2 ^ p) + 2
          { lo := m * lo, hi := m * hi, p := p, e := g })

end Sys2Proof.Machine
end

