-- ==== Sys2Proof/Machine/Logit.lean ====
section
/-!
DEFINITION. Logit programs: what each logit instruction does to a run (R271, R280 to R283, R344 to R347), the run of one sequence
and what it leaves in its slot and its record (R276, R279), and the sampler's time (R285).
-/
namespace Sys2Proof.Machine

/-! Values of a run. -/

/-- Status codes of a record (R276): 1 NAN, 2 EMPTY, 3 PARAM. -/
def runNan : Nat := 1
/-- EMPTY. -/
def runEmpty : Nat := 2
/-- PARAM. -/
def runParam : Nat := 3

/-- The run ends with a status (R271). -/
def LogitRun.stop (r : LogitRun) (code : Nat) : LogitRun := { r with code := code, done := true }

/-- A parameter of the run (R271). -/
def LogitRun.par (r : LogitRun) (k : Nat) : W32 := Tab.get r.k k 0

/-- A positive finite f32. -/
def posFinite (w : W32) : Bool :=
  match f32v w with
  | .num false n _ _ => n != 0
  | _ => false

/-- A finite f32. -/
def finite32 (w : W32) : Bool := (f32v w).isFin

/-- Some element is a NaN. -/
def anyNan (x : List W32) : Bool := x.any (fun w => (f32v w).isNan)

/-- The f32 of -∞. -/
def negInf32 : W32 := 0xFF800000#32

/-- Round(a / b) of the exact quotient, to f32 (R271). -/
def quot32 (a b : XVal) : W32 × Status :=
  let (v, bad) := XVal.quot a b
  let (w, st) := near32 v
  (w, st ||| stIf bad stInvalid)

/-- A function of one element over a vector, its status bits gathered (R347). -/
def mapStatus (f : W32 → W32 × Status) : List W32 → List W32 × Status
  | [] => ([], 0)
  | w :: ws =>
    let (v, st) := f w
    let (vs, st') := mapStatus f ws
    (v :: vs, st ||| st')

/-- The run with a new vector and more status bits. -/
def LogitRun.put (r : LogitRun) (x : List W32 × Status) : LogitRun := { r with x := x.1, st := r.st ||| x.2 }

/-- The greatest element of a vector without NaN; of none it is -∞. -/
def greatest (x : List W32) : W32 := x.foldl (fun m w => if (f32v m).lt (f32v w) then w else m) negInf32

/-- Put a token into the order of R271 and R281: x descending, the lower id first on equal x. -/
def rankToken (a : Nat × W32) : List (Nat × W32) → List (Nat × W32)
  | [] => [a]
  | b :: l => if (f32v a.2).lt (f32v b.2) then b :: rankToken a l else a :: b :: l

/-- Tokens with their values, from id i on. -/
def tokensFrom : Nat → List W32 → List (Nat × W32)
  | _, [] => []
  | i, w :: ws => (i, w) :: tokensFrom (i + 1) ws

/-- All tokens in order (R271, R281). -/
def ranked (x : List W32) : List (Nat × W32) := (tokensFrom 0 x).foldr rankToken []

/-- Keep listed tokens; every other element takes a value. -/
def keepTokens (keep : List Nat) (other : W32) (x : List W32) : List W32 :=
  (tokensFrom 0 x).map (fun e => if keep.contains e.1 then e.2 else other)

/-! The instructions. -/

/-- LSET (R271, R346). -/
def lsetRun (k : Fin 8) (f : BitVec 23) (r : LogitRun) : LogitRun := { r with k := Tab.set r.k k.val (f.setWidth 32 <<< 9) }

/-- LTEMP (R344). -/
def ltempRun (k : Fin 8) (r : LogitRun) : LogitRun :=
  let t := r.par k.val
  if !posFinite t then r.stop runParam else r.put (mapStatus (fun w => quot32 (f32v w) (f32v t)) r.x)

/-- One entry of the bias table (R269, R344). -/
def biasToken (x : List W32 × Status) (e : Nat) : List W32 × Status :=
  let tok := e % 2 ^ 20
  if e / 2 ^ 20 % 2 = 0 then x
  else
    match x.1[tok]? with
    | none => x
    | some w =>
      let (v, st) := sumF .near false 0 (f32v w) (fltF16.decode (e / 2 ^ 32 % 2 ^ 16))
      (x.1.set tok v, x.2 ||| st)

/-- LBIAS (R344). -/
def lbiasRun (q : SeqSlot) (r : LogitRun) : LogitRun := r.put ((q.bias.map Prod.snd).foldl biasToken (r.x, 0))

/-- One entry of the count table under a penalty (R268, R344). -/
def penToken (rr f q : XVal) (x : List W32 × Status) (e : Nat) : List W32 × Status :=
  let tok := e / 2 ^ 12
  let c : Nat := e % 2 ^ 12
  if c = 0 then x
  else
    match x.1[tok]? with
    | none => x
    | some w =>
      let v := f32v w
      let (y, st1) := if (XVal.ofInt 0).lt v then quot32 v rr else mulF .near false 0 v rr
      let bracket := (XVal.add false (XVal.mul (.ofInt (c : Nat)) f).1 q).1
      let (z, st2) := sumF .near false 0 (f32v y) bracket.neg
      (x.1.set tok z, x.2 ||| st1 ||| st2)

/-- LPEN (R344). -/
def lpenRun (k : Fin 8) (q : SeqSlot) (r : LogitRun) : LogitRun :=
  let rr := r.par k.val
  let f := r.par (k.val + 1)
  let c := r.par (k.val + 2)
  if !(posFinite rr && finite32 f && finite32 c) then r.stop runParam
  else r.put ((q.cnt.map Prod.snd).foldl (penToken (f32v rr) (f32v f) (f32v c)) (r.x, 0))

/-- LMASK (R344, R345). -/
def lmaskRun (inv : Bool) (r : LogitRun) : LogitRun :=
  { r with x := (tokensFrom 0 r.x).map (fun e =>
      if (r.maskBits.getD (e.1 / 8) 0#8).getLsbD (e.1 % 8) != inv then negInf32 else e.2) }

/-- LCAP (R344). -/
def lcapRun (k : Fin 8) (r : LogitRun) : LogitRun :=
  let c := r.par k.val
  if !posFinite c then r.stop runParam else r.put (mapStatus (fun w => tanhF w c) r.x)

/-- LTOPK (R344). -/
def ltopkRun (n : BitVec 23) (r : LogitRun) : LogitRun :=
  if anyNan r.x then r.stop runNan
  else { r with x := keepTokens (((ranked r.x).take n.toNat).map Prod.fst) negInf32 r.x }

/-- The kept tokens of LTOPP, the running sum and its status bits (R281). -/
def nucleus (p : XVal) (c : W32) : List (Nat × W32) → List Nat × Status
  | [] => ([], 0)
  | (t, w) :: l =>
    let (c', st) := sumF .near false 0 (f32v c) (f32v w)
    if p.le (f32v c') then ([t], st)
    else
      let (ts, st') := nucleus p c' l
      (t :: ts, st ||| st')

/-- LTOPP (R281). -/
def ltoppRun (k : Fin 8) (r : LogitRun) : LogitRun :=
  let p := f32v (r.par k.val)
  if p.isNan then r.stop runParam
  else if anyNan r.x then r.stop runNan
  else
    let (keep, st) := nucleus p 0 (ranked r.x)
    r.put (keepTokens keep 0 r.x, st)

/-- LMINP (R281). -/
def lminpRun (k : Fin 8) (r : LogitRun) : LogitRun :=
  let p := f32v (r.par k.val)
  if p.isNan then r.stop runParam
  else if anyNan r.x then r.stop runNan
  else
    let p1 := if p.lt (.ofInt 0) then XVal.ofInt 0 else if (XVal.ofInt 1).lt p then XVal.ofInt 1 else p
    let (t, st) := mulF .near false 0 p1 (f32v (greatest r.x))
    r.put (r.x.map (fun w => if (f32v t).le (f32v w) then w else 0), st)

/-- The exponentials of LSOFT (R280, R347). -/
def softExps (m : W32) (x : List W32) : List W32 × Status :=
  if m = 0x7F800000#32 then (x.map (fun w => if w = m then 0x3F800000#32 else 0), 0)
  else
    mapStatus (fun w =>
      let (u, st1) := sumF .near false 0 (f32v w) (f32v m).neg
      let (e, st2) := expF u
      (e, st1 ||| st2)) x

/-- The sum of LSOFT: chunks of 64 by the tree, the chunks in order (R148, R280). -/
def softSum (e : List W32) : W32 × Status :=
  let cs := (chunks 64 ((e.length + 63) / 64) e).map (fun l => treeSum (l ++ List.replicate (64 - l.length) 0))
  match cs with
  | [] => (0, 0)
  | c :: rest => rest.foldl (fun a b =>
      let (w, st) := sumF .near false 0 (f32v a.1) (f32v b.1)
      (w, a.2 ||| b.2 ||| st)) c

/-- LSOFT (R280). -/
def lsoftRun (r : LogitRun) : LogitRun :=
  if anyNan r.x then r.stop runNan
  else
    let m := greatest r.x
    if m = negInf32 then r.stop runEmpty
    else
      let (e, st1) := softExps m r.x
      let (sm, st2) := softSum e
      let (y, st3) := mapStatus (fun w => quot32 (f32v w) (f32v sm)) e
      { r.put (y, st1 ||| st2 ||| st3) with prob := true }

/-- The least token whose running exact sum exceeds u * W / 2^24 (R282). -/
def drawToken (u : Nat) (total : XVal) (acc : XVal) : List (Nat × W32) → Option Nat
  | [] => none
  | (t, w) :: l =>
    let acc' := (XVal.add false acc (f32v w)).1
    if (XVal.mul (.num false u 1 (-24)) total).1.lt acc' then some t else drawToken u total acc' l

/-- LDRAW, not greedy (R282, R284): `covered` says that a reservation holds its counter. -/
def ldrawRun (covered : Bool) (q : SeqSlot) (r : LogitRun) : LogitRun :=
  if anyNan r.x then r.stop runNan
  else
    let u := (philoxDraw q.key q.step (BitVec.ofNat 32 r.slot) 3).a.toNat / 256
    let r1 := { r with st := r.st ||| stIf (!covered) stRng }
    let total := exactSum (r.x.map f32v)
    if total.isZero then r1.stop runEmpty
    else { r1 with token := drawToken u total (.ofInt 0) (tokensFrom 0 r.x) }

/-- The greedy LDRAW (R282). -/
def ldrawGreedyRun (r : LogitRun) : LogitRun :=
  if anyNan r.x then r.stop runNan
  else
    match ranked r.x with
    | [] => r.stop runEmpty
    | (t, w) :: _ => if (if r.prob then (f32v w).isZero else w == negInf32) then r.stop runEmpty else { r with token := some t }

/-- LCNT (R283, R346): the drawn token is counted at the end of the run. -/
def lcntRun (r : LogitRun) : LogitRun := { r with count := true }

/-- LSTOP (R346). -/
def lstopRun (r : LogitRun) : LogitRun := { r with done := true }

/-! A run. -/

/-- Does a reservation hold the counter of a run's draw (R284)? -/
def Die.drawCovered (x : Die) (q : SeqSlot) (r : LogitRun) : Bool :=
  x.rsvs.any (fun v => v.tenant == r.tenant && v.key == q.key && v.domain == 3 && v.stream == r.slot && v.first ≤ q.step.toNat
    && q.step.toNat < v.first + v.count)

/-- The slot of a run. -/
def Die.slot (x : Die) (n : Nat) : SeqSlot := Tab.get x.slots n SeqSlot.reset

/-- What a logit instruction does to the run of a die. -/
def logitEffect (x : Die) (i : Instr) (r : LogitRun) : LogitRun :=
  let q := x.slot r.slot
  match i with
  | .lset k f => lsetRun k f r
  | .ltemp k => ltempRun k r
  | .lbias => lbiasRun q r
  | .lpen k => lpenRun k q r
  | .lmask inv => lmaskRun inv r
  | .lcap k => lcapRun k r
  | .ltopk n => ltopkRun n r
  | .ltopp k => ltoppRun k r
  | .lminp k => lminpRun k r
  | .lsoft => lsoftRun r
  | .ldraw => ldrawRun (x.drawCovered q r) q r
  | .ldrawGreedy => ldrawGreedyRun r
  | .lcnt => lcntRun r
  | .lstop => lstopRun r
  | _ => r

/-- The run after one instruction: the next word is due. -/
def LogitRun.after (r : LogitRun) : LogitRun := { r with pc := r.pc + 1 }

/-- A run begins: its parameters are copied, its phase is LOGIT, no mask has been read (R279, R345). -/
def LogitRun.begin (n tenant : Nat) (q : SeqSlot) (x : List W32) : LogitRun :=
  { slot := n, tenant := tenant, prog := q.prog.take q.plen, pc := 0, x := x, prob := false, k := q.kreg, code := 0, token := none,
    count := false, done := false, st := 0, maskBits := [], held := 0 }

/-- The token field of a run's record (R276). -/
def LogitRun.tokenField (r : LogitRun) : Nat := if r.code = 0 then r.token.getD 0xFFFFF else 0xFFFFF

/-- The record of a run (R276). -/
def LogitRun.record (r : LogitRun) (q : SeqSlot) : Nat := q.step.toNat % 2 ^ 32 * 2 ^ 32 + r.code * 2 ^ 24 + r.tokenField

/-- The index of the count entry with the least COUNT, the lowest on ties, of the entries from i on; count given (R283). -/
def leastCount (t : Tab Nat) : Nat → Nat → Nat → Nat
  | 0, _, best => best
  | n + 1, i, best =>
    leastCount t n (i + 1) (if Tab.get t i 0 % 4096 < Tab.get t best 0 % 4096 then i else best)

/-- LCNT's update of the count table (R283). -/
def countToken (t : Tab Nat) (d : Nat) : Tab Nat :=
  match t.find? (fun e => e.2 % 4096 != 0 && e.2 / 4096 == d) with
  | some (i, e) => Tab.set t i (d * 4096 + min (e % 4096 + 1) 4095)
  | none => Tab.set t (leastCount t 511 1 0) (d * 4096 + 1)

/-- The slot after a run (R279). -/
def LogitRun.leaves (r : LogitRun) (q : SeqSlot) : SeqSlot :=
  let q1 := { q with step := q.step + 1 }
  match r.code, r.count, r.token with
  | 0, true, some d => { q1 with cnt := countToken q.cnt d }
  | _, _, _ => q1

/-! A batch (R276, R277, R279). -/

/-- Bytes from one row to the next (R276). -/
def rowBytes (v : Nat) : Nat := (4 * v + 255) / 256 * 256

/-- Bytes of all rows of a batch (R276). -/
def batchBytes (v n : Nat) : Nat := (n - 1) * rowBytes v + 4 * v

/-- The pod address of an address operand of SPACE 0x0, 0x8 or 0x9 (R176, R258). -/
def State.place (s : State) (d c : Nat) (a : Int) (len : Nat) : Except Cause Nat :=
  match s.spot d c dataSpace a len with
  | .pod va => if s.inPod (vaDie va) then .ok va else .error .unowned
  | .spad va => .ok va
  | .imem _ => .error .reservedField
  | .bad c => .error c

/-- Bytes of a mask over V tokens (R345). -/
def maskLen (v : Nat) : Nat := (v + 7) / 8

/-- The run of a sequence of an SMPL is opened on its row (R279). -/
def State.openRun (s : State) (d c n v : Nat) (row : List Byte) : State :=
  s.modDie d (fun x => { x with run := some (.begin n (s.tenantOf d c) (x.slot n) (rowWords v row)) })

/-- The row and the mask of a sequence read at once, for a batch that runs to its end (R277). -/
def State.readAt (s : State) (d c : Nat) (a len : Nat) : Got (List Byte) :=
  match s.place d c a len with
  | .error cause => .bad cause
  | .ok va => s.fetchAt d c (s.tenantOf d c) (s.locked d c) va len

/-- The rest of a program, words given; LMASK reads the mask where none has been read (R279, R345). -/
def State.runWords (s : State) (d c : Nat) : List Nat → LogitRun → Got LogitRun
  | [], r => .ok r s
  | w :: ws, r =>
    if r.done then .ok r s
    else
      match decodeLogit w with
      | .error _ => .ok r s
      | .ok (.lmask inv) =>
        (match if r.maskBits = [] then s.readAt d c ((s.die d).slot r.slot).mask.toNat (maskLen r.x.length) else .ok r.maskBits s with
          | .bad cause => .bad cause
          | .ok bs s1 => s1.runWords d c ws (lmaskRun inv { r with maskBits := bs }).after)
      | .ok i => s.runWords d c ws (logitEffect (s.die d) i r).after

/-- A finished run leaves its slot's STEP and its counts together, when its record is written (R279). -/
def State.closeSlot (s : State) (d : Nat) (r : LogitRun) : State :=
  s.modDie d (fun x => { x with slots := Tab.set x.slots r.slot (r.leaves (x.slot r.slot)), run := none, fetches := [] })

/-- A finished run leaves its record, the slot's STEP and its counts together (R279). -/
def State.closeRun (s : State) (d c : Nat) (out i : Nat) (r : LogitRun) : Got Unit :=
  match s.place d c (out + 8 * i) 8 with
  | .error cause => .bad cause
  | .ok va =>
    match s.storeAt d c (s.tenantOf d c) (s.locked d c) va (leBytes 8 (r.record ((s.die d).slot r.slot))) with
    | .bad cause => .bad cause
    | .ok _ s1 => .ok () (s1.closeSlot d r)

/-- One whole sequence (R279): its run is opened, or the open one goes on, and it is closed. -/
def State.sequence (s : State) (d c : Nat) (logits v out i n : Nat) : Got Status :=
  let opened : Got LogitRun := match (s.die d).run with
    | some r => .ok r s
    | none =>
      match s.readAt d c (logits + i * rowBytes v) (4 * v) with
      | .bad cause => .bad cause
      | .ok bs s1 => .ok (.begin n (s.tenantOf d c) ((s.die d).slot n) (rowWords v bs)) s1
  match opened with
  | .bad cause => .bad cause
  | .ok r s1 =>
    match s1.runWords d c (r.prog.drop r.pc) r with
    | .bad cause => .bad cause
    | .ok r1 s2 =>
      match s2.closeRun d c out i r1 with
      | .bad cause => .bad cause
      | .ok _ s3 => .ok r1.st s3

/-- The sequences that are left of a batch (R277, R286). -/
def State.sequences (s : State) (d c : Nat) (logits v out : Nat) : Nat → List Nat → State
  | _, [] => s
  | i, n :: rest =>
    match s.sequence d c logits v out i n with
    | .ok _ s1 => s1.sequences d c logits v out (i + 1) rest
    | .bad _ => s

/-- Cycles of one word (R285). -/
def wordCycles (v w : Nat) : Nat :=
  let n := (v + 255) / 256
  match w % 64 with
  | 0x02 | 0x03 | 0x04 | 0x05 | 0x06 => n
  | 0x07 | 0x0A => 3 * n
  | 0x08 => 4 * n
  | 0x09 => 2 * n
  | 0x0B => if w / 512 % 2 = 1 then n else 2 * n
  | _ => 1

/-- Cycles of a sequence (R285). -/
def SeqSlot.cycles (q : SeqSlot) (v : Nat) : Nat := 16 + ((q.prog.take q.plen).map (wordCycles v)).foldl (· + ·) 0

end Sys2Proof.Machine
end

