-- ==== Sys2Proof/Machine/Fate.lean ====
section
/-!
DEFINITION. The end of contexts: retirement of a core and of a gang (R40, R52, R214, R221, R236), failure and the fates of brands
(R215, R216, R292), and the abort of a pod's step with the change of schedule halves (R263, R264).
-/
namespace Sys2Proof.Machine

/-! Stores (R224, R225). -/

/-- Perform entries of a forwarding table at the bank, in issue order. -/
def performAll (m : Mem) : List FwdEntry → Mem
  | [] => m
  | e :: es => performAll (Mem.write m e.off e.data) es

/-- A release point of strand k: its forwarding table is performed (R225). -/
def Core.release (y : Core) (k : Nat) : Core :=
  let z := y.strand k
  if z.fwd = [] then y else { y with spad := performAll y.spad z.fwd }.setStrand k { z with fwd := [] }

/-- Bytes laid over old ones where a mask has a one (R398). -/
def mergeBytes : List Byte → List Byte → List Byte → List Byte
  | o :: os, d :: ds, m :: ms => ((d &&& m) ||| (o &&& ~~~m)) :: mergeBytes os ds ms
  | _, _, _ => []

/-- A vector store as it changes a memory, row by row (R396, R398). -/
def VStore.over (v : VStore) (m : Mem) : Mem :=
  v.rows.foldl (fun m r => Mem.write m r.1 (mergeBytes (Mem.bytes m r.1 r.2.1.length) r.2.1 r.2.2)) m

/-- A memory under vector stores performed in order. -/
def storesOver (vs : List VStore) (m : Mem) : Mem := vs.foldl (fun m v => v.over m) m

/-- The scratchpad as a vector access sees it: every vector store accepted before it is performed first (R224, R396). -/
def Core.vecView (y : Core) : Mem := storesOver y.vstores y.spad

/-- Every store that has issued is performed: the tables of the strands, and the vector stores in acceptance order. -/
def Core.releaseAll (y : Core) : Core :=
  let y1 := strandIds.foldl Core.release y
  { y1 with spad := y1.vecView, vstores := [] }

/-! The lease (R157). -/

/-- Does the core have array commands waiting in its matrix queue? One whose effects are done needs the array no more. -/
def Core.wantsArray (y : Core) : Bool :=
  y.matrixQ.any (fun m => !m.isPushing && (match m.body with
    | .mfree | .mchk _ => false
    | _ => true))

/-- The next core of a clamp with a pending request, by the rotation after core c. -/
def nextRequest (x : Die) (c : Nat) : Option Nat :=
  ([1, 2, 3].map (fun i => c / 4 * 4 + (c + i) % 4)).find? (fun n => (x.core n).leaseReq.isSome)

/-- A core posts a request for the array, unless it has one pending (R158). -/
def Core.post (y : Core) (now : Nat) : Core := { y with leaseReq := some (y.leaseReq.getD now) }

/-- A core takes the lease in a cycle of its island: its request is gone, its tenure begins (R157). -/
def Die.grant (x : Die) (m c : Nat) : Die :=
  let y := x.core c
  let x1 := x.setCore c { y with leaseReq := none }
  let now := x.cycle m
  let l : Clamp := { x1.clamp m with holder := some c, granted := now, started := 0, refused := false, idleFrom := now,
                                     last := c % 4, handover := none }
  { x1 with clamps := Tab.set x1.clamps m l }

/-- The tenure of core c ends: the next grant is chosen, the tenure renewed, or the array goes idle (R157). -/
def Die.endTenure (x : Die) (c : Nat) : Die :=
  let m := x.clamp (c / 4)
  let y := x.core c
  let now := x.cycle (c / 4)
  let x1 := if y.wantsArray then x.setCore c (y.post now) else x
  let off : Clamp := { m with holder := none, started := 0, refused := false, last := c % 4 }
  match nextRequest x1 c with
  | some n => { x1 with clamps := Tab.set x1.clamps (c / 4) { off with handover := some (n, now + 8) } }
  | none =>
    if (x1.core c).leaseReq.isSome then x1.grant (c / 4) c else { x1 with clamps := Tab.set x1.clamps (c / 4) off }

/-! Retirement of a core. -/

/-- Is this an entry over part of core c's scratchpad (R214)? -/
def Brand.homeOf (b : Brand) (d c : Nat) : Bool :=
  b.state != .free && b.home && b.hdie == d && c * spadSize ≤ b.base && b.base < (c + 1) * spadSize

/-- The device forgets what R52 lists: queues, formats, sparks, tickets, the CRC chain, posted receives; the lease goes, the home
pieces held by the context become FREE. -/
def State.retireCore (s : State) (d c : Nat) : State :=
  let y := s.core d c
  let agents := s.agentsOf d c 0
  let y' : Core :=
    { y with opq := [], stq := [], fmtq := [], sparks := [], held := [], nrecvs := [], crcValid := false,
             leaseReq := none, records := [], window := [], tlb := [], copyQ := [], matrixQ := [],
             collQ := [], brandQ := [], drainQ := [], retiring := [], ctx := none, retired := true,
             was := y.ctx.map (fun e => (e.1, e.2, s.tenantOf d c)),
             strands := y.strands.map (fun e => (e.1, { e.2 with running := false, await := [], awaitFlags := none,
                                                                   wait := .none, stalled := false, fwd := [] })) }
  let s1 := s.setCore d c y'
  let s2 := s1.modDie d (fun x =>
    if (x.clamp (c / 4)).holder = some c then x.endTenure c else x)
  let tenant := s.tenantOf d c
  let home := ((s2.die d).brands.filter (fun e =>
    e.2.homeOf d c && e.2.tenant == tenant && (e.1 == c || agents.contains e.2.title || e.2.state == .forfeit))).map Prod.fst
  let s3 := s2.each home (fun s i => (s.modDie d (fun x => x.freeBrand i)).mirrorAll d i)
  s3.modDie d (fun x => { x with tlbis := x.tlbis.map (fun i =>
    { i with pending := i.pending.filter (fun q => y.ctx != some q), late := i.late.filter (fun q => y.ctx != some q) }) })

/-! The switch point and the digest. -/

/-- The old copy of a slot goes out: FREE in the pool when nobody shares it (R221). -/
def Die.retireCopy (x : Die) (i : Nat) : Die :=
  let b := x.brand i
  if b.shr = 0 then x.freeBrand i else x.setBrand i { b with outgoing := true }

/-- The switch point of a gang: pending copies of the slots it switched become current (R221). -/
def State.switchPoint (s : State) (d slot : Nat) : State :=
  match s.gang d slot with
  | none => s
  | some g =>
    match s.tenant d g.tenant with
    | none => s
    | some t =>
      let due := t.wslots.filter (fun e => e.2.pending.isSome && e.2.by_ == slot)
      let s1 := s.setTenant d g.tenant { t with wslots := due.foldl (fun w e =>
        Tab.set w e.1 { e.2 with current := e.2.pending, pending := none }) t.wslots }
      s1.modDie d (fun x => (due.filterMap (fun e => e.2.current)).foldl (fun x n => x.retireCopy (n % 65536)) x)

/-- H of R236. -/
def digestHash (bs : List Byte) : Nat := ofLeBytes ((sha256 bs).take 8)

/-- Numbers of a list without repeats, in rising order. -/
def sortOnce (l : List Nat) : List Nat := (l.foldl (fun (t : Tab Unit) n => Tab.set t n ()) []).map Prod.fst

/-- One level of the digest tree from the level below (R236). -/
def digestLevel (prev : Tab Nat) : Tab Nat :=
  (sortOnce (prev.map (fun e => e.1 / 16))).map (fun q =>
    (q, digestHash ((List.range 16).flatMap (fun i => leBytes 8 (Tab.get prev (16 * q + i) 0)))))

/-- The levels of the digest tree from a level upwards, count given (R236). -/
def digestLevels : Nat → Nat → Tab Nat → List (Nat × Tab Nat)
  | 0, l, t => [(l, t)]
  | n + 1, l, t => digestLevels n (l + 1) (digestLevel t) ++ [(l, t)]

/-- A recorded page as an agent reads it; bytes that hold metadata count as zero, and so does a page that no longer translates
(log entry 12). -/
def pageBytes (x : Die) (d t pn : Nat) : List Byte :=
  (List.range 16).flatMap (fun i =>
    match x.read .walker t false (d * 2 ^ 48 + pn * 65536 + 4096 * i) 4096 with
    | .ok b _ => b
    | _ =>
      match x.read .walker t false (d * 2 ^ 48 + pn * 65536 + 4096 * i) 4032 with
      | .ok b _ => b ++ List.replicate 64 0#8
      | _ => List.replicate 4096 0#8)

/-- The digest of R236 and R237: the root and the bytes for an area of a size. -/
def digestOf (x : Die) (d t size mark : Nat) (pages : List Nat) : Nat × List Byte :=
  let leaves : Tab Nat := (sortOnce pages).map (fun pn => (pn, digestHash (leBytes 8 pn ++ pageBytes x d t pn)))
  let levels := digestLevels 8 0 leaves
  let recs := levels.flatMap (fun l => l.2.map (fun e => leBytes 8 e.2 ++ leBytes 4 e.1 ++ leBytes 1 l.1 ++ leBytes 3 0))
  let root := match levels with
    | (_, [(_, h)]) :: _ => h
    | _ => 0
  let n := min recs.length ((size - 64) / 16)
  (root, leBytes 8 mark ++ leBytes 8 root ++ leBytes 4 n ++ leBytes 4 recs.length ++ leBytes 40 0 ++ (recs.take n).flatten)

/-- A digest mark of a tenant: the digest is written to its area, the head of it in any case, a DIGEST record follows, a new interval
opens (R236, R237, R304). The pages that the digest itself is written to count for the next interval, and an area that the tenant cannot
write takes nothing and brings no record (log entry 12). -/
def State.digestMark (s : State) (d t entry slot : Nat) : State :=
  match s.tenant d t with
  | none => s
  | some te =>
    let mark := te.mark + 1
    let s1 := s.setTenant d t { te with mark := mark, pages := [] }
    let (root, bytes) := digestOf (s.die d) d t te.cfg.digestSize mark te.pages
    if vaDie te.cfg.digestArea ≠ d ∨ vaTranslated te.cfg.digestArea = false then s1
    else
      match (s1.die d).write .walker t false te.cfg.digestArea bytes with
      | .ok _ x =>
        (s1.setDie d x).event d t { EventRec.blank .digest with entry := entry, cslot := slot, info := root, progress := mark }
      | _ => s1

/-! Retirement of a gang (R40). -/

/-- The gang of a slot retires: its entry's STATE, its slot, its planes, its reservations, the switch point, its record and the
digest mark. -/
def State.retireGang (s : State) (d slot : Nat) (st : SchedState) (rec : EventRec) : State :=
  match s.gang d slot with
  | none => s
  | some g =>
    let s1 := s.switchPoint d slot
    let named (p : Plane) : Bool := match p.tag with
      | .own a => a / 64 == slot
      | .shared n => n == slot
    let drop (p : Plane) : Plane := if named p then { p with valid := false } else p
    let s2 := s1.modDie d (fun x =>
      { x with gangs := Tab.erase x.gangs slot, rsvs := x.rsvs.filter (fun r => r.gang != slot),
               clamps := x.clamps.map (fun e => (e.1, { e.2 with active := drop e.2.active, shadow := drop e.2.shadow })),
               kept := x.kept.filter (fun k => k.1 != slot),
               batches := x.batches.map (fun b => if b.slot = slot then { b with slot := 64 } else b),
               tlbis := x.tlbis.map (fun i => { i with pending := i.pending.filter (fun q => q.1 != slot),
                                                       late := i.late.filter (fun q => q.1 != slot) }) })
    let e := s2.sched d g.entry
    let s3 := s2.setSched d g.entry { e with state := st, slot := 0 }
    (s3.event d g.tenant { rec with entry := g.entry, cslot := slot }).digestMark d g.tenant g.entry slot

/-- What the failure record of a gang says (R292, R304). -/
structure FailInfo where
  cause : Nat
  rank : Nat
  strand : Nat
  pc : Nat
  info : Nat

/-! The sampler's batch of a failed context (R277, R279). -/

/-- Does the title of an entry stand for a context or one of its engines (R24)? -/
def titleServes (title agent : Nat) : Bool := agentClass title ≤ 2 && title % 4096 == agent % 4096

/-- The sampler returns the brands lent to it by an agent's context that overlap a range of pod addresses (R279). -/
def State.samplerReturn (s : State) (d agent va len : Nat) : State :=
  let lent := ((s.die d).brands.filter (fun e =>
    e.2.borrower samplerAgent && titleServes e.2.title agent && e.2.hdie == vaDie va && e.2.base < vaLow va + len
      && vaLow va < e.2.base + 2 ^ e.2.lsize)).map Prod.fst
  s.each lent (fun s i => s.giveBack d samplerAgent i false)

/-- The batch that the sampler runs for a core that fails runs to its end, and its brands go back (R277). -/
def State.finishBatch (s : State) (d c : Nat) : State :=
  match (s.die d).job with
  | some (.smpl core id slots next _) =>
    if core ≠ c then s
    else
      match (s.core d c).cmd 3 id with
      | some m =>
        (match m.body with
          | .smpl logits v _ out n =>
            let s1 := s.sequences d c logits v out next (slots.drop next)
            let s2 := s1.modDie d (fun x => { x with run := none, job := none })
            (match s2.place d c logits (batchBytes v n) with
              | .ok va => s2.samplerReturn d (s2.coreAgent d c) va (batchBytes v n)
              | .error _ => s2)
          | _ => s)
      | none => s
  | _ => s

/-- The claims of some collectives on a port go. -/
def Port.dropColl (q : Port) (test : Nat × Nat → Bool) : Port := { q with claims := q.claims.filter (fun r => !r.coll.any test) }

/-- The plan stream of a port stops at a tick (R241, R248, R263). -/
def Port.stop (q : Port) (st : LState) (fault now : Nat) : Port :=
  { q with state := st, fault := fault, ops := [], recvs := [], sends := [], windows := [], guards := [], trackers := [],
           toWrite := [], idleFrom := if q.state = .running then now else q.idleFrom }

/-- Does a collective use a port? -/
def CollRun.uses (r : CollRun) (p : Nat) : Bool := r.lanes.any (fun l => l.out == p || l.inn == p)

/-- Does a stream run on a port: its plan stream or a section (R252)? -/
def Die.streamRuns (x : Die) (p : Nat) : Bool := (Tab.get x.ports p Port.reset).state == .running || x.colls.any (fun r => r.uses p)

/-- What waits in the landing buffer of a port on which no stream runs stays there and raises nothing (R252). -/
def Die.idleLanding (x : Die) : Die :=
  { x with ports := x.ports.map (fun e =>
      (e.1, if x.streamRuns e.1 then e.2 else { e.2 with landing := e.2.landing.map (fun f => { f with idle := true }) })) }

/-- The engine of port p stops: its plan stream and its claims on every port of the die go (R248, R263). -/
def Die.stopEngine (x : Die) (p : Nat) (st : LState) (fault : Nat) : Die :=
  { x with ports := x.ports.map (fun e =>
      let q : Port := { e.2 with claims := e.2.claims.filter (fun r => r.port != p || r.coll.isSome) }
      (e.1, if e.1 = p then q.stop st fault x.tick else q)) }

/-- The engine of port p stops on a fault; the brands lent to the port go back, with its share records (R222, R262). -/
def State.stopLink (s : State) (d p : Nat) (fault : Nat) : State :=
  (s.modDie d (fun x => (x.stopEngine p .faulted fault).idleLanding)).giveAll d (portAgent p) (fun _ => true) true

/-- A core of a failed gang: its stores are performed, those too that are on their way to another die or stand in dirty lines of the
cache; its engines stop, its commands and store queues are discarded (R15, R215). -/
def State.stopCore (s : State) (d c : Nat) : State :=
  let mine := [0, 1, 2].flatMap (fun k => s.agentsOf d c k)
  let s0 := ((s.finishBatch d c).performSent d c).modDie d (fun x => x.cleanCache (c / 4) (fun e => mine.contains e.agent))
  let s1 := s0.modCore d c (fun y =>
    let y1 := y.releaseAll
    { y1 with copyQ := [], matrixQ := [], collQ := [], samplerQ := [], brandQ := [], drainQ := [], otherQ := [], stq := [], retiring := [],
              strands := y1.strands.map (fun e => (e.1, { e.2 with running := false })) })
  s1.modDie d (fun x => Die.idleLanding
    { x with
      job := (match x.job with
        | some (.smpl core _ _ _ _) => if core = c then none else x.job
        | some (.sbind core _ _ _ _) => if core = c then none else x.job
        | none => none),
      tlbis := x.tlbis.filter (fun i => i.core != c),
      colls := x.colls.filter (fun r => r.core != c),
      ports := x.ports.map (fun e => (e.1, e.2.dropColl (fun r => r.1 == c))) })

/-- The gang of a slot fails as a whole: halt, fates in rank order, retirement in FAILED, one FAILED record (R292). -/
def State.failGang (s : State) (d slot : Nat) (i : FailInfo) : State :=
  match s.gang d slot with
  | none => s
  | some g =>
    let held := g.cores.filter (fun c => match (s.core d c).ctx with
      | some (sl, _) => sl == slot
      | none => false)
    let s1 := (s.each held (fun s c => s.stopCore d c)).performBatches d slot
    let s2 := s1.each (List.range g.cores.length) (fun s r =>
      s.fates d [agentOf 0 slot r, agentOf 1 slot r, agentOf 2 slot r])
    let s3 := s2.each held (fun s c => (s.retireCore d c).modCore d c (fun y => { y with samplerQ := [], otherQ := [] }))
    s3.retireGang d slot .failed
      { EventRec.blank .failed with cause := i.cause, rank := i.rank, strand := i.strand, pc := i.pc, info := i.info }

/-! Aborts (R263, R264). -/

/-- The codes that R288 lists, but for 0x04, which this part never writes (R76). -/
def listedCodes : List Nat :=
  [0x01, 0x02, 0x03, 0x05, 0x06, 0x08, 0x09, 0x10, 0x11, 0x12, 0x13, 0x18, 0x19, 0x1A, 0x1B, 0x20, 0x21, 0x28, 0x29, 0x2A, 0x2B,
   0x30, 0x31, 0x32, 0x38, 0x3C, 0x40, 0x41, 0x48, 0x50]

/-- The cause code of an abort (R263, R288). A time fault and a port failure have none among those listed, and no other is written: which
one they give is free (log entry 48). -/
def AbortId.code (a : AbortId) : Nat :=
  let free (n : Nat) : Nat := listedCodes.getD (Config.abortCode n % listedCodes.length) 0x28
  match a.cause with
  | .timeFault => free 0
  | .portFailed => free 1
  | c => c.code

/-- Are two aborts one: same origin, tick and cause (R263)? -/
def AbortId.same (a b : AbortId) : Bool := a.die == b.die && a.tick == b.tick && a.cause == b.cause

/-- INFO of an ABORT record (R304). -/
def AbortId.info (a : AbortId) : Nat := a.die * 2 ^ 16 + a.lcause * 2 ^ 8 + a.code

/-- Word w of the snapshot of a schedule entry (R31). -/
def SchedEntry.snapWord (e : SchedEntry) (w : Nat) : Nat := (Tab.get e.snap w 0).toNat
/-- CTL fields of the snapshot (R29). -/
def SchedEntry.lead (e : SchedEntry) : Nat := e.snapWord 5 / 2 ^ 32
/-- PRED. -/
def SchedEntry.pred (e : SchedEntry) : Nat := e.snapWord 5 / 2 ^ 20 % 4096
/-- PKIND. -/
def SchedEntry.pkind (e : SchedEntry) : Nat := e.snapWord 5 / 2 ^ 18 % 4
/-- ARGSZ. -/
def SchedEntry.argsz (e : SchedEntry) : Nat := e.snapWord 5 / 2 ^ 12 % 64
/-- PRIO. -/
def SchedEntry.prio (e : SchedEntry) : Nat := e.snapWord 5 / 2 ^ 8 % 16
/-- SIGREQ. -/
def SchedEntry.sigreq (e : SchedEntry) : Bool := e.snapWord 5 / 8 % 2 == 1
/-- DET. -/
def SchedEntry.det (e : SchedEntry) : Bool := e.snapWord 5 / 4 % 2 == 1
/-- MODE. -/
def SchedEntry.locked (e : SchedEntry) : Bool := e.snapWord 5 / 2 % 2 == 1
/-- The physical cores that CMASK selects, lowest first. -/
def SchedEntry.cores (e : SchedEntry) : List Nat := (List.range 64).filter (fun p => e.snapWord 1 / 2 ^ p % 2 == 1)

/-- Does entry e lie in a tenant's partition (R28)? -/
def hasEntry (cfg : TenantCfg) (e : Nat) : Bool := cfg.schedFirst ≤ e && e < cfg.schedFirst + cfg.schedSize
/-- Does entry e lie in the active half (R264)? -/
def Tenant.activeEntry (t : Tenant) (e : Nat) : Bool :=
  hasEntry t.cfg e && ((e < t.cfg.schedFirst + t.cfg.schedSize / 2) == t.lowerActive)
/-- The tenant whose partition holds an entry. -/
def Die.entryTenant (x : Die) (e : Nat) : Option (Nat × Tenant) := x.tenants.find? (fun t => hasEntry t.2.cfg e)
/-- START of an armed entry as R264 reads it. -/
def Tenant.startOf (t : Tenant) (e : SchedEntry) : Nat := t.recovery.getD 0 + e.snapWord 0

/-- Is a die in Locked operation (R263)? -/
def Die.lockedOp (x : Die) : Bool :=
  x.gangs.any (fun g => g.2.locked) ||
    x.ports.any (fun p => p.2.snapLocked && (p.2.state == .armed || p.2.state == .running))

/-- Abort flits that wait at a port leave it, each in a slot of the tick; the count bounds them (R242, R263). -/
def State.abortsOut (s : State) (d p : Nat) : Nat → State
  | 0 => s
  | n + 1 =>
    let q := s.port d p
    match q.abortOut, s.cable d p with
    | a :: rest, some k =>
      if !s.linkUp d p then s.setPort d p { q with abortOut := [] }
      else if portRate p ≤ q.usedAt (s.now d) then s
      else
        (((s.setPort d p { q.use (s.now d) with abortOut := rest }).onLine k false).modDie k.farDie (fun x =>
          { x with abortIn := x.abortIn ++ [(k.farPort, x.tick + k.hop, a)] })).abortsOut d p n
    | _, _ => s

/-- Abort flits leave on every working port, ahead of any other kind: in a slot of this tick that is left, or the next (R242, R263). -/
def State.sendAbort (s : State) (d : Nat) (a : AbortId) : State :=
  s.each (List.range 9) (fun s p =>
    if (s.cable d p).isSome && s.linkUp d p then
      (s.setPort d p { s.port d p with abortOut := (s.port d p).abortOut ++ [a] }).abortsOut d p (portRate p)
    else s)

/-- The tenants that an abort concerns on a die (R263). -/
def Die.concerned (x : Die) (a : AbortId) : List Nat :=
  (x.tenants.filter (fun t =>
    x.abortBy.any (fun b => b.1.same a && b.2 == t.1) || x.gangs.any (fun g => g.2.locked && g.2.tenant == t.1) ||
      x.sched.any (fun e => t.2.activeEntry e.1 && e.2.state == .armed && e.2.locked))).map Prod.fst

/-- The number under which a die meets an abort that it originates itself in the same tick, after the one it acts on. -/
def selfPort : Nat := 15

/-- An abort originates on a die, raised by gangs of the tenants listed: it is met at the die's next abort step (R263). -/
def State.originate (s : State) (d : Nat) (cause : Cause) (lcause : Nat) (by_ : List Nat) : State :=
  s.modDie d (fun x =>
    let a : AbortId := { die := d, tick := x.tick, cause := cause, lcause := lcause }
    { x with abortIn := x.abortIn ++ [(selfPort, x.tick, a)], abortBy := x.abortBy ++ by_.map (fun t => (a, t)) })

/-- An entry fails to launch: its STATE and CAUSE, its record, and in Locked mode the abort of R32 (R34, R35). -/
def State.launchFail (s : State) (d e t cause : Nat) : State :=
  let x := s.sched d e
  let s1 := s.setSched d e { x with state := .failed, cause := cause, slot := 0, due := false }
  let s2 := s1.event d t { EventRec.blank .launchFail with cause := cause, entry := e }
  if x.locked then s2.originate d .launchFailed cause [] else s2

/-- The partition of a concerned tenant changes halves (R264). -/
def State.switchHalf (s : State) (d t : Nat) (a : AbortId) : State :=
  match s.tenant d t with
  | none => s
  | some te =>
    let old := ((s.die d).sched.filter (fun e => te.activeEntry e.1 && e.2.state == .armed)).map Prod.fst
    let s1 := s.each old (fun s e => s.setSched d e { s.sched d e with state := .empty, due := false })
    let te' : Tenant := { te with lowerActive := !te.lowerActive, recovery := some (a.tick + s.pod.recoveryLag) }
    let s2 := s1.setTenant d t te'
    let first := te.cfg.schedFirst + (if te'.lowerActive then 0 else te.cfg.schedSize / 2)
    let s3 := s2.event d t { EventRec.blank .abort with cause := a.code, info := a.info, entry := first }
    let late := ((s3.die d).sched.filter (fun e =>
      te'.activeEntry e.1 && e.2.state == .armed && e.2.locked && te'.startOf e.2 < s3.now d)).map Prod.fst
    s3.each late (fun s e => s.launchFail d e t 8)

/-- The unsent flits of a collective are discarded (R263). -/
def CollRun.dropSends (r : CollRun) : CollRun :=
  { r with lanes := r.lanes.map (fun l => { l with left := some (l.left.getD l.sent), sent := l.hops.length * l.flits }) }

/-- A die acts on an abort it has not met before (R263). -/
def State.actAbort (s : State) (d : Nat) (a : AbortId) : State :=
  let x := s.die d
  let tenants := x.concerned a
  let gangs := (x.gangs.filter (fun g => g.2.locked)).map Prod.fst
  let s1 := s.each gangs (fun s slot =>
    s.failGang d slot { cause := a.code, rank := 0xFF, strand := 0xFF, pc := 0, info := a.info })
  let running := ((s1.die d).ports.filter (fun e => e.2.state == .running)).map Prod.fst
  let s2 := (s1.each running (fun s p => s.stopLink d p a.code)).modDie d (fun x =>
    { x with colls := x.colls.map CollRun.dropSends, ports := x.ports.map (fun e => (e.1, { e.2 with sends := [], recvs := [] })) })
  let s3 := (s2.each tenants (fun s t => s.switchHalf d t a)).modDie d (fun x =>
    { x with abortBy := x.abortBy.filter (fun b => !b.1.same a) })
  s3.errRecord d 2 a.cause.code 0 0xFF 0xFF 0

/-- An abort reaches a die: a new one is forwarded once and acted on once (R263). -/
def State.meetAbort (s : State) (d : Nat) (a : AbortId) : State :=
  if (s.die d).aborts.any (fun b => b.same a) then s
  else ((s.modDie d (fun x => { x with aborts := a :: x.aborts })).sendAbort d a).actAbort d a

/-- Causes of R292 that are machine checks. -/
def Cause.isCheck : Cause → Bool
  | .segSignature | .segCycles | .residue => true
  | _ => false

/-- The context of core c is declared failed by strand k at pc: its gang fails, a machine check is logged, and in Locked mode the
pod aborts (R292). -/
def State.declareFailed (s : State) (d c k pc : Nat) (cause : Cause) : State :=
  match s.ctx d c with
  | none => s
  | some (slot, rank, g) =>
    let s1 := if cause.isCheck then s.errRecord d 1 cause.code (agentOf 0 slot rank) g.tenant 0xFF pc else s
    let s2 := if g.locked then s1.originate d cause 0 [g.tenant] else s1
    s2.failGang d slot { cause := cause.code, rank := rank, strand := k, pc := pc, info := 0 }

/-- A timing fault raised by a strand or a command of a Locked-mode gang: the gang that raised it fails with that cause, and the
pod aborts (R263). -/
def State.timingFault (s : State) (d c k pc : Nat) (cause : Cause) : State := s.declareFailed d c k pc cause

end Sys2Proof.Machine
end

