-- ==== Sys2Proof/Machine/Flags.lean ====
section
/-!
DEFINITION. The flags register (R110): what CMP and VFLAG write, when a VFLAG lands (R111), and the condition codes (R320).
-/
namespace Sys2Proof.Machine

/-- Bits 2 to 0 of %flags from a comparison: LTU, LT, EQ (R326). -/
def cmpFlags (old : BitVec 8) (a b : Word) : BitVec 8 :=
  (old &&& 0xF8#8) ||| (if a = b then 1#8 else 0#8) ||| (if a.toInt < b.toInt then 2#8 else 0#8)
    ||| (if a.toNat < b.toNat then 4#8 else 0#8)

/-- Bits 6 to 4 of %flags from a VFLAG: NONE, ALL, ANY (R110, R394). -/
def vectorFlags (old : BitVec 8) (f : PendFlag) : BitVec 8 :=
  (old &&& 0x8F#8) ||| (if f.any then 0x10#8 else 0#8) ||| (if f.all then 0x20#8 else 0#8) ||| (if f.none then 0x40#8 else 0#8)

/-- The bits of %flags that a write or a read sees: reserved bits read zero (R7, R110). -/
def flagsMask : BitVec 8 := 0x77#8

/-- Bit i of %flags. -/
def flagBit (f : BitVec 8) (i : Nat) : Bool := f.getLsbD i

/-- Does a condition code hold (R320)? -/
def condHolds (f : BitVec 8) : Cond → Bool
  | .eq => flagBit f 0
  | .ne => !flagBit f 0
  | .lt => flagBit f 1
  | .ge => !flagBit f 1
  | .ltu => flagBit f 2
  | .geu => !flagBit f 2
  | .le => flagBit f 1 || flagBit f 0
  | .gt => !flagBit f 1 && !flagBit f 0
  | .leu => flagBit f 2 || flagBit f 0
  | .gtu => !flagBit f 2 && !flagBit f 0
  | .any => flagBit f 4
  | .none => flagBit f 6
  | .all => flagBit f 5
  | .nall => !flagBit f 5
  | .al => true

/-- The result of a VFLAG over active elements: n active, cnt of them true (R394); it lands before the eighth later issue. -/
def vflagResult (n cnt : Nat) : PendFlag := { left := 8, any := 0 < cnt, all := cnt == n, none := cnt == 0, cnt := cnt }

/-- One pending VFLAG lands (R111). -/
def Strand.land (z : Strand) (f : PendFlag) : Strand :=
  { z with flags := vectorFlags z.flags f, cnt := BitVec.ofNat 11 f.cnt }

/-- The VFLAGs whose count has run out land, in issue order (R111). -/
def Strand.landDue (z : Strand) : Strand :=
  (z.vflags.filter (fun f => f.left == 0)).foldl Strand.land { z with vflags := z.vflags.filter (fun f => f.left != 0) }

/-- Every pending VFLAG lands, as before a handler (R111). -/
def Strand.landAll (z : Strand) : Strand := z.vflags.foldl Strand.land { z with vflags := [] }

/-- An instruction issued: the counts of pending VFLAGs go down (R111). -/
def Strand.countIssue (z : Strand) : Strand := { z with vflags := z.vflags.map (fun f => { f with left := f.left - 1 }) }

end Sys2Proof.Machine
end

