-- ==== Sys2Proof/Machine/Operands.lean ====
section
/-!
DEFINITION. Operand forms: sizes of loads and stores (R348, R373), bit fields (R340), target registers of brand names (R205),
predicates and vectors of the vector unit (R68, R69, R112), and what a vector instruction writes.
-/
namespace Sys2Proof.Machine

end Sys2Proof.Machine
namespace Sys2Proof
open Sys2Proof.Machine

/-- Bytes that LD reads (R348). -/
def LdSize.bytes : LdSize → Nat
  | .n8 | .i8 => 1
  | .n16 | .i16 => 2
  | .n32 | .i32 => 4
  | .w64 => 8

/-- The register value of bytes loaded (R348). -/
def LdSize.extend (z : LdSize) (n : Nat) : Word :=
  match z with
  | .n8 | .n16 | .n32 | .w64 => BitVec.ofNat 64 n
  | .i8 => wrap64 (signedOf 8 n)
  | .i16 => wrap64 (signedOf 16 n)
  | .i32 => wrap64 (signedOf 32 n)

/-- Bytes that ST writes (R373). -/
def StSize.bytes : StSize → Nat
  | .b8 => 1 | .b16 => 2 | .b32 => 4 | .w64 => 8

end Sys2Proof
namespace Sys2Proof.Machine

/-- The field [POS + LEN - 1 : POS] of a word (R341). -/
def bitField (w : Word) (pos len : Nat) : Nat := w.toNat / 2 ^ pos % 2 ^ len

/-- EXT (R341). -/
def extractField (sx : Bool) (w : Word) (pos len : Nat) : Word :=
  if sx then wrap64 (signedOf len (bitField w pos len)) else BitVec.ofNat 64 (bitField w pos len)

/-- INS (R341). -/
def insertField (old w : Word) (pos len : Nat) : Word :=
  BitVec.ofNat 64 (old.toNat - bitField old pos len * 2 ^ pos + bitField w 0 len * 2 ^ pos)

/-- Truncating quotient on integers (R338). -/
def quotient (u : Bool) (a b : Word) : Word :=
  if b = 0 then BitVec.allOnes 64
  else if u then BitVec.ofNat 64 (a.toNat / b.toNat) else wrap64 (Int.tdiv a.toInt b.toInt)

/-- Remainder (R360). -/
def remainder (u : Bool) (a b : Word) : Word :=
  if b = 0 then a else if u then BitVec.ofNat 64 (a.toNat % b.toNat) else wrap64 (Int.tmod a.toInt b.toInt)

/-- The high half of the exact product (R360). -/
def mulHigh (u : Bool) (a b : Word) : Word :=
  if u then BitVec.ofNat 64 (a.toNat * b.toNat / 2 ^ 64) else wrap64 (a.toInt * b.toInt / 2 ^ 64)

/-- Zero bits above the highest 1 bit (R312). -/
def leadingZeros (w : Word) : Nat := if w = 0 then 64 else 63 - Nat.log2 w.toNat

/-! Residues of carried results (R105). -/

/-- The sum of two words with its residues carried; 2^32 leaves residue 1, so a carry adds or takes 1. -/
def SReg.add (a b : SReg) : SReg :=
  let v := a.val + b.val
  let c0 := ((low32 a.val).toNat + (low32 b.val).toNat) / 2 ^ 32
  let c1 := ((high32 a.val).toNat + (high32 b.val).toNat + c0) / 2 ^ 32
  { val := v, lo := (a.lo + b.lo + 15 - c0) % 15, hi := (a.hi + b.hi + c0 + 15 - c1) % 15 }

/-- The difference of two words with its residues carried. -/
def SReg.sub (a b : SReg) : SReg :=
  let v := a.val - b.val
  let c0 := if (low32 a.val).toNat < (low32 b.val).toNat then 1 else 0
  let c1 := if (high32 a.val).toNat < (high32 b.val).toNat + c0 then 1 else 0
  { val := v, lo := (a.lo + 30 - b.lo % 15 + c0) % 15, hi := (a.hi + 30 - b.hi % 15 + c1 - c0) % 15 }

/-- `li.hi`: a new upper half, the lower half with its residue (R350, R105). -/
def SReg.withHigh (a : SReg) (h : W32) : SReg := { val := join32 h (low32 a.val), lo := a.lo, hi := residue32 h }

/-! Names of brands and targets (R22, R205). -/

/-- A brand name operand: bits [63:28] zero. -/
def brandNameOk (w : Word) : Bool := w.toNat < 2 ^ 28
/-- A target operand: die and agent id, checked under R22. -/
def targetOk (w : Word) : Bool := w.toNat < 2 ^ 28 && agentOk (w.toNat % 65536)

/-! Vectors. -/

/-- Active elements of a predicate operand (R68). -/
def predMask (y : Core) (z : Strand) (p : PredOp) : BitVec 1024 :=
  let m := y.pred (z.pphys p.p)
  if p.neg then ~~~m else m

/-- Is the head of an operand queue present (R117)? -/
def Core.opReady (y : Core) (q : Nat) : Bool :=
  match Tab.get y.opq q [] with
  | e :: _ => e.present
  | [] => false

/-- Entries of a store queue. -/
def Core.storeQueue (y : Core) (w : Nat) : List (List W32) := Tab.get y.stq w []

end Sys2Proof.Machine
namespace Sys2Proof
open Sys2Proof.Machine

/-- The vector names that an operand A uses. -/
def VSrc.names : VSrc → List VReg
  | .reg v => [v]
  | .queue _ => []
/-- The vector names that a destination uses. -/
def VDest.names : VDest → List VReg
  | .reg v => [v]
  | .queue _ => []

/-- Can operand A be read now (R69, R117)? -/
def VSrc.ready (y : Core) : VSrc → Bool
  | .reg _ => true
  | .queue q => y.opReady q.val

/-- The elements of operand A. -/
def VSrc.value (y : Core) (z : Strand) : VSrc → List W32
  | .reg v => y.vreg (z.vphys v)
  | .queue q =>
    match Tab.get y.opq q.val [] with
    | e :: _ => e.data
    | [] => zeroVec

/-- Operand A is popped at acceptance (R117). -/
def VSrc.take (y : Core) : VSrc → Core
  | .reg _ => y
  | .queue q => { y with opq := Tab.set y.opq q.val ((Tab.get y.opq q.val []).drop 1) }

/-- Can the destination take a result now: a store queue holds four entries (R117)? -/
def VDest.room (y : Core) : VDest → Bool
  | .reg _ => true
  | .queue w => (y.storeQueue w.val).length < 4

/-- The old elements that inactive elements keep; zero for a queue (R69). -/
def VDest.old (y : Core) (z : Strand) : VDest → List W32
  | .reg v => y.vreg (z.vphys v)
  | .queue _ => zeroVec

/-- Write a whole vector to a destination. -/
def VDest.put (y : Core) (z : Strand) (v : List W32) : VDest → Core
  | .reg r => y.setVreg (z.vphys r) v
  | .queue w => { y with stq := Tab.set y.stq w.val (y.storeQueue w.val ++ [v]) }

end Sys2Proof
namespace Sys2Proof.Machine

/-- Merge results under a mask: an inactive element is zero under ZM, else it keeps its old contents (R68); elements are
numbered from i. -/
def mergeVec (mask : BitVec 1024) (zm : Bool) : Nat → List W32 → List W32 → List W32
  | i, r :: rs, o :: os => (if mask.getLsbD i then r else if zm then 0#32 else o) :: mergeVec mask zm (i + 1) rs os
  | _, _, _ => []

/-- Row and column of an element (R112). -/
def rowOf (e : Nat) : Nat := e / 64
/-- The column of an element. -/
def colOf (e : Nat) : Nat := e % 64

/-- The vector of a function of the element index. -/
def vecOf (f : Nat → W32) : List W32 := (List.range 1024).map f
/-- A predicate of a function of the element index. -/
def bitsOf (f : Nat → Bool) : BitVec 1024 :=
  (List.range 1024).foldl (fun m e => if f e then m ||| (1#1024 <<< e) else m) 0

end Sys2Proof.Machine
end

