-- ==== Sys2Proof/Machine/Timing.lean ====
section
/-!
DEFINITION. Issue units and result delays (R48, R49, R338, R349, R358, R359, R365, R366, R379, R395): the unit that takes an
instruction, how long it occupies the vector unit, the registers it reads and writes, and the cycle from which a result can be
read. Bank conflicts (R25) add no cycle here (log entry 27).
-/
namespace Sys2Proof.Machine

/-- The issue units of a core (R48): the strand's own, the scratchpad port, the vector unit, the engine port, the sync unit. -/
inductive IssueUnit where
  | own | port | vector | engine | sync
  deriving DecidableEq, Repr

/-- The number under which a core notes a unit. -/
def IssueUnit.num : IssueUnit → Nat
  | .own => 0 | .port => 1 | .vector => 2 | .engine => 3 | .sync => 4

end Sys2Proof.Machine
namespace Sys2Proof
open Sys2Proof.Machine

/-- The unit of an instruction (R48); every strand instruction that is not named here is strand-local. -/
def Instr.unit : Instr → IssueUnit
  | .ld .. | .st .. | .nsend .. | .nrecv .. => .port
  | .vadd .. | .vsub .. | .vmul .. | .vfma .. | .vfnma .. | .vmin .. | .vmax .. | .vabs .. | .vneg .. | .vrcps .. | .vrsqs ..
  | .vexp2 .. | .vlog2 .. | .vand .. | .vor .. | .vxor .. | .vshl .. | .vshr .. | .vcmp .. | .vsel .. | .vmov .. | .vbcs ..
  | .viota .. | .vcvt .. | .vquant .. | .vdeq .. | .vrotr .. | .vrotc .. | .vbcr .. | .vbcc .. | .vredr .. | .vredc .. | .vsegr ..
  | .vflag .. | .vld .. | .vst .. | .vldq .. | .vstq .. | .vgath .. | .vscat .. | .vrag .. | .vrng .. | .plog .. | .pset .. => .vector
  | .mlease | .mfree | .mfmt .. | .mldw .. | .mswap | .mstrm .. | .mdrain .. | .mchk .. | .cpy .. | .cpys .. | .cpycs ..
  | .coll .. | .cwait .. | .smpl .. | .sbind .. | .bclaim .. | .bfree .. | .blend .. | .bret .. | .bxfer .. | .bsplit .. | .bjoin ..
  | .bshare .. | .bshareAtomic .. | .bunsh .. | .bquery .. | .slotrd .. | .slotsw .. | .atom .. | .rsv .. | .tlbiq .. => .engine
  | .spush .. | .spop .. | .qfence .. | .cbar | .bar .. | .waittReg .. | .waittImm .. | .afence => .sync
  | _ => .own

/-- The spark operation of an instruction (R72). -/
def Instr.spark : Instr → Spark
  | .nsend _ _ _ sp | .nrecv _ _ _ sp | .vquant _ _ _ _ _ _ _ sp | .vdeq _ _ _ _ _ _ sp | .vld _ _ _ _ _ _ _ sp
  | .vst _ _ _ _ _ _ _ sp | .vldq _ _ _ _ _ sp | .vstq _ _ _ _ _ _ sp | .vgath _ _ _ _ _ _ _ _ sp | .vscat _ _ _ _ _ _ _ _ sp
  | .vrag _ _ _ _ _ _ _ sp | .vrng _ _ _ _ _ sp | .mldw _ _ sp | .mstrm _ _ _ _ sp | .mdrain _ _ _ _ _ _ _ _ sp | .cpy _ _ _ _ sp
  | .cpys _ _ _ _ sp | .cpycs _ _ _ _ _ _ _ _ sp | .coll _ _ sp | .smpl _ _ _ _ _ sp | .sbind _ _ _ sp | .bclaim _ _ _ sp
  | .atom _ _ _ _ _ _ sp | .rsv _ _ _ _ _ sp | .tlbiq _ _ _ sp => sp
  | .spop ch => .pop ch
  | _ => .none

/-- The scalar registers an instruction reads (R358). -/
def Instr.scalarReads : Instr → List Reg
  | .add _ a r2 | .sub _ a r2 | .mul _ a r2 | .mulh _ _ a r2 | .div _ _ a r2 | .rem _ _ a r2 | .and _ a r2 | .or _ a r2 | .xor _ a r2
  | .andn _ a r2 | .shlReg _ a r2 | .shrReg _ a r2 | .shaReg _ a r2 | .rotReg _ a r2 | .min _ _ a r2 | .max _ _ a r2 | .sel _ _ a r2
  | .cmpReg a r2 | .st _ a r2 _ | .nsend a r2 _ _ | .nrecv a r2 _ _ | .blend _ a r2 _ | .bxfer _ a r2 _ | .bjoin _ a r2 _ | .bshare _ a r2 _
  | .atom _ _ _ a r2 _ _ | .place _ a r2 | .tlbiq _ a r2 _ => [a, r2]
  | .addi _ a _ | .shlImm _ a _ | .shrImm _ a _ | .shaImm _ a _ | .rotImm _ a _ | .clz _ a | .popc _ a | .ext _ _ a _ _ | .cmpImm a _
  | .mov _ a | .brz _ a _ | .callxReg a | .jx _ a | .loop _ _ a _ | .ld _ _ a _ | .wrs _ a | .wrsImfree a | .wrsWindow _ a
  | .wrsPbase a | .vbcs _ a _ _ | .viota _ _ _ a _ _ _ | .vdeq _ _ _ a _ _ _ | .vgath _ _ _ _ a _ _ _ _ | .vscat _ _ _ a _ _ _ _ _
  | .vrag _ _ _ a _ _ _ _ | .vrng _ _ _ a _ _ | .mfmt a | .mldw a _ _ | .mstrm a _ _ _ _ | .coll a _ _ | .cwait _ a
  | .sbind _ a _ _ | .bclaim _ a _ _ | .bfree _ a _ | .bret _ a _ | .bsplit _ a _ | .bshareAtomic _ a _ | .bunsh _ a _ | .bquery _ a _
  | .slotsw a _ _ | .bar _ a _ | .waittReg a | .waittImm a _ | .segend _ a _ | .capr _ a _ => [a]
  | .ins d a _ _ => [d, a]
  | .li .hi d _ => [d]
  | .vadd _ _ _ r | .vsub _ _ _ r | .vmul _ _ _ r | .vfma _ _ _ r | .vfnma _ _ _ r | .vcvt _ _ _ r => [r.c]
  | .vquant _ a _ e _ _ _ _ => [a, e]
  | .vrotr _ c _ | .vrotc _ c _ | .vbcr _ c _ | .vbcc _ c _ | .pset _ _ c _ _ _ => [c]
  | .vld _ _ _ a e _ _ _ | .vst _ _ a _ e _ _ _ | .vldq _ _ a e _ _ | .vstq _ _ a _ e _ _ => [a, e]
  | .mdrain _ a r2 e g _ _ _ _ | .cpys a r2 e g _ | .cpycs _ _ _ a r2 e g _ _ | .smpl a r2 e g _ _ | .rsv _ a r2 e g _ => [a, r2, e, g]
  | .cpy a r2 e _ _ => [a, r2, e]
  | _ => []

/-- The scalar register whose result is delayed, with the delay in cycles (R338, R349, R359). -/
def Instr.delayed : Instr → Option (Reg × Nat)
  | .mul d _ _ => some (d, 3)
  | .mulh _ d _ _ => some (d, 3)
  | .div _ d _ _ => some (d, 20)
  | .rem _ d _ _ => some (d, 20)
  | .ld _ d _ _ => some (d, 4)
  | _ => none

/-- The vector operand form of a format V instruction with its further vector names. -/
def Instr.vform : Instr → Option (VOp × List VReg)
  | .vadd _ o r2 _ | .vsub _ o r2 _ | .vmul _ o r2 _ | .vmin _ o r2 | .vmax _ o r2 | .vand o r2 | .vor o r2 | .vxor o r2 | .vsel o r2 _ =>
    some (o, [r2])
  | .vfma _ o r2 _ | .vfnma _ o r2 _ => some (o, r2 :: o.d.names)
  | .vabs _ o | .vneg _ o | .vrcps o | .vrsqs o | .vexp2 o | .vlog2 o | .vmov o | .vcvt _ _ o _ | .vrotr o _ _ | .vrotc o _ _
  | .vbcr o _ _ | .vbcc o _ _ | .vredr _ _ o | .vredc _ _ o | .vsegr _ _ o _ => some (o, [])
  | .vshl _ o (.reg r2) | .vshr _ o (.reg r2) => some (o, [r2])
  | .vshl _ o (.imm _) | .vshr _ o (.imm _) => some (o, [])
  | _ => none

/-- The vector names an instruction reads (R114). -/
def Instr.vecReads (i : Instr) : List VReg :=
  match i.vform with
  | some (o, l) => o.a.names ++ l
  | none =>
    match i with
    | .vcmp _ _ _ a r2 _ _ => r2 :: a.names
    | .vquant _ _ r2 _ _ _ _ _ => [r2]
    | .vst _ _ _ r2 _ _ _ _ => [r2]
    | .vgath _ _ _ _ _ r2 _ _ _ => [r2]
    | .vscat _ _ _ _ r2 e _ _ _ => [r2, e]
    | .vrag _ _ _ _ r2 _ _ _ => [r2]
    | _ => []

/-- The vector names an instruction writes. -/
def Instr.vecWrites (i : Instr) : List VReg :=
  match i.vform with
  | some (o, _) => o.d.names
  | none =>
    match i with
    | .vbcs d _ _ _ => d.names
    | .viota _ _ d _ _ _ _ => d.names
    | .vdeq _ _ d _ _ _ _ => [d]
    | .vld _ _ d _ _ _ _ _ => [d]
    | .vgath _ _ _ d _ _ _ _ _ => [d]
    | .vrag _ _ d _ _ _ _ _ => [d]
    | .vrng _ _ d _ _ _ => [d]
    | _ => []

/-- The predicates an instruction reads (R68, R114). -/
def Instr.predReads (i : Instr) : List PReg :=
  match i.vform with
  | some (o, _) =>
    (match i with
      | .vsel _ _ pc => [o.pred.p, pc]
      | .vsegr _ _ _ pb => [o.pred.p, pb]
      | _ => [o.pred.p])
  | none =>
    match i with
    | .vcmp _ _ _ _ _ _ q | .vbcs _ _ _ q | .viota _ _ _ _ _ _ q | .vdeq _ _ _ _ _ q _ | .vld _ _ _ _ _ _ q _
    | .vst _ _ _ _ _ _ q _ | .vgath _ _ _ _ _ _ _ q _ | .vscat _ _ _ _ _ _ _ q _ | .vrag _ _ _ _ _ _ q _ | .vrng _ _ _ _ q _
    | .pset _ _ _ _ _ q => [q.p]
    | .vflag pa q => [pa, q.p]
    | .plog _ _ a r2 => [a, r2]
    | _ => []

/-- The predicates an instruction writes. -/
def Instr.predWrites : Instr → List PReg
  | .vcmp _ _ pd _ _ _ _ => [pd]
  | .plog _ d _ _ => [d]
  | .pset _ d _ _ _ _ => [d]
  | _ => []

/-- For how many cycles the vector unit is occupied (R379, R395). -/
def Instr.occupancy : Instr → Nat
  | .vquant .. => 8
  | .vflag .. | .plog .. | .pset .. => 1
  | _ => 4

/-- After how many cycles the result of a vector instruction can be read, or its stores have been performed, with L lines on the
busiest bank (R366, R379, R395). -/
def Instr.vecDelay (l : Nat) : Instr → Nat
  | .vexp2 .. | .vlog2 .. | .vrcps .. | .vrsqs .. | .vst .. | .vstq .. => 8
  | .vbcr .. | .vrotr .. | .vredr .. | .vsegr .. => 7
  | .vbcc .. | .vrotc .. | .vredc .. => 10
  | .vdeq .. | .vld .. | .vldq .. | .vrng .. => 12
  | .vgath .. | .vrag .. | .vscat .. => 16 + l
  | .vquant .. => 24
  | .vflag .. | .plog .. | .pset .. => 1
  | _ => 4

end Sys2Proof
namespace Sys2Proof.Machine

/-! Elements of the indexed forms. -/

/-- The active elements of a quarter (R399). -/
def quarterOf (mask : BitVec 1024) (part : Nat) : List Nat :=
  ((List.range 256).map (fun i => 256 * part + i)).filter (fun e => mask.getLsbD e)

/-- The active elements that VRAG reads: those of each row below the length in column 1 of the row of vB (R400). -/
def raggedOf (mask : BitVec 1024) (ix : List W32) : List Nat :=
  (List.range 1024).filter (fun e => mask.getLsbD e && colOf e < (ix.getD (64 * rowOf e + 1) 0#32).toNat)

/-- The index of an element of VRAG: the row's start, in column 0 of the row of vB, plus the column (R400). -/
def raggedIndex (ix : List W32) (e : Nat) : Nat := (ix.getD (64 * rowOf e) 0#32).toNat + colOf e

/-- The largest number of distinct 128-byte lines that one of the 32 banks serves, for elements of n bytes at exact addresses
(R180, R395). -/
def busiestBank (addrs : List Int) : Nat :=
  let lines := ((addrs.map (fun a => a.toNat / 128)).foldl (fun (t : Tab Unit) l => Tab.set t l ()) []).map Prod.fst
  (List.range 32).foldl (fun m b => max m (lines.filter (fun l => l % 32 == b)).length) 0

/-- The scratchpad accesses of a strand's instruction: exact addresses and lengths (R348, R364, R373, R384, R397 to R401). -/
def State.accesses (s : State) (p : At) (i : Instr) : List (Int × Nat) :=
  let y := s.core p.d p.c
  let z := y.strand p.k
  let base (a : Reg) (o : Int) : Int := ((z.reg a).toNat : Int) + o
  let entry (w : Word) : Int := (z.importTab.toNat : Int) + 8 * w.toNat
  let rows (ef : EF) (a e : Reg) (lit : BitVec 32) : List (Int × Nat) :=
    (List.range 16).map (fun r : Nat =>
      (base a (sext lit) + r * (if e = 0 then 8 * ef.width else (z.reg e).toNat), 8 * ef.width))
  let elems (ef : EF) (a : Reg) (lit : BitVec 32) (ns : List Nat) : List (Int × Nat) :=
    ns.map (fun n : Nat => (base a (sext lit) + n * (ef.width / 8), ef.width / 8))
  let quarter (b : VReg) (pred : PredOp) (part : Nat) : List Nat :=
    let ix := y.vreg (z.vphys b)
    (quarterOf (predMask y z pred) part).map (fun e => (ix.getD e 0#32).toNat)
  match i with
  | .ld sz _ a imm => [(base a (sext imm), sz.bytes)]
  | .st sz a _ imm => [(base a (sext imm), sz.bytes)]
  | .nsend a _ len _ => [(base a 0, len.toNat)]
  | .nrecv a _ len _ => [(base a 0, len.toNat)]
  | .callxReg a => [(entry (z.reg a), 8)]
  | .callxImm imm => [(entry (wrap64 (sext imm)), 8)]
  | .vld ef _ _ a e lit _ _ => rows ef a e lit
  | .vst ef _ a _ e lit _ _ => rows ef a e lit
  | .vldq ef _ a e lit _ => rows ef a e lit
  | .vstq ef _ a _ e lit _ => rows ef a e lit
  | .vgath ef _ part _ a b lit pred _ => elems ef a lit (quarter b pred part.val)
  | .vscat ef _ part a b _ lit pred _ => elems ef a lit (quarter b pred part.val)
  | .vrag ef _ _ a b lit pred _ =>
    let ix := y.vreg (z.vphys b)
    elems ef a lit ((raggedOf (predMask y z pred) ix).map (raggedIndex ix))
  | .vquant ef a _ _ _ _ _ _ => [(base a 0, 4 * recBytes ef.width)]
  | .vdeq ef _ _ a lit _ _ => [(base a (sext lit), 4 * recBytes ef.width)]
  | _ => []

/-- L of R395 for the instruction of a strand. -/
def State.bankLines (s : State) (p : At) (i : Instr) : Nat :=
  match i with
  | .vgath .. | .vscat .. | .vrag .. => busiestBank ((s.accesses p i).map Prod.fst)
  | _ => 0

/-- The offset that a strand address of n aligned bytes names, when it is legal (R176, R349). -/
def strandOffset (a : Int) (n align : Nat) : Option Nat :=
  if a < spadAddr ∨ spadAddr + spadSize < a + n ∨ a % align ≠ 0 then none else some (a.toNat - spadAddr)

/-- The brand entries under which an instruction's accesses are judged (R204). -/
def State.windowIds (s : State) (p : At) (i : Instr) : List Nat :=
  (s.accesses p i).flatMap (fun a =>
    match strandOffset a.1 a.2 1 with
    | some off => (s.die p.d).entryIds (s.tenantOf p.d p.c) (spadVa p.d p.c off) a.2
    | none => [])

/-- The state in which a strand's instruction makes its accesses, unless the brand window misses an entry (R204). -/
def State.windowed (s : State) (p : At) (i : Instr) : Option State := s.seek p.d p.c (s.windowIds p i)

/-! Interlocks. -/

/-- Are the operands of the strand's instruction ready: no delayed result is still to come (R48, R114, R358)? -/
def Core.operandsReady (y : Core) (z : Strand) (now : Nat) (i : Instr) : Bool :=
  i.scalarReads.all (fun r => r == 0 || Tab.get z.delays r.val 0 ≤ now)
    && i.vecReads.all (fun v => Tab.get y.vready (z.vphys v) 0 ≤ now)
    && i.predReads.all (fun q => q == 0 || Tab.get y.pready (z.pphys q) 0 ≤ now)

/-- Can the unit of an instruction accept one in this cycle (R48, R49)? -/
def Core.unitFree (y : Core) (now : Nat) (i : Instr) : Bool :=
  match i.unit with
  | .own => true
  | .vector => y.vfree ≤ now
  | u => Tab.get y.unitAt u.num 0 ≤ now

/-- The unit of strand k has accepted an instruction: it is taken, and the results come after their delays (R48, R379, R395). -/
def Core.occupy (y : Core) (z : Strand) (k now l : Nat) (i : Instr) : Core :=
  match i.unit with
  | .own => y
  | .vector =>
    let due := now + i.vecDelay l
    { y with vfree := now + i.occupancy, lastVec := k,
             vready := i.vecWrites.foldl (fun t v => Tab.setMax t (z.vphys v) due) y.vready,
             pready := i.predWrites.foldl (fun t q => Tab.setMax t (z.pphys q) due) y.pready }
  | u => { y with unitAt := Tab.set y.unitAt u.num (now + 1) }

/-- A delayed scalar result is on its way (R358). -/
def Strand.delay (z : Strand) (now : Nat) (i : Instr) : Strand :=
  match i.delayed with
  | some (r, n) => { z with delays := Tab.setMax z.delays r.val (now + n) }
  | none => z

end Sys2Proof.Machine
end

