-- ==== Sys2Proof/Machine/Ops.lean ====
section
/-!
DEFINITION. The named operations of a strand: taking a trap and returning from one (R287, R339), the issue of an instruction with
its interlocks, pops, residue checks, release point, signature and push (R44, R72, R105, R225, R290, R310), scratchpad loads and
stores (R224, R226, R349, R374), and fetch (R60, R75, R127).
-/
namespace Sys2Proof.Machine

/-- The three outcomes of exec. -/
abbrev Out := Host.Outcome State Fault Refusal

/-! Program counter. -/

/-- The strand's fetch address. -/
def Strand.fetchAt (z : Strand) : Nat :=
  match z.far with
  | some w => w.toNat
  | none => z.pc.toNat

/-- Control goes to an exact address; one outside instruction memory is kept for the fetch that will fail there (R74). -/
def Strand.goto (z : Strand) (t : Int) : Strand :=
  { z with pc := BitVec.ofInt 18 t, far := if 0 ≤ t ∧ t < 2 ^ 18 then none else some (wrap64 t) }

/-- The words of an instruction. -/
def wordsOf (i : Instr) : List Nat := encode i

/-- The address after an instruction (R60). -/
def Strand.after (z : Strand) (i : Instr) : Int := z.pc.toNat + 4 * (wordsOf i).length

/-! Traps. -/

/-- The state of instruction-memory page n (R125). -/
def Core.page (y : Core) (n : Nat) : Page := Tab.get y.pages n .free

/-- A strand leaves every wait before issue: a pop that is granted is not taken, a held SPUSH is withdrawn (R290). -/
def Core.unwait (y : Core) (k : Nat) : Core :=
  { y with held := y.held.filter (fun h => h.by_ != Pusher.spush k) }.setStrand k
    { y.strand k with popWait := none, granted := false, stalled := false }

/-- A trap is delivered (R287): pending VFLAGs land, the cause, the information and the pc to return to are saved, the segment is
void, control goes to %trapvec; a trap with no handler declares the context failed. -/
def State.takeTrap (s : State) (p : At) (cause : Cause) (info : Word) (ret : BitVec 18) : State :=
  let s1 := (s.modCore p.d p.c (fun y => y.unwait p.k)).modStrand p (fun z =>
    { z.landAll with trapcause := BitVec.ofNat 8 cause.code, trapinfo := info, trappc := ret, void := true })
  let z := s1.strand p
  if z.trapvec = 0 ∨ (s1.core p.d p.c).page (z.trapvec.toNat / 4096) = .free then
    s1.declareFailed p.d p.c p.k ret.toNat cause
  else s1.modStrand p (fun z => { z with pc := z.trapvec, far := none })

/-- The return from a handler: control goes to %trappc; nothing else is restored (R339). -/
def Strand.returnFromTrap (z : Strand) : Strand := { z with pc := z.trappc, far := none }

/-! Issue. -/

/-- What an instruction does once nothing holds it. -/
inductive Act where
  /-- It cannot issue yet: the strand stands at the boundary before it. -/
  | stay
  /-- It cannot issue yet, and the wait leaves a trace: a push that is held. -/
  | stayAt (s : State)
  /-- It faults before it issues, with %trapinfo and the FORFEIT entry that its access hands back. -/
  | trap (cause : Cause) (info : Word) (hb : Option Nat)
  /-- A fault that no handler is trusted with: the context is declared failed. -/
  | fail (cause : Cause)
  /-- It issues and completes; control goes on at the address. -/
  | done (s : State) (next : Int)
  /-- It issues and completes and is not counted in its segment: SEGEND. -/
  | closed (s : State) (next : Int)
  /-- It issues and the strand then waits. -/
  | wait (s : State) (next : Int) (w : Wait)
  /-- It issues and traps: TRAP and SYSC. -/
  | soft (s : State) (next : Int) (cause : Cause) (info : Word)

/-- What the issue of an instruction looks at. -/
structure Form where
  /-- Vector names, checked against the window (R66). -/
  names : List VReg := []
  /-- Registers read or written: an awaited result holds the instruction (R310). -/
  uses : List Reg := []
  /-- Registers whose residue is checked (R105). -/
  checked : List Reg := []
  /-- Registers of which only the low half is used, and its residue checked. -/
  lowChecked : List Reg := []
  /-- It reads or writes %flags, which an MCHK may still owe (R172). -/
  flags : Bool := false
  /-- Its spark operation (R72). -/
  sp : Spark := .none
  /-- Its push is made at retirement, not by a command. -/
  pushes : Bool := true
  /-- It is a release point (R225). -/
  release : Bool := false

/-- The channel that a spark operation pops. -/
def popCh : Spark → Option Nat
  | .pop ch => some ch.val
  | .popPush ch => some ch.val
  | _ => none
/-- The channel that a spark operation pushes. -/
def pushCh : Spark → Option Nat
  | .push ch => some ch.val
  | .popPush ch => some ch.val
  | _ => none

/-- Has the strand a push on retire that is not applied yet (R228)? -/
def Core.pushPending (y : Core) (k : Nat) : Bool := y.held.any (fun h => h.by_ == Pusher.retire k)

/-- May the strand issue: it runs, waits for nothing after an issue and for no push of its own, its gang is not halted, and
its core and island are not held (R55, R228, R294, R308)? -/
def State.canIssue (s : State) (p : At) : Bool :=
  let z := s.strand p
  let x := s.die p.d
  z.running && !z.exited && z.wait == .none && !(s.core p.d p.c).pushPending p.k && !x.dead && !x.inReset && (s.core p.d p.c).issueFrom ≤ s.cyc p.d p.c
    && Tab.get x.islandHalt (p.c / 4) 0 ≤ x.tick && s.gangRuns p.d p.c

/-- The strand stands before an instruction that it cannot issue (R47, R290). -/
def State.stall (s : State) (p : At) (ch : Option Nat) : State :=
  s.modStrand p (fun z => { z with stalled := true, popWait := ch })

/-- The signature and the counts of a segment after an instruction (R44, R111). -/
def Strand.count (z : Strand) (i : Instr) (now : Nat) : Strand :=
  { z with sig := (wordsOf i).foldl crcWord z.sig, segCount := z.segCount + 1,
           segStart := if z.segCount = 0 then now else z.segStart }

/-- An instruction has issued: what held it is forgotten, control goes on. -/
def Strand.advance (z : Strand) (next : Int) (w : Wait) : Strand :=
  { (z.countIssue.goto next) with stalled := false, popWait := none, granted := false, wait := w }

/-- The push on retire of an instruction that no queue holds (R72, R228): it reaches the channel now. -/
def State.retirePush (s : State) (p : At) (n : Nat) : State :=
  s.modCore p.d p.c (fun y => y.push n (s.coreAgent p.d p.c) p.k (.retire p.k))

/-- The cycle by which every effect of a vector instruction has been made: a store waits for those accepted before it (R72, R385). -/
def Core.effectsBy (y : Core) (due : Nat) (i : Instr) : Nat :=
  match i with
  | .vst .. | .vscat .. | .vquant .. => (y.vstores.getLast?.map (fun v => max due v.due)).getD due
  | _ => due

/-- The instruction retires: it is counted, its unit is taken, its delayed results and its push are on their way (R48, R358, R385). -/
def State.retire (s : State) (p : At) (i : Instr) (l : Nat) (next : Int) (w : Wait) (ch : Option Nat) : State :=
  let now := s.cyc p.d p.c
  let y := s.core p.d p.c
  let z := y.strand p.k
  let y1 := (y.occupy z p.k now l i).setStrand p.k (((z.count i (s.now p.d)).delay now i).advance next w)
  match ch with
  | none => s.setCore p.d p.c y1
  | some n => s.setCore p.d p.c { y1 with retiring := y1.retiring ++ [(y.effectsBy (now + i.vecDelay l) i, n, p.k)] }

/-- What an instruction's act leaves, with L of R395. -/
def State.finish (s0 : State) (p : At) (i : Instr) (f : Form) (l : Nat) : Act → State
  | .stay => s0.stall p none
  | .stayAt s => s.stall p none
  | .trap c info hb => (s0.handBack p.d hb).takeTrap p c info (s0.strand p).pc
  | .fail c => (s0.modStrand p (fun z => { z with granted := false })).declareFailed p.d p.c p.k (s0.strand p).pc.toNat c
  | .done s next => s.retire p i l next .none (if f.pushes then (pushCh f.sp) else none)
  | .closed s next => s.modStrand p (fun z => z.advance next .none)
  | .wait s next w => s.retire p i l next w (if f.pushes then (pushCh f.sp) else none)
  | .soft s next c info => let s' := s.retire p i l next .none none; s'.takeTrap p c info (s'.strand p).pc

/-- Is it an act that keeps the strand before its instruction? -/
def Act.stays : Act → Bool
  | .stay => true
  | _ => false

/-- The strand stands before its instruction for a known number of cycles: a unit, a result or a store that is under way. -/
def State.pause (s : State) (p : At) : State := s.modStrand p (fun z => { z with stalled := false, popWait := none })

/-- May a channel be popped now: its count is above zero, and it has not been popped in this cycle (R228)? -/
def State.popOpen (s : State) (p : At) (ch : Nat) : Bool :=
  let y := s.core p.d p.c
  0 < y.spark ch && Tab.get y.popAt ch 0 ≤ s.cyc p.d p.c

/-- A channel is popped, in the cycle in which the instruction issues (R72, R228). -/
def State.takePop (s : State) (p : At) (ch : Nat) : State :=
  s.modCore p.d p.c (fun y => { y with popAt := Tab.set y.popAt ch (s.cyc p.d p.c + 1) }.setSpark ch (y.spark ch - 1))

/-- What an instruction that is a release point still waits for: the stores of the forwarding table, one performed in each cycle, and the
strand's vector stores; CBAR does not cover the drains of store queues (R50, R117, R225, R396). -/
def Core.releaseWaits (y : Core) (k : Nat) (i : Instr) : Bool :=
  (y.strand k).fwd != [] || y.vstores.any (fun v => v.strand == k && (v.cmd.isNone || i != .cbar))

/-- The oldest store of the table is performed at the bank (R225). -/
def Core.performOldest (y : Core) (k : Nat) : Core :=
  let z := y.strand k
  match z.fwd with
  | [] => y
  | e :: rest => Core.setStrand { y with spad := Mem.write y.spad e.off e.data } k { z with fwd := rest }

/-- What an instruction does in the state it issues in: VFLAGs that are due land, a residue that does not match fails the context
(R105, R111), and else it acts. -/
def State.actOf (s : State) (p : At) (f : Form) (body : At → State → Act) : Act :=
  let z := s.strand p
  if f.checked.all (fun r => (z.sreg r).ok) && f.lowChecked.all (fun r => (z.sreg r).lowOk) then body p (s.modStrand p Strand.landDue)
  else .fail .residue

/-- The state in which a strand's instruction issues: the pop that it needs is taken when it can be (R228). -/
def State.atPop (s : State) (p : At) (sp : Spark) : State :=
  match popCh sp with
  | some ch => if s.popOpen p ch then s.takePop p ch else s
  | none => s

/-- Does an act issue its instruction? -/
def Act.issues : Act → Bool
  | .stay | .trap .. | .fail _ => false
  | _ => true

/-- An instruction as its operands are looked at: a Free-mode BAR reads none (R41, R42). -/
def State.readForm (s : State) (p : At) (i : Instr) : Instr :=
  match i with
  | .bar stp _ imm => if s.locked p.d p.c then i else .bar stp 0 imm
  | i => i

/-- Is the pop of a spark operation still to come? -/
def State.popMissing (s : State) (p : At) (sp : Spark) : Bool :=
  match popCh sp with
  | some ch => !s.popOpen p ch
  | none => false

/-- Issue an instruction of the strand that acts (R48, R75, R204, R290, R310): names, interlocks, operands and unit, act, pop, release
point, brand window. -/
def issue (i : Instr) (f : Form) (s : State) (body : At → State → Act) : Out :=
  match s.actor with
  | .strand d c k =>
    let p : At := ⟨d, c, k⟩
    let z := s.strand p
    let y := s.core d c
    let now := s.cyc d c
    if !s.canIssue p then .next s
    else if !(f.names.all z.vnameOk) then .next (s.takeTrap p .windowName 0 z.pc)
    else if f.uses.any (fun r => z.await.any (fun a => a.1 == r.val)) || (f.flags && z.awaitFlags.isSome) then
      .next (s.stall p none)
    else if !(y.operandsReady z now (s.readForm p i) && y.unitFree now i) then .next (s.pause p)
    else
      let w := (s.windowed p i).getD s
      let act := (w.atPop p f.sp).actOf p f body
      if act.stays then .next (s.stall p none)
      else if s.popMissing p f.sp then .next (s.stall p (popCh f.sp))
      else if act.issues && (f.release || (f.pushes && (pushCh f.sp).isSome)) && y.releaseWaits k i then
        .next ((s.modCore d c (fun y => y.performOldest k)).pause p)
      else if (s.windowed p i).isNone then .next ((s.lookUp d c (s.windowIds p i)).pause p)
      else .next ((w.modStrand p Strand.landDue).finish p i f (s.bankLines p i) act)
  | _ => .fault .noActor

/-- The address after the instruction of the strand at a place. -/
def State.seq (s : State) (p : At) (i : Instr) : Int := (s.strand p).after i

/-! Fetch. -/

/-- What a fetch finds. -/
inductive Fetched where
  | words (w0 w1 w2 : Nat)
  | hold
  | invalid (addr : Nat)
  deriving DecidableEq, Repr

/-- One word of instruction memory (R60, R127): the word, a FILLING page, or no code. -/
def Core.word (y : Core) (a : Nat) : Option (Option Nat) :=
  if imemSize ≤ a then none
  else
    match y.page (a / 4096) with
    | .code => some (some (Mem.load y.imem a 4))
    | .filling => some none
    | .free => none

/-- The words of the instruction at an address, as far as its length asks for them (R75). -/
def Core.fetch (y : Core) (a : Nat) : Fetched :=
  match y.word a with
  | none => .invalid a
  | some none => .hold
  | some (some w0) =>
    if w0 % 4 = 0 ∨ w0 % 4 = 3 then .words w0 0 0
    else
      match y.word (a + 4) with
      | none => .invalid (a + 4)
      | some none => .hold
      | some (some w1) =>
        if w0 % 4 = 1 then .words w0 w1 0
        else
          match y.word (a + 8) with
          | none => .invalid (a + 8)
          | some none => .hold
          | some (some w2) => .words w0 w1 w2

/-- The instruction that a strand stands before, when it can be fetched and decoded. -/
def State.nextInstr (s : State) (p : At) : Option Instr :=
  match (s.core p.d p.c).fetch (s.strand p).fetchAt with
  | .words w0 w1 w2 => (decodeStrand w0 w1 w2).toOption
  | _ => none

/-! Scratchpad accesses of a strand. -/

/-- The bytes of a range as a strand reads them: from its own forwarding table, the newest entry first, else from the bank
(R224). -/
def strandBytes (y : Core) (k off n : Nat) : List Byte := Mem.bytes (performAll y.spad (y.strand k).fwd) off n

/-- Does a range overlap an entry of a forwarding table? -/
def FwdEntry.meets (e : FwdEntry) (off n : Nat) : Bool := e.off < off + n && off < e.off + e.data.length

/-- Does a read meet a store still in another strand's table (R226)? -/
def Core.races (y : Core) (k off n : Nat) : Bool :=
  strandIds.any (fun j => j != k && (y.strand j).fwd.any (fun e => e.meets off n))

/-- A strand access judged: the offset, or how it ends (R290, R349). -/
inductive Reached where
  | at_ (off : Nat)
  | ends (a : Act)

/-- Judge a strand's access to n bytes at an exact address (R203, R349). -/
def State.reach (s : State) (p : At) (acc : Access) (a : Int) (n align : Nat) : Reached :=
  match strandOffset a n align with
  | none => .ends (.trap .spadBounds (wrap64 a) none)
  | some off =>
    match s.judgeStrand p.d p.c acc off n with
    | .ok => .at_ off
    | .hold => .ends .stay
    | .bad c hb => .ends (.trap c (wrap64 a) hb)

/-- Does a scalar access meet a vector store of the strand that is still to be performed (R224)? -/
def Core.meetsStore (y : Core) (k off n : Nat) : Bool :=
  y.vstores.any (fun v => v.strand == k && v.rows.any (fun r => r.1 < off + n && off < r.1 + r.2.1.length))

/-- A scalar store enters the forwarding table; into a full one the oldest entry leaves first (R224). -/
def Core.enterStore (y : Core) (k off : Nat) (data : List Byte) : Core :=
  let z := y.strand k
  match z.fwd with
  | e :: rest =>
    if 16 ≤ z.fwd.length then
      Core.setStrand { y with spad := Mem.write y.spad e.off e.data } k { z with fwd := rest ++ [{ off := off, data := data }] }
    else y.setStrand k { z with fwd := z.fwd ++ [{ off := off, data := data }] }
  | [] => y.setStrand k { z with fwd := [{ off := off, data := data }] }

/-- The entries of a table, given newest first, parted by an access to a range: those that leave, which overlap it or share a byte with
a newer one that leaves, so that bytes reach the bank in issue order, and those that stay; each in issue order (R224; log entry 13). -/
def leavers (off n : Nat) : List FwdEntry → List FwdEntry → List FwdEntry → List FwdEntry × List FwdEntry
  | [], out, kept => (out, kept)
  | e :: es, out, kept =>
    if e.meets off n || out.any (fun g => e.meets g.off g.data.length) then leavers off n es (e :: out) kept
    else leavers off n es out (e :: kept)

/-- A vector access of a strand performs the stores of its table that it overlaps (R224). -/
def Core.releaseRange (y : Core) (k off n : Nat) : Core :=
  let z := y.strand k
  let (out, kept) := leavers off n z.fwd.reverse [] []
  if out = [] then y else Core.setStrand { y with spad := performAll y.spad out } k { z with fwd := kept }

/-! Engine commands. -/

/-- A new command of strand k for an instruction, at the strand's pc. -/
def Core.newCmd (y : Core) (k : Nat) (push : Option Nat) (dregs : List Nat) (ranges : List Rng) (body : CmdBody) : Cmd :=
  { id := y.nextCmd, strand := k, cpc := (y.strand k).pc.toNat, push := push, dregs := dregs, stage := .queued, status := 0,
    ranges := ranges, body := body, bad := none }

/-- The engine port accepts a command into a queue (R48, R229). -/
def State.acceptCmd (s : State) (p : At) (q : Nat) (push : Option Nat) (dregs : List Nat) (ranges : List Rng) (body : CmdBody) :
    State :=
  s.modCore p.d p.c (fun y => y.accept q (y.newCmd p.k push dregs ranges body))

/-! Events. -/

/-- An event that befalls the machine when its condition holds; otherwise nothing happens. -/
def whenever (c : Bool) (s : State) (t : State) : Out := .next (if c then t else s)

end Sys2Proof.Machine
end

