-- ==== Sys2Proof/Machine/Scalar.lean ====
section
/-!
DEFINITION. The scalar integer instructions (R311 to R314, R326, R337 to R341, R350, R352, R357, R359 to R362, R405) and PLACE
(R54). Each writes one register of the strand and nothing else; what %flags says is read as the strand sees it (R111).
-/
namespace Sys2Proof.Machine

/-- A strand-local instruction that changes the strand and goes on at the next one. -/
def strandOp (i : Instr) (f : Form) (s : State) (g : Strand → Strand) : Out :=
  issue i f s (fun p t => .done (t.modStrand p g) (t.seq p i))

/-- Two sources, one result formed from the values, the sources' residues checked (R105). -/
def aluOp (i : Instr) (d a b : Reg) (s : State) (g : Word → Word → Word) : Out :=
  strandOp i { uses := [d, a, b], checked := [a, b] } s (fun z => z.setReg d (g (z.reg a) (z.reg b)))

/-- One source, one result. -/
def unaryOp (i : Instr) (d a : Reg) (s : State) (g : Word → Word) : Out :=
  strandOp i { uses := [d, a], checked := [a] } s (fun z => z.setReg d (g (z.reg a)))

/-- ADD (R312), residues carried (R105). -/
def execAdd (d a b : Reg) (s : State) : Out :=
  strandOp (.add d a b) { uses := [d, a, b] } s (fun z => z.setSReg d ((z.sreg a).add (z.sreg b)))

/-- ADDI (R313), residues carried. -/
def execAddi (d a : Reg) (imm : BitVec 20) (s : State) : Out :=
  strandOp (.addi d a imm) { uses := [d, a] } s (fun z => z.setSReg d ((z.sreg a).add (SReg.of (wrap64 (sext imm)))))

/-- SUB (R360), residues carried. -/
def execSub (d a b : Reg) (s : State) : Out :=
  strandOp (.sub d a b) { uses := [d, a, b] } s (fun z => z.setSReg d ((z.sreg a).sub (z.sreg b)))

/-- MUL (R360). -/
def execMul (d a b : Reg) (s : State) : Out :=
  aluOp (.mul d a b) d a b s (fun x y => x * y)

/-- MULH (R360). -/
def execMulh (u : Bool) (d a b : Reg) (s : State) : Out :=
  aluOp (.mulh u d a b) d a b s (mulHigh u)

/-- DIV (R338). -/
def execDiv (u : Bool) (d a b : Reg) (s : State) : Out :=
  aluOp (.div u d a b) d a b s (quotient u)

/-- REM (R360). -/
def execRem (u : Bool) (d a b : Reg) (s : State) : Out :=
  aluOp (.rem u d a b) d a b s (remainder u)

/-- AND (R312). -/
def execAnd (d a b : Reg) (s : State) : Out :=
  aluOp (.and d a b) d a b s (fun x y => x &&& y)

/-- OR (R360). -/
def execOr (d a b : Reg) (s : State) : Out :=
  aluOp (.or d a b) d a b s (fun x y => x ||| y)

/-- XOR (R405). -/
def execXor (d a b : Reg) (s : State) : Out :=
  aluOp (.xor d a b) d a b s (fun x y => x ^^^ y)

/-- ANDN (R312). -/
def execAndn (d a b : Reg) (s : State) : Out :=
  aluOp (.andn d a b) d a b s (fun x y => x &&& ~~~y)

/-- SHL by a register (R361). -/
def execShlReg (d a b : Reg) (s : State) : Out :=
  aluOp (.shlReg d a b) d a b s (fun x y => x <<< (y.toNat % 64))

/-- SHL by an immediate (R361). -/
def execShlImm (d a : Reg) (n : Fin 64) (s : State) : Out :=
  unaryOp (.shlImm d a n) d a s (fun x => x <<< n.val)

/-- SHR by a register (R361). -/
def execShrReg (d a b : Reg) (s : State) : Out :=
  aluOp (.shrReg d a b) d a b s (fun x y => x >>> (y.toNat % 64))

/-- SHR by an immediate (R361). -/
def execShrImm (d a : Reg) (n : Fin 64) (s : State) : Out :=
  unaryOp (.shrImm d a n) d a s (fun x => x >>> n.val)

/-- SHA by a register (R361). -/
def execShaReg (d a b : Reg) (s : State) : Out :=
  aluOp (.shaReg d a b) d a b s (fun x y => x.sshiftRight (y.toNat % 64))

/-- SHA by an immediate (R361). -/
def execShaImm (d a : Reg) (n : Fin 64) (s : State) : Out :=
  unaryOp (.shaImm d a n) d a s (fun x => x.sshiftRight n.val)

/-- ROT by a register (R361). -/
def execRotReg (d a b : Reg) (s : State) : Out :=
  aluOp (.rotReg d a b) d a b s (fun x y => x.rotateRight (y.toNat % 64))

/-- ROT by an immediate (R361). -/
def execRotImm (d a : Reg) (n : Fin 64) (s : State) : Out :=
  unaryOp (.rotImm d a n) d a s (fun x => x.rotateRight n.val)

/-- MIN (R352). -/
def execMin (u : Bool) (d a b : Reg) (s : State) : Out :=
  aluOp (.min u d a b) d a b s (fun x y => if (if u then x.toNat ≤ y.toNat else x.toInt ≤ y.toInt) then x else y)

/-- MAX (R352). -/
def execMax (u : Bool) (d a b : Reg) (s : State) : Out :=
  aluOp (.max u d a b) d a b s (fun x y => if (if u then x.toNat ≤ y.toNat else x.toInt ≤ y.toInt) then y else x)

/-- CLZ (R312). -/
def execClz (d a : Reg) (s : State) : Out :=
  unaryOp (.clz d a) d a s (fun x => BitVec.ofNat 64 (leadingZeros x))

/-- POPC (R360). -/
def execPopc (d a : Reg) (s : State) : Out :=
  unaryOp (.popc d a) d a s (fun x => BitVec.ofNat 64 (popcount 64 x.toNat))

/-- EXT (R341). -/
def execExt (sx : Bool) (d a : Reg) (pos : Fin 64) (len : Fin 128) (s : State) : Out :=
  unaryOp (.ext sx d a pos len) d a s (fun x => extractField sx x pos.val len.val)

/-- INS (R341); it reads sD as well. -/
def execIns (d a : Reg) (pos : Fin 64) (len : Fin 128) (s : State) : Out :=
  aluOp (.ins d a pos len) d d a s (fun old x => insertField old x pos.val len.val)

/-- SEL (R362), residues carried. -/
def execSel (cc : Cond) (d a b : Reg) (s : State) : Out :=
  strandOp (.sel cc d a b) { uses := [d, a, b], flags := true } s (fun z =>
    z.setSReg d (if condHolds z.flags cc then z.sreg a else z.sreg b))

/-- CMP of two registers (R326). -/
def execCmpReg (a b : Reg) (s : State) : Out :=
  strandOp (.cmpReg a b) { uses := [a, b], checked := [a, b], flags := true } s (fun z =>
    { z with flags := cmpFlags z.flags (z.reg a) (z.reg b) })

/-- CMP with an immediate (R326). -/
def execCmpImm (a : Reg) (imm : BitVec 20) (s : State) : Out :=
  strandOp (.cmpImm a imm) { uses := [a], checked := [a], flags := true } s (fun z =>
    { z with flags := cmpFlags z.flags (z.reg a) (wrap64 (sext imm)) })

/-- SETC (R362). -/
def execSetc (cc : Cond) (d : Reg) (s : State) : Out :=
  strandOp (.setc cc d) { uses := [d], flags := true } s (fun z => z.setReg d (if condHolds z.flags cc then 1 else 0))

/-- LI in its three forms (R350). -/
def execLi (form : LiForm) (d : Reg) (lit : BitVec 32) (s : State) : Out :=
  strandOp (.li form d lit) { uses := [d] } s (fun z =>
    match form with
    | .sx => z.setReg d (lit.signExtend 64)
    | .zx => z.setReg d (lit.setWidth 64)
    | .hi => z.setSReg d ((z.sreg d).withHigh lit))

/-- MOV (R357), residue and all. -/
def execMov (d a : Reg) (s : State) : Out :=
  strandOp (.mov d a) { uses := [d, a] } s (fun z => z.setSReg d (z.sreg a))

/-- ADR (R314). -/
def execAdr (d : Reg) (lit : BitVec 32) (s : State) : Out :=
  strandOp (.adr d lit) { uses := [d] } s (fun z => z.setReg d (wrap64 ((z.pc.toNat : Int) + sext lit)))

/-- Where PLACE puts a task among n places (R54). -/
def placeOf (seed task count : Word) : Word :=
  let n := if low32 count = 0 then 2 ^ 32 else (low32 count).toNat
  BitVec.ofNat 64 ((philoxDraw seed task 0 1).a.toNat * n / 2 ^ 32)

/-- The launch seed of a core (R39). -/
def State.seed (s : State) (d c : Nat) : Word :=
  match s.ctx d c with
  | some (_, _, g) => g.seed
  | none => 0

/-- PLACE (R54). -/
def execPlace (d a b : Reg) (s : State) : Out :=
  issue (.place d a b) { uses := [d, a, b], checked := [a, b] } s (fun p t =>
    .done (t.modStrand p (fun z => z.setReg d (placeOf (t.seed p.d p.c) (z.reg a) (z.reg b)))) (t.seq p (.place d a b)))

end Sys2Proof.Machine
end

