-- ==== Sys2Proof/Machine/Engines.lean ====
section
/-!
DEFINITION. What the engines of a core share: the rights of a command (R24, R206), its end on a page fault (R193, R194), how a
command of a queue starts (R229, R291), and when a stack of HBM serves it (R192, R196).
-/
namespace Sys2Proof.Machine

/-- The agent ids under which a queue's commands act (R24). -/
def State.cmdAgents (s : State) (d c q : Nat) : List Nat := s.agentsOf d c (queueClass q)

/-- The agent id that a queue's commands carry (R21). -/
def State.cmdAgent (s : State) (d c q : Nat) : Nat := (s.cmdAgents d c q).headD 0

/-- Judge a command's access to a pod address, as of its acceptance (R203, R206). -/
def State.judgeCmd (s : State) (d c q : Nat) (m : Cmd) (acc : Access) (va len : Nat) : Verdict :=
  s.judge d (s.tenantOf d c) (s.cmdAgents d c q) (some (c, m.id)) acc va len

/-- A command ends on a right it lacks (R203, R217). -/
def State.failRights (s : State) (d c q : Nat) (m : Cmd) (cause : Cause) (hb : Option Nat) (progress : Nat) : State :=
  (s.handBack d hb).failCmd d c q m cause progress

/-- A timing fault of a command of a Locked-mode context (R194, R263). -/
def State.cmdTimingFault (s : State) (d c : Nat) (m : Cmd) (cause : Cause) : State := s.timingFault d c m.strand m.cpc cause

/-- The PAGE_FAULT record of a command that suspends (R193, R304). -/
def State.pageFaultEvent (s : State) (d c q va progress : Nat) : State :=
  match s.ctx d c with
  | none => s
  | some (slot, rank, g) =>
    s.event d g.tenant { EventRec.blank .pageFault with agent := s.cmdAgent d c q, va := va, progress := progress,
                                                        entry := g.entry, cslot := slot, rank := rank }

/-- Does a queue of a pre-empted core go on: the sampler's own, and the brand queue where it holds a command older than a sampler
command that waits for it (R278, R286, R295)? -/
def State.owes (s : State) (d c q : Nat) : Bool :=
  let y := s.core d c
  match s.ctx d c with
  | some (_, _, g) => (match g.phase with
    | .halted _ => y.samplerQ.any (fun n => q == 3 || (q == 4 && n.isQueued && y.brandQ.any (fun m => m.id < n.id)))
    | _ => false)
  | none => false

/-- Does the engine of a queue run: the core's gang runs, or the queue has work that the save waits for or that a retired context has
left, and the die is not held (R52, R286, R295)? A throttle halts only issue (R55). -/
def State.enginesRun (s : State) (d c q : Nat) : Bool :=
  let x := s.die d
  !x.dead && !x.inReset && (s.gangRuns d c || s.owes d c q || (s.core d c).retired)

/-- May a queue start a command: the engines run, and no record of the queue stands beyond the 16 that the core keeps (R291). -/
def State.mayStart (s : State) (d c q : Nat) : Bool :=
  s.enginesRun d c q && !((s.core d c).records.drop 16).any (fun r => r.queue == q)

/-- Replace a command of a queue. -/
def State.putCmd (s : State) (d c q : Nat) (m : Cmd) : State := s.modCore d c (fun y => y.putCmd q m)

/-! HBM under a plan (R192, R196). -/

/-- Does a plan let a requester in at a stack of a die now: always, but in Locked mode only in a window that names it (R196)? -/
def State.lets (s : State) (d stack agent : Nat) (locked : Bool) : Bool :=
  !locked || s.pod.hbmWindows.any (fun w =>
    w.die == d && w.stack == stack && w.agents.contains agent && w.first ≤ s.now d && s.now d < w.until_)

/-- Has a stack rate left after those of some requests that it would serve too (R192, R196)? -/
def State.roomAfter (s : State) (d stack : Nat) (l : List StackAsk) : Bool :=
  (s.die d).rateLeft stack
    (((l.filter (fun a => a.stack == stack && s.lets d stack a.agent a.locked)).map (fun a => a.bytes)).foldl (· + ·) 0)

/-- Does a stack serve a requester now: the plan lets it in, and after the requests that came before it the stack has rate left? One that
may not wait (`urgent`) is served in the tick in which it comes, another from the next tick on (R192, R196; log entry 54). -/
def State.stackOpen (s : State) (d stack agent : Nat) (tag : List Nat) (locked urgent : Bool) : Bool :=
  let l := (s.die d).asks
  s.lets d stack agent locked &&
    (match l.find? (fun a => a.is stack agent tag) with
      | some a => a.came ≤ s.now d && s.roomAfter d stack (l.takeWhile (fun b => !b.is stack agent tag))
      | none => urgent && s.roomAfter d stack (l.takeWhile (fun b => b.before (s.now d) agent)))

/-- An access asks the stacks of a die for some bytes each: it is served by all of them now, or stands by them (R192, R196). -/
def State.atStacks (s : State) (d agent : Nat) (tag : List Nat) (locked urgent : Bool) (uses : List (Nat × Nat)) : Bool × State :=
  if uses = [] then (true, s)
  else if uses.all (fun u => s.stackOpen d u.1 agent tag locked urgent) then (true, s.modDie d (fun x => x.dropAsks agent tag))
  else
    (false, s.modDie d (fun x => uses.foldl (fun x u =>
      x.putAsk { stack := u.1, agent := agent, tag := tag, came := if urgent then x.tick else x.tick + 1, bytes := u.2, locked := locked,
                 seen := x.tick }) x))

/-- What an end of a chunk of a core's command asks of the stacks of this die. -/
def State.endUses (s : State) (d c va len : Nat) (write : Bool) : List (Nat × Nat) :=
  if vaDie va = d && vaTranslated va then
    match (s.die d).stackAsked c (s.tenantOf d c) va len write with
    | some stack => [(stack, len)]
    | none => []
  else []

/-- What an access past the caches asks of the stacks of die d, translated by a TLB of it (R187). -/
def Die.rawUses (x : Die) (u : TlbUse) (t va len : Nat) (write : Bool) : List (Nat × Nat) :=
  if vaTranslated va then
    match (x.translate u t (vaLow va) write).1 with
    | .leaf e => [(stackOf (e.pa + (vaLow va - e.va)), len)]
    | _ => []
  else []

/-- An access of an agent of die d at a pod address stands by the stack that it asks: on its own die under its own id, on another die
under the class 6 id of die d (R196, R211). -/
def State.memTurn (s : State) (d agent : Nat) (tag : List Nat) (u : TlbUse) (t : Nat) (locked urgent : Bool) (va len : Nat) (write : Bool) :
    Bool × State :=
  let h := vaDie va
  if h = d then s.atStacks d agent tag locked urgent ((s.die d).rawUses u t va len write)
  else if s.reaches d h then s.atStacks h (dieAgent d) (agent :: tag) locked urgent ((s.die h).rawUses .memSide t va len write)
  else (true, s)

end Sys2Proof.Machine
end

