-- ==== Sys2Proof/Machine/Fabric.lean ====
section
/-!
DEFINITION. The line side of the ports: guards (R241, R246), the read delay (R244), the slots of a tick (R242, R250), and how untimed
traffic leaves a port for the next die on its way (R241 to R243, R254, R255).
-/
namespace Sys2Proof.Machine

/-! Guards (R241, R246). -/

/-- Does an interval, by first tick and length, hold a tick? -/
def holdsTick (now : Nat) (iv : Nat × Nat) : Bool := iv.1 ≤ now && now < iv.1 + iv.2

/-- How far a port stands in a guard at a tick: in one of its plan, or in an idle guard, which begins at a multiple of 32,768 that comes
after the engine has left RUNNING (R241, R246). -/
def Port.guardTick (q : Port) (now : Nat) : Option Nat :=
  match q.guards.find? (holdsTick now) with
  | some g => some (now - g.1)
  | none =>
    if q.state != .running && now % 32768 < 16 && q.idleFrom ≤ now - now % 32768 then some (now % 32768) else none

/-- Is the port in a guard at a tick? -/
def Port.inGuard (q : Port) (now : Nat) : Bool := (q.guardTick now).isSome

/-- The guards that the engine has taken or decoded, by first tick and length. -/
def Port.guardsAhead (q : Port) : List (Nat × Nat) :=
  q.guards ++ q.ops.filterMap (fun o => match o.instr with
    | .xguard len _ => some (o.tick, len.val)
    | _ => none)

/-- The tick after the last of some ticks of sending, counted from a tick on, that guards, the earliest first, interrupt. -/
def sendEnd (guards : List (Nat × Nat)) (now ticks : Nat) : Nat :=
  (sortBy (fun a b => a.1 ≤ b.1) guards).foldl (fun e g => if g.1 < e && now < g.1 + g.2 then e + (g.1 + g.2 - max g.1 now) else e)
    (now + ticks)

/-! The read delay (R244, R245). -/

/-- The read delay of a receiving port: 32, changed by what the difference of the two dies' counts has changed since (R244). -/
def State.readDelay (s : State) (d p : Nat) : Int :=
  match s.cable d p with
  | none => 32
  | some k => 32 + (s.now d : Int) - (s.now k.farDie : Int) - (s.port d p).skew

/-- The tick, by the count of the die it goes to, at which a timed flit is delivered: s + H + (d - 32) with the read delay d of that tick
(R245). -/
def State.dueAt (s : State) (f : Flit) : Int := (f.sent : Int) + f.hop + ((s.now f.die : Int) - (s.now f.src : Int) - f.skew)

/-- Is a timed flit due for delivery? -/
def State.isDue (s : State) (f : Flit) : Bool := s.dueAt f ≤ (s.now f.die : Int)

/-! Slots and the line (R242, R243, R250). -/

/-- Must a flit that is due stay: no slot of the tick is left for it, an abort having gone first, or the port is in a guard (R241, R242,
R246)? -/
def Port.noSlot (q : Port) (p now : Nat) : Bool := portRate p ≤ q.usedAt now || q.inGuard now

/-- Flits that arrive at a port are checked: failures are counted (R243). -/
def State.lineArrives (s : State) (d p : Nat) : State :=
  let q := s.port d p
  let now := s.now d
  if q.line.all (fun e => now < e.1) then s
  else
    s.setPort d p { q with crcFails := q.crcFails + (q.line.filter (fun e => e.1 ≤ now && e.2)).length,
                           line := q.line.filter (fun e => now < e.1) }

/-- Flits of a message. -/
def flitsOf (len : Nat) : Nat := max 1 ((len + 255) / 256)

/-! Open traffic (R254, R255). -/

/-- May a message of some flits begin to leave a port (R254)? In a window of a Locked plan only if all of them can leave before its last
tick. -/
def Port.opensFor (q : Port) (p now flits : Nat) : Bool :=
  !q.inGuard now &&
    (q.state != .running || !q.snapLocked ||
      q.windows.any (fun w => holdsTick now w && sendEnd q.guardsAhead now ((flits + portRate p - 1) / portRate p) < w.1 + w.2))

/-- May a message that has begun to leave go on? -/
def Port.opensOn (q : Port) (now : Nat) : Bool :=
  !q.inGuard now && (q.state != .running || !q.snapLocked || q.windows.any (holdsTick now))

/-- A message of the untimed traffic, by the list that holds it. -/
inductive Traffic where
  | open_ (n : Nat)
  | brand (n : Nat)
  | batch (d n : Nat)
  deriving DecidableEq, Repr

/-- Bytes that an open message carries. -/
def OpenBody.length : OpenBody → Nat
  | .data bs _ => bs.length
  | .write _ bs _ => bs.length
  | _ => 64

/-- All untimed traffic with its transits and bytes. -/
def State.traffic (s : State) : List (Traffic × Transit × Nat) :=
  s.opens.zipIdx.map (fun e => (.open_ e.2, e.1.tr, e.1.body.length)) ++ s.brandMsgs.zipIdx.map (fun e => (.brand e.2, e.1.tr, 64))
    ++ s.dies.flatMap (fun x => x.2.batches.zipIdx.map (fun e => (.batch x.1 e.2, e.1.tr, 16 * e.1.reqs.length)))

/-- The transit of a message is replaced. -/
def State.putTransit (s : State) (t : Transit) : Traffic → State
  | .open_ n => { s with opens := s.opens.modify n (fun o => { o with tr := t }) }
  | .brand n => { s with brandMsgs := s.brandMsgs.modify n (fun b => { b with tr := t }) }
  | .batch d n => s.modDie d (fun x => { x with batches := x.batches.modify n (fun b => { b with tr := t }) })

/-- Does a message stand at a port, to leave by it? -/
def State.standsAt (s : State) (d p : Nat) (t : Transit) : Bool :=
  !t.spent && t.at_ == d && t.at_ != t.toDie && t.due ≤ s.now d && s.route d t.toDie == some p

/-- Does one message go before another at a port: the one that has begun, then in the order in which they reached it, and in one cycle by
agent id (R254)? -/
def Transit.before (a b : Transit) : Bool :=
  if (a.gone != 0) != (b.gone != 0) then a.gone != 0
  else if a.due != b.due then a.due < b.due
  else a.agent ≤ b.agent

/-- The message that leaves a port next. -/
def State.nextOut (s : State) (d p : Nat) : Option (Traffic × Transit × Nat) :=
  (s.traffic.filter (fun e => s.standsAt d p e.2.1)).foldl (fun m e => match m with
    | none => some e
    | some f => if f.2.1.before e.2.1 then m else some e) none

/-- Flits of open traffic that the buffer of the far port holds, or that are on their way to it (R254): those of the messages that are
leaving by this port, and those of the messages that have come by it and still stand there. A message that is longer than the buffer passes
through it. -/
def State.bufferLoad (s : State) (d p : Nat) (k : Cable) : Nat :=
  ((s.traffic.filter (fun e => !e.2.1.spent)).map (fun e =>
    let t := e.2.1
    if t.gone != 0 && s.standsAt d p t then min 63 t.gone
    else if t.at_ == k.farDie && t.via == some k.farPort then min 64 (flitsOf e.2.2 - t.gone)
    else 0)).foldl (· + ·) 0

/-- One flit of the next message leaves a port, if the port is open for it, a slot is free and the far buffer has room; one whose CRC fails
on arrival is sent again (R242, R243, R254). -/
def State.sendOpenFlit (s : State) (d p : Nat) (k : Cable) (e : Traffic × Transit × Nat) : Option State :=
  let q := s.port d p
  let now := s.now d
  let t := e.2.1
  let flits := flitsOf e.2.2
  if portRate p ≤ q.usedAt now ∨ 64 ≤ s.bufferLoad d p k ∨ (if t.gone = 0 then q.opensFor p now flits else q.opensOn now) = false then none
  else
    let bad := Config.lineError s.freeCount
    let s1 := { (s.setPort d p (q.use now)).onLine k bad with freeCount := s.freeCount + 1 }
    if bad then some s1
    else if t.gone + 1 < flits then some (s1.putTransit { t with gone := t.gone + 1 } e.1)
    else some (s1.putTransit { t with at_ := k.farDie, due := s.now k.farDie + k.hop, via := some k.farPort, gone := 0 } e.1)

/-- The flits of untimed traffic that leave a port in a tick; the count bounds them. -/
def State.sendOpens (s : State) (d p : Nat) : Nat → State
  | 0 => s
  | n + 1 =>
    if !s.linkUp d p then s
    else
      match s.cable d p, s.nextOut d p with
      | some k, some e =>
        (match s.sendOpenFlit d p k e with
          | some s1 => s1.sendOpens d p n
          | none => s)
      | _, _ => s

/-- Where a message stands (R254, R255): it has arrived, its way is broken, or it is still on its way. -/
inductive Hop where
  | here
  | stay
  | lost
  deriving DecidableEq, Repr

/-- Where a message stands: a route that names no working port, and a failed port on the way, end its way. -/
def State.hop (s : State) (t : Transit) : Hop :=
  if t.spent then .stay
  else if s.now t.at_ < t.due then (if t.via.any (fun p => (s.port t.at_ p).failed) then .lost else .stay)
  else if t.at_ = t.toDie then .here
  else
    match s.route t.at_ t.toDie with
    | none => .lost
    | some p => if s.linkUp t.at_ p then .stay else .lost

end Sys2Proof.Machine
end

