-- ==== Sys2Proof/Machine/Intake.lean ====
section
/-!
DEFINITION. Intake areas (R302): the hand-over that the immediate data of a host's write ask for, at once or at the step end.
-/
namespace Sys2Proof.Machine

/-- The INTAKE record of a hand-over that cannot be made (R302, R304). -/
def State.intakeRefused (s : State) (d : Nat) (i : Intake) : State :=
  s.event d i.tenant { EventRec.blank .intake with agent := etherAgent i.port, info := i.imm.toNat }

/-- The push of a hand-over reaches its core, or the saved context of a pre-empted one (R302, R406). -/
def State.intakePush (s : State) (d slot rank ch agent : Nat) : State :=
  match s.gang d slot with
  | none => s
  | some g =>
    let save (sc : SavedCore) : SavedCore :=
      if sc.image.ctx = some (slot, rank) then { sc with image := sc.image.push ch agent 0 .outside } else sc
    if g.phase = .saved then s.setGang d slot { g with saved := g.saved.map save }
    else
      match g.cores[rank]? with
      | none => s
      | some c => s.modCore d c (fun y => y.push ch agent 0 .outside)

/-- Is a context of a gang still live: its core has not retired? -/
def State.contextLive (s : State) (d slot rank : Nat) (g : Gang) : Bool :=
  match g.cores[rank]? with
  | none => false
  | some c => (s.core d c).ctx == some (slot, rank) || g.saved.any (fun sc => sc.image.ctx == some (slot, rank))

/-- The hand-over that the immediate data of a write ask for (R302): the brand goes to the class 0 id of the context, then the
spark is pushed. An area that the engine holds on loan goes to the new holder as a loan, and back to its title as BRET gives
(log entry 22). -/
def State.handIntake (s : State) (d : Nat) (i : Intake) : State :=
  let w := i.imm.toNat
  let slot := w / 2 ^ 22 % 64
  let rank := w / 2 ^ 16 % 64
  let idx := w % 65536
  let me := etherAgent i.port
  let b := s.brand d idx
  let mine := b.tenant == i.tenant && ((b.state == .owned && b.title == me) || (b.state == .lent && b.cur == me))
  match s.gang d slot with
  | none => s.intakeRefused d i
  | some g =>
    if 2 ^ 31 ≤ w ∨ g.tenant ≠ i.tenant ∨ s.contextLive d slot rank g = false ∨ mine = false then s.intakeRefused d i
    else
      let agent := agentOf 0 slot rank
      let b' : Brand :=
        if b.state = .owned then { b with title := agent, cur := agent }
        else if b.title = agent then { b with state := .owned, cur := agent }
        else { b with cur := agent }
      ((s.modDie d (fun x => x.changeBrand idx b')).mirrorAll d idx).intakePush d slot rank (w / 2 ^ 28 % 8) me

/-- The hand-overs queued for the step end are made, in arrival order, where class 5 stands among the agents of the tick (R25, R302). -/
def State.handIntakes (s : State) (d : Nat) : State :=
  let waiting := (s.die d).intakes
  waiting.foldl (fun s i => s.handIntake d i) (s.modDie d (fun x => { x with intakes := [] }))

end Sys2Proof.Machine
end

