-- ==== Sys2Proof/Machine/Vector.lean ====
section
/-!
DEFINITION. Vector arithmetic of format V: element-wise arithmetic and minima (R380, R386, R387), function seeds (R152, R154,
R390), logic and shifts (R380, R388), conversion (R383) and comparison (R382). A vector instruction takes effect whole when the
vector unit accepts it (R114); unit occupancy and result delays only give times.
-/
namespace Sys2Proof.Machine

/-- A result element with the status bits that it sets. -/
abbrev Res := W32 × Status

/-- Status bits of the active elements (R141), elements numbered from i. -/
def statusOf (mask : BitVec 1024) : Nat → List Res → Status
  | _, [] => 0
  | i, r :: rs => stIf (mask.getLsbD i) r.2 ||| statusOf mask (i + 1) rs

/-- SrBits of R138: 16 bits for element j under draw base b. -/
def srBits (seed b : Word) (j : Nat) : Nat :=
  let w := ((philoxDraw seed (b + BitVec.ofNat 64 (j / 8)) 0 2).at (j % 8 / 2)).toNat
  if j % 2 = 0 then w % 65536 else w / 65536

/-- Does a reservation of a tenant cover counter n (R284)? -/
def Die.reserved (x : Die) (t : Nat) (key : Word) (domain stream n : Nat) : Bool :=
  x.rsvs.any (fun r => r.tenant == t && r.key == key && r.domain == domain && r.stream == stream && r.first ≤ n
    && n < r.first + r.count)

/-- RNG_UNRESERVED when one of n counters from a base lies in no reservation (R138, R284). -/
def Die.drawStatus (x : Die) (t : Nat) (key : Word) (domain stream : Nat) (base : Word) (n : Nat) : Status :=
  stIf ((List.range n).any (fun i => !x.reserved t key domain stream (base + BitVec.ofNat 64 i).toNat)) stRng

/-- The draw status of n counters of domain 2 under the launch seed of a place (R138, R284). -/
def State.drawStatus (s : State) (p : At) (base : Word) (n : Nat) : Status :=
  (s.die p.d).drawStatus (s.tenantOf p.d p.c) (s.seed p.d p.c) 2 0 base n

/-- The stochastic bits of element e under a rounding field (R378). -/
def State.rndBits (s : State) (p : At) (r : Rnd) (e : Nat) : Nat :=
  if r.rm = .stoch then srBits (s.seed p.d p.c) (s.reg p r.c) e else 0

/-- The draw status of a rounding field: counters b to b + 127 (R378). -/
def State.rndStatus (s : State) (p : At) (r : Rnd) : Status := if r.rm = .stoch then s.drawStatus p (s.reg p r.c) 128 else 0

/-- A format V instruction: queues, elements, merge and status (R68, R69, R117, R378); with a store queue it is a release point
(R225). -/
def vectorOp (i : Instr) (o : VOp) (names : List VReg) (regs : List Reg) (s : State) (st : At → State → Status)
    (g : At → State → List W32 → List Res) : Out :=
  issue i { names := o.d.names ++ o.a.names ++ names, uses := regs, checked := regs, release := !o.d.isReg } s (fun p t =>
    let y := t.core p.d p.c
    let z := y.strand p.k
    if !(o.a.ready y) || !(o.d.room y) then .stay
    else
      let m := predMask y z o.pred
      let rs := g p t (o.a.value y z)
      let y1 := o.d.put (o.a.take y) z (mergeVec m o.zm 0 (rs.map Prod.fst) (o.d.old y z))
      .done ((t.setCore p.d p.c y1).orStatus p (statusOf m 0 rs ||| st p t)) (t.seq p i))

/-- No status beyond that of the elements. -/
def noStatus (_ : At) (_ : State) : Status := 0

/-- The vector of name v as the strand at a place reads it. -/
def State.vreg (s : State) (p : At) (v : VReg) : List W32 :=
  let y := s.core p.d p.c
  y.vreg ((y.strand p.k).vphys v)

/-- A value without a status bit. -/
def plain (w : W32) : Res := (w, 0)

/-- A one-operand element-wise instruction. -/
def vector1 (i : Instr) (o : VOp) (s : State) (f : W32 → Res) : Out :=
  vectorOp i o [] [] s noStatus (fun _ _ a => a.map f)

/-- A two-operand element-wise instruction that does not round. -/
def vector2 (i : Instr) (o : VOp) (b : VReg) (s : State) (f : W32 → W32 → Res) : Out :=
  vectorOp i o [b] [] s noStatus (fun p t a => List.zipWith f a (t.vreg p b))

/-- A two-operand element-wise instruction that rounds (R378): the function sees the stochastic bits of the element. -/
def vectorR (i : Instr) (o : VOp) (b : VReg) (r : Rnd) (s : State) (f : Nat → W32 → W32 → Res) : Out :=
  vectorOp i o [b] [r.c] s (fun p t => t.rndStatus p r) (fun p t a =>
    (a.zip (t.vreg p b)).mapIdx (fun e x => f (t.rndBits p r e) x.1 x.2))

/-- f32 arithmetic, or wrapping integer arithmetic (R140). -/
def arith (ty : VTy) (flt : XVal → XVal → Res) (int : W32 → W32 → W32) (a b : W32) : Res :=
  match ty with
  | .f32 => flt (f32v a) (f32v b)
  | .i32 => plain (int a b)
  | .n32 => plain (int a b)

/-- VADD (R380). -/
def execVadd (ty : VTy) (o : VOp) (b : VReg) (r : Rnd) (s : State) : Out :=
  vectorR (.vadd ty o b r) o b r s (fun sr x y => arith ty (fun u v => sumF r.rm r.sat sr u v) (fun u v => u + v) x y)

/-- VSUB (R387). -/
def execVsub (ty : VTy) (o : VOp) (b : VReg) (r : Rnd) (s : State) : Out :=
  vectorR (.vsub ty o b r) o b r s (fun sr x y => arith ty (fun u v => sumF r.rm r.sat sr u v.neg) (fun u v => u - v) x y)

/-- VMUL (R387). -/
def execVmul (ty : VTy) (o : VOp) (b : VReg) (r : Rnd) (s : State) : Out :=
  vectorR (.vmul ty o b r) o b r s (fun sr x y => arith ty (fun u v => mulF r.rm r.sat sr u v) (fun u v => u * v) x y)

/-- VFMA and VFNMA: the addend is the old destination (R387). -/
def fusedOp (i : Instr) (ty : VTy) (o : VOp) (b : VReg) (r : Rnd) (s : State) (flt : XVal → XVal)
    (int : W32 → W32 → W32) : Out :=
  vectorOp i o [b] [r.c] s (fun p t => t.rndStatus p r) (fun p t a =>
    let y := t.core p.d p.c
    ((o.d.old y (y.strand p.k)).zip (a.zip (t.vreg p b))).mapIdx (fun e x =>
      arith ty (fun u v => fmaF r.rm r.sat (t.rndBits p r e) (f32v x.1) (flt u) v) (fun u v => int x.1 (u * v)) x.2.1 x.2.2))

/-- VFMA (R387). -/
def execVfma (ty : VTy) (o : VOp) (b : VReg) (r : Rnd) (s : State) : Out :=
  fusedOp (.vfma ty o b r) ty o b r s id (fun d x => d + x)

/-- VFNMA (R387). -/
def execVfnma (ty : VTy) (o : VOp) (b : VReg) (r : Rnd) (s : State) : Out :=
  fusedOp (.vfnma ty o b r) ty o b r s XVal.neg (fun d x => d - x)

/-- VMIN (R387). -/
def execVmin (ty : VTy) (o : VOp) (b : VReg) (s : State) : Out :=
  vector2 (.vmin ty o b) o b s (fun x y => plain (vmin ty x y))

/-- VMAX (R387). -/
def execVmax (ty : VTy) (o : VOp) (b : VReg) (s : State) : Out :=
  vector2 (.vmax ty o b) o b s (fun x y => plain (vmax ty x y))

/-- A sign operation on an f32 container: a NaN gives the canonical NaN (R380, R387). -/
def signOp (f : W32 → W32) (a : W32) : W32 := if (f32v a).isNan then nan32 else f a

/-- VABS (R380). -/
def execVabs (ty : VTy) (o : VOp) (s : State) : Out :=
  vector1 (.vabs ty o) o s (fun a => plain (match ty with
    | .f32 => signOp (fun w => w &&& 0x7FFFFFFF#32) a
    | .i32 => if a.toInt < 0 then -a else a
    | .n32 => a))

/-- VNEG (R387). -/
def execVneg (ty : VTy) (o : VOp) (s : State) : Out :=
  vector1 (.vneg ty o) o s (fun a => plain (match ty with
    | .f32 => signOp (fun w => w ^^^ 0x80000000#32) a
    | .i32 => -a
    | .n32 => -a))

/-- VRCPS (R152). -/
def execVrcps (o : VOp) (s : State) : Out := vector1 (.vrcps o) o s rcpSeed

/-- VRSQS (R152). -/
def execVrsqs (o : VOp) (s : State) : Out := vector1 (.vrsqs o) o s rsqrtSeed

/-- VEXP2 (R154). -/
def execVexp2 (o : VOp) (s : State) : Out := vector1 (.vexp2 o) o s exp2F

/-- VLOG2 (R154). -/
def execVlog2 (o : VOp) (s : State) : Out := vector1 (.vlog2 o) o s log2F

/-- VAND (R380). -/
def execVand (o : VOp) (b : VReg) (s : State) : Out :=
  vector2 (.vand o b) o b s (fun x y => plain (x &&& y))

/-- VOR (R388). -/
def execVor (o : VOp) (b : VReg) (s : State) : Out :=
  vector2 (.vor o b) o b s (fun x y => plain (x ||| y))

/-- VXOR (R388). -/
def execVxor (o : VOp) (b : VReg) (s : State) : Out :=
  vector2 (.vxor o b) o b s (fun x y => plain (x ^^^ y))

/-- A shift by a vector or by an immediate (R388). -/
def shiftOp (i : Instr) (o : VOp) (n : VShAmt) (s : State) (f : W32 → Nat → W32) : Out :=
  match n with
  | .reg b => vector2 i o b s (fun x y => plain (f x (y.toNat % 32)))
  | .imm k => vector1 i o s (fun x => plain (f x k.val))

/-- VSHL (R388). -/
def execVshl (ty : VTy) (o : VOp) (n : VShAmt) (s : State) : Out :=
  shiftOp (.vshl ty o n) o n s (fun x k => x <<< k)

/-- VSHR (R388): arithmetic for i32, logical otherwise. -/
def execVshr (ty : VTy) (o : VOp) (n : VShAmt) (s : State) : Out :=
  shiftOp (.vshr ty o n) o n s (fun x k => match ty with
    | .i32 => x.sshiftRight k
    | .f32 => x >>> k
    | .n32 => x >>> k)

/-- The condition of VCMP on two containers (R382). -/
def vcompare (ty : VTy) (cc : VCond) (a b : W32) : Bool :=
  let x := tyValue ty a
  let y := tyValue ty b
  let un := x.isNan || y.isNan
  match cc with
  | .eq => x.eqv y
  | .ne => !(x.eqv y)
  | .lt => x.lt y
  | .le => x.le y
  | .gt => y.lt x
  | .ge => y.le x
  | .uo => un

/-- Write a predicate under an element predicate (R68, R366, R382). -/
def Core.mergePred (y : Core) (z : Strand) (pd : PReg) (zm : Bool) (pred : PredOp) (v : BitVec 1024) : Core :=
  let m := predMask y z pred
  let n := z.pphys pd
  y.setPred n ((v &&& m) ||| (if zm then 0 else y.pred n &&& ~~~m))

/-- The predicate of a list of bits, element 0 first. -/
def packBits : List Bool → BitVec 1024
  | [] => 0
  | b :: bs => (packBits bs <<< 1) ||| (if b then 1 else 0)

/-- VCMP (R382). -/
def execVcmp (ty : VTy) (cc : VCond) (pd : PReg) (a : VSrc) (b : VReg) (zm : Bool) (pred : PredOp) (s : State) : Out :=
  issue (.vcmp ty cc pd a b zm pred) { names := a.names ++ [b] } s (fun p t =>
    let y := t.core p.d p.c
    let z := y.strand p.k
    if !(a.ready y) then .stay
    else
      let v := packBits (List.zipWith (vcompare ty cc) (a.value y z) (y.vreg (z.vphys b)))
      .done (t.setCore p.d p.c ((a.take y).mergePred z pd zm pred v)) (t.seq p (.vcmp ty cc pd a b zm pred)))

/-- One element of VCVT (R383): rounded to the grid of the format, kept in a container. -/
def convert (ef : EF) (ty : VTy) (r : Rnd) (sr : Nat) (a : W32) : Res :=
  let (c, st) := roundTo ef r.rm r.sat sr (tyValue ty a)
  (widen ef c, st)

/-- VCVT (R383). -/
def execVcvt (ef : EF) (ty : VTy) (o : VOp) (r : Rnd) (s : State) : Out :=
  vectorOp (.vcvt ef ty o r) o [] [r.c] s (fun p t => t.rndStatus p r) (fun p t a =>
    a.mapIdx (fun e x => convert ef ty r (t.rndBits p r e) x))

end Sys2Proof.Machine
end

