-- ==== Sys2Proof/Machine/MatrixArith.lean ====
section
/-!
DEFINITION. The arithmetic of the matrix array: format words (R159, R160), weight tiles (R163), activation rows (R165), the products
and sums of a streamed row (R149 to R151, R166), its check (R170, R171) and the chain of MDRAIN (R168, R169).
-/
namespace Sys2Proof.Machine

/-- The rounding mode of a code 0 to 5 (R136). -/
def rmOf (n : Nat) : RMode :=
  match n with
  | 0 => .near | 1 => .zero | 2 => .down | 3 => .up | 4 => .away | _ => .stoch

/-- Fields of a format word (R159). -/
structure Fmt where
  aef : EF
  wef : EF
  oef : EF
  sparse : Nat
  alay : Bool
  orec : Bool
  rm : Nat
  sat : Bool
  t : Nat
  wtag : Bool
  cken : Bool
  cktrap : Bool
  rest : Nat

/-- Take a format word apart (R159). -/
def fmtOf (w : Word) : Fmt :=
  let n := w.toNat
  let bit (i : Nat) : Bool := n / 2 ^ i % 2 == 1
  { aef := Fin.ofNat 256 n, wef := Fin.ofNat 256 (n / 2 ^ 8), oef := Fin.ofNat 256 (n / 2 ^ 16), sparse := n / 2 ^ 24 % 4,
    alay := bit 26, orec := bit 27, rm := n / 2 ^ 28 % 8, sat := bit 31, t := n / 2 ^ 32 % 8, wtag := bit 35, cken := bit 36,
    cktrap := bit 37, rest := n / 2 ^ 38 }

/-- The 16-bit class (R160). -/
def EF16 (ef : EF) : Bool := ef.val == 1 || ef.val == 2
/-- The narrow class (R160). -/
def EFnarrow (ef : EF) : Bool := ef.val == 7 || ef.val == 8 || ef.val == 9 || 128 ≤ ef.val

/-- Is a format word valid (R160)? -/
def Fmt.ok (f : Fmt) : Bool :=
  f.rest == 0 && EF.ok f.aef && EF.ok f.wef && EF.ok f.oef
    && ((EF16 f.aef && EF16 f.wef) || (EFnarrow f.aef && EFnarrow f.wef))
    && f.sparse != 3 && f.rm ≤ 5 && (!f.alay || EF.isSmall f.aef) && (!f.orec || EF.isSmall f.oef)

/-- K_t of R160. -/
def Fmt.kt (f : Fmt) : Nat :=
  let base := if EF16 f.aef then 256 else if max (EF.width f.aef) (EF.width f.wef) = 4 then 1024 else 512
  if f.sparse = 0 then base else 2 * base
/-- K_s of R163: stored rows. -/
def Fmt.ks (f : Fmt) : Nat := if f.sparse = 0 then f.kt else f.kt / 2
/-- keep of R163. -/
def Fmt.keep (f : Fmt) : Nat := if f.sparse = 1 then 2 else 4
/-- pb of R163. -/
def Fmt.pb (f : Fmt) : Nat := if f.sparse = 1 then 2 else 3
/-- B of R163. -/
def Fmt.tileBytes (f : Fmt) : Nat :=
  16 * EF.width f.wef * f.ks + (if f.sparse = 0 then 0 else 16 * f.pb * f.ks)
/-- Bytes of an activation row (R165). -/
def Fmt.rowBytes (f : Fmt) : Nat :=
  if f.alay then f.kt / 256 * recBytes (EF.width f.aef) else f.kt * EF.width f.aef / 8
/-- Bytes of an output row, or of a record (R169). -/
def Fmt.outBytes (f : Fmt) (req : Bool) : Nat :=
  if !req then 512 else if f.orec then recBytes (EF.width f.oef) else 16 * EF.width f.oef

/-! Tiles. -/

/-- Rows of 128 elements of w bits, packed (R130, R163). -/
def packedRows (w n : Nat) (bs : List Byte) : List (List Nat) :=
  (chunks (16 * w) n bs).map (fun r => unpackAll w 128 (ofLeBytes r))

/-- The metadata rows of a sparse tile. -/
def Fmt.metaRows (f : Fmt) (tile : List Byte) : List (List Nat) :=
  packedRows f.pb f.ks (tile.drop (16 * EF.width f.wef * f.ks))

/-- Are numbers strictly ascending? -/
def ascending : List Nat → Bool
  | a :: b :: rest => a < b && ascending (b :: rest)
  | _ => true

/-- The first group whose metadata positions do not ascend (R164). -/
def Fmt.badGroup (f : Fmt) (tile : List Byte) : Option Nat :=
  if f.sparse = 0 then none
  else
    let ms := chunks f.keep (f.ks / f.keep) (f.metaRows tile)
    (List.range (f.ks / f.keep)).find? (fun g =>
      let rows := ms.getD g []
      (List.range 128).any (fun n => !(ascending (rows.map (fun r => r.getD n 0)))))

/-- The weight codes of the logical rows of a group of stored rows (R163): none at a pruned position. -/
def groupRows (keep : Nat) (vs ms : List (List Nat)) : List (List (Option Nat)) :=
  (List.range (2 * keep)).map (fun off => (List.range 128).map (fun n =>
    (vs.zip ms).findSome? (fun r => if r.2.getD n 0 = off then some (r.1.getD n 0) else none)))

/-- The weight codes of a tile, one list of 128 for each logical row (R163). -/
def Fmt.weights (f : Fmt) (tile : List Byte) : List (List (Option Nat)) :=
  let vs := packedRows (EF.width f.wef) f.ks tile
  if f.sparse = 0 then vs.map (fun r => r.map some)
  else
    let n := f.ks / f.keep
    ((chunks f.keep n vs).zip (chunks f.keep n (f.metaRows tile))).flatMap (fun g => groupRows f.keep g.1 g.2)

/-- Weight values of a tile. -/
def Fmt.weightValues (f : Fmt) (tile : List Byte) : List (List (Option XVal)) :=
  (f.weights tile).map (fun r => r.map (fun o => o.map (efValue f.wef)))

/-- Is some weight NaN or infinite (R162)? -/
def anySpecial (ws : List (List (Option XVal))) : Bool :=
  ws.any (fun r => r.any (fun o => match o with
    | some x => !x.isFin
    | none => false))

/-! Streaming. -/

/-- The activations of a row (R165); none where a record fails a check of R147. -/
def Fmt.alphas (f : Fmt) (row : List Byte) : Option (List XVal) :=
  let w := EF.width f.aef
  if f.alay then
    ((chunks (recBytes w) (f.kt / 256) row).map (readRecord w)).foldr (fun r acc =>
      match r, acc with
      | some (ef, es), some l => some (es.map (fun e => recordValue ef e.1 e.2) ++ l)
      | _, _ => none) (some [])
  else some ((unpackAll w f.kt (ofLeBytes row)).map (efValue f.aef))

/-- A column's terms: an activation with its weight, none where it is pruned. -/
abbrev Terms := List (XVal × Option XVal)

/-- The exact products of kept positions, with INVALID where one is 0 times an infinity (R149). -/
def products : Terms → List XVal × Status
  | [] => ([], 0)
  | (a, some w) :: rest =>
    let (p, bad) := XVal.mul a w
    let (ps, st) := products rest
    (p :: ps, st ||| stIf bad stInvalid)
  | (_, none) :: rest => products rest

/-- T[n] of the narrow class (R149, R151). -/
def narrowSum (ts : Terms) : Res :=
  let (ps, st) := products ts
  let (w, st') := exactSum32 ps
  (w, st ||| st')

/-- T[n] of the 16-bit class (R150, R151): rounded products, a pruned position as -0. -/
def wideSum (ts : Terms) : Res :=
  let ps := ts.map (fun t => match t.2 with
    | some w => mulF .near false 0 t.1 w
    | none => (0x80000000#32, (0 : Status)))
  let (w, st) := treeSum (ps.map Prod.fst)
  (w, st ||| allStatusOf ps)
where
  /-- Union of status bits. -/
  allStatusOf (rs : List Res) : Status := rs.foldl (fun s r => s ||| r.2) 0

/-- The columns of logical rows. -/
def columns (ws : List (List (Option XVal))) : List (List (Option XVal)) :=
  (List.range 128).map (fun n => ws.map (fun r => r.getD n none))

/-- A streamed row: its new accumulators, status bits, and whether and how its check counts it (R166, R171). -/
structure RowOut where
  acc : List W32
  st : Status
  void : Bool
  mismatch : Bool

/-- The exact sum of the finite values listed, zero for the pruned. -/
def keptSum (r : List (Option XVal)) : XVal := exactSum (r.filterMap id)

/-- CheckRow of a row that is not void: does it mismatch (R170, R171)? -/
def rowMismatch (wide : Bool) (al : List XVal) (ws : List (List (Option XVal))) (ts : List W32) : Bool :=
  let dot (xs ys : List XVal) : XVal := exactSum ((xs.zip ys).map (fun p => (XVal.mul p.1 p.2).1))
  let c := dot al (ws.map keptSum)
  if wide then
    let g := dot (al.map XVal.abs) (ws.map (fun r => keptSum (r.map (fun o => o.map XVal.abs))))
    let t := exactSum (ts.map f32v)
    let bound := (XVal.add false (XVal.mul (.num false 1 1 (-20)) g).1 (.num false 1 1 (-134))).1
    bound.lt (XVal.add false t c.neg).1.abs
  else
    let s := exactSum ((columns ws).flatMap (fun col => (products (al.zip col)).1))
    !(s.eqv c)

/-- Stream one row of activations into a row of accumulators (R166). -/
def streamRow (wide check special : Bool) (al : List XVal) (ws : List (List (Option XVal))) (acc : List W32) : RowOut :=
  let ts := (columns ws).map (fun col => if wide then wideSum (al.zip col) else narrowSum (al.zip col))
  let sums := (acc.zip ts).map (fun p => sumF .near false 0 (f32v p.1) (f32v p.2.1))
  let st := ts.foldl (fun s r => s ||| r.2) 0 ||| sums.foldl (fun s r => s ||| r.2) 0
  let burst := ts.any (fun r => (r.2 &&& stOverflow) != 0)
  let void := special || al.any (fun a => !a.isFin) || burst || sums.any (fun r => !(f32v r.1).isFin)
  { acc := sums.map Prod.fst, st := st ||| stIf (check && void) stVoid, void := check && void,
    mismatch := check && !void && rowMismatch wide al ws (ts.map Prod.fst) }

/-! Draining. -/

/-- floor of a nonnegative exact value. -/
def XVal.floor : XVal → Nat
  | .num _ n d e => n * 2 ^ e.toNat / (d * 2 ^ (-e).toNat)
  | _ => 0

/-- The activation table: lo, hi and the pairs, as f32 containers (R168). -/
structure ActTable where
  lo : XVal
  hi : XVal
  pairs : List (W32 × W32)

/-- f32 words of bytes. -/
def wordsOfBytes (n : Nat) (bs : List Byte) : List W32 := (chunks 4 n bs).map (fun b => BitVec.ofNat 32 (ofLeBytes b))

/-- Read an activation table, checked (R168). -/
def readTable (bs : List Byte) : Option ActTable :=
  let ws := wordsOfBytes 516 bs
  let lo := f32v (ws.getD 0 0)
  let hi := f32v (ws.getD 1 0)
  if lo.isFin && hi.isFin && lo.lt hi && ws.getD 2 0 == 0 && ws.getD 3 0 == 0 then
    some { lo := lo, hi := hi, pairs := (chunks 2 256 (ws.drop 4)).map (fun p => (p.getD 0 0, p.getD 1 0)) }
  else none

/-- The table step of the chain (R169). -/
def ActTable.apply (t : ActTable) (y : XVal) : Res :=
  let sub (a b : XVal) : XVal := (XVal.add false a b.neg).1
  let x := if y.isNan then y else if y.lt t.lo then t.lo else if t.hi.lt y then t.hi else y
  let w := (XVal.mul (sub t.hi t.lo) (.num false 1 1 (-8))).1
  let j := min (XVal.quot (sub x t.lo) w).1.floor 255
  let (v, sl) := t.pairs.getD j (0, 0)
  fmaF .near false 0 (f32v v) (f32v sl) (sub (sub x t.lo) (XVal.mul (.ofInt j) w).1)

/-- Everything MDRAIN's chain reads besides the accumulators. -/
structure DrainIn where
  bias : Option (List W32)
  table : Option ActTable
  scales : List W32
  req : Bool
  fmt : Fmt
  bits : Nat → Nat

/-- One element of the chain before requantisation (R169). -/
def DrainIn.chain (x : DrainIn) (n : Nat) (y : W32) : Res :=
  let (y1, st1) : Res := match x.bias with
    | some b => sumF .near false 0 (f32v y) (f32v (b.getD n 0))
    | none => (y, 0)
  let (y2, st2) : Res := match x.table with
    | some t => t.apply (f32v y1)
    | none => (y1, 0)
  (y2, st1 ||| st2)

/-- Union of status bits of pairs. -/
def unionStatus {α : Type} (rs : List (α × Status)) : Status := rs.foldl (fun s r => s ||| r.2) 0

/-- The pieces that MDRAIN writes, in order, and its status bits (R169): a row each, or a record for two rows. -/
def DrainIn.out (x : DrainIn) (rows : List (List W32)) : List (List Byte) × Status :=
  let ys := rows.map (fun r => r.mapIdx x.chain)
  let st := unionStatus ys.flatten
  if !x.req then (ys.map (fun r => r.flatMap (fun e => leBytes 4 e.1.toNat)), st)
  else if x.fmt.orec then
    let xs := (ys.flatten.map Prod.fst).mapIdx (fun j w => (f32v w, x.bits j))
    let recs := (chunks 256 (rows.length / 2) xs).map (segRecord x.fmt.oef x.fmt.t (rmOf x.fmt.rm) x.fmt.sat)
    (recs.map Prod.fst, st ||| unionStatus recs)
  else
    let qs := ys.mapIdx (fun i r => r.mapIdx (fun n e =>
      divF x.fmt.oef (rmOf x.fmt.rm) x.fmt.sat (x.bits (128 * i + n)) (f32v e.1) (f32v (x.scales.getD n 0x3F800000#32))))
    (qs.map (fun r => leBytes (16 * EF.width x.fmt.oef) (packAll (EF.width x.fmt.oef) (r.map Prod.fst))),
      st ||| unionStatus qs.flatten)

end Sys2Proof.Machine
end

