-- ==== Sys2Proof/Machine/Matrix.lean ====
section
/-!
DEFINITION. The matrix queue and the clamp's array: MLEASE, MFREE, MSWAP (R158), MFMT (R161), MLDW (R164), MSTRM (R166), MDRAIN
(R169), MCHK (R172), the lease (R157), the start and the end of array commands (R155, R156, R173) and the fetch stage (R164,
R193, R194). An array command moves its data at its start and makes its status, counts and push at its completion.
-/
namespace Sys2Proof.Machine

/-! Instructions. -/

/-- The form of an instruction that the engine port accepts (R225): its push is the command's. -/
def engineForm (regs : List Reg) (sp : Spark) : Form :=
  { uses := regs, checked := regs, sp := sp, pushes := false, release := true }

/-- A core asks for the array, unless it holds it (R157, R158). -/
def State.postRequest (s : State) (d c : Nat) : State :=
  if (s.clamp d (c / 4)).holder = some c then s else s.modCore d c (fun y => y.post (s.cyc d c))

/-- MLEASE (R158). -/
def execMlease (s : State) : Out :=
  issue .mlease (engineForm [] .none) s (fun p t => .done (t.postRequest p.d p.c) (t.seq p .mlease))

/-- MFREE (R158) takes its place in the matrix queue. -/
def execMfree (s : State) : Out :=
  issue .mfree (engineForm [] .none) s (fun p t => .done (t.acceptCmd p 1 none [] [] .mfree) (t.seq p .mfree))

/-- MFMT (R161). -/
def execMfmt (a : Reg) (s : State) : Out :=
  issue (.mfmt a) (engineForm [a] .none) s (fun p t =>
    let y := t.core p.d p.c
    let w := t.reg p a
    if 16 ≤ y.fmtq.length then .stay
    else if !(fmtOf w).ok then .trap .reservedField 0 none
    else .done (t.setCore p.d p.c { y with fmtq := y.fmtq ++ [w] }) (t.seq p (.mfmt a)))

/-- The word at the head of the format queue. -/
def State.headFormat (t : State) (p : At) : Option Word := (t.core p.d p.c).fmtq.head?

/-- The head of the format queue is gone (R161). -/
def State.popFormat (t : State) (p : At) : State := t.modCore p.d p.c (fun y => { y with fmtq := y.fmtq.drop 1 })

/-- Where an MLDW reads: the own scratchpad, HBM of the own die, or how it ends, with the entry it hands back (R164). -/
def mldwSource (t : State) (p : At) (a : Int) (b : Nat) : Except (Cause × Option Nat) (Bool × Nat) :=
  let judge (va : Nat) : Verdict :=
    t.judge p.d (t.tenantOf p.d p.c) (t.cmdAgents p.d p.c 1) (some (p.c, (t.core p.d p.c).nextCmd)) .read va b
  if a < 0 ∨ 2 ^ 64 ≤ a then .error (.reservedField, none)
  else
    let n := a.toNat
    let own := n / 2 ^ 60 == 8
    let hbm := n / 2 ^ 60 == 0 && vaDie n == p.d && vaTranslated n
    let va := if own then spadVa p.d p.c (n % 2 ^ 60) else n
    if !own && !hbm then .error (.reservedField, none)
    else if n % 256 != 0 then .error (.reservedField, none)
    else if own && spadSize < n % 2 ^ 60 + b then .error (.spadBounds, none)
    else
      match judge va with
      | .bad c hb => .error (c, hb)
      | _ => .ok (hbm, va)

/-- A command enters the matrix queue; an array command posts a request with it (R157). -/
def State.acceptArray (t : State) (p : At) (push : Option Nat) (dregs : List Nat) (ranges : List Rng) (body : CmdBody) : State :=
  (t.acceptCmd p 1 push dregs ranges body).postRequest p.d p.c

/-- MLDW (R164): its address and rights are judged when the queue accepts it; what fails ends it at its fetch stage. -/
def execMldw (a : Reg) (lit : BitVec 32) (sp : Spark) (s : State) : Out :=
  issue (.mldw a lit sp) (engineForm [a] sp) s (fun p t =>
    match t.headFormat p with
    | none => .trap .queueUnderflow 0 none
    | some fw =>
      let b := (fmtOf fw).tileBytes
      let ad := addrSum (t.reg p a) (sext lit)
      let id := (t.core p.d p.c).nextCmd
      let t1 := t.popFormat p
      let t2 :=
        match mldwSource t p ad b with
        | .ok (hbm, va) =>
          t1.acceptArray p (pushCh sp) [] [{ sp := if hbm then .pod else .spad, at_ := va, len := b, wr := false }]
            (.mldw va fw hbm none (!hbm) none [])
        | .error (c, hb) =>
          let u := (t1.handBack p.d hb).acceptArray p (pushCh sp) [] [] (.mldw ad fw true none false none [])
          u.modCore p.d p.c (fun y => y.setQueue 1 (y.matrixQ.map (fun m => if m.id = id then { m with bad := some (c, 0) } else m)))
      .done t2 (t.seq p (.mldw a lit sp)))

/-- MSWAP (R158). -/
def execMswap (s : State) : Out :=
  issue .mswap (engineForm [] .none) s (fun p t => .done (t.acceptArray p none [] [] .mswap) (t.seq p .mswap))

/-- The ranges of rows of n bytes, a stride apart, that lie in the own scratchpad (R191; log entry 58). -/
def rowsRange (p : At) (a stride rows n : Nat) (wr : Bool) : List Rng :=
  (List.range rows).filterMap (fun i =>
    let b := a + i * 16 * stride
    if b / 2 ^ 60 = 8 then some { sp := .spad, at_ := spadVa p.d p.c (b % 2 ^ 60), len := n, wr := wr } else none)

/-- MSTRM (R166). -/
def execMstrm (a : Reg) (stride : Fin 65536) (m : Fin 256) (row0 : Fin 128) (sp : Spark) (s : State) : Out :=
  issue (.mstrm a stride m row0 sp) (engineForm [a] sp) s (fun p t =>
    match t.headFormat p with
    | none => .trap .queueUnderflow 0 none
    | some fw =>
      let ad := (t.reg p a).toNat
      .done ((t.popFormat p).acceptArray p (pushCh sp) [] (rowsRange p ad stride.val m.val (fmtOf fw).rowBytes false)
          (.mstrm ad fw stride.val m.val row0.val false { mism := 0, voids := 0, first := none }))
        (t.seq p (.mstrm a stride m row0 sp)))

/-- What MDRAIN checks at issue against the word at the head of the queue (R169). -/
def drainRefused (opt : DrainOpt) (b : Reg) (stride m : Nat) (f : Fmt) : Bool :=
  (opt.req && f.orec && (opt.csc || m % 2 == 1)) || 16 * stride < f.outBytes opt.req || ((b != 0) != (opt.req && f.rm == 5))

/-- MDRAIN (R169). -/
def execMdrain (opt : DrainOpt) (a b e g : Reg) (stride : Fin 65536) (m : Fin 256) (row0 : Fin 128) (sp : Spark) (s : State) : Out :=
  issue (.mdrain opt a b e g stride m row0 sp) (engineForm [a, b, e, g] sp) s (fun p t =>
    match t.headFormat p with
    | none => .trap .queueUnderflow 0 none
    | some fw =>
      let f := fmtOf fw
      if drainRefused opt b stride.val m.val f then .trap .reservedField 0 none
      else
        let rows := if opt.req && f.orec then m.val / 2 else m.val
        let out := (t.reg p a).toNat
        let bias := (t.reg p e).toNat
        let table := (t.reg p g).toNat
        let ranges := rowsRange p out stride.val rows (f.outBytes opt.req) true
          ++ (if opt.bias || opt.csc then rowsRange p bias 0 1 (if opt.csc then 1024 else 512) false else [])
          ++ (if opt.act then rowsRange p table 0 1 2064 false else [])
        .done ((t.popFormat p).acceptArray p (pushCh sp) [] ranges
            (.mdrain out bias table (t.reg p b).toNat opt fw stride.val m.val row0.val))
          (t.seq p (.mdrain opt a b e g stride m row0 sp)))

/-- MCHK (R172): the result register and %flags are awaited. -/
def execMchk (clr : Bool) (d : Reg) (s : State) : Out :=
  issue (.mchk clr d) { uses := [d], flags := true, pushes := false, release := true } s (fun p t =>
    let id := (t.core p.d p.c).nextCmd
    .done ((t.acceptCmd p 1 none [d.val] [] (.mchk clr)).modStrand p (fun z => { z with awaitFlags := some id }))
      (t.seq p (.mchk clr d)))

/-! The lease. -/

/-- LEASE_GRANT (R157): the core chosen at the end of a tenure, or, on an idle array, the request posted first. -/
def execLeaseGrant (d m : Nat) (s : State) : Out :=
  let x := s.die d
  let l := x.clamp m
  let now := x.cycle m
  match l.holder, l.handover with
  | some _, _ => .next s
  | none, some (n, due) =>
    if (x.core n).leaseReq.isNone then .next (s.setClamp d m { l with handover := none })
    else whenever (due ≤ now) s (s.setDie d (x.grant m n))
  | none, none =>
    let posted (n : Nat) : Option Nat := (x.core n).leaseReq
    let order := [1, 2, 3, 4].map (fun i => 4 * m + (l.last + i) % 4)
    let first := (order.filterMap posted).foldl min now
    match order.find? (fun n => posted n == some first) with
    | none => .next s
    | some n => whenever (first + 4 ≤ now) s (s.setDie d (x.grant m n))

/-- Has the core an array command ready at the head of its queue (R157; log entry 69)? -/
def Core.arrayReady (y : Core) : Bool :=
  match y.matrixQ.find? Cmd.isQueued with
  | none => false
  | some m => match m.body with
    | .mldw _ _ _ _ done _ _ => done
    | .mswap => true
    | .mstrm _ _ _ _ _ _ _ => true
    | .mdrain _ _ _ _ _ _ _ _ _ => true
    | _ => false

/-- Is an array command of the core running (R157)? -/
def Core.arrayRunning (y : Core) : Bool :=
  y.matrixQ.any (fun m => match m.stage with
    | .running _ _ => true
    | _ => false)

/-- Has the core's queue reached an MFREE: every earlier array command has completed, its push made (R72, R157, R158)? -/
def Core.atFree (y : Core) : Bool :=
  match y.matrixQ with
  | m :: _ => m.body == .mfree
  | [] => false

/-- The tenure of a core whose context is pre-empted ends: a request that it posts waits for its resumption (R157, R174). -/
def Die.loseTenure (x : Die) (c : Nat) : Die :=
  let x1 := x.endTenure c
  let l := x1.clamp (c / 4)
  if l.holder = some c then { x1.setCore c ((x1.core c).post (x1.cycle (c / 4))) with clamps := Tab.set x1.clamps (c / 4) { l with holder := none } }
  else x1

/-- TENURE_END (R157). -/
def execTenureEnd (d m : Nat) (s : State) : Out :=
  let x := s.die d
  let l := x.clamp m
  match l.holder with
  | none => .next s
  | some c =>
    let y := x.core c
    let bored := (nextRequest x c).isSome && !y.arrayReady && l.idleFrom + 64 ≤ x.cycle m
    if y.arrayRunning then .next s
    else if !s.enginesRun d c 1 then .next (s.setDie d (x.loseTenure c))
    else if y.atFree then
      let y1 := match y.matrixQ.find? (fun m => m.body == .mfree) with
        | some m => y.dropCmd 1 m
        | none => y
      .next (s.setDie d ((x.setCore c y1).endTenure c))
    else whenever (l.started = 64 || l.refused || bored) s (s.setDie d (x.endTenure c))

/-! The start of commands. -/

/-- Do two spans of accumulator rows meet? -/
def rowsMeet (r1 n1 r2 n2 : Nat) : Bool := r1 < r2 + n2 && r2 < r1 + n1

/-- Does an earlier command of the queue, incomplete, hold the start of a later one (R155)? -/
def Cmd.holdsStart (e : Cmd) (now : Nat) (b : CmdBody) : Bool :=
  let since := match e.stage with
    | .running t _ => t
    | _ => 0
  let until_ := match e.stage with
    | .running _ t => t
    | _ => 0
  let run := match e.stage with
    | .running _ _ => true
    | _ => false
  match e.body, b with
  | .mldw .., .mldw .. => run
  | .mldw .., .mswap => run
  | .mswap, .mldw .. => true
  | .mswap, .mstrm _ _ _ _ _ _ _ => true
  | .mstrm _ _ _ _ _ old _, .mldw .. => run && old && now + 1 < until_
  | .mstrm _ _ _ m _ _ _, .mswap => run && now < since + m
  | .mstrm _ _ _ m _ _ _, .mstrm _ _ _ _ _ _ _ => run && now < since + m
  | .mdrain _ _ _ _ _ _ _ m r, .mstrm _ _ _ m2 r2 _ _ => rowsMeet r m r2 m2
  | .mdrain _ _ _ _ _ _ _ m _, .mdrain _ _ _ _ _ _ _ _ _ => run && now < since + m
  | .mstrm _ _ _ m r _ _, .mdrain _ _ _ _ _ _ _ m2 r2 => rowsMeet r m r2 m2
  | .mchk _, _ => false
  | _, .mchk _ => true
  | _, .mfree => true
  | _, _ => false

/-- The context's plane tag for an MLDW (R159, R162). -/
def State.planeTag (s : State) (d c : Nat) (shared : Bool) : PlaneTag :=
  match (s.core d c).ctx with
  | some (slot, rank) => if shared then .shared slot else .own (agentOf 0 slot rank)
  | none => .own 0

/-- Is the context entitled to a plane (R162)? -/
def State.entitled (s : State) (d c : Nat) (p : Plane) : Bool :=
  match (s.core d c).ctx with
  | some (slot, rank) => p.valid && (p.tag == .own (agentOf 0 slot rank) || p.tag == .shared slot)
  | none => false

/-- A command runs from now for some cycles. -/
def Cmd.run (m : Cmd) (now n : Nat) : Cmd := { m with stage := .running now (now + n) }

/-- The load stage of MLDW (R164). -/
def State.startLoad (s : State) (d c : Nat) (m : Cmd) (fw : Word) (tile : List Byte) : State :=
  let f := fmtOf fw
  let l := s.clamp d (c / 4)
  let n := 16 + (f.tileBytes + 511) / 512
  match f.badGroup tile with
  | some g =>
    (s.setClamp d (c / 4) { l with shadow := { l.shadow with valid := false } }).putCmd d c 1
      { m.run (s.cyc d c) n with bad := some (.sparseMeta, g) }
  | none =>
    let p : Plane :=
      { valid := true, wef := f.wef.val, sparse := f.sparse, ck := f.cken, spec := anySpecial (f.weightValues tile),
        tag := s.planeTag d c f.wtag, fw := fw, tile := tile }
    (s.setClamp d (c / 4) { l with shadow := p }).putCmd d c 1 (m.run (s.cyc d c) n)

/-- A range of the core's own scratchpad for a matrix command: its offset, or how the command ends. A reserved SPACE ends it in
RESERVED_FIELD, any other place in SPAD_BOUNDS (R166, R176). -/
def State.ownRange (s : State) (d c : Nat) (m : Cmd) (acc : Access) (a : Int) (n : Nat) : Except (Cause × Option Nat) Nat :=
  match strandOffset a n 1 with
  | none => .error (if (s.spot d c anySpace a n) = .bad .reservedField then .reservedField else .spadBounds, none)
  | some off =>
    match s.judgeCmd d c 1 m acc (spadVa d c off) n with
    | .bad cs hb => .error (cs, hb)
    | _ => .ok off

/-- Ranges of equal length, in order: their offsets, or the first failure. -/
def State.ownRanges (s : State) (d c : Nat) (m : Cmd) (acc : Access) (n : Nat) : List Int → Except (Cause × Option Nat) (List Nat)
  | [] => .ok []
  | a :: as =>
    match s.ownRange d c m acc a n, s.ownRanges d c m acc n as with
    | .ok o, .ok os => .ok (o :: os)
    | .error e, _ => .error e
    | _, .error e => .error e

/-- What streaming rows leaves: accumulators, status, counts, and the row at which a record check failed. -/
structure Streamed where
  acc : Tab (List W32)
  st : Status
  tally : Tally
  failed : Option Nat

/-- A row of the accumulator partition (R167). -/
def accRow (acc : Tab (List W32)) (r : Nat) : List W32 := Tab.get acc r (List.replicate 128 0#32)

/-- Stream rows into the partition, row i first (R166). -/
def streamRows (f : Fmt) (special : Bool) (ws : List (List (Option XVal))) (row0 : Nat) : Nat → List (List Byte) → Streamed → Streamed
  | _, [], x => x
  | i, row :: rest, x =>
    match f.alphas row with
    | none => { x with failed := some i }
    | some al =>
      let r := row0 + i
      let o := streamRow (EF16 f.aef) f.cken special al ws (accRow x.acc r)
      let t : Tally :=
        { mism := x.tally.mism + (if o.mismatch then 1 else 0), voids := x.tally.voids + (if o.void then 1 else 0),
          first := if x.tally.first.isNone && o.mismatch then some r else x.tally.first }
      streamRows f special ws row0 (i + 1) rest { acc := Tab.set x.acc r o.acc, st := x.st ||| o.st, tally := t, failed := none }

/-- The start of MSTRM (R166, R173): the weights are those that the plane's MLDW loaded; under a format of another depth K_t the
positions that only one of them has add nothing (log entry 59). -/
def State.startStream (s : State) (d c : Nat) (m : Cmd) (a : Nat) (fw : Word) (stride n row0 : Nat) : State :=
  let f := fmtOf fw
  let p := (s.clamp d (c / 4)).active
  let y := s.core d c
  if !s.entitled d c p then s.failCmd d c 1 m .planeTag 0
  else if p.wef != f.wef.val || p.sparse != f.sparse || (f.cken && !p.ck) || a % 16 != 0 then s.failCmd d c 1 m .reservedField 0
  else
    match s.ownRanges d c m .read f.rowBytes ((List.range n).map (fun i => (a + i * 16 * stride : Nat))) with
    | .error (cs, hb) => s.failRights d c 1 m cs hb 0
    | .ok offs =>
      let rows := offs.map (fun o => y.spadBytes o f.rowBytes)
      let r := streamRows f p.spec ((fmtOf p.fw).weightValues p.tile) row0 0 rows
        { acc := y.acc, st := 0, tally := { mism := 0, voids := 0, first := none }, failed := none }
      let bad : Option (Cause × Nat) := match r.failed with
        | some i => some (.reservedField, i)
        | none => if f.cktrap then r.tally.first.map (fun q => (.matrixCheck, q)) else none
      let m' : Cmd := { m.run (s.cyc d c) (n + 160) with
        status := r.st, bad := bad, body := .mstrm a fw stride n row0 false r.tally }
      (s.setCore d c { y with acc := r.acc }).putCmd d c 1 m'

/-- Write pieces at offsets of the core's scratchpad. -/
def Core.spadWriteAll (y : Core) : List (Nat × List Byte) → Core
  | [] => y
  | (o, b) :: rest => (y.spadWrite o b).spadWriteAll rest

/-- What MDRAIN reads from the scratchpad: biases, scales and table, each range judged (R168, R169). -/
def State.drainInputs (s : State) (d c : Nat) (m : Cmd) (bias table draw : Nat) (opt : DrainOpt) (f : Fmt) :
    Except (Cause × Option Nat) DrainIn :=
  let y := s.core d c
  let stoch := opt.req && f.rm == 5
  let bits (j : Nat) : Nat := if stoch then srBits (s.seed d c) (BitVec.ofNat 64 draw) j else 0
  let n := if opt.csc then 1024 else 512
  let vecs : Except (Cause × Option Nat) (List W32) :=
    if !opt.bias && !opt.csc then .ok []
    else if bias % 16 != 0 then .error (.reservedField, none)
    else (s.ownRange d c m .read bias n).map (fun o => wordsOfBytes (n / 4) (y.spadBytes o n))
  let tab : Except (Cause × Option Nat) (Option ActTable) :=
    if !opt.act then .ok none
    else if table % 16 != 0 then .error (.reservedField, none)
    else
      match s.ownRange d c m .read table 2064 with
      | .error e => .error e
      | .ok o =>
        match readTable (y.spadBytes o 2064) with
        | none => .error (.reservedField, none)
        | some t => .ok (some t)
  match vecs, tab with
  | .error e, _ => .error e
  | _, .error e => .error e
  | .ok ws, .ok t =>
    .ok { bias := if opt.bias then some (ws.take 128) else none, table := t, scales := if opt.csc then ws.drop 128 else [],
          req := opt.req, fmt := f, bits := bits }

/-- The start of MDRAIN (R169, R173): every check first, so that a fault writes and clears nothing. -/
def State.startDrain (s : State) (d c : Nat) (m : Cmd) (out bias table draw : Nat) (opt : DrainOpt) (fw : Word)
    (stride n row0 : Nat) : State :=
  let f := fmtOf fw
  let y := s.core d c
  let pieces := if opt.req && f.orec then n / 2 else n
  if out % 16 != 0 then s.failCmd d c 1 m .reservedField 0
  else
    match s.ownRanges d c m .write (f.outBytes opt.req) ((List.range pieces).map (fun i => (out + i * 16 * stride : Nat))),
        s.drainInputs d c m bias table draw opt f with
    | .error (cs, hb), _ => s.failRights d c 1 m cs hb 0
    | _, .error (cs, hb) => s.failRights d c 1 m cs hb 0
    | .ok offs, .ok x =>
      let (bs, st) := x.out ((List.range n).map (fun i => accRow y.acc (row0 + i)))
      let rng := if opt.req && f.rm == 5 then s.drawStatus ⟨d, c, m.strand⟩ (BitVec.ofNat 64 draw) (16 * n) else 0
      let acc := if opt.clr then (List.range n).foldl (fun a i => Tab.set a (row0 + i) (List.replicate 128 0#32)) y.acc else y.acc
      (s.setCore d c ({ y with acc := acc }.spadWriteAll (offs.zip bs))).putCmd d c 1
        { m.run (s.cyc d c) (n + 24) with status := st ||| rng }

/-- The counters as MCHK writes them (R172). -/
def Core.checkWord (y : Core) : Nat :=
  y.mism + y.voids * 2 ^ 16 + (match y.firstRow with
    | some r => r * 2 ^ 32 + 2 ^ 39
    | none => 0)

/-- MCHK takes effect (R172). -/
def State.doCheck (s : State) (d c : Nat) (m : Cmd) (clr : Bool) : State :=
  let y := s.core d c
  let s1 := s.modStrand ⟨d, c, m.strand⟩ (fun z =>
    { z with flags := (z.flags &&& 0xF8#8) ||| (if y.mism = 0 ∧ y.voids = 0 then 1#8 else 0#8)
                        ||| (if y.mism ≠ 0 then 2#8 else 0#8) ||| (if y.voids ≠ 0 then 4#8 else 0#8) })
  let s2 := if clr then s1.modCore d c (fun y => { y with mism := 0, voids := 0, firstRow := none }) else s1
  s2.complete d c 1 m (m.dregs.map (fun r => (r, BitVec.ofNat 64 y.checkWord)))

/-- An array command starts under the lease (R157). -/
def State.startArray (s : State) (d c : Nat) (m : Cmd) : State :=
  match m.body with
  | .mldw va fw hbm _ _ _ tile =>
    let b := (fmtOf fw).tileBytes
    s.startLoad d c m fw (if hbm then tile else (s.core d c).spadBytes (va.toNat % spadSize) b)
  | .mswap =>
    if (s.clamp d (c / 4)).shadow.valid then s.putCmd d c 1 (m.run (s.cyc d c) 1) else s.failCmd d c 1 m .shadowInvalid 0
  | .mstrm a fw stride n row0 _ _ => s.startStream d c m a fw stride n row0
  | .mdrain out bias table draw opt fw stride n row0 => s.startDrain d c m out bias table draw opt fw stride n row0
  | _ => s

/-- May the head of the queue start as far as its fetch goes? -/
def CmdBody.fetched : CmdBody → Bool
  | .mldw _ _ _ _ done _ _ => done
  | _ => true

/-- The brand entries under which the scratchpad ranges of a command are judged (R204). -/
def State.cmdIds (s : State) (d c : Nat) (m : Cmd) : List Nat :=
  m.ranges.flatMap (fun r => if r.sp = .spad then (s.die d).entryIds (s.tenantOf d c) r.at_ r.len else [])

/-- ARRAY_COMMAND_START (R155, R157, R204): the next command of a core's matrix queue. -/
def execArrayCommandStart (d c : Nat) (s : State) : Out :=
  let y := s.core d c
  let now := s.cyc d c
  let l := s.clamp d (c / 4)
  match y.matrixQ.find? Cmd.isQueued with
  | none => .next s
  | some m =>
    let early := y.matrixQ.filter (fun e => e.id < m.id)
    if !s.mayStart d c 1 || early.any (fun e => e.holdsStart now m.body) then .next s
    else
      match m.body with
      | .mchk clr => .next (s.doCheck d c m clr)
      | .mfree =>
        whenever (l.holder ≠ some c) s (s.setCore d c { y.dropCmd 1 m with leaseReq := none })
      | _ =>
        if l.holder ≠ some c || !m.body.fetched || l.started = 64 || !s.rangeFree d c m then .next s
        else if l.granted + 15976 < now then .next (s.setClamp d (c / 4) { l with refused := true })
        else
          match s.seek d c (s.cmdIds d c m) with
          | none => .next (s.lookUp d c (s.cmdIds d c m))
          | some s1 => .next ((s1.setClamp d (c / 4) { l with started := l.started + 1, idleFrom := now }).startArray d c m)

/-- A saturating counter (R171). -/
def count16 (n : Nat) : Nat := min n 65535

/-- MSTRM's counts reach the counters (R171). -/
def Core.addTally (y : Core) (t : Tally) : Core :=
  { y with mism := count16 (y.mism + t.mism), voids := count16 (y.voids + t.voids),
           firstRow := if y.firstRow.isNone then t.first else y.firstRow }

/-- Does a command run? -/
def Cmd.isRunning (m : Cmd) : Bool :=
  match m.stage with
  | .running _ _ => true
  | _ => false

/-- Note an exchange of planes on the MSTRMs still running: the plane that one uses becomes the shadow one, or the active one again
(R155). -/
def Cmd.swapped (m : Cmd) : Cmd :=
  match m.body with
  | .mstrm a fw stride n row0 old t => { m with body := .mstrm a fw stride n row0 (old != m.isRunning) t }
  | _ => m

/-- What an array command does as it completes, before its push: planes exchange, counts are added. -/
def State.settleArray (s : State) (d c : Nat) (m : Cmd) : State :=
  match m.body with
  | .mswap =>
    let l := s.clamp d (c / 4)
    (s.setClamp d (c / 4) { l with active := l.shadow, shadow := l.active }).modCore d c (fun y =>
      y.setQueue 1 (y.matrixQ.map Cmd.swapped))
  | .mstrm _ _ _ _ _ _ t => s.modCore d c (fun y => y.addTally t)
  | _ => s

/-- ARRAY_COMMAND_COMPLETE (R156, R173): its time has come; cycles without a ready command count anew from here (log entry 69). -/
def execArrayCommandComplete (d c id : Nat) (s : State) : Out :=
  match (s.core d c).cmd 1 id with
  | none => .next s
  | some m =>
    match m.stage with
    | .running _ t =>
      if s.cyc d c < t then .next s
      else
        let l := s.clamp d (c / 4)
        let s1 := (s.setClamp d (c / 4) { l with idleFrom := s.cyc d c }).settleArray d c m
        match m.bad with
        | some (cause, progress) => .next (s1.failCmd d c 1 m cause progress)
        | none => .next (s1.complete d c 1 m [])
    | _ => .next s

/-! The fetch stage. -/

/-- How many cycles pass before the first chunk of a fetch stage arrives (R199): 40 when the clamp's cache holds it, else at most
600, the one in which its stack serves it included (log entries 29 and 54). -/
def State.fetchWait (s : State) (d c va len : Nat) : Nat :=
  if ((s.die d).stackAsked c (s.tenantOf d c) va len false).isSome then s.latency 599 else 40

/-- Bytes of the chunk of a fetch stage at an address of which n bytes are left (R190, R193). -/
def fetchLen (va n : Nat) : Nat := min n (4096 - va % 4096)

/-- A chunk of a fetch stage is read, after what the stage has fetched; the stage may suspend there, or the command ends (R164, R193,
R194). -/
def State.fetchChunk (s : State) (d c : Nat) (m : Cmd) (va : Nat) (fw : Word) (tile : List Byte) : State :=
  let b := (fmtOf fw).tileBytes
  let at_ := va + tile.length
  let len := fetchLen at_ (b - tile.length)
  match (s.die d).read (.cached c (s.cmdAgent d c 1)) (s.tenantOf d c) (s.locked d c) at_ len with
  | .ok bs x =>
    let done := b ≤ tile.length + len
    (s.setDie d x).putCmd d c 1
      { m with body := .mldw va fw true none done (if done then none else some (s.cyc d c + (len + 255) / 256)) (tile ++ bs) }
  | .page q =>
    if s.locked d c then (s.failCmd d c 1 m .copyPage tile.length).cmdTimingFault d c m .copyPage
    else (s.putCmd d c 1 { m with body := .mldw va fw true (some q) false none tile }).pageFaultEvent d c 1 q tile.length
  | .hard cause => s.failCmd d c 1 m cause 0

/-- The chunk of a fetch stage stands by the stack that it asks (R192, R196). -/
def State.fetchTurn (s : State) (d c : Nat) (m : Cmd) (va len : Nat) : Bool × State :=
  s.atStacks d (s.cmdAgent d c 1) [c, m.id] (s.locked d c) false (s.endUses d c va len false)

/-- FETCH_STAGE_COMPLETE (R164): the next fetch stage of the core, in order, begins, or its next chunk arrives. -/
def execFetchStageComplete (d c : Nat) (s : State) : Out :=
  if !s.mayStart d c 1 then .next s
  else
    match (s.core d c).matrixQ.find? (fun m => !m.body.fetched) with
    | none => .next s
    | some m =>
      match m.bad, m.body with
      | some (cause, n), _ => .next (s.failCmd d c 1 m cause n)
      | none, .mldw va fw _ none _ none tile =>
        let len := fetchLen (va.toNat + tile.length) ((fmtOf fw).tileBytes - tile.length)
        let wait := s.fetchWait d c (va.toNat + tile.length) len
        .next (s.drawn.putCmd d c 1 { m with body := .mldw va fw true none false (some (s.cyc d c + wait)) tile })
      | none, .mldw va fw _ none _ (some t) tile =>
        let at_ := va.toNat + tile.length
        let len := fetchLen at_ ((fmtOf fw).tileBytes - tile.length)
        let ids := (s.die d).entryIds (s.tenantOf d c) at_ len
        if s.cyc d c < t then .next s
        else
          match s.seek d c ids with
          | none => .next (s.lookUp d c ids)
          | some s1 =>
            match s1.fetchTurn d c m at_ len with
            | (false, s2) => .next s2
            | (true, s2) => .next (s2.fetchChunk d c m va.toNat fw tile)
      | _, _ => .next s

end Sys2Proof.Machine
end

