-- ==== Sys2Proof/Machine/Copy.lean ====
section
/-!
DEFINITION. Copies: CPY, CPYS, CPYCS (R330 to R332), their start with its checks (R176, R181, R126, R331), their chunks here and
across the fabric (R190, R193, R194, R254), the retry of a suspended chunk (R193) and completion (R334).
-/
namespace Sys2Proof.Machine

/-! Instructions. -/

/-- A copy command that has not started. -/
def newCopy (dst src rows rlen dstr sstr : Nat) (crc first last : Bool) (expect : W32) : CopyJob :=
  { dst := dst, src := src, rows := rows, rlen := rlen, dstr := dstr, sstr := sstr, crc := crc, first := first, last := last,
    expect := expect, row := 0, off := 0, moved := 0, crcNext := 0, pages := [], leaf := none, phase := .queued }

/-- Bytes of a copy in all. -/
def CopyJob.total (j : CopyJob) : Nat := j.rows * j.rlen

/-- The destination and the source address of a row. -/
def CopyJob.rowAt (j : CopyJob) (r : Nat) : Nat × Nat := (j.dst + r * j.dstr, j.src + r * j.sstr)

/-- The ranges of a copy, row by row, as far as its operands name places (R191). -/
def copyRanges (s : State) (p : At) (j : CopyJob) : List Rng :=
  if j.rlen = 0 then []
  else
    (List.range j.rows).flatMap (fun r =>
      let (a, b) := j.rowAt r
      (s.spot p.d p.c anySpace a j.rlen).rng j.rlen true ++ (s.spot p.d p.c anySpace b j.rlen).rng j.rlen false)

/-- A copy is accepted, unless its queue is full or it is too long (R190, R331). -/
def takeCopy (i : Instr) (sp : Spark) (dregs : List Nat) (p : At) (t : State) (j : CopyJob) : Act :=
  if 16 ≤ (t.core p.d p.c).copyQ.length then .stay
  else if 2 ^ 40 ≤ j.total then .trap .reservedField 0 none
  else .done (t.acceptCmd p 0 (pushCh sp) dregs (copyRanges t p j) (.copy j)) (t.seq p i)

/-- CPY (R330, R331). -/
def execCpy (a b e : Reg) (lit : BitVec 32) (sp : Spark) (s : State) : Out :=
  issue (.cpy a b e lit sp) (engineForm [a, b, e] sp) s (fun p t =>
    takeCopy (.cpy a b e lit sp) sp [] p t
      (newCopy (t.reg p a).toNat (t.reg p b).toNat 1 ((t.reg p e).toNat + lit.toNat) 0 0 false false false 0))

/-- CPYS (R330, R331). -/
def execCpys (a b e g : Reg) (sp : Spark) (s : State) : Out :=
  issue (.cpys a b e g sp) (engineForm [a, b, e, g] sp) s (fun p t =>
    let shape := t.reg p e
    let strides := t.reg p g
    takeCopy (.cpys a b e g sp) sp [] p t
      (newCopy (t.reg p a).toNat (t.reg p b).toNat (high32 shape).toNat (low32 shape).toNat (high32 strides).toNat
        (low32 strides).toNat false false false 0))

/-- CPYCS (R330 to R332): the chain's result register is awaited. -/
def execCpycs (first last : Bool) (d a b e g : Reg) (lit : BitVec 32) (sp : Spark) (s : State) : Out :=
  issue (.cpycs first last d a b e g lit sp)
    { uses := [d, a, b, e, g], checked := [a, b, e, g], sp := sp, pushes := false, release := true } s (fun p t =>
      takeCopy (.cpycs first last d a b e g lit sp) sp [d.val] p t
        (newCopy (t.reg p a).toNat (t.reg p b).toNat 1 ((t.reg p e).toNat + lit.toNat) 0 0 true first last (low32 (t.reg p g))))

/-! How a copy ends. -/

/-- Pages of the core's instruction memory take a state. -/
def Core.setPages (y : Core) (l : List Nat) (v : Page) : Core := { y with pages := l.foldl (fun q i => Tab.set q i v) y.pages }

/-- A copy that ends leaves none of its bytes in the clamp's cache alone: the lines that its agent has made dirty are written back, so that
whoever joins with it finds them in HBM (R223, R227, R230; log entry 10). -/
def State.cleanCopy (s : State) (d c : Nat) : State :=
  let agent := s.cmdAgent d c 0
  s.modDie d (fun x => x.cleanCache (c / 4) (fun l => l.dirty && l.agent == agent))

/-- A copy ends in a fault: its pages go FREE, the chain breaks, and under COPY_CHECKSUM sD takes the value read so far
(R126, R332, R333). -/
def State.failCopy (s : State) (d c : Nat) (m : Cmd) (j : CopyJob) (cause : Cause) : State :=
  let s1 := s.modCore d c (fun y =>
    let y1 := y.setPages j.pages .free
    if j.crc then { y1 with crcValid := false } else y1)
  let s2 :=
    if cause = .copyChecksum then
      s1.modStrand ⟨d, c, m.strand⟩ (fun z =>
        z.results (m.dregs.map (fun r => (r, (((s1.core d c).crcR ^^^ 0xFFFFFFFF#32).setWidth 64)))))
    else s1
  (s2.cleanCopy d c).failCmd d c 0 m cause j.moved

/-- A copy ends for want of a right (R203, R217). -/
def State.failCopyRights (s : State) (d c : Nat) (m : Cmd) (j : CopyJob) (cause : Cause) (hb : Option Nat) : State :=
  (s.handBack d hb).failCopy d c m j cause

/-- A copy meets a page fault: it suspends, or in Locked mode it ends in COPY_PAGE, which is a timing fault (R193, R194). -/
def State.pageCopy (s : State) (d c : Nat) (m : Cmd) (j : CopyJob) (va : Nat) : State :=
  if s.locked d c then (s.failCopy d c m j .copyPage).cmdTimingFault d c m .copyPage
  else (s.putCmd d c 0 { m with body := .copy { j with phase := .suspended va } }).pageFaultEvent d c 0 va j.moved

/-! The start. -/

/-- The pages that n bytes of instruction memory from an offset touch. -/
def pagesOf (off n : Nat) : List Nat := (List.range ((off % 4096 + n + 4095) / 4096)).map (fun i => off / 4096 + i)

/-- The checks of a copy's rows, in order (R176, R177, R181): the destination pages, or the first fault. -/
def State.checkRows (s : State) (d c : Nat) (j : CopyJob) : Nat → Nat → Except Cause (List Nat)
  | 0, _ => .ok []
  | n + 1, r =>
    let (a, b) := j.rowAt r
    let judge (q : Spot) : Option Cause := match q with
      | .bad cause => some cause
      | .pod va => if s.inPod (vaDie va) then none else some .unowned
      | _ => none
    let src := s.spot d c anySpace b j.rlen
    let dst := s.spot d c anySpace a j.rlen
    let code : Bool := match src with
      | .imem off => (pagesOf off j.rlen).all (fun q => (s.core d c).page q == .code)
      | _ => true
    match judge src, judge dst with
    | some cause, _ => .error cause
    | none, some cause => .error cause
    | none, none =>
      if !code then .error .brandState
      else
        match s.checkRows d c j n (r + 1), dst with
        | .ok l, .imem off => .ok (pagesOf off j.rlen ++ l)
        | res, _ => res

/-- Is a place in the memory of a die, behind its translation (R177)? -/
def Spot.inHbm : Spot → Bool
  | .pod va => vaTranslated va
  | _ => false


/-- The addresses and the length of the chunk that comes next (R331). -/
def CopyJob.chunk (j : CopyJob) : Nat × Nat × Nat :=
  let (a, b) := j.rowAt j.row
  (a + j.off, b + j.off, min (j.rlen - j.off) (min (4096 - (a + j.off) % 4096) (4096 - (b + j.off) % 4096)))

/-- Is an end of a chunk in HBM, and not wholly in the clamp's cache? -/
def State.endAway (s : State) (d c a len : Nat) (write : Bool) : Bool × Bool :=
  match s.spot d c anySpace a len with
  | .pod va =>
    (vaTranslated va, vaTranslated va && (vaDie va != d || ((s.die d).stackAsked c (s.tenantOf d c) va len write).isSome))
  | _ => (false, false)

/-- Cycles from the start of a copy to its first chunk (R199): 16 between scratchpads, 40 from the clamp's cache, at most 600 where
HBM is reached, the cycle in which its stack serves it included (log entries 29 and 54). -/
def State.firstChunk (s : State) (d c : Nat) (j : CopyJob) : Nat :=
  let (a, b, len) := j.chunk
  let dst := s.endAway d c a len true
  let src := s.endAway d c b len false
  if j.total = 0 then 0
  else if dst.2 || src.2 then s.latency 599
  else if dst.1 || src.1 then 40
  else 16

/-- COPY_START (R190, R331): the next copy of a core starts after its range checks. -/
def execCopyStart (d c : Nat) (s : State) : Out :=
  let y := s.core d c
  match y.copyQ with
  | [] => .next s
  | m :: _ =>
    match m.body with
    | .copy j =>
      if !m.isQueued || !s.mayStart d c 0 || !s.rangeFree d c m then .next s
      else
        let s1 := if j.crc && j.first then s.setCore d c { y with crcR := 0xFFFFFFFF#32, crcW := 0xFFFFFFFF#32, crcValid := true }
          else s
        let go (q : List Nat) : State :=
          (s1.drawn.modCore d c (fun y => y.setPages q .filling)).putCmd d c 0
            { m.run (s.cyc d c) (s.firstChunk d c j) with body := .copy { j with phase := .moving, pages := q } }
        if j.crc && !j.first && !y.crcValid then .next (s1.failCopy d c m j .copyChecksum)
        else if j.total = 0 then .next (go [])
        else
          match s1.checkRows d c j j.rows 0 with
          | .error cause => .next (s1.failCopy d c m j cause)
          | .ok q => if q.all (fun n => y.page n == .free) then .next (go q) else .next (s1.failCopy d c m j .brandState)
    | _ => .next s

/-- What reaching one end of a chunk gives. -/
inductive End_ where
  | data (bs : List Byte) (x : Die)
  | page (va : Nat)
  | bad (c : Cause) (hb : Option Nat)
  | hold
  /-- It lies on another die; the rights this die keeps for it permit it. -/
  | away (die va : Nat)

/-- Judge the rights of one end of a chunk. -/
def State.chunkRight (s : State) (d c : Nat) (m : Cmd) (acc : Access) (va len : Nat) (t : Unit → End_) : End_ :=
  match if brandless acc va then .ok else s.judgeCmd d c 0 m acc va len with
  | .bad cause hb => .bad cause hb
  | .hold => .hold
  | .ok => t ()

/-- Read the source of a chunk (R190): translated, then judged. -/
def State.chunkSource (s : State) (d c : Nat) (m : Cmd) (b len : Nat) : End_ :=
  let x := s.die d
  match s.spot d c anySpace b len with
  | .bad cause => .bad cause none
  | .imem off => if (x.core c).page (off / 4096) = .code then .data (Mem.bytes (x.core c).imem off len) x else .bad .brandState none
  | .spad va => s.chunkRight d c m .read va len (fun _ =>
      .data (Mem.bytes (x.core (vaLow va / spadSize)).spad (vaLow va % spadSize) len) x)
  | .pod va =>
    if vaDie va ≠ d then s.chunkRight d c m .read va len (fun _ => .away (vaDie va) va)
    else
      match x.read (.cached c (s.cmdAgent d c 0)) (s.tenantOf d c) (s.locked d c) va len with
      | .page at_ => .page at_
      | .hard cause => .bad cause none
      | .ok bs x' => s.chunkRight d c m .read va len (fun _ => .data bs x')

/-- Write the destination of a chunk (R190): translated, then judged; the pages of instruction memory are the command's own. -/
def State.chunkDest (s : State) (d c : Nat) (m : Cmd) (a : Nat) (bs : List Byte) : End_ :=
  let x := s.die d
  let len := bs.length
  match s.spot d c anySpace a len with
  | .bad cause => .bad cause none
  | .imem off => .data bs (x.setCore c { x.core c with imem := Mem.write (x.core c).imem off bs })
  | .spad va => s.chunkRight d c m .write va len (fun _ =>
      .data bs (x.setCore (vaLow va / spadSize) ((x.core (vaLow va / spadSize)).spadWrite (vaLow va % spadSize) bs)))
  | .pod va =>
    if vaDie va ≠ d then s.chunkRight d c m .write va len (fun _ => .away (vaDie va) va)
    else
      match x.write (.cached c (s.cmdAgent d c 0)) (s.tenantOf d c) (s.locked d c) va bs with
      | .page at_ => .page at_
      | .hard cause => .bad cause none
      | .ok _ x' => s.chunkRight d c m .write va len (fun _ => .data bs x')

/-- A flip that the chunk fires, and the bytes as they go on (R308). -/
def State.flip (s : State) (d c a : Nat) (bs : List Byte) : State × List Byte :=
  match (s.die d).injections.find? (fun n => n.core == c && n.tenant == s.tenantOf d c && n.byte < bs.length) with
  | none => (s, bs)
  | some n =>
    ((s.modDie d (fun x => { x with injections := x.injections.erase n })).injected d n.tenant (s.cmdAgent d c 0) a 0 c [n.byte, n.bit],
      splice bs n.byte [bs.getD n.byte 0#8 ^^^ (1#8 <<< n.bit)])

/-- A chunk has been performed: the job goes on, the chain takes its bytes, and a difference ends the copy (R331 to R333). -/
def State.chunkDone (s : State) (d c : Nat) (m : Cmd) (j : CopyJob) (len : Nat) (rc wc : W32) : State :=
  let fin := j.rlen ≤ j.off + len
  let j' : CopyJob :=
    { j with off := if fin then 0 else j.off + len, row := if fin then j.row + 1 else j.row, moved := j.moved + len,
             phase := .moving }
  let s1 := if j.crc then s.modCore d c (fun y => { y with crcR := rc, crcW := wc }) else s
  if j.crc && rc != wc then s1.failCopy d c m j' .copyChecksum
  else s1.putCmd d c 0 { m.run (s.cyc d c) ((len + 255) / 256) with body := .copy j' }

/-- A message of a copy leaves for another die. -/
def State.sendOpen (s : State) (d c : Nat) (m : Cmd) (dest : Nat) (body : OpenBody) : State :=
  { s with opens := s.opens ++ [{ tr := s.transit d dest (s.cmdAgent d c 0), by_ := .copy, core := c, cmd := m.id, tenant := s.tenantOf d c,
                                  locked := s.locked d c, body := body }] }

/-- The leaf under which an end of a chunk on this die is translated (R197). -/
def State.leafOf (s : State) (d c a len : Nat) : Option TlbEntry :=
  match s.spot d c anySpace a len with
  | .pod va =>
    if vaDie va = d ∧ vaTranslated va = true then
      (match ((s.die d).translate (.core c) (s.tenantOf d c) (vaLow va) false).1 with
        | .leaf e => some e
        | _ => none)
    else none
  | _ => none

/-- The bytes of a chunk go to its destination, here or away. -/
def State.chunkPut (s : State) (d c : Nat) (m : Cmd) (j : CopyJob) (a : Nat) (got : List Byte) : State :=
  let y := s.core d c
  let len := got.length
  let rc := crcUpdate y.crcR got
  let (s1, put) := s.flip d c a got
  match s1.chunkDest d c m a put with
  | .hold => s.putCmd d c 0 { m with body := .copy { j with phase := .moving } }
  | .page va => s.pageCopy d c m j va
  | .bad cause hb => s.failCopyRights d c m j cause hb
  | .data bs x => (s1.setDie d x).chunkDone d c m j bs.length rc (crcUpdate y.crcW bs)
  | .away dest va =>
    (s1.putCmd d c 0 { m with body := .copy { j with phase := .remote, crcNext := rc, leaf := s.leafOf d c j.chunk.2.1 len } }).sendOpen d c m dest (.write va put y.crcW)

/-- A chunk is taken up (R190, R331): both ends are reached before a byte moves. -/
def State.chunk (s : State) (d c : Nat) (m : Cmd) (j : CopyJob) : State :=
  let (a, b, len) := j.chunk
  match s.chunkSource d c m b len with
  | .hold => s
  | .page va => s.pageCopy d c m j va
  | .bad cause hb => s.failCopyRights d c m j cause hb
  | .data bs x => (s.setDie d x).chunkPut d c m j a bs
  | .away from_ va =>
    match s.chunkDest d c m a (List.replicate len 0#8) with
    | .hold => s
    | .page at_ => s.pageCopy d c m j at_
    | .bad cause hb => s.failCopyRights d c m j cause hb
    | _ =>
      (s.putCmd d c 0 { m with body := .copy { j with phase := .remote, leaf := s.leafOf d c a len } }).sendOpen d c m from_
        (.read va len a)

/-- A chunk is taken up when the brand window has the entries of its ends and the stacks that they ask serve the copy engine (R192, R196,
R204). -/
def State.chunkTurn (s : State) (d c : Nat) (m : Cmd) (j : CopyJob) : State :=
  let (a, b, len) := j.chunk
  let ends := [(s.spot d c anySpace a len, true), (s.spot d c anySpace b len, false)]
  let ids := ends.flatMap (fun e => match e.1.va? with
    | some va => (s.die d).entryIds (s.tenantOf d c) va len
    | none => [])
  let uses (s : State) : List (Nat × Nat) := ends.flatMap (fun e => match e.1.va? with
    | some va => s.endUses d c va len e.2
    | none => [])
  match s.seek d c ids with
  | none => s.lookUp d c ids
  | some s1 =>
    match s1.atStacks d (s1.cmdAgent d c 0) [c, m.id] (s1.locked d c) false (uses s1) with
    | (false, s2) => s2
    | (true, s2) => s2.chunk d c m j

/-- The copy at the head of a core's queue, running in a phase. -/
def Core.copyAt (y : Core) : Option (Cmd × CopyJob) :=
  match y.copyQ with
  | [] => none
  | m :: _ =>
    match m.body, m.isRunning with
    | .copy j, true => some (m, j)
    | _, _ => none

/-- Has a running command waited out its time? -/
def Cmd.timeUp (m : Cmd) (now : Nat) : Bool :=
  match m.stage with
  | .running _ t => t ≤ now
  | _ => false

/-- COPY_CHUNK (R190, R331). -/
def execCopyChunk (d c : Nat) (s : State) : Out :=
  match (s.core d c).copyAt with
  | none => .next s
  | some (m, j) =>
    if j.phase = .moving ∧ j.total ≠ 0 ∧ j.row < j.rows ∧ m.timeUp (s.cyc d c) ∧ s.enginesRun d c 0 then .next (s.chunkTurn d c m j)
    else .next s

/-- COPY_RETRY (R193): a suspended chunk whose cause has gone is taken up again. -/
def execCopyRetry (d c : Nat) (s : State) : Out :=
  match (s.core d c).copyAt with
  | none => .next s
  | some (m, j) =>
    if j.phase = .held ∧ s.enginesRun d c 0 then .next (s.chunkTurn d c m { j with phase := .moving }) else .next s

/-- COPY_COMPLETE (R126, R332, R334): every chunk has been performed. -/
def execCopyComplete (d c : Nat) (s : State) : Out :=
  match (s.core d c).copyAt with
  | none => .next s
  | some (m, j) =>
    if j.phase = .moving ∧ (j.total = 0 ∨ j.rows ≤ j.row) ∧ m.timeUp (s.cyc d c) then
      let y := s.core d c
      let sum := y.crcR ^^^ 0xFFFFFFFF#32
      if j.crc && j.last && sum != j.expect then .next (s.failCopy d c m j .copyChecksum)
      else
        let y1 := y.setPages j.pages .code
        let y2 := if j.crc && j.last then { y1 with crcValid := false } else y1
        .next (((s.setCore d c y2).cleanCopy d c).complete d c 0 m (m.dregs.map (fun r => (r, sum.setWidth 64))))
    else .next s

/-! Open traffic of copies (R254). -/

/-- Is it an answer on its way back? -/
def OpenBody.isAnswer : OpenBody → Bool
  | .read _ _ _ | .write _ _ _ => false
  | _ => true

/-- The die that issued the command of a message. -/
def OpenMsg.home (o : OpenMsg) : Nat := if o.body.isAnswer then o.tr.toDie else o.tr.fromDie

/-- The copy that a message serves, if it still waits for one. -/
def State.openCopy (s : State) (d : Nat) (o : OpenMsg) : Option (Cmd × CopyJob) :=
  match (s.core d o.core).copyAt with
  | some (m, j) => if m.id = o.cmd ∧ j.phase = .remote then some (m, j) else none
  | none => none

/-- A fault of a remote chunk comes back to its command (R188, R193, R194). -/
def State.openFault (s : State) (d : Nat) (o : OpenMsg) (cause : Cause) (va : Nat) (page : Bool) : State :=
  match s.openCopy d o with
  | none => s
  | some (m, j) => if page then s.pageCopy d o.core m j va else s.failCopy d o.core m j cause

/-- The chunk of a core that was on its way has ended: what its context had still to acknowledge is acknowledged (R197). -/
def State.chunkLanded (s : State) (d c : Nat) : State :=
  match (s.core d c).ctx with
  | none => s
  | some key => s.modDie d (fun x => { x with tlbis := x.tlbis.map (fun i => { i with late := i.late.filter (fun q => q != key) }) })

/-- A chunk read from another die goes to its destination, under the leaf by which it was translated when it was taken up (R197). -/
def State.chunkArrives (s : State) (d c : Nat) (m : Cmd) (j : CopyJob) (a : Nat) (bs : List Byte) : State :=
  match j.leaf with
  | none => s.chunkPut d c m j a bs
  | some e =>
    let had := (s.core d c).tlb.contains e
    let s1 := (s.modCore d c (fun y => { y with tlb := e :: y.tlb.filter (fun f => f != e) })).chunkPut d c m j a bs
    if had then s1 else s1.modCore d c (fun y => { y with tlb := y.tlb.filter (fun f => f != e) })

/-- An answer reaches the die of its copy. -/
def State.openAnswer (s : State) (d : Nat) (o : OpenMsg) : State :=
  (match o.body, s.openCopy d o with
    | .fault c va page, _ => s.openFault d o c va page
    | .data bs dst, some (m, j) => s.chunkArrives d o.core m j dst bs
    | .ack crc, some (m, j) => s.chunkDone d o.core m j j.chunk.2.2 j.crcNext crc
    | _, _ => s).chunkLanded d o.core

/-! Open traffic of hosts (R254, R301, R302). -/

/-- The answer to a host's write or read (R179). -/
def State.answer (s : State) (d : Nat) (r : Reply) : State := s.modDie d (fun x => { x with replies := r :: x.replies })

/-- The hand-over that the immediate data of a write ask for is made at once for a Free-mode gang, and waits for the die's next step end
for a Locked-mode one (R302). -/
def State.intake (s : State) (d t port : Nat) (imm : W32) : State :=
  let i : Intake := { tenant := t, port := port, imm := imm }
  match s.gang d (imm.toNat / 2 ^ 22 % 64) with
  | some g => if g.locked then s.modDie d (fun x => { x with intakes := x.intakes ++ [i] }) else s.handIntake d i
  | none => s.handIntake d i

/-- An answer reaches the die whose Ethernet engine sent the request: the host has it (R301, R302). -/
def State.hostAnswer (s : State) (d port : Nat) (imm : Option W32) (o : OpenMsg) : State :=
  match o.body with
  | .data bs _ => s.answer d (.rdmaData o.tenant bs)
  | .ack _ =>
    let s1 := s.answer d (.rdmaOk o.tenant)
    (match imm with
      | some w => s1.intake d o.tenant port w
      | none => s1)
  | _ => s.answer d (.rdmaError o.tenant)

/-! Open traffic of the sampler (R255, R277). -/

/-- What an access of the sampler's command gives: its answer, a cause that ends it, or the wait for a stack or another die. -/
inductive SamplerGot where
  | ready (bs : List Byte) (s : State)
  | bad (c : Cause)
  | wait (s : State)

/-- An access of the sampler on its own die stands by the stack that it asks (R192, R196, R285). -/
def State.samplerTurn (s : State) (d c cmd va len : Nat) (write : Bool) : Bool × State :=
  s.atStacks d samplerAgent [c, cmd, va] (s.locked d c) false ((s.die d).rawUses (.core c) (s.tenantOf d c) va len write)

/-- The sampler reads bytes for a command of core c, or writes those given: on its own die when the stack serves it, on another die by a
message (R196, R211, R254, R277, R285). -/
def State.samplerAccess (s : State) (d c cmd va len : Nat) (put : Option (List Byte)) : SamplerGot :=
  let t := s.tenantOf d c
  let pinned := s.locked d c
  if vaDie va = d ∨ s.reaches d (vaDie va) = false then
    match if vaDie va = d then s.samplerTurn d c cmd va len put.isSome else (true, s) with
    | (false, s1) => .wait s1
    | (true, s1) =>
      match put with
      | none => (match s1.fetchAt d c t pinned va len with
        | .ok bs s2 => .ready bs s2
        | .bad cause => .bad cause)
      | some bs => (match s1.storeAt d c t pinned va bs with
        | .ok _ s2 => .ready [] s2
        | .bad cause => .bad cause)
  else
    let x := s.die d
    match x.fetches.find? (fun f => f.core == c && f.cmd == cmd && f.va == va && f.len == len) with
    | some f =>
      (match f.answer with
        | some (.data bs _) => .ready bs s
        | some (.ack _) => .ready [] s
        | some (.fault cause _ page) => .bad (if page then .copyPage else cause)
        | _ => .wait s)
    | none =>
      let s1 := s.setDie d { x with fetches := x.fetches ++ [{ id := x.fetchNext, core := c, cmd := cmd, va := va, len := len, answer := none }],
                                    fetchNext := x.fetchNext + 1 }
      let body : OpenBody := match put with
        | none => .read va len va
        | some bs => .write va bs 0
      .wait { s1 with opens := s1.opens ++ [{ tr := s.transit d (vaDie va) samplerAgent, by_ := .sampler, core := noCore, cmd := x.fetchNext,
                                              tenant := t, locked := pinned, body := body }] }

/-- The sampler reads bytes for a command of core c. -/
def State.samplerFetch (s : State) (d c cmd va len : Nat) : SamplerGot := s.samplerAccess d c cmd va len none

/-- An answer reaches the sampler. -/
def State.samplerAnswer (s : State) (d : Nat) (o : OpenMsg) : State :=
  s.modDie d (fun x => { x with fetches := x.fetches.map (fun f => if f.id = o.cmd then { f with answer := some o.body } else f) })

/-- A request whose way is broken, or an answer, comes to what the message serves (R255). -/
def State.openEnd (s : State) (o : OpenMsg) : State :=
  match o.by_ with
  | .copy => s.openAnswer o.home o
  | .ether port imm => s.hostAnswer o.home port imm o
  | .sampler => s.samplerAnswer o.home o

/-- What tells the requests of a die apart at another die: the command or the port that each serves. -/
def OpenMsg.tag (o : OpenMsg) : List Nat :=
  [o.core, o.cmd, match o.by_ with
    | .copy => 0
    | .sampler => 1
    | .ether p _ => 2 + p]

/-- A request stands by the stack that it asks at the die it has come to, under the class 6 id of the die that sent it (R192, R196,
R211). -/
def State.openTurn (s : State) (o : OpenMsg) : Bool × State :=
  let h := o.tr.toDie
  let stand (va len : Nat) (write : Bool) : Bool × State :=
    s.atStacks h (dieAgent o.tr.fromDie) o.tag o.locked false ((s.die h).rawUses .memSide o.tenant va len write)
  match o.body with
  | .read va len _ => stand va len false
  | .write va bs _ => stand va bs.length true
  | _ => (true, s)

/-- OPEN_FLIT_ARRIVAL (R254, R255): the n-th open message has come to the owner die, which serves it, or back to its sender; one whose
route names a failed port ends its command. -/
def execOpenFlitArrival (n : Nat) (s : State) : Out :=
  match s.opens[n]? with
  | none => .next s
  | some o =>
    match s.hop o.tr with
    | .stay => .next s
    | .lost => .next ((s.endOpen n).openEnd { o with body := .fault .unowned 0 false, tr := { o.tr with fromDie := o.home, toDie := o.home } })
    | .here =>
      if o.body.isAnswer then .next ((s.endOpen n).openEnd o)
      else
        match s.openTurn o with
        | (false, s1) => .next s1
        | (true, s1) =>
          match (s1.endOpen n).serveOpen o.tr.toDie o with
          | none => .next s1
          | some (b, s2) => .next { s2 with opens := s2.opens ++ [{ o with tr := s2.reply o.tr, body := b }] }

end Sys2Proof.Machine
end

