-- ==== Sys2Proof/Machine/Brand.lean ====
section
/-!
DEFINITION. Brand instructions: BCLAIM to BQUERY, SLOTRD and SLOTSW at issue (R205, R219, R322), the four stages of their commands
(R206), and their messages to other dies (R212).
-/
namespace Sys2Proof.Machine

/-! At issue (R205, R206). -/

/-- The port accepts a brand command: from now on what it takes is withdrawn from the core, whose later accesses are judged as though
it had completed (R205, R206). -/
def takeBrand (i : Instr) (push : Option Nat) (dregs : List Nat) (op : BrandOp) (p : At) (t : State) : Act :=
  .done (t.acceptCmd p 4 push dregs [] (.brand op false)) (t.seq p i)

/-- The form of a brand instruction. -/
def brandForm (dregs srcs : List Reg) : Form := { uses := dregs ++ srcs, checked := srcs, pushes := false, release := true }

/-- A channel of an R-form brand instruction's push. -/
def chanNum (push : Option Chan) : Option Nat := push.map (fun c => c.val)

/-- An operation on one named brand. -/
def brandOne (i : Instr) (d a : Reg) (push : Option Chan) (mk : Nat → BrandOp) (s : State) : Out :=
  issue i (brandForm [d] [a]) s (fun p t =>
    if !brandNameOk (t.reg p a) then .trap .reservedField 0 none
    else takeBrand i (chanNum push) [d.val] (mk (t.reg p a).toNat) p t)

/-- An operation with a target. -/
def brandTo (i : Instr) (d a b : Reg) (push : Option Chan) (mk : Nat → Nat → BrandOp) (s : State) : Out :=
  issue i (brandForm [d] [a, b]) s (fun p t =>
    if !(brandNameOk (t.reg p a) && targetOk (t.reg p b)) then .trap .reservedField 0 none
    else takeBrand i (chanNum push) [d.val] (mk (t.reg p a).toNat (t.reg p b).toNat) p t)

/-- BCLAIM (R205, R322). -/
def execBclaim (d a : Reg) (lsize : Fin 64) (sp : Spark) (s : State) : Out :=
  issue (.bclaim d a lsize sp) { brandForm [d] [a] with sp := sp } s (fun p t =>
    let ad := (t.reg p a).toNat
    if 2 ^ 60 ≤ ad || !vaTranslated ad || vaLow ad % 2 ^ lsize.val != 0 then .trap .reservedField 0 none
    else takeBrand (.bclaim d a lsize sp) (pushCh sp) [d.val] (.claim ad lsize.val) p t)

/-- BFREE (R205). -/
def execBfree (d a : Reg) (push : Option Chan) (s : State) : Out := brandOne (.bfree d a push) d a push .free s
/-- BLEND (R205). -/
def execBlend (d a b : Reg) (push : Option Chan) (s : State) : Out := brandTo (.blend d a b push) d a b push .lend s
/-- BRET (R205). -/
def execBret (d a : Reg) (push : Option Chan) (s : State) : Out := brandOne (.bret d a push) d a push .ret s
/-- BXFER (R205). -/
def execBxfer (d a b : Reg) (push : Option Chan) (s : State) : Out := brandTo (.bxfer d a b push) d a b push .xfer s
/-- BSPLIT (R205). -/
def execBsplit (d a : Reg) (push : Option Chan) (s : State) : Out := brandOne (.bsplit d a push) d a push .split s
/-- BJOIN (R205). -/
def execBjoin (d a b : Reg) (push : Option Chan) (s : State) : Out :=
  issue (.bjoin d a b push) (brandForm [d] [a, b]) s (fun p t =>
    if !(brandNameOk (t.reg p a) && brandNameOk (t.reg p b)) then .trap .reservedField 0 none
    else takeBrand (.bjoin d a b push) (chanNum push) [d.val] (.join (t.reg p a).toNat (t.reg p b).toNat) p t)
/-- BSHARE (R205). -/
def execBshare (d a b : Reg) (push : Option Chan) (s : State) : Out := brandTo (.bshare d a b push) d a b push .share s
/-- BSHARE.atomic (R205). -/
def execBshareAtomic (d a : Reg) (push : Option Chan) (s : State) : Out := brandOne (.bshareAtomic d a push) d a push .atomic s
/-- BUNSH (R205). -/
def execBunsh (d a : Reg) (push : Option Chan) (s : State) : Out := brandOne (.bunsh d a push) d a push .unshare s
/-- BQUERY (R205, R210). -/
def execBquery (d a : Reg) (push : Option Chan) (s : State) : Out := brandOne (.bquery d a push) d a push .query s

/-- SLOTRD (R219, R220). -/
def execSlotrd (d c : Reg) (slot : Fin 64) (push : Option Chan) (s : State) : Out :=
  issue (.slotrd d c slot push) (brandForm [d, c] []) s (fun p t =>
    takeBrand (.slotrd d c slot push) (chanNum push) [d.val, c.val] (.slotRead slot.val) p t)

/-- SLOTSW (R219, R221). -/
def execSlotsw (a : Reg) (slot : Fin 64) (push : Option Chan) (s : State) : Out :=
  issue (.slotsw a slot push) (brandForm [] [a]) s (fun p t =>
    if !brandNameOk (t.reg p a) then .trap .reservedField 0 none
    else takeBrand (.slotsw a slot push) (chanNum push) [] (.slotSwitch (t.reg p a).toNat slot.val) p t)

/-! The stages (R206). -/

/-- Does an operation on an entry flush (R207)? -/
def BrandOp.flushes (op : BrandOp) (b : Brand) : Bool :=
  match op with
  | .free _ | .lend _ _ | .ret _ | .xfer _ _ | .atomic _ | .slotSwitch _ _ => true
  | .share _ _ => b.state == .owned
  | .unshare _ => true
  | _ => false

/-- Does a command of a core touch a region of a die? -/
def Cmd.touches (m : Cmd) (hd base size : Nat) : Bool :=
  m.ranges.any (fun r => r.sp != .imem && vaDie r.at_ == hd && vaLow r.at_ < base + size && base < vaLow r.at_ + r.len)

/-- An accepted ATOM of the tenant on a region is not performed yet, or the interval of the issuing gang is open (R207, R209). -/
def State.atomsLeft (s : State) (d c t hd base size : Nat) : Bool :=
  (match s.ctx d c with
    | some (_, _, g) => g.atomOpen
    | none => false) ||
  s.dies.any (fun e => e.2.cores.any (fun f =>
    s.tenantOf e.1 f.1 == t && f.2.otherQ.any (fun m => match m.body with
      | .atom _ _ _ _ _ => m.touches hd base size
      | _ => false)))

/-- The entry whose accesses a command flushes, if it does (R206, R207). -/
def Die.flushing (x : Die) (d : Nat) (op : BrandOp) : Option Brand :=
  (op.names.head?.bind (x.localEntry d)).bind (fun i => if op.flushes (x.brand i) then some (x.brand i) else none)

/-- The slots of the batch of an SMPL: those that it has taken, or those that its list names as it stands (R275, R277). -/
def State.slotsOf (s : State) (d c : Nat) (e : Cmd) : List Nat :=
  match e.body with
  | .smpl _ _ list _ n =>
    let named : List Nat := match s.readAt d c list (4 * n) with
      | .ok bs _ => (rowWords n bs).map (fun w => w.toNat)
      | .bad _ => []
    (match (s.die d).job with
      | some (.smpl core id slots _ _) => if core = c ∧ id = e.id then slots else named
      | _ => named)
  | _ => []

/-- Does a batch of core c, under way or waiting, read a mask in a region (R206, R277)? -/
def State.maskTouches (s : State) (d c : Nat) (e : Cmd) (hdie base size : Nat) : Bool :=
  match e.body with
  | .smpl _ v _ _ _ =>
    (s.slotsOf d c e).any (fun n =>
      let a := (Tab.get (s.die d).slots n SeqSlot.reset).mask
      a != 0 && { e with ranges := (s.spot d c dataSpace a.toNat ((v + 7) / 8)).rng ((v + 7) / 8) false }.touches hdie base size)
  | _ => false

/-- Has the flush of a command ended (R206)? -/
def State.flushed (s : State) (d c : Nat) (m : Cmd) (op : BrandOp) : Bool :=
  let y := s.core d c
  match (s.die d).flushing d op with
  | none => true
  | some b =>
    let size := 2 ^ b.lsize
    if b.state == .atomic then !s.atomsLeft d c (s.tenantOf d c) b.hdie b.base size
    else
      y.cmds.all (fun e => m.id ≤ e.id || e.isPushing
        || !({ e with ranges := s.rangesOf d c e }.touches b.hdie b.base size || s.maskTouches d c e b.hdie b.base size))
        && y.vstores.all (fun v => m.id < v.seq)

/-- The stores in the strands' tables and the dirty lines that a flush performs (R15, R189, R206). -/
def State.flush (s : State) (d c : Nat) : State :=
  let mine := [0, 1, 2].flatMap (fun k => s.agentsOf d c k)
  s.modDie d (fun x => (x.setCore c (strandIds.foldl Core.release (x.core c))).cleanCache (c / 4) (fun e => mine.contains e.agent))

/-- A brand command ends (R206, R323). -/
def State.endBrand (s : State) (d c id : Nat) (a : BrandAnswer) : State :=
  match (s.core d c).cmd 4 id with
  | none => s
  | some m =>
    match a with
    | .failed cause => s.failCmd d c 4 m cause 0
    | .done vals => s.complete d c 4 m ((m.dregs.zip vals).map (fun e => (e.1, BitVec.ofNat 64 e.2)))

/-- The other die that an operation goes to: its home, or its target's (R212). -/
def BrandOp.far (op : BrandOp) (d : Nat) : Option Nat :=
  if op.home d ≠ d then some (op.home d)
  else
    match op.gives with
    | some (target, _) => if target / 65536 % 4096 = d then none else some (target / 65536 % 4096)
    | none => none

/-- An operation whose flush has ended: it changes its entry here, or leaves as a message (R206, R212). -/
def State.performBrand (s : State) (d c : Nat) (m : Cmd) (op : BrandOp) : State :=
  let t := s.tenantOf d c
  let agent := s.coreAgent d c
  match op.far d with
  | none =>
    let r := s.changeBrandAt d d t agent (agentSlot agent) op
    (r.state.settleProxies d d agent (r.answer.gives op) r.touched r.pledge).endBrand d c m.id r.answer
  | some k =>
    if !s.inPod k then s.endBrand d c m.id (.failed .unowned)
    else
      { s.putCmd d c 4 { m with body := .brand op true } with
        brandMsgs := s.brandMsgs ++ [{ tr := s.transit d k agent, core := c, cmd := m.id, tenant := t, agent := agent, op := op,
                                       reply := none, touched := [], pledge := none }] }

/-- BRAND_CHANGE (R206, R212, R323): the head of a core's brand queue ends its flush; 8 cycles later it changes its entry, or it leaves
for another die at once. An operation that does not flush counts the 8 cycles from its start. -/
def execBrandChange (d c : Nat) (s : State) : Out :=
  match (s.core d c).brandQ with
  | [] => .next s
  | m :: _ =>
    match m.body with
    | .brand op false =>
      let now := (s.die d).cycle tableIsland
      if m.isQueued then
        if s.mayStart d c 4 && s.flushed d c m op then
          let s1 := if ((s.die d).flushing d op).isSome then s.flush d c else s
          .next (if (op.far d).isSome then s1.performBrand d c (m.run now 0) op else s1.putCmd d c 4 (m.run now 8))
        else .next s
      else if m.timeUp now then .next (s.performBrand d c m op) else .next s
    | _ => .next s

/-- BRAND_MESSAGE (R212): the n-th brand message has come to the home die and changes the home entry; one whose route names a failed port
ends its command (R255). -/
def execBrandMessage (n : Nat) (s : State) : Out :=
  match s.brandMsgs[n]? with
  | none => .next s
  | some b =>
    if b.reply.isSome then .next s
    else
      match s.hop b.tr with
      | .stay => .next s
      | .lost => .next ((s.endMsg n).endBrand b.tr.fromDie b.core b.cmd (.failed .unowned))
      | .here =>
        let d := b.tr.fromDie
        let r := (s.endMsg n).changeBrandAt d (b.op.home d) b.tenant b.agent (agentSlot b.agent) b.op
        .next { r.state with brandMsgs := r.state.brandMsgs ++
          [{ b with tr := r.state.reply b.tr, reply := some r.answer, touched := r.touched, pledge := r.pledge }] }

/-- Is an agent there for what it is given: a live context of the die, or no context at all? -/
def State.agentLive (s : State) (d a : Nat) : Bool :=
  2 < agentClass a ||
    (match s.gang d (agentSlot a) with
      | some g => a % 64 < g.cores.length
      | none => false)

/-- A reply has come to its end, here or on a failed port: the proxies follow the home entries that changed, and the command ends. A role that
came to a context which has failed since takes its fate (R211, R212, R215). -/
def State.replied (s : State) (b : BrandMsg) (a ends : BrandAnswer) : State :=
  let d := b.tr.toDie
  let settled := s.settleProxies d (b.op.home d) b.agent (a.gives b.op) b.touched b.pledge
  if ((s.core d b.core).cmd 4 b.cmd).isNone && !s.agentLive d b.agent then settled.fates d [b.agent]
  else settled.endBrand d b.core b.cmd ends

/-- BRAND_REPLY (R212): a reply returns, and the command completes; one whose route names a failed port ends its command (R255). -/
def execBrandReply (n : Nat) (s : State) : Out :=
  match s.brandMsgs[n]? with
  | none => .next s
  | some b =>
    match b.reply with
    | none => .next s
    | some a =>
      match s.hop b.tr with
      | .stay => .next s
      | .lost => .next ((s.endMsg n).replied b a (.failed .unowned))
      | .here => .next ((s.endMsg n).replied b a a)

end Sys2Proof.Machine
end

