-- ==== Sys2Proof/Machine/Control.lean ====
section
/-!
DEFINITION. Control transfers: B, BC, BRZ, CALL (R321), CALLX through the import table (R122 to R124), JX (R342), LOOP with window
rotation (R116, R351), EXIT (R51), TRAP and SYSC (R375), ERET (R339).
-/
namespace Sys2Proof.Machine

/-- The target of a transfer by an I form: word 0 plus four times the immediate (R74). -/
def Strand.near (z : Strand) (imm : BitVec 20) : Int := z.pc.toNat + 4 * sext imm
/-- The target of a transfer by an X form: word 0 plus the literal (R74). -/
def Strand.long (z : Strand) (lit : BitVec 32) : Int := z.pc.toNat + sext lit

/-- A transfer that may write a link register. -/
def jump (i : Instr) (f : Form) (s : State) (g : Strand → Strand) (target : Strand → Int) : Out :=
  issue i f s (fun p t => .done (t.modStrand p g) (target (t.strand p)))

/-- B (R321). -/
def execB (imm : BitVec 20) (s : State) : Out := jump (.b imm) {} s id (fun z => z.near imm)

/-- B.long (R321). -/
def execBLong (lit : BitVec 32) (s : State) : Out := jump (.bLong lit) {} s id (fun z => z.long lit)

/-- BC (R321). -/
def execBc (cc : Cond) (imm : BitVec 20) (s : State) : Out :=
  jump (.bc cc imm) { flags := true } s id (fun z => if condHolds z.flags cc then z.near imm else z.after (.bc cc imm))

/-- BRZ (R321). -/
def execBrz (nz : Bool) (a : Reg) (imm : BitVec 20) (s : State) : Out :=
  jump (.brz nz a imm) { uses := [a], checked := [a] } s id (fun z =>
    if (z.reg a == 0) != nz then z.near imm else z.after (.brz nz a imm))

/-- s1 takes the address after the instruction (R321). -/
def Strand.link (z : Strand) (i : Instr) : Strand := z.setReg 1 (wrap64 (z.after i))

/-- CALL (R321). -/
def execCall (imm : BitVec 20) (s : State) : Out :=
  jump (.call imm) { uses := [1] } s (fun z => z.link (.call imm)) (fun z => z.near imm)

/-- CALL.long (R321). -/
def execCallLong (lit : BitVec 32) (s : State) : Out :=
  jump (.callLong lit) { uses := [1] } s (fun z => z.link (.callLong lit)) (fun z => z.long lit)

/-- CALLX of an import index (R123, R124): the entry is one 8-byte scratchpad read. -/
def callx (i : Instr) (index : Word) (p : At) (t : State) : Act :=
  let z := t.strand p
  let y := t.core p.d p.c
  if 255 < index.toNat then .trap .fetchInvalid index none
  else if z.importTab.toNat % 8 ≠ 0 then .trap .reservedField 0 none
  else
    match t.reach p .read (addrSum z.importTab (8 * index.toNat)) 8 8 with
    | .ends a => a
    | .at_ off =>
      let e := ofLeBytes (strandBytes y p.k off 8)
      if y.meetsStore p.k off 8 then .stay
      else if e / 2 ^ 63 % 2 = 0 then .trap .fetchInvalid index none
      else if e / 2 ^ 37 % 2 ^ 26 ≠ 0 ∨ e / 2 ^ 18 % 2 ^ 14 ≠ 0 ∨ e % 4 ≠ 0 ∨ 16 < e / 2 ^ 32 % 32 then .trap .reservedField 0 none
      else if z.vsize.toNat < e / 2 ^ 32 % 32 then .trap .windowName 0 none
      else
        .done ((t.orStatus p (stIf (y.races p.k off 8) stXrace)).modStrand p (fun z => z.link i)) ((e % 2 ^ 18 : Nat) : Int)

/-- CALLX by a register (R123). -/
def execCallxReg (a : Reg) (s : State) : Out :=
  issue (.callxReg a) { uses := [a, 1], checked := [a] } s (fun p t => callx (.callxReg a) (t.reg p a) p t)

/-- CALLX by an immediate (R123). -/
def execCallxImm (imm : BitVec 20) (s : State) : Out :=
  issue (.callxImm imm) { uses := [1] } s (fun p t => callx (.callxImm imm) (wrap64 (sext imm)) p t)

/-- JX (R342): the register is read before sD is written. -/
def execJx (d a : Reg) (s : State) : Out :=
  issue (.jx d a) { uses := [d, a], checked := [a] } s (fun p t =>
    let target := t.reg p a
    if target.toNat % 4 ≠ 0 then .trap .reservedField 0 none
    else .done (t.modStrand p (fun z => z.setReg d (wrap64 (z.after (.jx d a))))) (target.toNat : Int))

/-- The rotation of LOOP (R116). -/
def Strand.rotate (z : Strand) (rv rp : Bool) : Strand :=
  let v := z.vsize.toNat
  { z with vrot := if rv then BitVec.ofNat 4 ((z.vrot.toNat + v - 1) % v) else z.vrot,
           prot := if rp then BitVec.ofNat 3 ((z.prot.toNat + 7) % 8) else z.prot }

/-- LOOP (R351), the counter's residue carried. -/
def execLoop (rv rp : Bool) (a : Reg) (imm : BitVec 20) (s : State) : Out :=
  jump (.loop rv rp a imm) { uses := [a] } s
    (fun z => (z.setSReg a ((z.sreg a).sub (SReg.of 1))).rotate rv rp)
    (fun z => if z.reg a - 1 ≠ 0 then z.near imm else z.after (.loop rv rp a imm))

/-- Do all strands of a gang stand at BAR or have they exited (R42)? -/
def State.allArrived (s : State) (d : Nat) (g : Gang) : Bool :=
  g.cores.all (fun c => strandIds.all (fun k => let z := s.strand ⟨d, c, k⟩; z.exited || z.wait == .bar))

/-- Does some strand of a gang wait at BAR? -/
def State.anyAtBar (s : State) (d : Nat) (g : Gang) : Bool :=
  g.cores.any (fun c => strandIds.any (fun k => (s.strand ⟨d, c, k⟩).wait == .bar))

/-- Is a link engine of the die RUNNING (R42, R251)? -/
def Die.engineRunning (x : Die) : Bool := x.ports.any (fun p => p.2.state == .running)

/-- The tick in which a gang's barrier completes is noted, in Free mode the cycle of its islands (R5, R42). -/
def State.noteBar (s : State) (d slot : Nat) : State :=
  match s.gang d slot with
  | none => s
  | some g =>
    if g.barDone.isNone && s.allArrived d g && s.anyAtBar d g then
      s.setGang d slot { g with barDone := some (if g.locked then s.now d else s.cyc d (g.cores.headD 0), !(s.die d).engineRunning) }
    else s

/-- The cycle in which a core's CBAR completes is noted (R50). -/
def State.noteCbar (s : State) (d c : Nat) : State :=
  let y := s.core d c
  let zs := strandIds.map y.strand
  if y.cbarDone.isNone && zs.all (fun z => z.exited || z.wait == .cbar) && zs.any (fun z => z.wait == .cbar) then
    s.setCore d c { y with cbarDone := some (s.cyc d c) }
  else s

/-- The barriers of a strand's core and gang are looked at again. -/
def State.noteArrivals (s : State) (p : At) : State :=
  let s1 := s.noteCbar p.d p.c
  match (s.core p.d p.c).ctx with
  | some (slot, _) => s1.noteBar p.d slot
  | none => s1

/-- The outcome of exec with a change of the state that it answers. -/
def Out.after (o : Out) (f : State → State) : Out :=
  match o with
  | .next s => .next (f s)
  | .fault e => .fault e
  | .refused r => .refused r

/-- The barriers are looked at after the acting strand's instruction. -/
def noteBarriers (s : State) (o : Out) : Out :=
  match s.actor with
  | .strand d c k => Out.after o (fun t => t.noteArrivals ⟨d, c, k⟩)
  | _ => o

/-- EXIT (R51): the strand stops; it counts as arrived at every barrier; its pending records become ORPHANs (R291). -/
def execExit (s : State) : Out :=
  noteBarriers s (issue .exit { release := true } s (fun p t =>
    let y := t.core p.d p.c
    let mine := y.records.filter (fun r => r.strand == p.k)
    let t1 := mine.foldl (fun t r => t.orphan p.d p.c r) t
    let t2 := t1.modCore p.d p.c (fun y => { y with records := y.records.filter (fun r => r.strand != p.k) })
    .done (t2.modStrand p (fun z => { z with exited := true })) (t.seq p .exit)))

/-- TRAP (R375). -/
def execTrap (imm : BitVec 20) (s : State) : Out :=
  issue (.trap imm) {} s (fun p t => .soft t (t.seq p (.trap imm)) .softTrap (wrap64 (sext imm)))

/-- SYSC (R375). -/
def execSysc (imm : BitVec 20) (s : State) : Out :=
  issue (.sysc imm) {} s (fun p t => .soft t (t.seq p (.sysc imm)) .syscall (wrap64 (sext imm)))

/-- ERET (R339). -/
def execEret (s : State) : Out :=
  issue .eret {} s (fun p t =>
    let z := t.strand p
    if z.trappc.toNat % 4 ≠ 0 then .trap .reservedField 0 none
    else .done t z.returnFromTrap.pc.toNat)

end Sys2Proof.Machine
end

