-- ==== Sys2Proof/Machine/Special.lean ====
section
/-!
DEFINITION. Special registers: RDS (R106 to R109, R368), WRS with its window, predicate and page forms (R113, R115, R128, R404),
and the capability list of CAPR (R305, R325).
-/
namespace Sys2Proof.Machine

/-- %cycle (R44): ticks since the segment's first issue in Locked mode, issues in Free mode; it holds at its largest value. -/
def State.cycle (s : State) (p : At) : Nat :=
  let z := s.strand p
  let n := if s.locked p.d p.c then (if z.segCount = 0 then 0 else s.now p.d - z.segStart) else z.segCount
  min n 0xFFFFFFFF

/-- %qstat: present entries of q0 to q3, then entries of w0 and w1 (R109). -/
def Core.qstat (y : Core) : Nat :=
  let q (n : Nat) : Nat := ((Tab.get y.opq n []).filter (fun e => e.present)).length
  q 0 + q 1 * 8 + q 2 * 64 + q 3 * 512 + (y.storeQueue 0).length * 4096 + (y.storeQueue 1).length * 32768

/-- %imcode: the pages that hold code (R106). -/
def Core.imcode (y : Core) : Nat :=
  (List.range 64).foldl (fun n i => if y.page i = .code then n + 2 ^ i else n) 0

/-- Is a special register timing-dependent, access code T (R106)? -/
def timed : RdReg → Bool
  | .physcore | .qstat | .tick | .imcode => true
  | _ => false

/-- The value of a special register as it stands (R106). -/
def State.special (s : State) (p : At) (n : RdReg) : Nat :=
  let z := s.strand p
  let y := s.core p.d p.c
  let ids : Nat × Nat × Nat := match s.ctx p.d p.c with
    | some (_, _, g) => logicalIds g.cores p.c
    | none => (0, 0, 0)
  match n with
  | .strand => p.k
  | .core => ids.2.2
  | .clamp => ids.2.1
  | .group => ids.1
  | .die => p.d
  | .physcore => p.c
  | .args => z.args.toNat
  | .seed => (s.seed p.d p.c).toNat
  | .mode => if s.locked p.d p.c then 1 else 0
  | .tenant => s.tenantOf p.d p.c
  | .importTab => z.importTab.toNat
  | .flags => (z.flags &&& flagsMask).toNat
  | .cnt => z.cnt.toNat
  | .status => z.status.toNat
  | .qstat => y.qstat
  | .vrot => z.vrot.toNat
  | .prot => z.prot.toNat
  | .vbase => z.vbase.toNat
  | .vsize => z.vsize.toNat
  | .pbase => z.pbase.toNat
  | .trapvec => z.trapvec.toNat
  | .trapcause => z.trapcause.toNat
  | .trappc => z.trappc.toNat
  | .trapinfo => z.trapinfo.toNat
  | .trapsave => z.trapsave.toNat
  | .cycle => s.cycle p
  | .tick => s.now p.d
  | .steptick => z.steptick.toNat
  | .imcode => y.imcode

/-- RDS (R368): a timing-dependent register reads as zero with NONDET in a deterministic launch (R57, R107). -/
def execRds (d : Reg) (n : RdReg) (s : State) : Out :=
  issue (.rds d n) { uses := [d], flags := n == .flags } s (fun p t =>
    let hide := timed n && t.det p.d p.c
    .done (t.modStrand p (fun z =>
        { z.setReg d (if hide then 0 else BitVec.ofNat 64 (t.special p n)) with
          status := z.status ||| stIf hide stNondet })) (t.seq p (.rds d n)))

/-- A plain special register takes a value, cut to its width (R107, R404). -/
def Strand.setSpecial (z : Strand) (n : WrReg) (v : Word) : Strand :=
  match n with
  | .importTab => { z with importTab := v }
  | .flags => { z with flags := v.setWidth 8 &&& flagsMask }
  | .status => { z with status := v.setWidth 7 }
  | .prot => { z with prot := v.setWidth 3 }
  | .trapvec => { z with trapvec := v.setWidth 18 }
  | .trappc => { z with trappc := v.setWidth 18 }
  | .trapsave => { z with trapsave := v }
  | .steptick => { z with steptick := v }

/-- WRS of a plain register (R404): a %trapvec that is no multiple of 4 is refused. -/
def execWrs (n : WrReg) (a : Reg) (s : State) : Out :=
  issue (.wrs n a) { uses := [a], checked := [a], flags := n == .flags } s (fun p t =>
    let v := t.reg p a
    if n = .trapvec ∧ v.toNat % 4 ≠ 0 then .trap .reservedField 0 none
    else .done (t.modStrand p (fun z => z.setSpecial n v)) (t.seq p (.wrs n a)))

/-- WRS to %imfree (R128): pages that hold code become FREE; a FILLING page among those named refuses it. -/
def execWrsImfree (a : Reg) (s : State) : Out :=
  issue (.wrsImfree a) { uses := [a], checked := [a] } s (fun p t =>
    let v := t.reg p a
    let y := t.core p.d p.c
    let named := (List.range 64).filter (fun i => v.getLsbD i)
    if named.any (fun i => y.page i == .filling) then .trap .reservedField 0 none
    else
      .done (t.setCore p.d p.c { y with pages := named.foldl (fun q i => Tab.set q i .free) y.pages }) (t.seq p (.wrsImfree a)))

/-- May a window register take a value (R113)? The whole 64-bit value is judged (R107). -/
def Strand.windowOk (z : Strand) (n : WinReg) (v : Nat) : Bool :=
  match n with
  | .vbase => 16 ≤ v && v + z.vsize.toNat ≤ 64
  | .vsize => 1 ≤ v && v ≤ 16 && z.vbase.toNat + v ≤ 64
  | .vrot => v < z.vsize.toNat

/-- A window register takes a value; a new base or size sets the rotation to 0 (R113). -/
def Strand.setWindow (z : Strand) (n : WinReg) (v : Nat) : Strand :=
  match n with
  | .vbase => { z with vbase := BitVec.ofNat 6 v, vrot := 0 }
  | .vsize => { z with vsize := BitVec.ofNat 5 v, vrot := 0 }
  | .vrot => { z with vrot := BitVec.ofNat 4 v }

/-- WRS to %vbase, %vsize or %vrot (R113). -/
def execWrsWindow (n : WinReg) (a : Reg) (s : State) : Out :=
  issue (.wrsWindow n a) { uses := [a], checked := [a] } s (fun p t =>
    let v := (t.reg p a).toNat
    if (t.strand p).windowOk n v then .done (t.modStrand p (fun z => z.setWindow n v)) (t.seq p (.wrsWindow n a))
    else .trap .reservedField 0 none)

/-- WRS to %pbase (R115). -/
def execWrsPbase (a : Reg) (s : State) : Out :=
  issue (.wrsPbase a) { uses := [a], checked := [a] } s (fun p t =>
    let v := (t.reg p a).toNat
    if 8 ≤ v ∧ v ≤ 32 then .done (t.modStrand p (fun z => { z with pbase := BitVec.ofNat 6 v })) (t.seq p (.wrsPbase a))
    else .trap .reservedField 0 none)

/-- Is a capability entry physical (R305)? -/
def capPhysical (i : Nat) : Bool := 16 ≤ i && i ≤ 19

/-- Bits of capability entry 0 (R305). -/
def capBits : Nat := 0x3FF

/-- A capability entry read by core c of die d (R305); the serial number and the temperature are free values (log entry 4). -/
def State.capability (s : State) (d c i : Nat) : Word :=
  match i with
  | 0 => BitVec.ofNat 64 capBits
  | 2 => 0x0C020180
  | 3 => BitVec.ofNat 64 (64 + 4 * 2 ^ 16 + 2 * 2 ^ 24)
  | 4 => BitVec.ofNat 64 (spadSize + imemSize * 2 ^ 32)
  | 5 => BitVec.ofNat 64 hbmSize
  | 6 => BitVec.ofNat 64 (2048 + 2 ^ 20 * 2 ^ 16)
  | 7 => BitVec.ofNat 64 (65536 + 16384 * 2 ^ 32)
  | 8 => 0x13
  | 16 => Config.sensor d 16 0
  | 17 => BitVec.ofNat 64 (125 * Tab.get (s.die d).islands (c / 4) 8)
  | 18 => Config.sensor d 18 s.freeCount
  | 19 => (s.die d).fwVersion
  | _ => 0

/-- CAPR (R325). -/
def execCapr (d a : Reg) (imm : BitVec 20) (s : State) : Out :=
  issue (.capr d a imm) { uses := [d, a], checked := [a] } s (fun p t =>
    let i := (t.reg p a).toInt + sext imm
    if i < 0 ∨ 63 < i then .trap .reservedField 0 none
    else
      let hide := capPhysical i.toNat && t.det p.d p.c
      .done (State.modStrand { t with freeCount := t.freeCount + (if i = 18 then 1 else 0) } p (fun z =>
          { z.setReg d (if hide then 0 else t.capability p.d p.c i.toNat) with
            status := z.status ||| stIf hide stNondet })) (t.seq p (.capr d a imm)))

end Sys2Proof.Machine
end

