-- ==== Sys2Proof/Machine/Sync.lean ====
section
/-!
DEFINITION. Joins and waits of strands: sparks (R228, R372), QFENCE (R230), CWAIT (R336), BAR and CBAR with their releases and
deadlines (R42, R50), WAITT (R403), SEGEND (R46, R197), AFENCE (R315), the landing of VFLAGs (R111), the wait deadline (R47) and
the delivery of engine records (R290, R291).
-/
namespace Sys2Proof.Machine

/-- SPUSH (R372): its push is applied when it and all others of the channel fit; else it takes its place among them, and one that is
held leaves the strand before the instruction (R228). -/
def execSpush (ch : Chan) (s : State) : Out :=
  issue (.spush ch) { release := true } s (fun p t =>
    let y := t.core p.d p.c
    if y.held.any (fun h => h.by_ == Pusher.spush p.k) then .stay
    else if y.spark ch + (y.pushesOf ch).length < 15 then .done (t.setCore p.d p.c (y.setSpark ch (y.spark ch + 1))) (t.seq p (.spush ch))
    else
      .stayAt (t.setCore p.d p.c ((y.push ch.val (t.coreAgent p.d p.c) p.k (Pusher.spush p.k)).occupy (y.strand p.k) p.k
        (t.cyc p.d p.c) 0 (.spush ch))))

/-- SPOP (R372): it issues with the pop that it was granted. -/
def execSpop (ch : Chan) (s : State) : Out :=
  issue (.spop ch) { sp := .pop ch } s (fun p t => .done t (t.seq p (.spop ch)))

/-- SPARK_POP_GRANT (R228): of the strands whose instruction needs only the channel's pop, the first in the order from cycle mod 4 may
take it in this cycle, when the pushes of the cycle leave a count above zero. -/
def execSparkPopGrant (d c ch : Nat) (s : State) : Out :=
  let y := s.core d c
  let now := s.cyc d c
  let waits (k : Nat) : Bool := (y.strand k).running && (y.strand k).popWait == some ch
  match ([0, 1, 2, 3].map (fun i => (now + i) % 4)).find? waits with
  | none => .next s
  | some k =>
    whenever (0 < y.spark ch + (y.pushesOf ch).length && Tab.get y.popAt ch 0 ≤ now && !strandIds.any (fun j =>
        (y.strand j).granted && (y.strand j).popWait == some ch)) s
      (s.modStrand ⟨d, c, k⟩ (fun z => { z with granted := true }))

/-- What a push held back goes on when it is applied: a SPUSH retires, a strand leaves its wait, a command has completed (R72,
R228). -/
def State.pushApplied (s : State) (d c : Nat) (h : HeldPush) : State :=
  match h.by_ with
  | .spush k =>
    let p : At := ⟨d, c, k⟩
    let i : Instr := .spush (Fin.ofNat 8 h.ch)
    (s.retire p i 0 (s.seq p i) .none none).modCore d c (fun y => { y with unitAt := (s.core d c).unitAt })
  | .retire k => s.modStrand ⟨d, c, k⟩ (fun z => if z.wait = .heldPush h.ch then { z with wait := .none } else z)
  | .cmd id =>
    s.modCore d c (fun y => [0, 1, 2, 3, 4, 5, 6].foldl (fun y q =>
      match y.cmd q id with
      | some m => y.dropCmd q m
      | none => y) y)
  | .outside => s

/-- A push that is not applied is held: its strand waits (R228). -/
def State.pushKept (s : State) (d c : Nat) (h : HeldPush) : State :=
  let s1 := s.modCore d c (fun y => { y with held := y.held.map (fun g => if g = h then { g with fresh := false } else g) })
  match h.by_ with
  | .retire k => s1.modStrand ⟨d, c, k⟩ (fun z => if z.wait = .none then { z with wait := .heldPush h.ch } else z)
  | _ => s1

/-- The pushes of a channel, in order: each is applied while the count is below 15, the others are held (R228). -/
def State.applyPushes (s : State) (d c ch : Nat) : List HeldPush → State
  | [] => s
  | h :: hs =>
    let y := s.core d c
    if y.spark ch < 15 then
      ((s.setCore d c ({ y with held := y.held.erase h }.setSpark ch (y.spark ch + 1))).pushApplied d c h).applyPushes d c ch hs
    else (s.pushKept d c h).applyPushes d c ch hs

/-- HELD_PUSH_RETRY (R228): the first step of a channel's cycle, held pushes ahead of the newer ones. -/
def execHeldPushRetry (d c ch : Nat) (s : State) : Out := .next (s.applyPushes d c ch ((s.core d c).pushOrder ch))

/-- The commands of the queues that a QFENCE mask names (R230). -/
def Core.fenced (y : Core) (mask : Nat) : List Nat :=
  ([0, 1, 2, 3, 4, 5, 6].filter (fun q => mask / 2 ^ q % 2 == 1)).flatMap y.ids

/-- QFENCE (R230). -/
def execQfence (mask : Fin 128) (s : State) : Out :=
  issue (.qfence mask) { release := true } s (fun p t =>
    let ids := (t.core p.d p.c).fenced mask.val
    if ids = [] then .done t (t.seq p (.qfence mask)) else .wait t (t.seq p (.qfence mask)) (.qfence ids))

/-- CWAIT (R336). -/
def execCwait (q : QName) (a : Reg) (s : State) : Out :=
  issue (.cwait q a) { uses := [a], checked := [a], release := true } s (fun p t =>
    let ids := (t.core p.d p.c).ids q.num
    let n := (t.reg p a).toNat
    if ids.length ≤ n then .done t (t.seq p (.cwait q a)) else .wait t (t.seq p (.cwait q a)) (.cwait ids n))

/-- The form of a BAR: its operands are read in Locked mode only (R41, R42). -/
def State.barForm (s : State) (a : Reg) : Form :=
  match s.actor with
  | .strand d c _ => if s.locked d c then { uses := [a], checked := [a], release := true } else { release := true }
  | _ => { release := true }

/-- BAR (R42). In Locked mode every arrival names the same deadline and step, not passed yet. -/
def execBar (stp : Bool) (a : Reg) (imm : BitVec 20) (s : State) : Out :=
  noteBarriers s (issue (.bar stp a imm) (s.barForm a) s (fun p t =>
    let next := t.seq p (.bar stp a imm)
    match t.ctx p.d p.c with
    | none => .wait t next .bar
    | some (slot, _, g) =>
      if g.locked then
        let rel := (t.reg p a).toInt + sext imm
        let dl : Int := g.start + rel
        let now : Int := t.now p.d
        match g.barDl with
        | none =>
          if rel < 0 ∨ dl < now then .fail .timingLate
          else .wait (t.setGang p.d slot { g with barDl := some (dl, stp) }) next .bar
        | some (dl0, stp0) =>
          if dl ≠ dl0 ∨ stp ≠ stp0 then .fail .planConflict
          else if dl0 < now then .fail .timingLate else .wait t next .bar
      else .wait t next .bar))

/-- May the barrier of a gang release in this tick (R42)? -/
def State.barOpen (s : State) (d : Nat) (g : Gang) : Bool :=
  match g.barDone with
  | none => false
  | some (t, idle) =>
    let now := s.now d
    if g.locked then
      match g.barDl with
      | none => false
      | some (dl, false) => dl ≤ (now : Int)
      | some (_, true) =>
        if idle then t < now
        else
          match (s.die d).stepEnd with
          | some e => t ≤ e && e < now
          | none => false
    else t + 16 ≤ s.cyc d (g.cores.headD 0)

/-- The strands of a core that wait in a way go on. -/
def Core.unblock (y : Core) (w : Wait) : Core :=
  { y with strands := y.strands.map (fun e => if e.2.wait = w then (e.1, { e.2 with wait := .none }) else e) }

/-- BAR_RELEASE (R42, R43, R221): every waiter goes on, and the switch point of the gang's weight slots comes with it. -/
def execBarRelease (d slot : Nat) (s : State) : Out :=
  match s.gang d slot with
  | none => .next s
  | some g =>
    whenever (g.phase.active && s.barOpen d g) s
      (((s.each g.cores (fun s c => s.modCore d c (fun y => y.unblock .bar))).setGang d slot
        { g with barDl := none, barDone := none }).switchPoint d slot)

/-- The first strand of a gang, in rank order, that has not arrived at its barrier: rank, core, strand. -/
def State.missing (s : State) (d : Nat) (g : Gang) : Option (Nat × Nat) :=
  (g.cores.flatMap (fun c => strandIds.map (fun k => (c, k)))).find? (fun e =>
    let z := s.strand ⟨d, e.1, e.2⟩
    !(z.exited || z.wait == .bar))

/-- BAR_DEADLINE (R42): at the deadline with a member missing, TIMING_LATE against the lowest rank missing. -/
def execBarDeadline (d slot : Nat) (s : State) : Out :=
  match s.gang d slot with
  | none => .next s
  | some g =>
    match g.barDl, s.missing d g with
    | some (dl, _), some (c, k) =>
      whenever (g.locked && dl ≤ (s.now d : Int)) s
        (s.timingFault d c k (s.strand ⟨d, c, k⟩).pc.toNat .timingLate)
    | _, _ => .next s

/-- CBAR (R50). -/
def execCbar (s : State) : Out :=
  noteBarriers s (issue .cbar { release := true } s (fun p t => .wait t (t.seq p .cbar) .cbar))

/-- CBAR_RELEASE (R50): two cycles after the last arrival. -/
def execCbarRelease (d c : Nat) (s : State) : Out :=
  let y := s.core d c
  match y.cbarDone with
  | none => .next s
  | some t => whenever (t + 2 ≤ s.cyc d c) s (s.setCore d c { y.unblock .cbar with cbarDone := none })

/-- WAITT to an exact target relative to START (R403). -/
def waitt (i : Instr) (rel : Int) (p : At) (t : State) : Act :=
  let target : Int := t.launchStart p.d p.c + rel
  let now : Int := t.now p.d
  if target < now then (if t.locked p.d p.c then .fail .timingLate else .done t (t.seq p i))
  else .wait t (t.seq p i) (.waitt target)

/-- WAITT, register form (R403). -/
def execWaittReg (a : Reg) (s : State) : Out :=
  issue (.waittReg a) { uses := [a], checked := [a] } s (fun p t => waitt (.waittReg a) (t.reg p a).toInt p t)

/-- WAITT, immediate form (R403). -/
def execWaittImm (a : Reg) (imm : BitVec 20) (s : State) : Out :=
  issue (.waittImm a imm) { uses := [a], checked := [a] } s (fun p t =>
    waitt (.waittImm a imm) ((t.reg p a).toInt + sext imm) p t)

/-- WAITT_TARGET (R403): pod time reaches the target. -/
def execWaittTarget (d c k : Nat) (s : State) : Out :=
  let p : At := ⟨d, c, k⟩
  match (s.strand p).wait with
  | .waitt target => whenever (target ≤ (s.now d : Int)) s (s.modStrand p (fun z => { z with wait := .none }))
  | _ => .next s

/-- Does a TLB entry of a tenant meet a range of translated space (R197)? -/
def TlbEntry.inRange (e : TlbEntry) (t start len : Nat) : Bool := e.tenant == t && start < e.va + e.size && e.va < start + len

/-- Has a core a chunk on its way to or from another die, translated here under a leaf of a range (R197)? -/
def Core.chunkUnder (y : Core) (t start len : Nat) : Bool :=
  y.copyQ.any (fun m => match m.body with
    | .copy j => j.phase == .remote && j.leaf.any (fun e => e.inRange t start len)
    | _ => false)

/-- A core context acknowledges every pending invalidation of its tenant; one that has a chunk under a dropped entry on its way still
owes it (R197). -/
def State.acknowledge (s : State) (d c : Nat) : State :=
  match (s.core d c).ctx with
  | none => s
  | some key =>
    let mine := (s.die d).tlbis.filter (fun i => i.pending.contains key)
    let s1 := s.modCore d c (fun y =>
      { y with tlb := y.tlb.filter (fun e => !mine.any (fun i => e.inRange i.tenant i.start i.len)) })
    s1.modDie d (fun x => { x with tlbis := x.tlbis.map (fun i =>
      { i with pending := i.pending.filter (fun q => q != key),
               late := if i.pending.contains key && (s.core d c).chunkUnder i.tenant i.start i.len then i.late ++ [key] else i.late }) })

/-- A strand's segment begins anew (R46). -/
def Strand.newSegment (z : Strand) : Strand := { z with segCount := 0, segStart := 0, sig := 0xFFFFFFFF#32, void := false }

/-- SEGEND (R46): the signature first, then in Locked mode the cycle count. -/
def execSegend (nosig : Bool) (a : Reg) (lit : BitVec 32) (s : State) : Out :=
  issue (.segend nosig a lit) { uses := [a], checked := [a] } s (fun p t =>
    let z := t.strand p
    if !z.void && !nosig && ~~~z.sig != lit then .fail .segSignature
    else if !z.void && t.locked p.d p.c && z.reg a != 0 && t.cycle p != (z.reg a).toNat then .fail .segCycles
    else .closed ((t.acknowledge p.d p.c).modStrand p Strand.newSegment) (t.seq p (.segend nosig a lit)))

/-- AFENCE (R315). -/
def execAfence (s : State) : Out :=
  issue .afence {} s (fun p t =>
    let opened := match t.ctx p.d p.c with
      | some (_, _, g) => g.atomOpen
      | none => false
    if opened && !(t.strand p).arrivedAtomic then
      .wait (t.modStrand p (fun z => { z with arrivedAtomic := true })) (t.seq p .afence) .afence
    else .done t (t.seq p .afence))

/-- VFLAG_LAND (R111): results whose count has run out become visible. -/
def execVflagLand (d c k : Nat) (s : State) : Out := .next (s.modStrand ⟨d, c, k⟩ Strand.landDue)

/-- Is the strand in a wait that %steptick bounds (R47)? -/
def Strand.boundedWait (z : Strand) : Bool :=
  z.stalled || (match z.wait with
    | .cbar | .cwait _ _ | .qfence _ | .afence | .heldPush _ => true
    | .none | .bar | .waitt _ => false)

/-- STEPTICK_DEADLINE (R47): a strand still waiting at START + %steptick in Locked mode raises TIMING_LATE. -/
def execSteptickDeadline (d c k : Nat) (s : State) : Out :=
  let p : At := ⟨d, c, k⟩
  let z := s.strand p
  whenever (z.running && !z.exited && s.locked d c && z.steptick != 0 && (z.boundedWait || (s.core d c).pushPending k)
      && s.launchStart d c + z.steptick.toNat ≤ s.now d) s
    (s.timingFault d c k z.pc.toNat .timingLate)

/-- ENGINE_FAULT (R290, R291): the oldest record of a strand at a boundary is delivered as a trap. -/
def execEngineFault (d c k : Nat) (s : State) : Out :=
  let p : At := ⟨d, c, k⟩
  let z := s.strand p
  let y := s.core d c
  match y.keptRecords.find? (fun r => r.strand == k) with
  | none => .next s
  | some r =>
    whenever (z.running && !z.exited && z.wait == .none) s
      ((s.setCore d c { y with records := y.records.erase r }).takeTrap p .engineFault (BitVec.ofNat 64 r.word) z.pc)

end Sys2Proof.Machine
end

