-- ==== Sys2Proof/Machine/Atomic.lean ====
section
/-!
DEFINITION. ATOM with its intervals and batches (R233, R234, R316 to R318), RSV (R284, R370), and the withdrawal of mappings:
TLBIQ, its completion and its watchdog (R197, R198, R377).
-/
namespace Sys2Proof.Machine

/-! ATOM. -/

/-- Does a reservation meet another of its tenant (R284, R370)? -/
def Rsv.meets (a b : Rsv) : Bool :=
  a.tenant == b.tenant && a.key == b.key && a.domain == b.domain && a.stream == b.stream && a.first < b.first + b.count
    && b.first < a.first + a.count

/-- A command of the queue of ATOM, RSV and TLBIQ that its engine ends at once: an ATOM that is refused there, or a reservation, which
reaches the table (R284, R318, R370). -/
def State.endOther (s : State) (d c : Nat) (m : Cmd) : State :=
  let x := s.die d
  match m.bad, m.body with
  | some (cause, n), _ => s.failCmd d c 6 m cause n
  | none, .rsv r =>
    if x.rsvs.any (fun q => q.meets r) then s.failCmd d c 6 m .rngOverlap 0
    else if 256 ≤ x.rsvs.length then s.failCmd d c 6 m .rngOverlap 1
    else (s.setDie d { x with rsvs := x.rsvs ++ [r] }).complete d c 6 m []
  | none, _ => s

/-- Is it a command that its engine ends at once, and that has not started? -/
def Cmd.endsAtOnce (m : Cmd) : Bool :=
  m.isQueued && (m.bad.isSome || (match m.body with
    | .rsv _ => true
    | _ => false))

/-- The commands of that queue that end at once do so, in order, while the core has room for their records (R291); the count bounds
them. -/
def State.otherTurn (s : State) (d c : Nat) : Nat → State
  | 0 => s
  | n + 1 =>
    match (s.core d c).otherQ.find? Cmd.endsAtOnce with
    | none => s
    | some m => if s.mayStart d c 6 then (s.endOther d c m).otherTurn d c n else s

/-- The engine takes up the command that was accepted last, unless it holds its queue. -/
def State.takeOther (s : State) (p : At) : State := s.otherTurn p.d p.c (s.core p.d p.c).otherQ.length

/-- The place of an ATOM's element, or the cause that ends it at the engine (R318). -/
def atomSpot (s : State) (p : At) (a : Int) : Except Cause Nat :=
  if a % 4 ≠ 0 then .error .reservedField
  else
    match s.spot p.d p.c dataSpace a 4 with
    | .bad c => .error c
    | .pod va => .ok va
    | .spad va => .ok va
    | .imem _ => .error .reservedField

/-- A gang's interval is open (R233). -/
def State.openInterval (s : State) (p : At) : State :=
  match s.ctx p.d p.c with
  | some (slot, _, g) => s.setGang p.d slot { g with atomOpen := true }
  | none => s

/-- ATOM (R316 to R318): the request joins the gang's open interval, with its count in the strand. -/
def execAtom (op : AtomOp) (ty : VTy) (d a b : Reg) (lit : BitVec 32) (sp : Spark) (s : State) : Out :=
  issue (.atom op ty d a b lit sp) { uses := [d, a, b], checked := [a, b], sp := sp, pushes := false, release := true } s
    (fun p t =>
      let i : Instr := .atom op ty d a b lit sp
      let ad := addrSum (t.reg p a) (sext lit)
      let z := t.strand p
      let v := low32 (t.reg p b)
      match atomSpot t p ad with
      | .error cause =>
        let t1 := ((t.acceptCmd p 6 (pushCh sp) [d.val] [] (.atom op ty ad v z.atomCount)).modCore p.d p.c (fun y =>
          { y with otherQ := y.otherQ.map (fun m => if m.id = (t.core p.d p.c).nextCmd then { m with bad := some (cause, 0) } else m) })).takeOther p
        .done ((t1.modStrand p (fun z => { z with atomCount := z.atomCount + 1 })).openInterval p) (t.seq p i)
      | .ok va =>
        let t1 := t.acceptCmd p 6 (pushCh sp) [d.val] [{ sp := .pod, at_ := va, len := 4, wr := true }]
          (.atom op ty va v z.atomCount)
        .done ((t1.modStrand p (fun z => { z with atomCount := z.atomCount + 1 })).openInterval p) (t.seq p i))

/-- The cause for which the proxies of a die refuse an ATOM of its agent on another die, before it leaves (R211). -/
def State.atomRefused (s : State) (d t agent va : Nat) : Option Cause :=
  if vaDie va = d ∨ (s.die d).entryIds t va 4 = [] then none
  else
    match s.judge d t [agent] none .atom va 4 with
    | .bad c _ => some c
    | _ => none

/-- The requests of a gang's interval in logical order (R233): by rank, strand and count. -/
def State.intervalReqs (s : State) (d slot : Nat) (g : Gang) : List AtomReq :=
  (List.range g.cores.length).flatMap (fun rank =>
    let c := g.cores.getD rank 0
    strandIds.flatMap (fun k =>
      (s.core d c).otherQ.filterMap (fun m =>
        match m.body with
        | .atom op ty addr val seq =>
          if m.strand = k ∧ m.isQueued ∧ m.bad = none then
            some { core := c, agent := agentOf 0 slot rank, rank := rank, strand := k, seq := seq, cmd := m.id, op := op, ty := ty,
                   addr := addr.toNat, val := val, refused := s.atomRefused d g.tenant (agentOf 0 slot rank) addr.toNat }
          else none
        | _ => none)))

/-- ATOM commands of a core's queue leave the open interval. -/
def Core.closeAtoms (y : Core) (now : Nat) : Core :=
  let y1 : Core := { y with strands := y.strands.map (fun e => (e.1, { e.2 with atomCount := 0, arrivedAtomic := false })) }
  y1.setQueue 6 (y1.otherQ.map (fun m => match m.body with
    | .atom _ _ _ _ _ => if m.isQueued then m.run now 0 else m
    | _ => m))

/-- The strands of a gang that wait at AFENCE go on when no batch is left (R234). -/
def State.wakeFence (s : State) (d slot : Nat) : State :=
  match s.gang d slot with
  | none => s
  | some g => if g.atomOpen || g.batches != 0 then s else s.each g.cores (fun s c => s.modCore d c (fun y => y.unblock .afence))

/-- Has every strand of a gang issued AFENCE or exited (R233)? -/
def State.intervalDone (s : State) (d : Nat) (g : Gang) : Bool :=
  g.cores.all (fun c => strandIds.all (fun k => let z := s.strand ⟨d, c, k⟩; z.exited || z.arrivedAtomic))

/-- The open interval of a gang closes: its requests leave in one batch for each home die (R233). -/
def State.closeInterval (s : State) (d slot : Nat) (g : Gang) : State :=
  let reqs := s.intervalReqs d slot g
  let homes := sortOnce (reqs.map (fun r => vaDie r.addr))
  let made := homes.map (fun h =>
    ({ tr := s.transit d h (agentOf 0 slot 0), slot := slot, tenant := g.tenant, reqs := reqs.filter (fun r => vaDie r.addr == h),
       ends := none } : Batch))
  let s1 := s.each g.cores (fun s c => s.modCore d c (fun y => y.closeAtoms (s.now d)))
  let s2 := s1.modDie d (fun x => { x with batches := x.batches ++ made })
  (s2.setGang d slot { g with atomOpen := false, batches := g.batches + made.length }).wakeFence d slot

/-- May the interval of a gang close (R233)? -/
def State.mayClose (s : State) (d : Nat) (g : Gang) : Bool := g.phase.active && g.atomOpen && s.intervalDone d g

/-- ATOMIC_INTERVAL_CLOSE (R233). -/
def execAtomicIntervalClose (d slot : Nat) (s : State) : Out :=
  match s.gang d slot with
  | none => .next s
  | some g => whenever (s.mayClose d g) s (s.closeInterval d slot g)

/-- A request's end reaches its command (R13, R317, R318). -/
def State.endAtom (s : State) (d : Nat) (r : AtomReq) (e : AtomEnd) : State :=
  match (s.core d r.core).cmd 6 r.cmd with
  | none => s
  | some m =>
    match e with
    | .ticket old st => s.complete d r.core 6 { m with status := m.status ||| st } (m.dregs.map (fun n => (n, ticketOf r.ty old)))
    | .failed cause =>
      let s1 := s.modStrand ⟨d, r.core, m.strand⟩ (fun z => z.results (m.dregs.map (fun n => (n, 0))))
      if cause = .copyPage && s.locked d r.core then s1.cmdTimingFault d r.core m .copyPage else s1.failCmd d r.core 6 m cause 0

/-- The tickets of a batch reach the strands, and the interval's fences look again (R233, R234). -/
def State.endBatch (s : State) (d : Nat) (b : Batch) (ends : List AtomEnd) : State :=
  let s1 := (b.reqs.zip ends).foldl (fun s e => s.endAtom d e.1 e.2) s
  match s1.gang d b.slot with
  | none => s1
  | some g => (s1.setGang d b.slot { g with batches := g.batches - 1 }).wakeFence d b.slot

/-- Is a batch the first of those that wait at its home: of its own die's by their order, of others' by the cycle in which they came
(R233)? -/
def State.batchFirst (s : State) (d n : Nat) (b : Batch) : Bool :=
  let waits (e : Batch) : Bool := !e.tr.spent && e.tr.toDie == b.tr.toDie && e.ends.isNone
  !((s.die d).batches.take n).any waits &&
    s.dies.all (fun x => x.1 == d || x.2.batches.all (fun e => !(waits e && s.hop e.tr == .here && e.tr.due < b.tr.due)))

/-- A batch stands by the stacks that its requests ask at its home, under the id of the gang's first agent or of the die that sent it
(R192, R196). -/
def State.batchTurn (s : State) (h : Nat) (b : Batch) : Bool × State :=
  let from_ := b.tr.fromDie
  let asked := (b.reqs.filter (fun r => r.refused.isNone)).flatMap (fun r =>
    (s.die h).rawUses (if from_ = h then .walker else .memSide) b.tenant r.addr 8 true)
  let uses := (sortOnce (asked.map Prod.fst)).map (fun n => (n, 8 * (asked.filter (fun u => u.1 == n)).length))
  s.atStacks h (if from_ = h then b.tr.agent else dieAgent from_) [b.slot, b.tr.due] ((s.gang from_ b.slot).any (fun g => g.locked)) true uses

/-- ATOMIC_BATCH (R233): the n-th batch of a die has come to its home, which applies it, or brings its tickets back; a batch whose route
names a failed port, or no die of the pod, ends in UNOWNED_ACCESS (R255). It waits for its stacks and for a pre-empted context whose entries it
meets (R196, R297). -/
def execAtomicBatch (d n : Nat) (s : State) : Out :=
  match (s.die d).batches[n]? with
  | none => .next s
  | some b =>
    let s1 := s.modDie d (fun x => { x with batches := x.batches.modify n (fun b => { b with tr := { b.tr with spent := true } }) })
    let lost := b.reqs.map (fun _ => AtomEnd.failed .unowned)
    if b.tr.spent then .next s
    else if !s.inPod b.tr.toDie then .next (s1.endBatch d b lost)
    else
      match s.hop b.tr, b.ends with
      | .stay, _ => .next s
      | .lost, _ => .next (s1.endBatch d b lost)
      | .here, some ends => .next (s1.endBatch d b ends)
      | .here, none =>
        let h := b.tr.toDie
        if !s.batchFirst d n b || s.atomsHeld h b then .next s
        else
          match s.batchTurn h b, s1.batchTurn h b with
          | (false, s2), _ => .next s2
          | (true, _), (_, s2) =>
            let (ends, s3) := s2.atomsAt h b b.reqs
            if h = d then .next (s3.endBatch d b ends)
            else .next (s3.modDie d (fun x => { x with batches := x.batches ++ [{ b with tr := s3.reply b.tr, ends := some ends }] }))

/-! RSV. -/

/-- The number of a domain. -/
def domNum : RsvDom → Nat
  | .d1 => 1 | .d2 => 2 | .d3 => 3

/-- RSV (R370): the reservation table is reached as the command is accepted. -/
def execRsv (dom : RsvDom) (a b e g : Reg) (sp : Spark) (s : State) : Out :=
  issue (.rsv dom a b e g sp) (engineForm [a, b, e, g] sp) s (fun p t =>
    let first := (t.reg p b).toNat
    let count := (t.reg p e).toNat
    let stream := (t.reg p g).toNat
    if count = 0 ∨ 2 ^ 64 < first + count ∨ 2 ^ 32 ≤ stream ∨ (stream ≠ 0 ∧ dom ≠ .d3) then .trap .reservedField 0 none
    else
      let r : Rsv := { tenant := t.tenantOf p.d p.c, gang := agentSlot (t.coreAgent p.d p.c), key := t.reg p a, domain := domNum dom,
                       stream := stream, first := first, count := count }
      .done ((t.acceptCmd p 6 (pushCh sp) [] [] (.rsv r)).takeOther p) (t.seq p (.rsv dom a b e g sp)))

/-! TLBIQ. -/

/-- The contexts of a tenant for which an invalidation is pending: every live one whose save is not complete, lowest agent first
(R197). -/
def Die.pendingFor (x : Die) (t : Nat) : List (Nat × Nat) :=
  x.gangs.flatMap (fun e =>
    if e.2.tenant = t ∧ e.2.phase ≠ .saved then
      ((List.range e.2.cores.length).filter (fun r => ((x.core (e.2.cores.getD r 0)).ctx == some (e.1, r)))).map (fun r => (e.1, r))
    else [])

/-- The entries of a saved context's TLB go at acceptance (R197). -/
def Gang.dropTlb (g : Gang) (t start len : Nat) : Gang :=
  { g with saved := g.saved.map (fun c =>
      { c with image := { c.image with tlb := c.image.tlb.filter (fun e => !e.inRange t start len) } }) }

/-- TLBIQ (R197, R377). -/
def execTlbiq (all : Bool) (a b : Reg) (sp : Spark) (s : State) : Out :=
  issue (.tlbiq all a b sp) (engineForm (if all then [] else [a, b]) sp) s (fun p t =>
    let start := if all then 2 ^ 47 else vaLow (t.reg p a).toNat
    let len := if all then 2 ^ 47 else (t.reg p b).toNat
    let va := (t.reg p a).toNat
    let bad := !all && (2 ^ 60 ≤ va || vaDie va != p.d || !vaTranslated va || va % 65536 != 0 || len % 65536 != 0 || len == 0
      || 2 ^ 48 < start + len)
    if bad then .trap .reservedField 0 none
    else
      let tn := t.tenantOf p.d p.c
      let id := (t.core p.d p.c).nextCmd
      let t1 := t.acceptCmd p 6 (pushCh sp) [] [] (.tlbiq all start len)
      let t2 := t1.modDie p.d (fun x =>
        { x with memTlb := x.memTlb.filter (fun e => !e.inRange tn start len),
                 gangs := x.gangs.map (fun e => (e.1, if e.2.tenant = tn then e.2.dropTlb tn start len else e.2)),
                 tlbis := x.tlbis ++ [{ core := p.c, cmd := id, tenant := tn, start := start, len := len, accepted := x.tick,
                                        pending := x.pendingFor tn, late := [] }] })
      .done t2 (t.seq p (.tlbiq all a b sp)))

/-- A page fault lies in a range of translated space of a die. -/
def faultIn (d start len va : Nat) : Bool := vaDie va == d && start ≤ vaLow va && vaLow va < start + len

/-- Suspended commands of a core whose page a range covers are retried (R193). -/
def Core.retryFaults (y : Core) (d start len : Nat) : Core :=
  let copy (m : Cmd) : Cmd := match m.body with
    | .copy j => (match j.phase with
      | .suspended va => if faultIn d start len va then { m with body := .copy { j with phase := .held } } else m
      | _ => m)
    | _ => m
  let fetch (m : Cmd) : Cmd := match m.body with
    | .mldw ad fw hbm (some va) done _ tile =>
      if faultIn d start len va then { m with body := .mldw ad fw hbm none done none tile } else m
    | _ => m
  { y with copyQ := y.copyQ.map copy, matrixQ := y.matrixQ.map fetch }

/-- The page faults of a tenant that a completed TLBIQ covers are retried, on every die (R193, R377). -/
def State.retryAll (s : State) (d t start len : Nat) : State :=
  { s with dies := s.dies.map (fun e =>
      (e.1, { e.2 with
        cores := e.2.cores.map (fun f => (f.1, if s.tenantOf e.1 f.1 = t then f.2.retryFaults d start len else f.2)) })) }

/-- The invalidation that serves a command. -/
def Die.tlbi (x : Die) (c id : Nat) : Option Tlbi := x.tlbis.find? (fun i => i.core == c && i.cmd == id)

/-- An invalidation is over. -/
def Die.dropTlbi (x : Die) (c id : Nat) : Die := { x with tlbis := x.tlbis.filter (fun i => !(i.core == c && i.cmd == id)) }

/-- Does a saved context hold the command that an invalidation serves? -/
def Die.tlbiSaved (x : Die) (c id : Nat) : Bool :=
  x.gangs.any (fun e => e.2.saved.any (fun sc => sc.core == c && (sc.image.cmd 6 id).isSome))

/-- TLBIQ_COMPLETE (R197): every pending context has acknowledged. The command of a retired context completes unseen. -/
def execTlbiqComplete (d c id : Nat) (s : State) : Out :=
  match (s.die d).tlbi c id with
  | none => .next s
  | some i =>
    let s1 := s.modDie d (fun x => x.dropTlbi c id)
    if i.pending ≠ [] ∨ i.late ≠ [] then .next s
    else
      match (s.core d c).cmd 6 id with
      | some m => .next ((s1.complete d c 6 m []).retryAll d i.tenant i.start i.len)
      | none => whenever (!(s.die d).tlbiSaved c id) s (s1.retryAll d i.tenant i.start i.len)

/-- The core that holds a context. -/
def State.coreOf (s : State) (d : Nat) (q : Nat × Nat) : Option Nat := (s.gang d q.1).bind (fun g => g.cores[q.2]?)

/-- The TLBIQ that an invalidation serves ends in a fault: on its core, or in the saved context that holds it (R198). -/
def State.failTlbiq (s : State) (d c id progress : Nat) : State :=
  match (s.core d c).cmd 6 id with
  | some m => s.failCmd d c 6 m .tlbiWatchdog progress
  | none =>
    let save (sc : SavedCore) : SavedCore :=
      match sc.image.cmd 6 id with
      | none => sc
      | some m =>
        let y := sc.image.dropCmd 6 m
        let r : EngRec :=
          { strand := m.strand, cause := .tlbiWatchdog, progress := progress, cpc := m.cpc, nopush := m.push.isSome, queue := 6, tick := s.now d, cmd := m.id }
        if sc.core = c then { sc with image := { y with records := y.records ++ [r] } } else sc
    s.modDie d (fun x => { x with gangs := x.gangs.map (fun e => (e.1, { e.2 with saved := e.2.saved.map save })) })

/-- TLBI_WATCHDOG (R198, R377): 200,000 ticks after acceptance the command ends, and the unacknowledged contexts fail. -/
def execTlbiWatchdog (d c id : Nat) (s : State) : Out :=
  match (s.die d).tlbi c id with
  | none => .next s
  | some i =>
    let left := ((s.die d).pendingFor i.tenant).filter (fun q => i.pending.contains q || i.late.contains q)
    match left with
    | [] => .next s
    | (slot, rank) :: _ =>
      if s.now d < i.accepted + 200000 then .next s
      else
        let s1 := (s.modDie d (fun x => x.dropTlbi c id)).failTlbiq d c id (agentOf 0 slot rank + left.length * 65536)
        let s2 := s1.each (left.filterMap (s.coreOf d)) (fun s n =>
          s.modCore d n (fun y => { y with tlb := y.tlb.filter (fun e => !e.inRange i.tenant i.start i.len) }))
        .next (left.foldl (fun s q =>
          match s.coreOf d q with
          | some n => s.declareFailed d n 0xFF 0 .tlbiWatchdog
          | none => s) s2)

end Sys2Proof.Machine
end

