-- ==== Sys2Proof/Machine/Ports.lean ====
section
/-!
DEFINITION. What link programs and collectives share: the failure of a port (R243, R263, R265), the sending of a timed flit with
its delivery tick (R244, R245), partial flits and Combine (R260, R407), and the claims on send slots (R249, R250, R412).
-/
namespace Sys2Proof.Machine

/-! Port failure. -/

/-- The step of the die ends in the first tick in which every RUNNING engine has retired its XSTEP of that step (R251); the queued hand-overs
are made in the tick (R302). The count bounds the steps that end in one tick. -/
def State.checkSteps (s : State) (d : Nat) : Nat → State
  | 0 => s
  | n + 1 =>
    let x := s.die d
    if x.ports.any (fun e => e.2.ahead != 0) && x.ports.all (fun e => e.2.state != .running || e.2.ahead != 0) then
      (s.setDie d { x with stepEnd := some x.tick, ports := x.ports.map (fun e => (e.1, { e.2 with ahead := e.2.ahead - 1 })) }).checkSteps d n
    else s

/-- Ends of the die's steps that have come. -/
def State.checkStep (s : State) (d : Nat) : State :=
  s.checkSteps d (((s.die d).ports.map (fun e => e.2.ahead)).foldl max 0)

/-- Has an engine work: it runs, or what its last step left is still on its way (R409, R411, R413)? -/
def Port.works (q : Port) : Bool := q.state == .running || (q.state == .done && (q.sends != [] || q.recvs != []))

/-- A fault of the plan stream of a port (R248, R252, R263): the engine stops with FAULT, and in Locked mode the step aborts. -/
def State.linkFault (s : State) (d p : Nat) (cause : Cause) (off : Nat) : State :=
  let q := s.port d p
  if q.works = false then s
  else
    let s1 := (s.stopLink d p (cause.code + off % 65536 * 256)).checkStep d
    if q.snapLocked then s1.originate d cause 0 [] else s1

/-- A message stands at or is bound for a port (R265). -/
def State.heldAt (s : State) (d p : Nat) (t : Transit) : Bool :=
  !t.spent && ((t.at_ == d && t.at_ != t.toDie && s.route d t.toDie == some p) || (t.at_ == d && t.via == some p && s.now d < t.due))

/-! Timed flits. -/

/-- A timed flit leaves a port (R242 to R245); one whose CRC fails on arrival is discarded there. -/
def State.emit (s : State) (d p tag idx : Nat) (payload : Payload) : State :=
  match s.cable d p with
  | none => s
  | some k =>
    if !s.linkUp d p then s
    else
      let q := s.port d p
      { (s.setPort d p (q.use (s.now d))).onLine k (Config.lineError s.freeCount) with
        freeCount := s.freeCount + 1
        flits := s.flits ++ [{ die := k.farDie, port := k.farPort, tag := tag, idx := idx % 65536, payload := payload, src := d,
                               sent := s.now d, hop := k.hop, skew := q.skewOut, bad := Config.lineError s.freeCount, tick := 0,
                               idle := false }] }

/-- A guard of a port has ended: the far end's read delay is 32 again for what arrives after it (R246). -/
def State.recentre (s : State) (d p : Nat) : State :=
  match s.cable d p with
  | none => s
  | some k =>
    let s1 := s.setPort d p { s.port d p with skewOut := (s.now k.farDie : Int) - (s.now d : Int) }
    s1.setPort k.farDie k.farPort { s1.port k.farDie k.farPort with recentreAt := some (s.now k.farDie + (k.hop - 32)) }

/-- What arrives at a port from now on comes after a guard: the read delay is 32 again, and CRC failures are counted anew (R243, R246). -/
def State.recentred (s : State) (d p : Nat) : State :=
  let q := s.port d p
  if q.recentreAt.any (fun t => t ≤ s.now d) then
    match s.cable d p with
    | none => s
    | some k => s.setPort d p { q with skew := (s.port k.farDie k.farPort).skewOut, recentreAt := none, crcFails := 0 }
  else s

/-- The head of a port shows its read delay (R244, R248). -/
def State.noteDelay (s : State) (d p : Nat) : State :=
  let q := s.port d p
  let now := (s.readDelay d p).toNat
  if q.occ = now then s else s.setPort d p { q with occ := now }

/-- Must a port be declared failed: no symbol for 64 ticks, a read delay outside 16 to 48, or four CRC failures since the last guard
(R243)? -/
def State.portBroken (s : State) (d p : Nat) : Bool :=
  let q := s.port d p
  !q.failed && (s.cable d p).isSome &&
    (q.silent.any (fun t => t + 64 ≤ s.now d) || (s.linkUp d p && (s.readDelay d p < 16 || 48 < s.readDelay d p)) || 4 ≤ q.crcFails)

/-! Exchanges on the time tree (R239). -/

/-- The exchange of an edge moves on at one of its ends: the child sends at guard tick 2, the parent replies at guard tick 8, and each
stamps what arrives by its own count. -/
def State.exchange (s : State) (d p : Nat) : State :=
  match s.cable d p with
  | none => s
  | some k =>
    let now := s.now d
    let q := s.port d p
    let line := s.now k.farDie + (k.hop - 32)
    if !s.linkUp d p then s
    else if Tab.find s.pod.parents d = some p then
      let e := if q.exch.down.any (fun t => t ≤ now) then { q.exch with t4 := some now, down := none } else q.exch
      let e' : Exchange := if q.guardTick now = some 2 then { Exchange.none with t1 := some now, up := some line } else e
      if e' = q.exch then s else s.setPort d p { q with exch := e' }
    else if Tab.find s.pod.parents k.farDie = some k.farPort then
      let f := s.port k.farDie k.farPort
      let e := if f.exch.up.any (fun t => t ≤ now) then { f.exch with t2 := some now, up := none } else f.exch
      let e' : Exchange :=
        if q.guardTick now = some 8 && e.t1.isSome && e.t3.isNone then { e with t3 := some now, down := some line } else e
      if e' = f.exch then s else s.setPort k.farDie k.farPort { f with exch := e' }
    else s

/-- Ticks between the read of a flit's bytes and its slot (R409). -/
def readAhead (va : Nat) : Nat := if vaTranslated va then 640 else 16

/-! Partial flits (R260, R407). -/

/-- Is it one of the five formats of partials (R407)? -/
def partialEf (ef : Nat) : Bool := ef ≤ 4

/-- Elements of partials are integers. -/
def intEf (ef : Nat) : Bool := ef == 3 || ef == 4

/-- The arithmetic type of partials of a format. -/
def partTy (ef : Nat) : VTy := if ef = 3 then .i32 else if ef = 4 then .n32 else .f32

/-- An element of a partial flit: its container and its side bits, +∞ seen and -∞ seen. -/
abbrev PElem := W32 × Bool × Bool

/-- An element of memory widened into a partial (R135, R409). -/
def partOf (ef c : Nat) : PElem :=
  let w := widen (efOf ef) c
  (w, !intEf ef && w == 0x7F800000#32, !intEf ef && w == negInf32)

/-- The 64 elements of bytes (R409). -/
def partsOfBytes (ef : Nat) (bs : List Byte) : List PElem :=
  let w := (efOf ef).width
  (unpackAll w 64 (ofLeBytes bs)).map (partOf ef)

/-- Bytes of 64 elements of a format. -/
def partBytes (ef : Nat) : Nat := 8 * (efOf ef).width

/-- Combine of one element (R260): a reduction operation, 0 sum, 1 max, 2 min; a NaN term, or infinities of both signs among the terms,
give the canonical NaN in each of them (R151). -/
def combine (rop ef : Nat) (a b : PElem) : PElem × Status :=
  let pos := a.2.1 || b.2.1
  let neg := a.2.2 || b.2.2
  if intEf ef then ((if rop = 1 then vmax (partTy ef) a.1 b.1 else if rop = 2 then vmin (partTy ef) a.1 b.1 else a.1 + b.1, false, false), 0)
  else if (f32v a.1).isNan || (f32v b.1).isNan || (pos && neg) then ((nan32, pos, neg), 0)
  else if rop = 1 then ((vmax (partTy ef) a.1 b.1, pos, neg), 0)
  else if rop = 2 then ((vmin (partTy ef) a.1 b.1, pos, neg), 0)
  else if pos then ((0x7F800000#32, pos, neg), 0)
  else if neg then ((negInf32, pos, neg), 0)
  else
    let (w, st) := sumF .near false 0 (f32v a.1) (f32v b.1)
    ((w, pos, neg), st)

/-- Combine over lists, the status bits gathered. -/
def combineAll (rop ef : Nat) : List PElem → List PElem → List PElem × Status
  | a :: as, b :: bs =>
    let (c, st) := combine rop ef a b
    let (cs, st') := combineAll rop ef as bs
    (c :: cs, st ||| st')
  | _, _ => ([], 0)

/-- The final member rounds one element once: its code and status bits (R260); `draw` numbers the free bits of mode 5. -/
def finalElem (ef rm : Nat) (sat : Bool) (draw i : Nat) (a : PElem) : Nat × Status :=
  let both := !intEf ef && a.2.1 && a.2.2
  let (c, st) := roundTo (efOf ef) (rmOf rm) sat (Config.linkBits draw i).toNat (tyValue (partTy ef) a.1)
  (c, st ||| stIf both stInvalid)

/-- The final member rounds a flit: codes and status bits. -/
def finalAll (ef rm : Nat) (sat : Bool) (draw : Nat) : Nat → List PElem → List Nat × Status
  | _, [] => ([], 0)
  | i, a :: as =>
    let (c, st) := finalElem ef rm sat draw i a
    let (cs, st') := finalAll ef rm sat draw (i + 1) as
    (c :: cs, st ||| st')

/-- Codes of a format as bytes (R130). -/
def codeBytes (ef : Nat) (cs : List Nat) : List Byte :=
  let w := (efOf ef).width
  leBytes (cs.length * w / 8) (packAll w cs)

/-! Claims (R249, R250, R412). -/

/-- Ticks that a claim lasts. -/
def Claim.ticks (c : Claim) : Nat := (c.flits + c.rate - 1) / c.rate

/-- Slots that a claim uses in a tick. -/
def Claim.uses (c : Claim) (t : Nat) : Nat :=
  if c.first ≤ t ∧ t < c.first + c.ticks then min c.rate (c.flits - c.rate * (t - c.first)) else 0

/-- Do two claims meet in some tick? -/
def Claim.meets (a b : Claim) : Bool := a.flits != 0 && b.flits != 0 && a.first < b.first + b.ticks && b.first < a.first + a.ticks

/-- Is claim a taken later than claim b: a later tick, then a collective after the plan streams, then a higher port (R249)? -/
def Claim.later (a b : Claim) : Bool :=
  if a.tick != b.tick then b.tick < a.tick
  else if a.coll.isSome != b.coll.isSome then a.coll.isSome
  else b.port < a.port

/-- Slots that some claims use in a tick. -/
def usesAt (held : List Claim) (t : Nat) : Nat := (held.map (fun h => if h.wall then 0 else h.uses t)).foldl (· + ·) 0

/-- Does a claim need a slot that earlier ones hold on a port of a rate, or stand with them where no timed flit may (R250, R412)? What
is used rises only where a claim begins. -/
def Claim.clashes (rate : Nat) (earlier : List Claim) (c : Claim) : Bool :=
  earlier.any (fun e => e.meets c && e.wall != c.wall) ||
    (!c.wall && (c.first :: earlier.map Claim.first).any (fun t => c.uses t != 0 && rate < c.uses t + usesAt earlier t))

/-- The first claim, in taken order, that clashes with the ones before it. -/
def firstClash (rate : Nat) : List Claim → List Claim → Option Claim
  | _, [] => none
  | earlier, c :: cs => if c.clashes rate earlier then some c else firstClash rate (earlier ++ [c]) cs

/-- Claims in taken order (R249). -/
def takenOrder (l : List Claim) : List Claim := sortBy (fun a b => !a.later b) l

/-- Does a claim of flits fall into an idle guard of a port that does not run (R241)? -/
def Port.idleClash (q : Port) (c : Claim) : Bool :=
  q.state != .running && !c.wall && c.flits != 0 && (c.first % 32768 < 16 || 32768 < c.first % 32768 + c.ticks)

end Sys2Proof.Machine
end

