-- ==== Sys2Proof/Machine/Lanes.lean ====
section
/-!
DEFINITION. Running collectives: the flits of each lane at the ticks of R259, Combine at the sequencer (R260), rights at every access
(R258), lateness and faults (R252, R261, R329), and the end of RECV and of the command (R261).
-/
namespace Sys2Proof.Machine

/-! The record of a run. -/

/-- Is it the run of a command? -/
def CollRun.is (r : CollRun) (c id : Nat) : Bool := r.core == c && r.cmd == id

/-- The run of a command on a die. -/
def State.coll (s : State) (d c id : Nat) : Option CollRun := (s.die d).colls.find? (fun r => r.is c id)

/-- Replace a run. -/
def State.putColl (s : State) (d : Nat) (r : CollRun) : State :=
  s.modDie d (fun x => { x with colls := x.colls.map (fun q => if q.is r.core r.cmd then r else q) })

/-- Change the run of a command as it stands. -/
def State.modColl (s : State) (d : Nat) (r : CollRun) (f : CollRun → CollRun) : State :=
  s.modDie d (fun x => { x with colls := x.colls.map (fun q => if q.is r.core r.cmd then f q else q) })

/-- A run with lane number j replaced. -/
def CollRun.putLane (r : CollRun) (j : Nat) (l : Lane) : CollRun := { r with lanes := r.lanes.set j l }

/-- The sections of a run are freed (R261). -/
def State.dropColl (s : State) (d c id : Nat) : State :=
  s.modDie d (fun x =>
    let x1 : Die := { x with
      colls := x.colls.filter (fun q => !q.is c id), ports := x.ports.map (fun e => (e.1, e.2.dropColl (fun o => o == (c, id)))) }
    x1.idleLanding)

/-- Flits of all hops of a lane. -/
def Lane.total (l : Lane) : Nat := l.hops.length * l.flits

/-- Is hop h one of this member's, all of whose flits are sent and received (R329)? What an abort discarded was not sent. -/
def Lane.hopDone (l : Lane) (h : Nat) (x : LaneHop) : Bool :=
  (x.send.isSome || x.recv.isSome) && (x.send.isNone || (h + 1) * l.flits ≤ l.left.getD l.sent) && (x.recv.isNone || h < l.rhop)

/-- Hops of this member in a lane whose flits are all sent and received (R329). -/
def Lane.doneHops (l : Lane) : Nat := (l.hops.zipIdx.filter (fun e => l.hopDone e.2 e.1)).length

/-- PROGRESS of a run: its hops that are all sent and received; lanes of the same ticks count as one (R329). -/
def CollRun.progress (r : CollRun) : Nat :=
  ((sortOnce (r.lanes.map (fun l => l.start))).map (fun t =>
    let same := (r.lanes.filter (fun l => l.start == t)).map Lane.doneHops
    same.foldl min (same.headD 0))).foldl (· + ·) 0

/-- A COLL that runs ends in ENGINE_FAULT: its sections are freed, its record carries its progress (R261, R329). -/
def State.collEnd (s : State) (d : Nat) (r : CollRun) (cause : Cause) : State :=
  let s1 := s.dropColl d r.core r.cmd
  match (s.core d r.core).cmd 2 r.cmd with
  | none => s1
  | some m => s1.failCmd d r.core 2 { m with status := m.status ||| r.status } cause r.progress

/-- A fault of a section on port p ends the COLL (R252, R261); where the launch or the running engine is Locked it is a timing
fault (R248). -/
def State.collFault (s : State) (d p : Nat) (r : CollRun) (cause : Cause) : State :=
  let q := s.port d p
  let timing := r.locked || (q.state == .running && q.snapLocked)
  let s1 := s.dropColl d r.core r.cmd
  match (s.core d r.core).cmd 2 r.cmd with
  | none => s1
  | some m =>
    if timing && s.locked d r.core then s1.cmdTimingFault d r.core m cause
    else if timing then (s.collEnd d r cause).originate d cause 0 []
    else s.collEnd d r cause

/-! Claims of sections (R249, R250). -/

/-- A claim on the send side of port o: whenever it clashes with others, the one that is taken later faults, whichever was decoded first;
the claim is refused if that one is itself (R249, R250). The count bounds the claims that fault. -/
def State.claimFrom (s : State) (d o : Nat) (c : Claim) : Nat → Bool × State
  | 0 => (false, s)
  | n + 1 =>
    let q := s.port d o
    if q.idleClash c then (false, s)
    else
      match firstClash (portRate o) [] (takenOrder (q.claims ++ [c])) with
      | none => (true, s.setPort d o { q with claims := q.claims ++ [c] })
      | some r =>
        if r = c then (false, s)
        else
          (match r.coll with
            | none => s.linkFault d r.port .planConflict r.off
            | some (core, id) => (match s.coll d core id with
              | some run => s.collFault d o run .planConflict
              | none => s)).claimFrom d o c n

/-- A claim on the send side of port o. -/
def State.claim (s : State) (d o : Nat) (c : Claim) : Bool × State := s.claimFrom d o c ((s.port d o).claims.length + 1)

/-- The next hop from one on in which the member has a part, count given. -/
def nextPart (hops : List LaneHop) : Nat → Nat → Nat
  | 0, h => h
  | n + 1, h =>
    match hops[h]? with
    | none => h
    | some x => if x.send.isSome || x.recv.isSome then h else nextPart hops n (h + 1)

/-- The next instruction of a lane's section is decoded, one in each tick from the tick of its admission: it is late if its tick has passed,
and it claims its send slots (R249, R250). -/
def State.laneDecode (s : State) (d c id j : Nat) : State :=
  match (s.coll d c id).bind (fun r => (r.lanes[j]?).map (fun l => (r, l))) with
  | none => s
  | some (r, l) =>
    let h := nextPart l.hops l.hops.length l.claimed
    match l.hops[h]? with
    | none => s
    | some x =>
      let t := l.start + h * l.period
      let s1 := s.putColl d (r.putLane j { l with claimed := h + 1 })
      if t < s.now d then s.collFault d l.out r .timingLate
      else if x.send.isNone then s1
      else
        match s1.claim d l.out { first := t, flits := l.flits, rate := portRate l.out, wall := false, tick := t, port := l.out, off := 0,
                                 coll := some (c, id) } with
        | (true, s2) => s2
        | (false, s2) => s2.collFault d l.out r .planConflict

/-! Memory under the rights of the issuing context (R258). -/

/-- Judge an access of a section. -/
def State.collRight (s : State) (d : Nat) (r : CollRun) (acc : Access) (va len : Nat) : Option Cause :=
  match s.judgeFar d (s.tenantOf d r.core) (s.agentsOf d r.core 1) (some (r.core, r.cmd)) acc va len with
  | .ok => none
  | .bad c _ => some c
  | .hold => if s.locked d r.core && acc == .read then some .timingLate else none

/-- Does an access of a section wait until a pre-empted context resumes (R297)? -/
def State.collHeld (s : State) (d : Nat) (r : CollRun) (acc : Access) (va len : Nat) : Bool :=
  s.judgeFar d (s.tenantOf d r.core) (s.agentsOf d r.core 1) (some (r.core, r.cmd)) acc va len == .hold

/-- An access of a section may be made now: no pre-empted context holds it up, and the stack that it asks serves the issuing context's copy
engine (R192, R196, R258, R297). -/
def State.collTurn (s : State) (d : Nat) (r : CollRun) (tag : List Nat) (va len : Nat) (write : Bool) : Bool × State :=
  if s.collHeld d r (if write then .write else .read) va len then (false, s)
  else s.memTurn d ((s.agentsOf d r.core 1).headD 0) (r.core :: r.cmd :: tag) (.core r.core) (s.tenantOf d r.core) (s.locked d r.core) true va
    len write

/-- A section reads. -/
def State.collRead (s : State) (d : Nat) (r : CollRun) (va len : Nat) : Got (List Byte) :=
  match s.collRight d r .read va len with
  | some c => .bad c
  | none => s.fetchAt d r.core (s.tenantOf d r.core) (s.locked d r.core) va len

/-- A section writes. -/
def State.collWrite (s : State) (d : Nat) (r : CollRun) (va : Nat) (bs : List Byte) : Got Unit :=
  match s.collRight d r .write va bs.length with
  | some c => .bad c
  | none => s.storeAt d r.core (s.tenantOf d r.core) (s.locked d r.core) va bs

/-- A write of a section: made now, or kept until its stack serves it or the pre-empted context that holds it up resumes, after those that
are kept already (R196, R297). -/
def State.collStore (s : State) (d : Nat) (r : CollRun) (va : Nat) (bs : List Byte) : Got Unit :=
  match s.collRight d r .write va bs.length with
  | some c => .bad c
  | none =>
    let keep (s : State) : Got Unit :=
      .ok () (s.modColl d r (fun q => { q with toWrite := q.toWrite ++ [(va, bs)] }))
    if (((s.coll d r.core r.cmd).map (fun q => q.toWrite)).getD []) ≠ [] then keep s
    else
      match s.collTurn d r [1, va] va bs.length true with
      | (false, s1) => keep s1
      | (true, s1) => s1.collWrite d r va bs

/-- The address of flit i of a piece. -/
def Piece.flitAt (p : Piece) (i : Nat) : Nat := p.base + p.starts.getD (i / p.sub) 0 + i % p.sub * p.unit

/-- The containers of partials as bytes, as STAGE holds them (R259). -/
def wideBytes (es : List PElem) : List Byte := es.flatMap (fun e => leBytes 4 e.1.toNat)

/-- The flit of STAGE at an address. -/
def CollRun.stageFlit (r : CollRun) (va : Nat) : Nat := (va - r.stage) / 256

/-- The partials of a flit that STAGE holds, with their side bits (R259, R260). -/
def stageParts (r : CollRun) (va : Nat) (bs : List Byte) : List PElem :=
  let ws := rowWords 64 bs
  let side := Tab.get r.side (r.stageFlit va) []
  (tokensFrom 0 ws).map (fun e => (e.2, side.getD e.1 (false, false)))

/-- Bytes of a piece's flit as a payload. -/
def pieceLoad (r : CollRun) (part : Bool) (p : Piece) (i : Nat) (bs : List Byte) : Payload :=
  if !part then .raw bs
  else if p.wide then .part (stageParts r (p.flitAt i) bs)
  else .part (partsOfBytes r.ef bs)

/-- A member writes flit i of a piece (R259). -/
def State.putPiece (s : State) (d : Nat) (r : CollRun) (i : Nat) (load : Payload) (p : Piece) : Got Unit :=
  let bytes : List Byte := match load with
    | .raw bs => bs
    | .part es => if p.wide then wideBytes es
      else codeBytes r.ef (es.map (fun e => (roundTo (efOf r.ef) .near false 0 (tyValue (partTy r.ef) e.1)).1))
  s.collStore d r (p.flitAt i) bytes

/-- A flit is written to each of some places. -/
def State.putPieces (s : State) (d : Nat) (r : CollRun) (i : Nat) (load : Payload) : List Piece → Got Unit
  | [] => .ok () s
  | p :: ps =>
    match s.putPiece d r i load p with
    | .bad c => .bad c
    | .ok _ s1 => s1.putPieces d r i load ps

/-! Sending (R259). -/

/-- The tick of a flit's slot: number q of all flits of the lane. -/
def Lane.slot (l : Lane) (q : Nat) : Nat := l.start + q / l.flits * l.period + q % l.flits / portRate l.out

/-- What the lane sends in the hop of flit q. -/
def Lane.sendOf (l : Lane) (q : Nat) : Option LaneSend := (l.hops[q / l.flits]?).bind (fun h => h.send)

/-- The own flits that are due are read ahead, the count bounds them (R409); a read that fails is tried again at the slot, and one that is
not served yet stands by its stack (R196). -/
def State.laneReads (s : State) (d : Nat) (r : CollRun) (j : Nat) : Nat → Lane → Lane × State
  | 0, l => (l, s)
  | n + 1, l =>
    let q := l.readTo
    if l.total ≤ q then (l, s)
    else
      match l.sendOf q with
      | some (.own p _) =>
        let va := p.flitAt (q % l.flits)
        let ahead := if p.fresh then 0 else readAhead va
        if s.now d + ahead < l.slot q then (l, s)
        else
          (match s.collTurn d r [0, j, q] va p.unit false with
            | (false, s1) => (l, s1)
            | (true, s1) =>
              match s1.collRead d r va p.unit with
              | .ok bs s2 => s2.laneReads d r j n { l with readTo := q + 1, read := Tab.set l.read q bs }
              | .bad _ => s1.laneReads d r j n { l with readTo := q + 1 })
      | _ => s.laneReads d r j n { l with readTo := (q / l.flits + 1) * l.flits }

/-- What flit q of a lane carries: the piece at the sequencer, or own bytes; those that their stack has not served are late (R196). -/
def State.laneLoad (s : State) (d : Nat) (r : CollRun) (l : Lane) (q : Nat) : Got Payload :=
  let i := q % l.flits
  match l.sendOf q with
  | some (.own p _) =>
    (match Tab.find l.read q with
      | some bs => .ok (pieceLoad r l.part p i bs) s
      | none =>
        if l.readTo ≤ q then .bad .timingLate
        else
          match s.collRead d r (p.flitAt i) p.unit with
          | .ok bs s1 => .ok (pieceLoad r l.part p i bs) s1
          | .bad c => .bad c)
  | _ =>
    match Tab.find l.held q with
    | some load => .ok load s
    | none => .bad .timingLate

/-- Flit q of lane j leaves, and an own piece is copied to the result. -/
def State.laneSendOne (s : State) (d : Nat) (r : CollRun) (j : Nat) (l : Lane) (q : Nat) : State :=
  match s.laneLoad d r l q with
  | .bad c => s.collFault d l.out r c
  | .ok load s1 =>
    let copies : List Piece := match l.sendOf q with
      | some (.own _ (some p)) => [p]
      | _ => []
    match s1.putPieces d r (q % l.flits) load copies with
    | .bad c => s.collFault d l.out r c
    | .ok _ s2 =>
      (s2.modColl d r (fun r => { r.putLane j { l with sent := q + 1, read := Tab.erase l.read q, held := Tab.erase l.held q } with
                                    lastWrite := if copies = [] then r.lastWrite else s.now d })).emit d l.out r.tag q load

/-- Does a flit of a lane that is due wait: in Free mode for a pre-empted context, or for a slot of its port (R241, R242, R297)? -/
def State.laneStays (s : State) (d : Nat) (r : CollRun) (l : Lane) (q : Nat) : Bool :=
  (match l.sendOf q with
    | some (.own p _) => (Tab.find l.read q).isNone && !s.locked d r.core && s.collHeld d r .read (p.flitAt (q % l.flits)) p.unit
    | _ => false)
  || (s.port d l.out).noSlot l.out (s.now d)

/-- The flits of lane j that are due leave; the count bounds them. -/
def State.laneSends (s : State) (d c id j : Nat) : Nat → State
  | 0 => s
  | n + 1 =>
    match (s.coll d c id).bind (fun r => (r.lanes[j]?).map (fun l => (r, l))) with
    | none => s
    | some (r, l) =>
      let q := l.sent
      if l.total ≤ q then s
      else if (l.sendOf q).isNone then
        (s.putColl d (r.putLane j { l with sent := (q / l.flits + 1) * l.flits })).laneSends d c id j n
      else if s.now d < l.slot q || s.laneStays d r l q then s
      else (s.laneSendOne d r j l q).laneSends d c id j n

/-! Receiving (R252, R259, R260). -/

/-- The piece that a lane awaits: the receive of its hop. -/
def Lane.awaits (l : Lane) : Option LaneRecv := (l.hops[l.rhop]?).bind (fun h => h.recv)

/-- The next hop from h on in which the lane receives, count given. -/
def nextRecv (hops : List LaneHop) : Nat → Nat → Nat
  | 0, h => h
  | n + 1, h =>
    match hops[h]? with
    | none => h
    | some x => if x.recv.isSome then h else nextRecv hops n (h + 1)

/-- The own contribution that flit q of all that a lane receives is combined with, if it stands in HBM and is no phase's product: it is read
ahead, the eight ticks of the sequencer and 640 more before its place in the next hop (R411). -/
def Lane.mineOf (l : Lane) (q : Nat) : Option (Piece × Nat) :=
  match (l.hops[q / l.flits]?).bind (fun h => h.recv) with
  | some v => (match v.own with
    | some p => if p.fresh || !vaTranslated (p.flitAt (q % l.flits)) then none
      else some (p, l.start + (q / l.flits + 1) * l.period + q % l.flits - 648)
    | none => none)
  | none => none

/-- Own contributions that are due are read ahead, the count bounds them; a read that fails is tried again when the flit comes, and one that
is not served yet stands by its stack (R196, R411). -/
def State.laneMine (s : State) (d : Nat) (r : CollRun) (j : Nat) : Nat → Lane → Lane × State
  | 0, l => (l, s)
  | n + 1, l =>
    let q := l.mineTo
    if l.total ≤ q then (l, s)
    else
      match l.mineOf q with
      | none => s.laneMine d r j n { l with mineTo := q + 1 }
      | some (p, t) =>
        if s.now d < t then (l, s)
        else
          match s.collTurn d r [2, j, q] (p.flitAt (q % l.flits)) p.unit false with
          | (false, s1) => (l, s1)
          | (true, s1) =>
            match s1.collRead d r (p.flitAt (q % l.flits)) p.unit with
            | .ok bs s2 => s2.laneMine d r j n { l with mineTo := q + 1, mine := Tab.set l.mine q bs }
            | .bad _ => s1.laneMine d r j n { l with mineTo := q + 1 }

/-- The own contribution to flit i of the hop that a lane awaits: read ahead, or read now. -/
def State.laneOwn (s : State) (d : Nat) (r : CollRun) (j : Nat) (l : Lane) (p : Piece) (i : Nat) : Got (List Byte) :=
  let q := l.rhop * l.flits + i
  match Tab.find l.mine q with
  | some bs => .ok bs s
  | none =>
    match s.collTurn d r [2, j, q] (p.flitAt i) p.unit false with
    | (false, _) => .bad .timingLate
    | (true, s1) => s1.collRead d r (p.flitAt i) p.unit

/-- Flit i of a hop is at the sequencer: combined with the own contribution, rounded by the final member (R260). -/
def State.laneTake (s : State) (d : Nat) (r : CollRun) (j : Nat) (l : Lane) (v : LaneRecv) (i : Nat) (load : Payload) :
    Got (Payload × Status) :=
  match load with
  | .raw bs => .ok (.raw bs, 0) s
  | .part es =>
    let round (es : List PElem) (st : Status) (s1 : State) : Got (Payload × Status) :=
      if !v.fin then .ok (.part es, st) s1
      else
        let (cs, st') := finalAll r.ef r.rm r.sat s1.freeCount 0 es
        .ok (.part (cs.map (fun c => (widen (efOf r.ef) c, false, false))), st ||| st') { s1 with freeCount := s1.freeCount + 1 }
    match v.own with
    | none => round es 0 s
    | some p =>
      match s.laneOwn d r j l p i with
      | .bad c => .bad c
      | .ok bs s1 =>
        let own : List PElem := match pieceLoad r true p i bs with
          | .part o => o
          | .raw _ => []
        let (cs, st) := combineAll r.rop r.ef es own
        round cs st s1

/-- Side bits that STAGE keeps with flit i (R260). -/
def CollRun.keepSide (r : CollRun) (v : LaneRecv) (i : Nat) (load : Payload) : CollRun :=
  match load with
  | .part es =>
    match v.dst.find? (fun p => p.wide) with
    | some p => { r with side := Tab.set r.side (r.stageFlit (p.flitAt i)) (es.map Prod.snd) }
    | none => r
  | .raw _ => r

/-- Does the hop after one send what arrives in it? -/
def Lane.forwards (l : Lane) : Bool :=
  match (l.hops[l.rhop + 1]?).bind (fun h => h.send) with
  | some .held => true
  | _ => false

/-- A lane after flit i of its hop: the flit stands at the sequencer under the number by which the next hop sends it, and when the piece is
whole the next hop is awaited. -/
def Lane.arrived (l : Lane) (i : Nat) (load : Payload) : Lane :=
  let l1 := if l.forwards then { l with held := Tab.set l.held ((l.rhop + 1) * l.flits + i) load } else l
  if l.got.length + 1 = l.flits then { l1 with mine := [], got := [], rhop := nextRecv l.hops l.hops.length (l.rhop + 1) }
  else { l1 with got := i :: l.got }

/-- Does the own contribution to a flit that has come wait in Free mode for a pre-empted context: the flit is delivered again in the next tick
(R297)? -/
def State.ownHeld (s : State) (d : Nat) (r : CollRun) (l : Lane) (v : LaneRecv) (i : Nat) : Bool :=
  match v.own with
  | some p => (Tab.find l.mine (l.rhop * l.flits + i)).isNone && !s.locked d r.core && s.collHeld d r .read (p.flitAt i) p.unit
  | none => false

/-- A timed flit reaches lane j of a run on its receive port (R252, R259). -/
def State.laneAccept (s : State) (d : Nat) (r : CollRun) (j : Nat) (l : Lane) (f : Flit) : State :=
  let i := (f.idx + 65536 - l.rhop * l.flits % 65536) % 65536
  let kind : Bool := match f.payload with
    | .raw _ => !l.part
    | .part _ => l.part
  match l.awaits with
  | none => s.collFault d l.inn r .timingUnmatched
  | some v =>
    if !kind || l.flits ≤ i || l.got.contains i then s.collFault d l.inn r .timingUnmatched
    else if s.ownHeld d r l v i then { s with flits := f :: s.flits }
    else
      match s.laneTake d r j l v i f.payload with
      | .bad c => s.collFault d l.inn r c
      | .ok (load, st) s1 =>
        match s1.putPieces d r i load v.dst with
        | .bad c => s.collFault d l.inn r c
        | .ok _ s2 =>
          s2.modColl d r (fun r =>
            let r1 := (r.putLane j (l.arrived i load)).keepSide v i load
            { r1 with status := r1.status ||| st, lastWrite := if v.dst = [] then r1.lastWrite else s.now d })

/-- The lane of some run that receives a tag on a port. -/
def Die.laneFor (x : Die) (p tag : Nat) : Option (CollRun × Nat × Lane) :=
  x.colls.findSome? (fun r =>
    if r.tag != tag then none
    else (r.lanes.zipIdx.find? (fun e => e.1.inn == p && e.1.rhop < e.1.hops.length)).map (fun e => (r, e.2, e.1)))

/-- A flit that a lane should have had by now is missing: flit i of hop h is due eight ticks before its place in hop h + 1 (R411). -/
def Lane.late (l : Lane) (now : Nat) : Bool :=
  l.awaits.isSome && (List.range l.flits).any (fun i => l.start + (l.rhop + 1) * l.period + i < now + 8 + 1 && !l.got.contains i)

/-! The end (R261). -/

/-- Is every byte of RECV written? -/
def CollRun.recvDone (r : CollRun) : Bool :=
  r.toWrite == [] && r.lanes.all (fun l => l.hops.length ≤ l.rhop &&
    ((l.hops.drop (l.sent / l.flits)).all (fun h => match h.send with
      | some (.own _ (some _)) => false
      | _ => true)))

/-- Has every instruction of the sections retired? -/
def CollRun.allDone (r : CollRun) : Bool := r.recvDone && r.lanes.all (fun l => l.total ≤ l.sent)

/-- The push of SPK when RECV is complete, eight ticks of the sequencer after the last write (R259, R261). -/
def State.collSpk (s : State) (d : Nat) (r : CollRun) : State :=
  if r.spkDone || !r.recvDone || s.now d < r.lastWrite + 8 then s
  else
    let s1 := s.putColl d { r with spkDone := true }
    match r.spk with
    | none => s1
    | some ch => s1.modCore d r.core (fun y => y.push ch (s.coreAgent d r.core) 0 .outside)

/-- The writes of a run that are kept are made, in order, as far as their stacks serve them now; the count bounds them. -/
def State.collWrites (s : State) (d c id : Nat) : Nat → State
  | 0 => s
  | n + 1 =>
    match s.coll d c id with
    | none => s
    | some r =>
      match r.toWrite with
      | [] => s
      | w :: rest =>
        match s.collTurn d r [1, w.1] w.1 w.2.length true with
        | (false, s1) => s1
        | (true, s1) =>
          match s1.collWrite d r w.1 w.2 with
          | .bad cause => s1.collFault d (((r.lanes.map (fun l => l.inn)).headD 0)) r cause
          | .ok _ s2 => (s2.modColl d r (fun q => { q with toWrite := rest, lastWrite := s.now d })).collWrites d c id n

/-- Is what a lane should have had by now delivered, but in wait of a pre-empted context (R297)? -/
def State.laneBlocked (s : State) (d : Nat) (r : CollRun) (l : Lane) : Bool :=
  !s.locked d r.core && s.flits.any (fun f => f.die == d && f.port == l.inn && f.tag == r.tag && s.isDue f)

/-- One tick of a run: decodes, reads, sends, lateness, SPK. -/
def State.collTick (s : State) (d c id : Nat) : State :=
  match s.coll d c id with
  | none => s
  | some r =>
    let lanes := List.range r.lanes.length
    let s1 := (s.each lanes (fun s j => s.laneDecode d c id j)).each lanes (fun s j =>
      match (s.coll d c id).bind (fun r => (r.lanes[j]?).map (fun l => (r, l))) with
      | none => s
      | some (r, l) =>
        let (l1, s1) := s.laneReads d r j (l.total + 1 - l.readTo) l
        let (l2, s2) := s1.laneMine d r j (l.total + 1 - l.mineTo) l1
        s2.modColl d r (fun r => r.putLane j l2))
    let s1w := s1.collWrites d c id r.toWrite.length
    let s2 := s1w.each lanes (fun s j => s.laneSends d c id j (4 + r.lanes.length + (r.lanes.map (fun l => l.hops.length)).foldl (· + ·) 0))
    match s2.coll d c id with
    | none => s2
    | some r2 =>
      match r2.lanes.find? (fun l => l.late (s2.now d) && !s2.laneBlocked d r2 l) with
      | some l => s2.collFault d l.inn r2 .timingLate
      | none => s2.collSpk d r2

/-- One tick of every run of a die, in order of admission. -/
def State.collTicks (s : State) (d : Nat) : State :=
  ((s.die d).colls.map (fun r => (r.core, r.cmd))).foldl (fun s e => s.collTick d e.1 e.2) s

/-! Port failure. -/

/-- Commands whose flits a failed port holds end in UNOWNED_ACCESS: copies, requests of hosts and of the sampler, brand operations, and
collectives with a section there (R255, R265). -/
def State.severPort (s : State) (d p : Nat) : State :=
  let lostOpens := s.opens.filter (fun o => s.heldAt d p o.tr)
  let lostMsgs := s.brandMsgs.filter (fun b => s.heldAt d p b.tr)
  let s1 : State := { s with
    opens := s.opens.map (fun o => if s.heldAt d p o.tr then o.end_ else o),
    brandMsgs := s.brandMsgs.map (fun b => if s.heldAt d p b.tr then { b with tr := { b.tr with spent := true } } else b) }
  let s2 := lostOpens.foldl (fun s o =>
    s.openEnd { o with body := .fault .unowned 0 false, tr := { o.tr with fromDie := o.home, toDie := o.home } }) s1
  let s3 := lostMsgs.foldl (fun s b => match b.reply with
    | some a => s.replied b a (.failed .unowned)
    | none => s.endBrand b.tr.fromDie b.core b.cmd (.failed .unowned)) s2
  ((s3.die d).colls.filter (fun r => !r.locked && r.uses p)).foldl (fun s r => s.collEnd d r .unowned) s3

/-- A port is declared failed (R243): the far end receives no valid symbol from now on, and a record is written; under Locked operation the
die aborts, otherwise what the port held ends and its engine stops (R263, R265, R306). -/
def State.declarePort (s : State) (d p : Nat) : State :=
  let q := s.port d p
  if q.failed then s
  else
    let locked := (s.die d).lockedOp
    let s1 := s.setPort d p { q with failed := true, silent := none }
    let s2 := match s.cable d p with
      | none => s1
      | some k =>
        let f := s1.port k.farDie k.farPort
        if f.failed || f.silent.isSome then s1 else s1.setPort k.farDie k.farPort { f with silent := some (s1.now k.farDie) }
    let s3 := (s2.severPort d p).errRecord d (if locked then 2 else 1) 0x61 0 0xFF p 0
    if locked then s3.originate d .portFailed 0 [] else s3.linkFault d p .unowned (s3.port d p).pc

end Sys2Proof.Machine
end

