-- ==== Sys2Proof/Machine/Link.lean ====
section
/-!
DEFINITION. Link programs: arming and the start of an engine (R247 to R249), decoding ahead with its slot claims (R249, R250),
XSEND, XRECV, XFWD, XRED, XGUARD, XOPEN and XSTEP (R251, R253, R406 to R413), delivery and the landing buffer (R252), and a tick
of a plan stream.
-/
namespace Sys2Proof.Machine

/-! Registers (R247, R407). -/

/-- A link register; x0 reads zero. -/
def Port.xreg (q : Port) (r : LReg) : Nat := if r = 0 then 0 else (Tab.get q.snapRegs r.val 0).toNat

/-- TAG of a tag word. -/
def tagField (w : Nat) : Nat := w % 65536
/-- OTAG of a tag word. -/
def otagField (w : Nat) : Nat := w / 65536 % 65536
/-- OPORT of a tag word. -/
def oportField (w : Nat) : Nat := w / 2 ^ 32 % 16
/-- FLITS of a count word. -/
def flitsField (w : Nat) : Nat := w % 2 ^ 17
/-- EF of a count word. -/
def efField (w : Nat) : Nat := w / 2 ^ 24 % 256
/-- RM of a count word. -/
def rmField (w : Nat) : Nat := w / 2 ^ 32 % 8
/-- SAT of a count word. -/
def satField (w : Nat) : Bool := w / 2 ^ 35 % 2 == 1

/-- A tag word of XSEND or XRECV (R407). -/
def plainTagOk (w : Nat) : Bool := w < 65536

/-- A tag word of a relay of port p: OPORT 0 to 8 and not p itself, or none (R407, R411). -/
def relayTagOk (p : Nat) (final : Bool) (w : Nat) : Bool :=
  w < 2 ^ 36 && (if final then oportField w == 15 else oportField w ≤ 8 && oportField w != p)

/-- A count word: reserved bits zero, FLITS in range (R407); with partials an EF of theirs, and RM and SAT only where they are
used. -/
def countOk (w : Nat) (part round : Bool) : Bool :=
  w < 2 ^ 36 && w / 2 ^ 17 % 128 == 0 && 1 ≤ flitsField w && flitsField w ≤ 65536
    && (if part then partialEf (efField w) else efField w == 0)
    && (if round then rmField w ≤ 5 else rmField w == 0 && !satField w)

/-- A push target (R407). -/
def targetOkWord (w : Nat) : Bool := w < 2 ^ 14 && w / 64 % 4 == 0

/-- The push target of an instruction is legal. -/
def Port.pushOk (q : Port) : LPush → Bool
  | .none => true
  | .to r _ => targetOkWord (q.xreg r)

/-! Memory of a plan stream (R406). -/

/-- The plan tenant of a port (R247). -/
def State.planTenant (s : State) (d p : Nat) : Option Nat := Tab.find s.pod.planTenants (16 * d + p)

/-- Judge an address range of a plan stream: SPACE 0x0 on the engine's die, in a scratchpad or in translated space, under the port's brands;
nothing else of the direct window admits it (R125, R179, R406). In Free mode an access under an entry of a pre-empted context is admitted
and waits until the context resumes (R297). -/
def State.linkRight (s : State) (d p : Nat) (acc : Access) (va len : Nat) : Option Cause :=
  if 2 ^ 60 ≤ va || vaDie va != d then some .reservedField
  else if !(vaTranslated va || vaLow va + len ≤ 64 * spadSize) then some .unowned
  else
    match s.planTenant d p with
    | none => some .unowned
    | some t =>
      match s.judge d t [portAgent p] none acc va len with
      | .ok => none
      | .bad c _ => some c
      | .hold => if (s.port d p).snapLocked && acc == .read then some .timingLate else none

/-- Does an access of a plan stream wait until a pre-empted context resumes (R297)? -/
def State.linkHeld (s : State) (d p : Nat) (acc : Access) (va len : Nat) : Bool :=
  match s.planTenant d p with
  | none => false
  | some t => s.judge d t [portAgent p] none acc va len == .hold

/-- An access of a plan stream may be made now: no pre-empted context holds it up, and the stack that it asks serves the port (R192, R196,
R297). -/
def State.linkTurn (s : State) (d p : Nat) (tag : List Nat) (va len : Nat) (write : Bool) : Bool × State :=
  if s.linkHeld d p (if write then .write else .read) va len then (false, s)
  else s.atStacks d (portAgent p) tag (s.port d p).snapLocked true ((s.die d).rawUses .memSide ((s.planTenant d p).getD 0) va len write)

/-- A plan stream reads, by the memory-side TLB (R406; log entry 71). -/
def State.linkRead (s : State) (d p va len : Nat) : Got (List Byte) :=
  match s.linkRight d p .read va len with
  | some c => .bad c
  | none => s.got d ((s.die d).read .memSide ((s.planTenant d p).getD 0) (s.port d p).snapLocked va len)

/-- A plan stream writes (R406). -/
def State.linkWrite (s : State) (d p va : Nat) (bs : List Byte) : Got Unit :=
  match s.linkRight d p .write va bs.length with
  | some c => .bad c
  | none => s.got d ((s.die d).write .memSide ((s.planTenant d p).getD 0) (s.port d p).snapLocked va bs)

/-! Pushes (R406). -/

/-- An ORPHAN record of a link push (R304, R406). -/
def State.linkOrphan (s : State) (d p off slot rank : Nat) : State :=
  match s.planTenant d p with
  | none => s
  | some t => s.event d t { EventRec.blank .orphan with agent := portAgent p, pc := off, cslot := slot, rank := rank }

/-- Is a gang pre-empted, from its halt until its restore? -/
def GangPhase.away : GangPhase → Bool
  | .halted _ | .saving _ | .saved => true
  | _ => false

/-- Is a gang being loaded? -/
def GangPhase.isLoading : GangPhase → Bool
  | .loading | .suspendedLoad _ => true
  | _ => false

/-- A push for a context that the die keeps it for. -/
def State.keepPush (s : State) (d slot rank ch p : Nat) : State :=
  s.modDie d (fun x => { x with kept := x.kept ++ [(slot, rank, ch, p)] })

/-- The push of a link instruction at plan offset off (R406): to a live gang of the plan tenant, kept while that gang is pre-empted, up to
255 for each channel of a context, or while it is being loaded; a core that has retired from it takes no notice. -/
def State.linkPush (s : State) (d p off : Nat) : LPush → State
  | .none => s
  | .to r ch =>
    let w := (s.port d p).xreg r
    let slot := w / 256 % 64
    let rank := w % 64
    match s.gang d slot with
    | none => s.linkOrphan d p off slot rank
    | some g =>
      match g.cores[rank]? with
      | none => s.linkOrphan d p off slot rank
      | some c =>
        if some g.tenant ≠ s.planTenant d p then s.linkOrphan d p off slot rank
        else if g.phase.away then
          let same := ((s.die d).kept.filter (fun k => k.1 == slot && k.2.1 == rank && k.2.2.1 == ch.val)).length
          if same < 255 then s.keepPush d slot rank ch.val p else s.linkOrphan d p off slot rank
        else if g.phase.isLoading then s.keepPush d slot rank ch.val p
        else if (s.core d c).ctx = some (slot, rank) then s.modCore d c (fun y => y.push ch.val (portAgent p) 0 .outside)
        else s

/-- Status bits of a plan stream's XRED reach strand 0 of the core its push names, in its saved context while it is pre-empted (R411). -/
def State.linkStatus (s : State) (d p : Nat) (st : Status) : LPush → State
  | .none => s
  | .to r _ =>
    let w := (s.port d p).xreg r
    let slot := w / 256 % 64
    let key := some (slot, w % 64)
    match s.gang d slot with
    | none => s
    | some g =>
      let kept (sc : SavedCore) : SavedCore :=
        if sc.image.ctx = key then
          { sc with image := sc.image.setStrand 0 { sc.image.strand 0 with status := (sc.image.strand 0).status ||| st } }
        else sc
      let s1 := if g.phase = .saved then s.setGang d slot { g with saved := g.saved.map kept } else s
      match g.cores[w % 64]? with
      | some c => if (s.core d c).ctx = key then s1.orStatus ⟨d, c, 0⟩ st else s1
      | none => s1

/-! Decoding (R249). -/

/-- A link instruction is decoded: its tick is judged, it stands in the stream from now on, and it makes its claims (R249). -/
def State.decodeLink (s : State) (d p : Nat) (i : Instr) (lit : BitVec 32) (setup : LinkOp → State → State) : State :=
  let q := s.port d p
  let t := q.decBase + lit.toNat
  if q.state ≠ .running ∨ q.ended then s
  else if t < q.prevTick then s.linkFault d p .planConflict q.pc
  else if t < s.now d then s.linkFault d p .timingLate q.pc
  else
    let op : LinkOp := { off := q.pc, tick := t, instr := i }
    setup op (s.setPort d p { q with pc := q.pc + 4 * (wordsOf i).length, prevTick := t, ops := q.ops ++ [op] })

/-- The ranges that a link instruction reads and writes, as its registers name them (R409 to R411). -/
def Port.opRanges (q : Port) : Instr → List (Access × Nat × Nat)
  | .xsend _ part a _ e _ _ =>
    let w := q.xreg e
    [(.read, q.xreg a, flitsField w * (if part then partBytes (efField w) else 256))]
  | .xrecv a _ e _ _ _ => [(.write, q.xreg a, 256 * flitsField (q.xreg e))]
  | .xfwd a _ e _ _ => if a = 0 then [] else [(.write, q.xreg a, 256 * flitsField (q.xreg e))]
  | .xred _ fin a _ e g _ _ =>
    let len := flitsField (q.xreg e) * partBytes (efField (q.xreg e))
    (.read, q.xreg a, len) :: (if fin then [(.write, q.xreg g, len)] else [])
  | _ => []

/-- Does a range of a link instruction wait until a pre-empted context resumes (R297)? -/
def State.rangesHeld (s : State) (d p : Nat) (i : Instr) : Bool :=
  ((s.port d p).opRanges i).any (fun e => s.linkHeld d p e.1 e.2.1 e.2.2)

/-- The instruction that stands first among those decoded is taken at its tick; what comes next in the same tick follows. In Free mode one
whose range a pre-empted context holds up waits (R297). -/
def State.takeLink (s : State) (d p : Nat) (i : Instr) (effect : LinkOp → State → State) : State :=
  let q := s.port d p
  match q.ops with
  | [] => s
  | op :: rest =>
    if q.state ≠ .running ∨ op.instr ≠ i ∨ s.now d < op.tick ∨ (!q.snapLocked && s.rangesHeld d p i) = true then s
    else
      let s1 := s.setPort d p { q with ops := rest }
      let s2 : State := match rest with
        | n :: _ => if n.tick ≤ s.now d then { s1 with agenda := .take d p :: s1.agenda } else s1
        | [] => s1
      effect op s2

/-- A link instruction under its engine: decoded or taken. -/
def onLink (i : Instr) (lit : BitVec 32) (s : State) (setup : Nat → Nat → LinkOp → State → State)
    (effect : Nat → Nat → LinkOp → State → State) : Out :=
  match s.actor with
  | .link d p => .next (s.decodeLink d p i lit (setup d p))
  | .taken d p => .next (s.takeLink d p i (effect d p))
  | _ => .fault .noActor

/-- A claim of send slots by an instruction; refused, the instruction faults. -/
def State.claimSend (s : State) (d p o : Nat) (op : LinkOp) (first flits : Nat) : State :=
  match s.claim d o { first := first, flits := flits, rate := portRate o, wall := false, tick := op.tick, port := p, off := op.off,
                      coll := none } with
  | (true, s1) => s1
  | (false, s1) => s1.linkFault d p .planConflict op.off

/-- A claim of ticks that no timed flit may use (R412). -/
def State.claimWall (s : State) (d p : Nat) (op : LinkOp) (len : Nat) : State :=
  match s.claim d p { first := op.tick, flits := len, rate := 1, wall := true, tick := op.tick, port := p, off := op.off,
                      coll := none } with
  | (true, s1) => s1
  | (false, s1) => s1.linkFault d p .planConflict op.off

/-! Sends (R409). -/

/-- A send record of a port by its instruction. -/
def Port.putSend (q : Port) (x : Send) : Port := { q with sends := q.sends.map (fun y => if y.op = x.op then x else y) }

/-- Bytes of memory that a flit of a send takes. -/
def Send.unit (x : Send) : Nat := if x.part then partBytes x.ef else 256

/-- The slot of a flit of a send on port p. -/
def Send.slot (x : Send) (p i : Nat) : Nat := x.op.tick + i / portRate p

/-- Flits that are due are read ahead, the count bounds them; a read that fails is tried again at the slot, and one that is not served yet
stands by its stack (R196, R409). -/
def State.sendReads (s : State) (d p : Nat) : Nat → Send → Send × State
  | 0, x => (x, s)
  | n + 1, x =>
    let i := x.readTo
    let va := x.addr + i * x.unit
    if x.flits ≤ i ∨ s.now d + readAhead va < x.slot p i then (x, s)
    else
      match s.linkTurn d p [0, x.op.off, i] va x.unit false with
      | (false, s1) => (x, s1)
      | (true, s1) =>
        match s1.linkRead d p va x.unit with
        | .ok bs s2 => s2.sendReads d p n { x with readTo := i + 1, read := Tab.set x.read i bs }
        | .bad _ => s1.sendReads d p n { x with readTo := i + 1 }

/-- The bytes of a flit at its slot: read ahead, or read again where that failed. Those that their stack has not served are late (R196,
R409). -/
def State.linkGot (s : State) (d p i readTo : Nat) (read : Tab (List Byte)) (va len : Nat) : Got (List Byte) :=
  match Tab.find read i with
  | some bs => .ok bs s
  | none => if i < readTo then s.linkRead d p va len else .bad .timingLate

/-- Flit i of a send leaves. -/
def State.sendOne (s : State) (d p : Nat) (x : Send) : State :=
  let i := x.sent
  let got := s.linkGot d p i x.readTo x.read (x.addr + i * x.unit) x.unit
  match got with
  | .bad c => s.linkFault d p c x.op.off
  | .ok bs s1 =>
    let x1 : Send := { x with sent := i + 1, read := Tab.erase x.read i }
    let load : Payload := if x.part then .part (partsOfBytes x.ef bs) else .raw bs
    (s1.setPort d p ((s1.port d p).putSend x1)).emit d p x.tag i load

/-- The push of an instruction. -/
def pushOf : Instr → LPush
  | .xsend _ _ _ _ _ _ push | .xrecv _ _ _ _ _ push | .xfwd _ _ _ _ push | .xred _ _ _ _ _ _ _ push | .xstep _ _ push => push
  | _ => .none

/-- Does a send that is due stay: its instruction is not taken yet, its flit waits in Free mode for a pre-empted context, or the port has no slot
for it (R241, R242, R297)? -/
def State.sendStays (s : State) (d p : Nat) (x : Send) : Bool :=
  let q := s.port d p
  let i := x.sent
  q.ops.contains x.op
    || ((Tab.find x.read i).isNone && !q.snapLocked && s.linkHeld d p .read (x.addr + i * x.unit) x.unit)
    || q.noSlot p (s.now d)

/-- The flits of a send that are due leave; after the last one the instruction retires and pushes (R409). -/
def State.sendFlits (s : State) (d p : Nat) (op : LinkOp) : Nat → State
  | 0 => s
  | n + 1 =>
    match (s.port d p).sends.find? (fun x => x.op == op) with
    | none => s
    | some x =>
      if x.flits ≤ x.sent then
        (s.setPort d p { s.port d p with sends := (s.port d p).sends.filter (fun y => y.op != op) }).linkPush d p op.off (pushOf op.instr)
      else if s.now d < x.slot p x.sent || s.sendStays d p x then s
      else (s.sendOne d p x).sendFlits d p op n

/-- XSEND (R253, R409): its slots are claimed at decode and its reads begin; at its tick its registers, its source and its tracker
are judged. -/
def execXsend (track part : Bool) (a b e : LReg) (lit : BitVec 32) (push : LPush) (s : State) : Out :=
  onLink (.xsend track part a b e lit push) lit s
    (fun d p op s =>
      let q := s.port d p
      let w := q.xreg e
      if !countOk w part false then s
      else
        let x : Send := { op := op, addr := q.xreg a, tag := tagField (q.xreg b), flits := flitsField w, part := part, ef := efField w,
                          read := [], readTo := 0, sent := 0 }
        (s.setPort d p { q with sends := q.sends ++ [x] }).claimSend d p p op op.tick x.flits)
    (fun d p op s =>
      let q := s.port d p
      let w := q.xreg e
      let len := flitsField w * (if part then partBytes (efField w) else 256)
      if !(countOk w part false && plainTagOk (q.xreg b) && q.pushOk push) then s.linkFault d p .reservedField op.off
      else
        match s.linkRight d p .read (q.xreg a) len with
        | some c => s.linkFault d p c op.off
        | none =>
          if !track then s
          else if !vaTranslated (q.xreg a) then s.linkFault d p .reservedField op.off
          else
            match q.trackers.find? (fun k => k.off == op.off) with
            | some k => if k.written.length < k.count then s.linkFault d p .timingLate op.off else s
            | none => s.linkFault d p .planConflict op.off)

/-! Trackers (R253). -/

/-- Physical sectors of a range of a die's translated space, as far as it is mapped; a sector that is not is never written (R253). -/
def Die.sectorsAt (x : Die) (t va len : Nat) : List Nat :=
  (List.range ((va % 256 + len + 255) / 256)).filterMap (fun i =>
    match (x.translate .memSide t (vaLow va / 256 * 256 + 256 * i) false).1 with
    | .leaf e => some ((e.pa + (vaLow va / 256 * 256 + 256 * i - e.va)) / 256 * 256)
    | _ => none)

/-- Entries of the controller of a stack that are in use (R182, R253). -/
def Die.trackerCount (x : Die) (stack : Nat) : Nat :=
  ((x.ports.flatMap (fun e => e.2.trackers)).filter (fun k => (k.sectors.headD 0) / 0xC00000000 == stack)).length

/-- The tracked XSENDs from a plan offset up to the XSTEP of the step, the count bounds the instructions. -/
def trackedFrom (plan : Mem) : Nat → Nat → List (Nat × LReg × LReg × Bool)
  | 0, _ => []
  | n + 1, off =>
    let w (k : Nat) : Nat := if off + 4 * k + 4 ≤ 0x8000 then Mem.load plan (off + 4 * k) 4 else 0
    match decodeLink (w 0) (w 1) (w 2) with
    | .ok (.xstep _ _ _) => []
    | .ok (.xsend true part a _ e _ _) => (off, a, e, part) :: trackedFrom plan n (off + 12)
    | .ok _ => trackedFrom plan n (off + 12)
    | .error _ => []

/-- At the BASE of a step the trackers of its tracked XSENDs are armed, as far as entries are free; those of its last step are free
again (R253; log entry 76). -/
def State.armTrackers (s : State) (d p off : Nat) : State :=
  let q0 := s.port d p
  let t := (s.planTenant d p).getD 0
  (trackedFrom q0.snapPlan 2704 off).foldl (fun s e =>
    let q := s.port d p
    let w := q.xreg e.2.2.1
    let len := flitsField w * (if e.2.2.2 then partBytes (efField w) else 256)
    let sectors := (s.die d).sectorsAt t (q.xreg e.2.1) len
    if 256 ≤ (s.die d).trackerCount (sectors.headD 0 / 0xC00000000) then s
    else
      let k : Tracker := { off := e.1, count := (q.xreg e.2.1 % 256 + len + 255) / 256, sectors := sectors, written := [] }
      s.setPort d p { q with trackers := q.trackers ++ [k] })
    (s.setPort d p { q0 with trackers := [] })

/-! Receives (R252, R410, R411). -/

/-- A receive record of a port by its instruction. -/
def Port.putRecv (q : Port) (x : Recv) : Port := { q with recvs := q.recvs.map (fun y => if y.op = x.op then x else y) }

/-- The receive of an instruction. -/
def Port.recv (q : Port) (op : LinkOp) : Option Recv := q.recvs.find? (fun y => y.op == op)

/-- Does a receive await flits? -/
def Recv.open_ (r : Recv) : Bool := r.posted && r.got.length < r.flits

/-- May a payload come to a receive: XRECV takes raw flits, XRED partial ones, XFWD both (R407). -/
def takesKind (i : Instr) (load : Payload) : Bool :=
  match i, load with
  | .xrecv _ _ _ _ _ _, .raw _ => true
  | .xred _ _ _ _ _ _ _ _, .part _ => true
  | .xfwd _ _ _ _ _, _ => true
  | _, _ => false

/-- Is a write of an instruction still to be made? -/
def Port.writing (q : Port) (op : LinkOp) : Bool := q.toWrite.any (fun w => w.op == op)

/-- A write of a plan stream: made now, or kept until its stack serves it or the pre-empted context that holds it up resumes, after those
that are kept already (R196, R297). -/
def State.linkStore (s : State) (d p : Nat) (op : LinkOp) (va : Nat) (bs : List Byte) : Got Unit :=
  match s.linkRight d p .write va bs.length with
  | some c => .bad c
  | none =>
    let keep (s : State) : Got Unit :=
      .ok () (s.setPort d p { s.port d p with toWrite := (s.port d p).toWrite ++ [{ op := op, va := va, data := bs }] })
    if (s.port d p).toWrite ≠ [] then keep s
    else
      match s.linkTurn d p [1, va] va bs.length true with
      | (false, s1) => keep s1
      | (true, s1) => s1.linkWrite d p va bs

/-- A receive that has all its flits, each of them written, is complete and pushes (R252, R410). -/
def State.recvDone (s : State) (d p : Nat) (op : LinkOp) : State :=
  let q := s.port d p
  match q.recv op with
  | none => s
  | some r =>
    if r.relay || r.got.length < r.flits || q.writing op then s
    else (s.setPort d p { q with recvs := q.recvs.filter (fun y => y.op != op) }).linkPush d p op.off (pushOf op.instr)

/-- The writes that are kept are made, in order, as far as their stacks serve them now; the count bounds them. -/
def State.portWrites (s : State) (d p : Nat) : Nat → State
  | 0 => s
  | n + 1 =>
    match (s.port d p).toWrite with
    | [] => s
    | w :: rest =>
      match s.linkTurn d p [1, w.va] w.va w.data.length true with
      | (false, s1) => s1
      | (true, s1) =>
        match s1.linkWrite d p w.va w.data with
        | .bad c => s1.linkFault d p c w.op.off
        | .ok _ s2 => ((s2.setPort d p { s2.port d p with toWrite := rest }).recvDone d p w.op).portWrites d p n

/-- A flit comes to a receive (R252, R410, R411). -/
def State.acceptFlit (s : State) (d p : Nat) (r : Recv) (f : Flit) : State :=
  if !takesKind r.op.instr f.payload || r.flits ≤ f.idx || r.got.contains f.idx then s.linkFault d p .timingUnmatched r.op.off
  else
    let wrote : Got Unit := match r.addr, f.payload with
      | some a, .raw bs => s.linkStore d p r.op (a + 256 * f.idx) bs
      | _, _ => .ok () s
    match wrote with
    | .bad c => s.linkFault d p c r.op.off
    | .ok _ s1 =>
      let r1 : Recv := { r with got := f.idx :: r.got, data := if r.relay then Tab.set r.data f.idx f.payload else r.data }
      (s1.setPort d p ((s1.port d p).putRecv r1)).recvDone d p r.op

/-- A receive is posted at its tick and takes the flits of its tag that wait, unless they are older than 256 ticks; one that is left when it
is complete is unmatched (R252, R410). -/
def State.post (s : State) (d p : Nat) (r : Recv) : State :=
  let q := s.port d p
  if q.recvs.any (fun y => y.open_ && y.tag == r.tag) || ((s.die d).laneFor p r.tag).isSome then s.linkFault d p .planConflict r.op.off
  else
    let others := q.recvs.filter (fun y => y.op != r.op)
    let takes (f : Flit) : Bool := f.tag == r.tag && s.now d ≤ f.tick + 256
    let s1 := s.setPort d p { q with recvs := others ++ [{ r with posted := true }], landing := q.landing.filter (fun f => !takes f) }
    (q.landing.filter takes).foldl (fun s f =>
      match (s.port d p).recv r.op with
      | some y => s.acceptFlit d p y f
      | none => s.linkFault d p .timingUnmatched r.op.off) s1

/-- XRECV (R410). -/
def execXrecv (a b e g : LReg) (lit : BitVec 32) (push : LPush) (s : State) : Out :=
  onLink (.xrecv a b e g lit push) lit s (fun _ _ _ s => s)
    (fun d p op s =>
      let q := s.port d p
      let w := q.xreg e
      let dl := q.xreg g
      if !(countOk w false false && plainTagOk (q.xreg b) && q.pushOk push) || (dl != 0 && dl ≤ lit.toNat) then
        s.linkFault d p .reservedField op.off
      else
        match s.linkRight d p .write (q.xreg a) (256 * flitsField w) with
        | some c => s.linkFault d p c op.off
        | none =>
          s.post d p { op := op, tag := tagField (q.xreg b), flits := flitsField w, addr := some (q.xreg a), posted := false,
                       deadline := if dl = 0 then none else some (op.tick - lit.toNat + dl), got := [], relay := false, data := [],
                       own := [], ownTo := 0, sent := 0, status := 0 })

/-! Relays (R411). -/

/-- The fields of a relay that its flits need: own address and its format, output port, output tag, operation, final rounding. -/
structure RelayForm where
  own : Option Nat
  ef : Nat
  out : Option Nat
  otag : Nat
  rop : Nat
  fin : Option (Nat × Nat × Bool)
  deriving DecidableEq, Repr

/-- The number of a reduction (R408). -/
def redNum : RedOp → Nat
  | .sum => 0 | .max => 1 | .min => 2

/-- The form of a relay on port p. -/
def Port.relayForm (q : Port) : Instr → RelayForm
  | .xred op fin a b e g _ _ =>
    let w := q.xreg e
    { own := some (q.xreg a), ef := efField w, out := if fin then none else some (oportField (q.xreg b)), otag := otagField (q.xreg b),
      rop := redNum op, fin := if fin then some (q.xreg g, rmField w, satField w) else none }
  | .xfwd _ b _ _ _ =>
    { own := none, ef := 0, out := some (oportField (q.xreg b)), otag := otagField (q.xreg b), rop := 0, fin := none }
  | _ => { own := none, ef := 0, out := none, otag := 0, rop := 0, fin := none }

/-- When flit i of a relay goes on (R411). -/
def relaySlot (op : LinkOp) (out : Option Nat) (i : Nat) : Nat := op.tick + 8 + i / (if out = some 8 then 4 else 1)

/-- A relay's record, made at decode. -/
def relayRecv (q : Port) (op : LinkOp) (b e : LReg) (addr : Option Nat) : Recv :=
  { op := op, tag := tagField (q.xreg b), flits := flitsField (q.xreg e), addr := addr, posted := false, deadline := none, got := [],
    relay := true, data := [], own := [], ownTo := 0, sent := 0, status := 0 }

/-- Own contributions that are due are read ahead, the count bounds them (R411). -/
def State.relayReads (s : State) (d p : Nat) (f : RelayForm) : Nat → Recv → Recv × State
  | 0, r => (r, s)
  | n + 1, r =>
    match f.own with
    | none => (r, s)
    | some a =>
      let i := r.ownTo
      let va := a + i * partBytes f.ef
      if r.flits ≤ i ∨ s.now d + readAhead va < r.op.tick + i then (r, s)
      else
        match s.linkTurn d p [0, r.op.off, i] va (partBytes f.ef) false with
        | (false, s1) => (r, s1)
        | (true, s1) =>
          match s1.linkRead d p va (partBytes f.ef) with
          | .ok bs s2 => s2.relayReads d p f n { r with ownTo := i + 1, own := Tab.set r.own i bs }
          | .bad _ => s1.relayReads d p f n { r with ownTo := i + 1 }

/-- What a relay makes of flit i: the flit itself, or the partial with the own contribution (R260, R411). -/
def State.relayLoad (s : State) (d p : Nat) (f : RelayForm) (r : Recv) (i : Nat) : Got (Payload × Status) :=
  match Tab.find r.data i, f.own with
  | none, _ => .bad .timingLate
  | some load, none => .ok (load, 0) s
  | some load, some a =>
    match s.linkGot d p i r.ownTo r.own (a + i * partBytes f.ef) (partBytes f.ef), load with
    | .bad c, _ => .bad c
    | .ok bs s1, .part es => let (cs, st) := combineAll f.rop f.ef es (partsOfBytes f.ef bs); .ok (.part cs, st) s1
    | .ok _ s1, .raw b => .ok (.raw b, 0) s1

/-- Flit i of a relay goes on: sent on OPORT, or rounded and written (R411). -/
def State.relayOne (s : State) (d p : Nat) (f : RelayForm) (r : Recv) : State :=
  let i := r.sent
  match s.relayLoad d p f r i with
  | .bad c => s.linkFault d p c r.op.off
  | .ok (load, st) s1 =>
    let put (s : State) (st : Status) : State := s.setPort d p ((s.port d p).putRecv { r with sent := i + 1, status := r.status ||| st })
    match f.fin, load with
    | some (res, rm, sat), .part es =>
      let (cs, st') := finalAll f.ef rm sat s1.freeCount 0 es
      let s2 := { s1 with freeCount := s1.freeCount + 1 }
      (match s2.linkStore d p r.op (res + i * partBytes f.ef) (codeBytes f.ef cs) with
        | .bad c => s2.linkFault d p c r.op.off
        | .ok _ s3 => put s3 (st ||| st'))
    | _, _ =>
      match f.out with
      | some o => (put s1 st).emit d o f.otag i load
      | none => put s1 st

/-- Does a relay's flit that is due wait: in Free mode for a pre-empted context that holds up its own contribution, or for a slot of the port that
sends it (R241, R242, R297)? -/
def State.relayStays (s : State) (d p : Nat) (f : RelayForm) (r : Recv) : Bool :=
  let q := s.port d p
  (match f.own with
    | some a => (Tab.find r.own r.sent).isNone && !q.snapLocked && s.linkHeld d p .read (a + r.sent * partBytes f.ef) (partBytes f.ef)
    | none => false)
  || (match f.out with
    | some o => (s.port d o).noSlot o (s.now d)
    | none => false)

/-- The flits of a relay that are due go on; after the last one it completes and pushes (R411). -/
def State.relayFlits (s : State) (d p : Nat) (f : RelayForm) (op : LinkOp) : Nat → State
  | 0 => s
  | n + 1 =>
    match (s.port d p).recv op with
    | none => s
    | some r =>
      if !r.posted then s
      else if r.flits ≤ r.sent ∧ (s.port d p).writing op then s
      else if r.flits ≤ r.sent then
        ((s.setPort d p { s.port d p with recvs := (s.port d p).recvs.filter (fun y => y.op != op) }).linkStatus d p r.status (pushOf op.instr)).linkPush
          d p op.off (pushOf op.instr)
      else if s.now d < relaySlot op f.out r.sent || s.relayStays d p f r then s
      else (s.relayOne d p f r).relayFlits d p f op n

/-- A relay at decode: its record, and its send slots on OPORT where its registers name them (R411). -/
def State.decodeRelay (s : State) (d p : Nat) (op : LinkOp) (b e : LReg) (addr : Option Nat) (ok final : Bool) : State :=
  let q := s.port d p
  if !ok then s
  else
    let s1 := s.setPort d p { q with recvs := q.recvs ++ [relayRecv q op b e addr] }
    if final then s1 else s1.claimSend d p (oportField (q.xreg b)) op (op.tick + 8) (flitsField (q.xreg e))

/-- A relay at its tick: its ranges are judged and its receive is posted. -/
def State.takeRelay (s : State) (d p : Nat) (op : LinkOp) (ok : Bool) (ranges : List (Access × Nat × Nat)) : State :=
  if !ok then s.linkFault d p .reservedField op.off
  else
    match ranges.findSome? (fun e => s.linkRight d p e.1 e.2.1 e.2.2) with
    | some c => s.linkFault d p c op.off
    | none =>
      match (s.port d p).recv op with
      | some r => s.post d p r
      | none => s

/-- XFWD (R411). -/
def execXfwd (a b e : LReg) (lit : BitVec 32) (push : LPush) (s : State) : Out :=
  let ok (q : Port) (p : Nat) : Bool := countOk (q.xreg e) false false && relayTagOk p false (q.xreg b)
  onLink (.xfwd a b e lit push) lit s
    (fun d p op s => s.decodeRelay d p op b e (if a = 0 then none else some ((s.port d p).xreg a)) (ok (s.port d p) p) false)
    (fun d p op s =>
      let q := s.port d p
      s.takeRelay d p op (ok q p && q.pushOk push) (if a = 0 then [] else [(.write, q.xreg a, 256 * flitsField (q.xreg e))]))

/-- XRED (R411). -/
def execXred (op : RedOp) (fin : Bool) (a b e g : LReg) (lit : BitVec 32) (push : LPush) (s : State) : Out :=
  let ok (q : Port) (p : Nat) : Bool := countOk (q.xreg e) true fin && relayTagOk p fin (q.xreg b)
  onLink (.xred op fin a b e g lit push) lit s
    (fun d p o s => s.decodeRelay d p o b e none (ok (s.port d p) p) fin)
    (fun d p o s =>
      let q := s.port d p
      let len := flitsField (q.xreg e) * partBytes (efField (q.xreg e))
      s.takeRelay d p o (ok q p && q.pushOk push)
        ((.read, q.xreg a, len) :: (if fin then [(.write, q.xreg g, len)] else [])))

/-! XGUARD, XOPEN, XSTEP (R251, R412, R413). -/

/-- XGUARD (R246, R412). -/
def execXguard (len : Fin 256) (lit : BitVec 32) (s : State) : Out :=
  onLink (.xguard len lit) lit s (fun d p op s => s.claimWall d p op len.val)
    (fun d p op s => s.setPort d p { s.port d p with guards := (s.port d p).guards ++ [(op.tick, len.val)] })

/-- A window length in range (R412). -/
def windowOk (n : Nat) : Bool := 1 ≤ n && n < 2 ^ 32

/-- XOPEN (R254, R412). -/
def execXopen (e : LReg) (lit : BitVec 32) (s : State) : Out :=
  onLink (.xopen e lit) lit s
    (fun d p op s => let n := (s.port d p).xreg e; if windowOk n then s.claimWall d p op n else s)
    (fun d p op s =>
      let q := s.port d p
      if windowOk (q.xreg e) then s.setPort d p { q with windows := q.windows ++ [(op.tick, q.xreg e)] }
      else s.linkFault d p .reservedField op.off)

/-- The engine has ended its plan: DONE once no collective uses the port; what its instructions have still to send goes on
(R409, R411, R413). -/
def State.settleDone (s : State) (d p : Nat) : State :=
  let q := s.port d p
  let busy := (s.die d).colls.any (fun r => r.uses p)
  if q.state = .running ∧ q.ended ∧ q.ops = [] ∧ !busy then
    ((s.setPort d p { q with state := .done, idleFrom := s.now d }).modDie d Die.idleLanding).checkStep d
  else s

/-- XSTEP (R222, R251, R413; log entry 75). -/
def execXstep (last : Bool) (lit : BitVec 32) (push : LPush) (s : State) : Out :=
  onLink (.xstep last lit push) lit s
    (fun d p op s => s.setPort d p { s.port d p with decBase := op.tick, ended := last })
    (fun d p op s =>
      let q := s.port d p
      if !q.pushOk push then s.linkFault d p .reservedField op.off
      else if q.recvs.any Recv.open_ || q.toWrite != [] then s.linkFault d p .timingLate op.off
      else if q.landing.any (fun f => !f.idle && q.base ≤ f.tick) then s.linkFault d p .timingUnmatched op.off
      else
        let s1 := (s.giveAll d (portAgent p) (fun _ => true) true).linkPush d p op.off push
        let s2 := s1.setPort d p { s1.port d p with base := op.tick, step := q.step + 1, ahead := q.ahead + 1 }
        ((s2.armTrackers d p (op.off + 12)).checkStep d).settleDone d p)

/-! Arming and start (R248, R249). -/

/-- A write of 1 to STATE: the program is armed with a snapshot, which may be judged FAULTED at once (R248). -/
def State.armPort (s : State) (d p : Nat) : State :=
  let q := s.port d p
  if q.state = .armed ∨ q.state = .running then s
  else
    let armed : Port :=
      { q with state := .armed, snapStart := q.start, snapLocked := q.pmode % 2 == 1, snapRegs := q.regs, snapPlan := q.plan,
               landing := [], guards := [], windows := [], toWrite := [], trackers := [], recvs := [], sends := [], ops := [] }
    if q.pmode / 2 ≠ 0 then s.setPort d p { armed with state := .faulted, fault := Cause.reservedField.code }
    else if q.start < s.now d then s.setPort d p { armed with state := .faulted, fault := Cause.timingLate.code }
    else s.setPort d p armed

/-- A write of 0 to STATE disarms an ARMED program (R248). -/
def State.disarmPort (s : State) (d p : Nat) : State :=
  let q := s.port d p
  if q.state = .armed then s.setPort d p { q with state := .idle } else s

/-- LINK_ARM (R247, R248): the plan tenant's host writes 1 to STATE. -/
def execLinkArm (d p t : Nat) (s : State) : Out :=
  .next (if s.planTenant d p = some t then (s.answer d (.rdmaOk t)).armPort d p else s.answer d (.rdmaError t))

/-- LINK_DISARM (R248): the plan tenant's host writes 0 to STATE. -/
def execLinkDisarm (d p t : Nat) (s : State) : Out :=
  .next (if s.planTenant d p = some t then (s.answer d (.rdmaOk t)).disarmPort d p else s.answer d (.rdmaError t))

/-- LINK_ENGINE_START (R249): at START the armed engine runs. -/
def execLinkEngineStart (d p : Nat) (s : State) : Out :=
  let q := s.port d p
  if q.state = .armed ∧ q.snapStart ≤ s.now d then
    .next ((s.setPort d p { q with state := .running, base := q.snapStart, decBase := q.snapStart, prevTick := 0,
                                   pc := 0x140, step := 0, ended := false, ops := [], ahead := 0 }).armTrackers d p 0x140)
  else .next s

/-! Delivery (R252). -/

/-- An unmatched flit is held against the plan stream, or where none runs against the sections on the port (R252). -/
def State.unmatched (s : State) (d p : Nat) : State :=
  let q := s.port d p
  if q.state = .running then s.linkFault d p .timingUnmatched q.pc
  else
    match (s.die d).colls.find? (fun r => r.uses p) with
    | some r => s.collFault d p r .timingUnmatched
    | none => s

/-- A flit that nothing awaits lands, if there is room (R252). -/
def State.land (s : State) (d p : Nat) (f : Flit) : State :=
  let q := s.port d p
  let runs := (s.die d).streamRuns p
  if runs && (256 ≤ q.landing.length || q.landing.any (fun e => e.tag == f.tag && e.idx == f.idx)) then s.unmatched d p
  else if 256 ≤ q.landing.length then s.errRecord d 0 Cause.timingUnmatched.code 0 0xFF p 0
  else s.setPort d p { q with landing := q.landing ++ [{ f with idle := !runs }] }

/-- A flit whose CRC is good is delivered to what awaits its tag, or lands (R252). -/
def State.deliver (s : State) (d p : Nat) (f : Flit) : State :=
  match (s.port d p).recvs.find? (fun r => r.open_ && r.tag == f.tag), (s.die d).laneFor p f.tag with
  | some r, _ => s.acceptFlit d p r f
  | none, some (run, j, l) => s.laneAccept d run j l f
  | none, none => s.land d p f

/-- FLIT_DELIVERY (R243, R245, R252): the next flit of a port whose tick has come is delivered; one whose CRC failed on its arrival
is discarded. -/
def execFlitDelivery (d p : Nat) (s : State) : Out :=
  match s.flits.find? (fun f => f.die == d && f.port == p) with
  | none => .next s
  | some f =>
    if !s.isDue f then .next s
    else
      let s1 := { s with flits := s.flits.erase f }
      let q := s.port d p
      if q.failed then .next s1
      else if f.bad then .next s1
      else .next (s1.deliver d p { f with tick := s.now d })

/-- LANDING_BUFFER_EXPIRY (R252): a flit unclaimed 256 ticks after its delivery. -/
def execLandingBufferExpiry (d p : Nat) (s : State) : Out :=
  whenever ((s.die d).streamRuns p && (s.port d p).landing.any (fun f => !f.idle && f.tick + 256 ≤ s.now d)) s (s.unmatched d p)

/-- A receive that is late: past its deadline with a flit still to come or to be written, or a relay's flit not delivered by its tick
(R410, R411). -/
def Port.lateRecv (q : Port) (now : Nat) (r : Recv) : Bool :=
  if r.relay then r.open_ && (List.range r.flits).any (fun i => r.op.tick + i ≤ now && !r.got.contains i)
  else (r.open_ || q.writing r.op) && r.deadline.any (fun t => t ≤ now)

/-- RECEIVE_DEADLINE (R252, R410, R411). -/
def execReceiveDeadline (d p : Nat) (s : State) : Out :=
  match (s.port d p).recvs.find? (fun r => (s.port d p).lateRecv (s.now d) r) with
  | none => .next s
  | some r => .next (s.linkFault d p .timingLate r.op.off)

/-- The tick by which a RUNNING engine must meet its next guard (R241, R246). -/
def Port.guardDue (q : Port) : Nat := max q.lastg q.snapStart + 65536

/-- GUARD_OVERDUE (R246). -/
def execGuardOverdue (d p : Nat) (s : State) : Out :=
  let q := s.port d p
  whenever (q.state == .running && q.guardDue ≤ s.now d && !q.inGuard (s.now d)) s (s.linkFault d p .timingLate q.pc)

/-- IDLE_GUARD (R241): the guard that a port which does not run places by itself ends. -/
def execIdleGuard (d p : Nat) (s : State) : Out :=
  let q := s.port d p
  whenever (q.state != .running && s.now d % 32768 == 16 && q.idleFrom + 16 ≤ s.now d && s.linkUp d p) s
    ((s.setPort d p { q with lastg := s.now d }).recentre d p)

/-! A tick of an engine. -/

/-- Guards of the plan that end now (R246, R412). -/
def State.guardEnds (s : State) (d p : Nat) : State :=
  let q := s.port d p
  if q.guards.any (fun g => g.1 + g.2 ≤ s.now d) then
    (s.setPort d p { q with lastg := s.now d, guards := q.guards.filter (fun g => s.now d < g.1 + g.2) }).recentre d p
  else s

/-- What has passed on a port is forgotten. -/
def Port.prune (q : Port) (now : Nat) : Port :=
  { q with claims := q.claims.filter (fun c => now < c.first + c.ticks), windows := q.windows.filter (fun w => now < w.1 + w.2) }

/-- The sends of a port that are due: their reads, their flits (R409). -/
def State.portSends (s : State) (d p : Nat) : State :=
  (s.port d p).sends.foldl (fun s x =>
    match (s.port d p).sends.find? (fun y => y.op == x.op) with
    | none => s
    | some y =>
      let (y1, s1) := s.sendReads d p (y.flits + 1 - y.readTo) y
      (s1.setPort d p ((s1.port d p).putSend y1)).sendFlits d p x.op (portRate p + 1)) s

/-- The relays of a port that are due (R411). -/
def State.portRelays (s : State) (d p : Nat) : State :=
  (s.port d p).recvs.foldl (fun s x =>
    if !x.relay then s
    else
      match (s.port d p).recv x.op with
      | none => s
      | some y =>
        let f := (s.port d p).relayForm x.op.instr
        let (y1, s1) := s.relayReads d p f (y.flits + 1 - y.ownTo) y
        (s1.setPort d p ((s1.port d p).putRecv y1)).relayFlits d p f x.op 5) s

/-- A tick of a port: its line side, then the writes that are kept, and the reads, sends and relays that are due. -/
def State.portTick (s : State) (d p : Nat) : State :=
  let s0 := (((((s.lineArrives d p).recentred d p).exchange d p).noteDelay d p).guardEnds d p).settleDone d p
  if !(s0.port d p).works then s0
  else
    let s1 := ((s0.portWrites d p (s0.port d p).toWrite.length).portSends d p).portRelays d p
    s1.setPort d p ((s1.port d p).prune (s1.now d))

end Sys2Proof.Machine
end

