-- ==== Sys2Proof/Machine/Coll.lean ====
section
/-!
DEFINITION. Collectives: COLL (R327, R328), its parameter block (R256), its admission (R257, R258), the expansion into lanes (R259)
and its completion (R261).
-/
namespace Sys2Proof.Machine

/-- COLL (R327, R328). -/
def execColl (a : Reg) (lit : BitVec 32) (sp : Spark) (s : State) : Out :=
  issue (.coll a lit sp) (engineForm [a] sp) s (fun p t =>
    let ad := addrSum (t.reg p a) (sext lit)
    .done (t.acceptCmd p 2 (pushCh sp) [] ((t.spot p.d p.c ownSpace ad 128).rng 128 false) (.coll ad none false)) (t.seq p (.coll a lit sp)))

/-- Read n bytes of the issuing core's scratchpad for a COLL (R328). -/
def State.blockRead (s : State) (d c : Nat) (m : Cmd) (a : Int) (n align : Nat) : Except (Cause × Option Nat) (List Byte) :=
  match s.spot d c ownSpace a n with
  | .spad va =>
    if a % align ≠ 0 then .error (.reservedField, none)
    else
      match s.judgeFar d (s.tenantOf d c) (s.agentsOf d c 1) (some (c, m.id)) .read va n with
      | .bad cause hb => .error (cause, hb)
      | _ => .ok (Mem.bytes (s.core d c).spad (vaLow va % spadSize) n)
  | .bad cause => .error (cause, none)
  | _ => .error (.reservedField, none)

/-! Rings (R259). -/

/-- The lowest port of a die that links to another die. -/
def State.portTo (s : State) (d dest : Nat) : Option Nat :=
  (List.range 9).find? (fun p => s.linkUp d p && (match s.cable d p with
    | some k => k.farDie == dest
    | none => false))

/-- The port by which a member of a ring sends to the next one: the lowest that links to it, or the chord that carries the ring (R18, R259). -/
def State.ringPort (s : State) (chord : Option Nat) (d dest : Nat) : Option Nat :=
  match chord with
  | some p =>
    if s.linkUp d p && (match s.cable d p with
      | some k => k.farDie == dest
      | none => false) then some p else none
  | none => s.portTo d dest

/-- A ring as this member uses it: its size, its place, its send and receive port, the largest hop time. -/
structure Ring where
  n : Nat
  r : Nat
  out : Nat
  inn : Nat
  hop : Nat
  deriving DecidableEq, Repr

/-- The hop times round a ring of dies, if all its neighbours are linked. -/
def State.ringHops (s : State) (chord : Option Nat) (dies : List Nat) : Option (List Nat) :=
  (List.range dies.length).mapM (fun i =>
    let a := dies.getD i 0
    (s.ringPort chord a (dies.getD ((i + 1) % dies.length) 0)).bind (fun p => (s.cable a p).map (fun k => k.hop)))

/-- The ring of some dies for the member at place r (R257, R259). -/
def State.ring (s : State) (chord : Option Nat) (dies : List Nat) (r : Nat) : Option Ring :=
  let n := dies.length
  let d := dies.getD r 0
  let prev := dies.getD ((r + n - 1) % n) 0
  match s.ringHops chord dies, s.ringPort chord d (dies.getD ((r + 1) % n) 0), s.ringPort chord prev d with
  | some hops, some out, some p =>
    (s.cable prev p).map (fun k => { n := n, r := r, out := out, inn := k.farPort, hop := hops.foldl max 0 })
  | _, _, _ => none

/-- Is every two consecutive members of a ring of dies linked (R257)? -/
def State.ringOk (s : State) (chord : Option Nat) (dies : List Nat) : Bool := (s.ringHops chord dies).isSome

/-- A ring of dies in the other order, from the same first die. -/
def backward (dies : List Nat) : List Nat := dies.take 1 ++ (dies.drop 1).reverse

/-- The same ring run the other way, on the opposite ports (R259). -/
def Ring.reversed (g : Ring) : Ring := { g with r := (g.n - g.r) % g.n, out := g.inn, inn := g.out }

/-- The hop period (R259). -/
def Ring.period (g : Ring) (flits : Nat) : Nat := flits + g.hop + 24

/-- A lane of a ring that has not begun. -/
def Ring.lane (g : Ring) (start flits : Nat) (part : Bool) (hops : List LaneHop) : Lane :=
  { out := g.out, inn := g.inn, start := start, period := g.period flits, flits := flits, hops := hops, part := part, claimed := 0,
    sent := 0, rhop := nextRecv hops hops.length 0, got := [], held := [], read := [], readTo := 0, mine := [], mineTo := 0, left := none }

/-- Hops of a reduce-scatter: at hop h the partial of block (r - h - 1) leaves, and block r is finished here. -/
def Ring.scatter (g : Ring) (own : Nat → Piece) (fin : Bool) (dst : List Piece) : List LaneHop :=
  (List.range (g.n - 1)).map (fun h =>
    let b := (g.r + 2 * g.n - h - 2) % g.n
    let last := h + 2 == g.n
    { send := some (if h = 0 then .own (own ((g.r + g.n - 1) % g.n)) none else .held),
      recv := some { own := some (own b), fin := fin && last, dst := if last then dst else [] } })

/-- Hops of an all-gather: at hop h block (r - h) leaves; what arrives is written and goes on. -/
def Ring.gather (g : Ring) (first : LaneSend) (dst : Nat → List Piece) : List LaneHop :=
  (List.range (g.n - 1)).map (fun h =>
    { send := some (if h = 0 then first else .held),
      recv := some { own := none, fin := false, dst := dst ((g.r + 2 * g.n - h - 1) % g.n) } })

/-- Hops of a chain: the member at distance k from the start sends at hop k and receives at hop k - 1; the last does not send. -/
def Ring.chain (g : Ring) (dist : Nat) (first : LaneSend) (recv : LaneRecv) : List LaneHop :=
  (List.range (g.n - 1)).map (fun h =>
    { send := if h = dist then some (if h = 0 then first else .held) else none,
      recv := if h + 1 = dist then some recv else none })

/-! The expansion (R259). -/

/-- Is it a reduction? -/
def CollBlock.reduces (b : CollBlock) : Bool := b.opn == 0 || b.opn == 1 || b.opn == 4

/-- Elements of the smallest block that travels (R259): a block, or a member's whole contribution. -/
def CollBlock.elems (b : CollBlock) : Nat := if b.opn = 0 ∨ b.opn = 1 then b.count / b.nmem else b.count

/-- Bits on the wire of elements: 32 of a reduction, else those of the format. -/
def CollBlock.wireBits (b : CollBlock) (elems : Nat) : Nat := if b.reduces then elems * 32 else elems * (efOf b.ef).width

/-- Blocks are whole numbers of flits, and so are the halves of what the algorithm carries both ways: a block, or on the chords the blocks
of a row (R257, R259). -/
def CollBlock.whole (b : CollBlock) : Bool :=
  let w := b.wireBits b.elems
  (b.opn != 0 && b.opn != 1 || b.count % b.nmem == 0) && w % 2048 == 0
    && (b.alg != 1 || w % 4096 == 0)
    && (b.alg != 3 || b.rowlen == b.nmem || (if b.opn = 2 then w * b.rowlen else w) % 4096 == 0)

/-- Flits of that block. -/
def CollBlock.flits (b : CollBlock) : Nat := b.wireBits b.elems / 2048

/-- A piece of the block's elements in memory: from the elements at which its sub-blocks start. -/
def CollBlock.piece (b : CollBlock) (base : Nat) (starts : List Nat) (sub : Nat) (fresh : Bool) : Piece :=
  { base := base, starts := starts.map b.bytes, sub := sub, unit := if b.reduces then partBytes b.ef else 256, wide := false,
    fresh := fresh }

/-- Flits of STAGE from one on. -/
def stagePiece (base first sub : Nat) : Piece :=
  { base := base, starts := [256 * first], sub := sub, unit := 256, wide := true, fresh := true }

/-- Where the operands of a collective lie, as pod addresses. -/
structure CollPlaces where
  send : Nat
  recv : Nat
  stage : Nat
  deriving DecidableEq, Repr

/-- A ring run of an operation on blocks that begin `off` elements into each block and have `flits` flits (R259): the whole block
for the ring, a half for each way of the bidirectional ring. `name` gives the block of a place of the ring. -/
def ringLane (b : CollBlock) (a : CollPlaces) (g : Ring) (start off flits : Nat) (name : Nat → Nat) : Lane :=
  let e := b.elems
  let own (j : Nat) : Piece := b.piece a.send [name j * e + off] flits false
  let mine : Piece := b.piece a.send [off] flits false
  let out (j : Nat) : Piece := b.piece a.recv [name j * e + off] flits false
  let here : Piece := b.piece a.recv [off] flits false
  let hops : List LaneHop := match b.opn with
    | 0 => g.scatter own true [out g.r] ++ g.gather .held (fun j => [out j])
    | 1 => g.scatter own true [here]
    | 2 => g.gather (.own mine (some (out g.r))) (fun j => [out j])
    | 3 => g.chain ((g.r + g.n - b.root) % g.n) (.own mine (some here)) { own := none, fin := false, dst := [here] }
    | _ =>
      let dist := (g.r + 2 * g.n - b.root - 1) % g.n
      g.chain dist (.own mine none) { own := some mine, fin := dist + 1 == g.n, dst := if dist + 1 = g.n then [here] else [] }
  g.lane start flits b.reduces hops

/-- The lanes of the torus (R259): rows, columns and rows again, or rows and columns. The columns are carried one way or both ways; both
ways, each block is halved as on the bidirectional ring (log entry 62). -/
def torusLanes (b : CollBlock) (a : CollPlaces) (row : Ring) (cols : List Ring) (start : Nat) : List Lane :=
  let l := row.n
  let k := (cols.map (fun g => g.n)).headD 1
  let m := cols.length
  let e := b.elems
  let f := b.flits
  let sub (i j : Nat) : Nat := (i * l + j) * e
  let rowOf (base : Nat) (j : Nat) : Piece := b.piece base ((List.range k).map (fun i => sub i j)) f false
  let name (w j : Nat) : Nat := if w = 0 then j else (k - j) % k
  let stage (w j : Nat) : Piece := stagePiece a.stage (name w j * f + w * (f / m)) (f / m)
  let t2 := start + (l - 1) * row.period (k * f)
  let t3 := t2 + 2 * (k - 1) * ((cols.map (fun g => g.period (f / m))).foldl max 0)
  match b.opn with
  | 2 =>
    let one (i j : Nat) : Piece := b.piece a.recv [sub i j] f false
    let i := (cols.map (fun g => g.r)).headD 0
    let rows (w j : Nat) : Piece := b.piece a.recv [sub (name w j) 0 + w * (l * e / m)] (l * f / m) true
    row.lane start f false (row.gather (.own (b.piece a.send [0] f false) (some (one i row.r))) (fun j => [one i j])) ::
      cols.zipIdx.map (fun g => g.1.lane (start + (l - 1) * row.period f) (l * f / m) false
        (g.1.gather (.own (rows g.2 g.1.r) none) (fun j => [rows g.2 j])))
  | 1 =>
    row.lane start (k * f) true (row.scatter (rowOf a.send) false [stagePiece a.stage 0 (k * f)]) ::
      cols.zipIdx.map (fun g => g.1.lane t2 (f / m) true
        (g.1.scatter (stage g.2) true [b.piece a.recv [g.2 * (e / m)] (f / m) false]))
  | _ =>
    let done (w j : Nat) : List Piece := [b.piece a.recv [sub (name w j) row.r + w * (e / m)] (f / m) false, stage w j]
    row.lane start (k * f) true (row.scatter (rowOf a.send) false [stagePiece a.stage 0 (k * f)]) ::
      (cols.zipIdx.map (fun g => g.1.lane t2 (f / m) true (g.1.scatter (stage g.2) true (done g.2 g.1.r) ++ g.1.gather .held (done g.2)))
        ++ [row.lane t3 (k * f) true (row.gather (.own (stagePiece a.stage 0 (k * f)) none) (fun j => [rowOf a.recv j]))])

/-- The lanes of a collective for its member, from the tick of hop 0 (R259); none where a ring lacks a direct port. -/
def State.expand (s : State) (b : CollBlock) (a : CollPlaces) (start : Nat) : Option (List Lane) :=
  if b.count = 0 then some []
  else if b.alg = 0 ∨ b.alg = 1 ∨ b.rowlen = b.nmem then
    (s.ring none b.members b.rank).map (fun g =>
      if b.alg = 1 then
        [ringLane b a g start 0 (b.flits / 2) id,
         ringLane b a g.reversed start (b.elems / 2) (b.flits / 2) (fun j => (g.n - j) % g.n)]
      else [ringLane b a g start 0 b.flits id])
  else
    let i := b.rank / b.rowlen
    let j := b.rank % b.rowlen
    let k := b.nmem / b.rowlen
    let row (y : Nat) : List Nat := (List.range b.rowlen).map (fun x => b.members.getD (y * b.rowlen + x) 0)
    let col (x : Nat) : List Nat := (List.range k).map (fun y => b.members.getD (y * b.rowlen + x) 0)
    let linked := (List.range k).all (fun y => s.ringOk none (row y)) && (List.range b.rowlen).all (fun x =>
      if b.alg = 3 then s.ringOk (some 6) (col x) && s.ringOk (some 7) (backward (col x)) else s.ringOk none (col x))
    if !linked then none
    else if b.alg = 3 then
      match s.ring none (row i) j, s.ring (some 6) (col j) i, s.ring (some 7) (backward (col j)) ((k - i) % k) with
      | some r, some c, some c' => some (torusLanes b a r [c, c'] start)
      | _, _, _ => none
    else
      match s.ring none (row i) j, s.ring none (col j) i with
      | some r, some c => some (torusLanes b a r [c] start)
      | _, _ => none

/-- The last tick of the lanes after the start, with the 16 ticks of drift (R259). -/
def lanesLength (start : Nat) (lanes : List Lane) : Nat :=
  (lanes.map (fun l => l.start + l.hops.length * l.period - start)).foldl max 0 + 16

/-! Admission (R257). -/

/-- The formats and fields of the block (R257, its first five rows). -/
def CollBlock.fieldsOk (b : CollBlock) (d : Nat) : Bool :=
  b.reservedOk && b.opn ≤ 4 && b.alg ≤ 3 && b.rop ≤ 2 && b.rm ≤ 5 && EF.ok (efOf b.ef)
    && !(b.rop != 0 && (b.opn == 2 || b.opn == 3)) && (!b.reduces || partialEf b.ef)
    && 2 ≤ b.nmem && b.nmem ≤ 4096 && b.rank < b.nmem && b.root < b.nmem && b.members.getD b.rank 4096 == d && decide b.members.Nodup
    && (if 2 ≤ b.alg then 2 ≤ b.rowlen && b.nmem % b.rowlen == 0 else b.rowlen == 0) && !(3 ≤ b.opn && b.alg != 0)
    && b.whole

/-- STAGE bytes that the algorithm needs (R259). -/
def CollBlock.stageNeed (b : CollBlock) : Nat := if 2 ≤ b.alg then b.count * 4 / b.rowlen else 0

/-- One range of a COLL: its place, judged under the issuing context's rights (R258). -/
def State.collPlace (s : State) (d c : Nat) (m : Cmd) (a len : Nat) (accs : List Access) : Except (Cause × Option Nat) Nat :=
  if len = 0 then .ok 0
  else
    match s.place d c a len with
    | .error cause => .error (cause, none)
    | .ok va =>
      match accs.findSome? (fun acc => match s.judgeFar d (s.tenantOf d c) (s.agentsOf d c 1) (some (c, m.id)) acc va len with
        | .bad cause hb => some (cause, hb)
        | _ => none) with
      | some e => .error e
      | none => .ok va

/-- The places of a COLL (R258). -/
def State.collPlaces (s : State) (d c : Nat) (m : Cmd) (b : CollBlock) : Except (Cause × Option Nat) CollPlaces :=
  let (n, k) := b.sizes
  match s.collPlace d c m b.send n [.read], s.collPlace d c m b.recv k [.write],
      s.collPlace d c m b.stage (if 2 ≤ b.alg then b.stagesz else 0) [.read, .write] with
  | .error e, _, _ => .error e
  | .ok _, .error e, _ => .error e
  | .ok _, .ok _, .error e => .error e
  | .ok x, .ok y, .ok z => .ok { send := x, recv := y, stage := z }

/-- Ports that lanes use. -/
def lanePorts (lanes : List Lane) : List Nat := sortOnce (lanes.flatMap (fun l => [l.out, l.inn]))

/-- The stretches of ticks of the instructions of a plan from an offset on, given the flits of a tick and the BASE of the step they begin
in; the count bounds them (R242, R250). -/
def planSpans (q : Port) (rate : Nat) : Nat → Nat → Nat → List (Nat × Nat)
  | 0, _, _ => []
  | n + 1, base, off =>
    let w (k : Nat) : Nat := if off + 4 * k + 4 ≤ 0x8000 then Mem.load q.snapPlan (off + 4 * k) 4 else 0
    let at_ (t : BitVec 32) (len : Nat) : Nat × Nat := (base + t.toNat, max len 1)
    match decodeLink (w 0) (w 1) (w 2) with
    | .ok (.xsend _ _ _ _ e t _) => at_ t ((flitsField (q.xreg e) + rate - 1) / rate) :: planSpans q rate n base (off + 12)
    | .ok (.xguard len t) => at_ t len.val :: planSpans q rate n base (off + 12)
    | .ok (.xopen e t) => at_ t (q.xreg e) :: planSpans q rate n base (off + 12)
    | .ok (.xrecv _ _ _ _ t _) | .ok (.xfwd _ _ _ t _) | .ok (.xred _ _ _ _ _ _ t _) => at_ t 1 :: planSpans q rate n base (off + 12)
    | .ok (.xstep last t _) => at_ t 1 :: (if last then [] else planSpans q rate n (base + t.toNat) (off + 12))
    | _ => []

/-- Does a stretch of ticks on a port meet an instruction of its plan stream (R257): one that holds slots, one that is decoded, or one of the
rest of the plan of an engine that runs or is armed? -/
def Port.planMeets (q : Port) (rate first len : Nat) : Bool :=
  let hits (t n : Nat) : Bool := t < first + len && first < t + n
  let rest : List (Nat × Nat) := match q.state with
    | .running => if q.ended then [] else planSpans q rate 2704 q.decBase q.pc
    | .armed => planSpans q rate 2704 q.snapStart 0x140
    | _ => []
  q.claims.any (fun c => c.coll.isNone && hits c.first c.ticks) || q.ops.any (fun o => hits o.tick 1) || rest.any (fun e => hits e.1 e.2)

/-- Does another collective hold the port in the stretch, or STAGE bytes in it (R257)? -/
def Die.collMeets (x : Die) (first len : Nat) (ports : List Nat) (stage stagesz : Nat) : Bool :=
  x.colls.any (fun r => r.first < first + len && first < r.first + r.budget &&
    ((lanePorts r.lanes).any ports.contains ||
      (stagesz != 0 && r.stagesz != 0 && r.stage < stage + stagesz && stage < r.stage + r.stagesz)))

/-- Bytes of the collective area of a port that the sections of some lanes take (R247, R257; log entry 15). -/
def sectionRoom (p : Nat) (lanes : List Lane) : Nat :=
  if lanes.any (fun l => l.out == p || l.inn == p) then Config.sectionBytes ((lanes.map (fun l => l.hops.length)).foldl (· + ·) 0) else 0

/-- What admission finds: a run, or the cause that ends the COLL (R257). -/
def State.enrol (s : State) (d c : Nat) (m : Cmd) (b : CollBlock) : Except (Cause × Option Nat) CollRun :=
  if !b.fieldsOk d then .error (.reservedField, none)
  else
    match s.collPlaces d c m b with
    | .error e => .error e
    | .ok a =>
      match s.expand b a 0 with
      | none => .error (.planConflict, none)
      | some lanes0 =>
        let ports := lanePorts lanes0
        let base := (s.port d (ports.headD 0)).base
        let first := if b.stepabs then b.stept else base + b.stept
        let lanes := lanes0.map (fun l => { l with start := l.start + first })
        let x := s.die d
        if !b.stepabs && ports.any (fun p => (s.port d p).state != .running) then .error (.reservedField, none)
        else if b.budget < lanesLength first lanes || (2 ≤ b.alg && b.stagesz < b.stageNeed) then .error (.planConflict, none)
        else if ports.any (fun p => (s.port d p).planMeets (portRate p) first b.budget) then .error (.planConflict, none)
        else if x.collMeets first b.budget ports a.stage (if 2 ≤ b.alg then b.stagesz else 0) then .error (.planConflict, none)
        else if ports.any (fun p => 8 ≤ (x.colls.filter (fun r => (lanePorts r.lanes).contains p)).length) then .error (.planConflict, none)
        else if ports.any (fun p => 0x8000 < sectionRoom p lanes + (x.colls.map (fun r => sectionRoom p r.lanes)).foldl (· + ·) 0) then
          .error (.planConflict, none)
        else if first < s.now d then .error (.timingLate, none)
        else
          .ok { core := c, cmd := m.id, tag := 0x8000 + b.group, ef := b.ef, rop := b.rop, rm := b.rm, sat := b.sat,
                locked := s.locked d c, first := first, budget := b.budget, stage := a.stage,
                stagesz := if 2 ≤ b.alg then b.stagesz else 0, spk := b.spk, side := [], lanes := lanes, status := 0, lastWrite := 0,
                spkDone := false, toWrite := [] }

/-- A COLL ends at its engine. -/
def State.failColl (s : State) (d c : Nat) (m : Cmd) (cause : Cause) (hb : Option Nat) : State := (s.handBack d hb).failCmd d c 2 m cause 0

/-! Events. -/

/-- The first COLL of a core's queue that is not admitted. -/
def Core.nextColl (y : Core) : Option (Cmd × Int × Option CollBlock) :=
  y.collQ.findSome? (fun m => match m.body with
    | .coll a b false => some (m, a, b)
    | _ => none)

/-- COLL_START (R328): the block and its member list are read, once. -/
def execCollStart (d c : Nat) (s : State) : Out :=
  match (s.core d c).nextColl with
  | some (m, a, none) =>
    if !m.isQueued || !s.mayStart d c 2 || !s.rangeFree d c m then .next s
    else
      (match s.blockRead d c m a 128 128 with
        | .error (cause, hb) => .next (s.failColl d c m cause hb)
        | .ok bs =>
          let mlist := ofLeBytes (slice bs 0x28 8)
          let ranges := m.ranges ++ s.collRanges d c mlist (parseBlock bs [])
          if !s.rangeFree d c { m with ranges := ranges } then .next s
          else
            match s.blockRead d c m (mlist : Nat) (4 * ofLeBytes (slice bs 0x24 2)) 1 with
            | .error (cause, hb) => .next (s.failColl d c m cause hb)
            | .ok list => .next (s.putCmd d c 2 { m.run (s.now d) 0 with body := .coll a (some (parseBlock bs list)) false, ranges := ranges }))
  | _ => .next s

/-- COLL_ADMISSION (R257, R328): the block is checked against everything admitted; the sections stand from now on and take the
flits that wait for them. -/
def execCollAdmission (d c : Nat) (s : State) : Out :=
  match (s.core d c).nextColl with
  | some (m, a, some b) =>
    if !s.rangeFree d c m || !s.enginesRun d c 2 then .next s
    else
      (match s.enrol d c m b with
        | .error (cause, hb) => .next (s.failColl d c m cause hb)
        | .ok run =>
          let s1 := (s.putCmd d c 2 { m with body := .coll a (some b) true }).modDie d (fun x => { x with colls := x.colls ++ [run] })
          let s2 := s1.each (List.range run.lanes.length) (fun s j => s.laneDecode d c m.id j)
          .next (s2.each (lanePorts run.lanes) (fun s p =>
            let q := s.port d p
            let takes (f : Flit) : Bool := f.tag == run.tag && s.now d ≤ f.tick + 256 && ((s.die d).laneFor p f.tag).isSome
            (q.landing.filter takes).foldl (fun s f =>
              match (s.die d).laneFor p f.tag with
              | some (r, j, l) => s.laneAccept d r j l f
              | none => s) (s.setPort d p { q with landing := q.landing.filter (fun f => !takes f) }))))
  | _ => .next s

/-- COLL_COMPLETE (R261): every instruction of the sections has retired. -/
def execCollComplete (d c id : Nat) (s : State) : Out :=
  match s.coll d c id, (s.core d c).cmd 2 id with
  | some r, some m =>
    if r.allDone && r.spkDone then
      .next ((s.dropColl d c id).complete d c 2 { m with status := m.status ||| r.status } [])
    else .next s
  | _, _ => .next s

end Sys2Proof.Machine
end

