-- ==== Sys2Proof/Machine/Rsa.lean ====
section
/-!
DEFINITION. Signatures of images and of firmware: RSA-3072, RSASSA-PKCS1-v1_5 with SHA-256 and exponent 65,537 (R37, R299, R307).
The encoding of the digest is that of RFC 8017 (log entry 16).
-/
namespace Sys2Proof.Machine

/-- x to the power 2^k, modulo n. -/
def squareMod (n : Nat) : Nat → Nat → Nat
  | 0, x => x % n
  | k + 1, x => squareMod n k (x * x % n)

/-- The public operation, exponent 65,537. -/
def rsaPublic (n sig : Nat) : Nat := squareMod n 16 sig * sig % n

/-- The 384-byte encoding of a SHA-256 digest: 00 01, FF bytes, 00, the name of the hash, the digest (log entry 16). -/
def encodedDigest (h : List Byte) : List Byte :=
  [0x00#8, 0x01#8] ++ List.replicate 330 0xFF#8 ++ [0x00#8]
    ++ [0x30#8, 0x31#8, 0x30#8, 0x0D#8, 0x06#8, 0x09#8, 0x60#8, 0x86#8, 0x48#8, 0x01#8, 0x65#8, 0x03#8, 0x04#8, 0x02#8, 0x01#8,
        0x05#8, 0x00#8, 0x04#8, 0x20#8] ++ h

/-- Does a signature verify over a message under a modulus? -/
def rsaVerify (n sig : Nat) (msg : List Byte) : Bool :=
  sig < n && rsaPublic n sig == ofBeBytes (encodedDigest (sha256 msg))

end Sys2Proof.Machine
end

