-- ==== Sys2Proof/Machine/Sampler.lean ====
section
/-!
DEFINITION. The sampler: SBIND and SMPL at issue (R273, R275), how their commands reach it (R278), SBIND's checks and its slot
(R267 to R269, R272, R274), the checks of a batch (R277), its sequences and its end (R279, R285), and the logit instructions
as steps of an open run (R271).
-/
namespace Sys2Proof.Machine

/-! At issue. -/

/-- Image bytes that a selection reads, by offset and length, in ascending order (R274). -/
def bindParts : BindSel → List (Nat × Nat)
  | .unbind => []
  | .parts prog bias cnt key =>
    (if prog then [(0x00, 0x10)] else []) ++ (if key then [(0x10, 0x30)] else []) ++ (if prog then [(0x40, 0xC0)] else [])
      ++ (if cnt then [(0x100, 0x800)] else []) ++ (if bias then [(0x900, 0x800)] else [])

/-- SBIND (R273, R274). -/
def execSbind (sel : BindSel) (a : Reg) (slot : Fin 2048) (sp : Spark) (s : State) : Out :=
  issue (.sbind sel a slot sp) (engineForm [a] sp) s (fun p t =>
    let ad := (t.reg p a).toNat
    let ranges := (bindParts sel).flatMap (fun e => (t.spot p.d p.c dataSpace (ad + e.1) e.2).rng e.2 false)
    .done (t.acceptCmd p 3 (pushCh sp) [] ranges (.sbind sel ad slot.val)) (t.seq p (.sbind sel a slot sp)))

/-- SMPL (R275): V is judged at issue. -/
def execSmpl (a b e g : Reg) (n : Fin 4096) (sp : Spark) (s : State) : Out :=
  issue (.smpl a b e g n sp) (engineForm [a, b, e, g] sp) s (fun p t =>
    let v := (t.reg p b).toNat
    let rng (r : Reg) (len : Nat) (wr : Bool) : List Rng := (t.spot p.d p.c dataSpace (t.reg p r).toNat len).rng len wr
    if v = 0 ∨ 2 ^ 20 < v then .trap .reservedField 0 none
    else
      .done (t.acceptCmd p 3 (pushCh sp) []
          (rng a (batchBytes v n.val) false ++ rng e (4 * n.val) false ++ rng g (8 * n.val) true)
          (.smpl (t.reg p a).toNat v (t.reg p e).toNat (t.reg p g).toNat n.val))
        (t.seq p (.smpl a b e g n sp)))

/-! Reaching the sampler (R278). -/

/-- May a command of a core's sampler queue reach the sampler: earlier brand commands of the core have completed, and the range
checker lets it? -/
def State.mayReach (s : State) (d c : Nat) (m : Cmd) : Bool :=
  let y := s.core d c
  s.mayStart d c 3 && s.rangeFree d c m && y.brandQ.all (fun b => m.id < b.id)

/-- The cycle count of a die's sampler. -/
def State.samplerCycle (s : State) (d : Nat) : Nat := (s.die d).cycle samplerIsland

/-- Commands of a queue that reach the sampler now, in acceptance order. -/
def State.arriveList (s : State) (d c : Nat) : List Cmd → List Cmd
  | [] => []
  | m :: ms =>
    if m.isQueued then (if s.mayReach d c m then m.run (s.samplerCycle d) 0 :: s.arriveList d c ms else m :: ms)
    else m :: s.arriveList d c ms

/-- The commands of a die's cores that reach its sampler now. -/
def State.samplerArrive (s : State) (d : Nat) : State :=
  s.each (List.range 64) (fun s c =>
    let y := s.core d c
    if y.samplerQ = [] then s else s.setCore d c { y with samplerQ := s.arriveList d c y.samplerQ })

/-- The cycle since which a command has run. -/
def Cmd.since (m : Cmd) : Nat :=
  match m.stage with
  | .running t _ => t
  | _ => 0

/-- Does one command at the sampler go before another: it came earlier, or in one cycle from the lower agent id (R278)? -/
def State.comesFirst (s : State) (d : Nat) (a b : Nat × Cmd) : Bool :=
  if a.2.since != b.2.since then a.2.since < b.2.since
  else if a.1 = b.1 then a.2.id < b.2.id
  else s.coreAgent d a.1 < s.coreAgent d b.1

/-- The command that the sampler performs next: core and command (R278). -/
def State.nextSampler (s : State) (d : Nat) : Option (Nat × Cmd) :=
  ((List.range 64).flatMap (fun c => ((s.core d c).samplerQ.filter Cmd.isRunning).map (fun m => (c, m)))).foldl
    (fun best e => match best with
      | none => some e
      | some b => if s.comesFirst d e b then some e else some b) none

/-- A sampler command ends in a fault; a translation fault of a Locked-mode launch is a timing fault too (R13). -/
def State.failSampler (s : State) (d c : Nat) (m : Cmd) (cause : Cause) (hb : Option Nat) (progress : Nat) : State :=
  let s1 := (s.handBack d hb).modDie d (fun x => { x with job := none, run := none, fetches := [] })
  if cause = .copyPage && s.locked d c then s1.cmdTimingFault d c m .copyPage else s1.failCmd d c 3 m cause progress

/-- Judge a sampler command's access under the issuing context's rights (R258, R277). -/
def State.samplerRight (s : State) (d c : Nat) (m : Cmd) (acc : Access) (va len : Nat) : Verdict :=
  s.judgeFar d (s.tenantOf d c) (s.agentsOf d c 1) (some (c, m.id)) acc va len

/-! SBIND (R274). -/

/-- A stop of a check: the cause, the entry to hand back and PROGRESS; the wait for a pre-empted context; or the wait for a stack or
another die, with the state that it leaves. -/
inductive Snag where
  | fault (c : Cause) (hb : Option Nat) (progress : Nat)
  | hold
  | wait (s : State)
  deriving DecidableEq, Repr

/-- A verdict as a check. -/
def Verdict.check (v : Verdict) (progress : Nat) : Except Snag Unit :=
  match v with
  | .ok => .ok ()
  | .bad c hb => .error (.fault c hb progress)
  | .hold => .error .hold

/-- Does an access of the sampler reach its die and translate there: the cause where it does not (R13, R277)? -/
def State.unreachable (s : State) (d c va len : Nat) (write : Bool) : Option Cause :=
  if write then
    match s.storeAt d c (s.tenantOf d c) (s.locked d c) va (List.replicate len 0#8) with
    | .ok _ _ => none
    | .bad cause => some cause
  else
    match s.fetchAt d c (s.tenantOf d c) (s.locked d c) va len with
    | .ok _ _ => none
    | .bad cause => some cause

/-- The offset of the first byte of a range that a test finds bad. -/
def firstBad (off len : Nat) (bad : Nat → Bool) : Nat := off + ((List.range len).find? bad).getD 0

/-- The image parts resolve: checked before a byte is read; the first byte that does not is found by its offset (R176, R274). -/
def State.bindPlaces (s : State) (d c a : Nat) : List (Nat × Nat) → Except Snag Unit
  | [] => .ok ()
  | (off, len) :: rest =>
    match s.place d c (a + off) len with
    | .ok _ => s.bindPlaces d c a rest
    | .error cause =>
      .error (.fault cause none (firstBad off len (fun i => (s.place d c (a + off + i) 1).toOption.isNone)))

/-- One image part, judged and read in a given way; a bad byte is found by its offset. -/
def State.bindRead (fetch : State → Nat → Nat → SamplerGot) (s : State) (d c : Nat) (m : Cmd) (a off len : Nat) : Except Snag (List Byte × State) :=
  match s.place d c (a + off) len with
  | .error cause => .error (.fault cause none off)
  | .ok va =>
    match s.samplerRight d c m .read va len with
    | .hold => .error .hold
    | .bad cause hb => .error (.fault cause hb (firstBad off len (fun i => s.samplerRight d c m .read (va + i) 1 != .ok)))
    | .ok =>
      match fetch s va len with
      | .ready bs s1 => .ok (bs, s1)
      | .wait s1 => .error (.wait s1)
      | .bad cause => .error (.fault cause none (firstBad off len (fun i => (s.unreachable d c (va + i) 1 false).isSome)))

/-- The image parts of a selection, as an image of 0x1100 bytes, and the count of bytes read (R274). -/
def State.bindImage (fetch : State → Nat → Nat → SamplerGot) (s : State) (d c : Nat) (m : Cmd) (a : Nat) : List (Nat × Nat) → Except Snag (List Byte × Nat × State)
  | [] => .ok (List.replicate 0x1100 0#8, 0, s)
  | (off, len) :: rest =>
    match s.bindRead fetch d c m a off len with
    | .error e => .error e
    | .ok (bs, s1) =>
      match s1.bindImage fetch d c m a rest with
      | .error e => .error e
      | .ok (img, n, s2) => .ok (splice img off bs, len + n, s2)

/-- The first byte of a range that is not zero. -/
def nonzeroAt (img : List Byte) (off len : Nat) : Option Nat :=
  (List.range len).findSome? (fun i => if img.getD (off + i) 0#8 = 0#8 then none else some (off + i))

/-- A little-endian field of an image. -/
def imgField (img : List Byte) (off len : Nat) : Nat := ofLeBytes (slice img off len)

/-- The first entry of a table that names a token already named, by offset: entries in order, each with its use and token. -/
def repeated (use : Nat → Bool) (token : Nat → Nat) (size off : Nat) : Nat → List Nat → List Nat → Option Nat
  | _, [], _ => none
  | i, e :: es, seen =>
    if use e then
      (if seen.contains (token e) then some (off + size * i) else repeated use token size off (i + 1) es (token e :: seen))
    else repeated use token size off (i + 1) es seen

/-- The entries of a table of an image. -/
def imgTable (img : List Byte) (off size count : Nat) : List Nat :=
  (List.range count).map (fun i => imgField img (off + size * i) size)

/-- The first bad byte of the bias table: a reserved bit, or a repeated token (R269). -/
def badBias (img : List Byte) : Option Nat :=
  let es := imgTable img 0x900 8 256
  let bits := (List.range 256).findSome? (fun i =>
    let e := es.getD i 0
    if e / 2 ^ 21 % 2 ^ 11 != 0 || e / 2 ^ 48 != 0 then
      (List.range 8).findSome? (fun j =>
        if (leBytes 8 (e &&& 0xFFFF0000FFE00000)).getD j 0#8 = 0#8 then none else some (0x900 + 8 * i + j))
    else none)
  let twice := repeated (fun e => e / 2 ^ 20 % 2 == 1) (fun e => e % 2 ^ 20) 8 0x900 0 es []
  match bits, twice with
  | some a, some b => some (min a b)
  | a, none => a
  | none, b => b

/-- The first bad byte of the parts read (R267 to R269). -/
def badByte (img : List Byte) : BindSel → Option Nat
  | .unbind => none
  | .parts prog bias cnt key =>
    let plen := imgField img 4 1
    let checks : List (Option Nat) :=
      (if prog then [nonzeroAt img 0 4, if 2 ≤ plen ∧ plen ≤ 32 then none else some 4, nonzeroAt img 5 3] else [])
        ++ (if key then [nonzeroAt img 0x20 0x20] else [])
        ++ (if prog then [nonzeroAt img (0x40 + 4 * plen) (0x80 - 4 * plen), nonzeroAt img 0xE0 0x20] else [])
        ++ (if cnt then [repeated (fun e => e % 4096 != 0) (fun e => e / 4096) 4 0x100 0 (imgTable img 0x100 4 512) []] else [])
        ++ (if bias then [badBias img] else [])
    checks.findSome? id

/-- What the words of a program so far have fixed (R272): phase, LSOFT, LDRAW and LCNT seen. -/
structure ProgAt where
  prob : Bool
  soft : Bool
  drawn : Bool
  cnt : Bool
  deriving DecidableEq, Repr

/-- Checks 3 to 6 of R272 on one word: LSTOP is the last word and only that, LMASK needs a bitmap. -/
def wordOk (st : ProgAt) (last mask : Bool) : Instr → Bool
  | .lset _ _ => !st.drawn && !last
  | .ltemp _ | .lbias | .lpen _ | .lcap _ | .ltopk _ => !st.prob && !st.drawn && !last
  | .lmask _ => !st.prob && !st.drawn && !last && mask
  | .lsoft => !st.prob && !st.soft && !st.drawn && !last
  | .ltopp _ | .lminp _ => st.prob && !st.drawn && !last
  | .ldraw => st.prob && !st.drawn && !last
  | .ldrawGreedy => !st.drawn && !last
  | .lcnt => st.drawn && !st.cnt && !last
  | .lstop => st.drawn && last
  | _ => false

/-- What follows a word. -/
def ProgAt.after (st : ProgAt) : Instr → ProgAt
  | .lsoft => { st with prob := true, soft := true }
  | .ldraw | .ldrawGreedy => { st with drawn := true }
  | .lcnt => { st with cnt := true }
  | _ => st

/-- The first bad word of a program, with its cause (R272). -/
def badWord (mask : Bool) : Nat → ProgAt → List Nat → Option (Cause × Nat)
  | _, _, [] => none
  | i, st, w :: ws =>
    match decodeLogit w with
    | .error .reservedField => some (.reservedField, i)
    | .error _ => some (.illegalOp, i)
    | .ok ins => if wordOk st (ws == []) mask ins then badWord mask (i + 1) (st.after ins) ws else some (.reservedField, i)

/-- The words of a program in an image. -/
def imgProgram (img : List Byte) : List Nat := imgTable img 0x40 4 (imgField img 4 1)

/-- A table's listed entries. -/
def tabOf : Nat → List Nat → Tab Nat
  | _, [] => []
  | i, e :: es => if e = 0 then tabOf (i + 1) es else (i, e) :: tabOf (i + 1) es

/-- The slot that a bind leaves (R274). -/
def SeqSlot.bind (q : SeqSlot) (t : Nat) (img : List Byte) : BindSel → SeqSlot
  | .unbind => SeqSlot.reset
  | .parts prog bias cnt key =>
    let q1 : SeqSlot := if prog then
      { q with plen := imgField img 4 1, mask := BitVec.ofNat 64 (imgField img 8 8), prog := imgProgram img,
               kreg := (tabOf 0 (imgTable img 0xC0 4 8)).map (fun e => (e.1, BitVec.ofNat 32 e.2)) } else q
    let q2 : SeqSlot := if key then { q1 with key := BitVec.ofNat 64 (imgField img 0x10 8), step := BitVec.ofNat 64 (imgField img 0x18 8) }
      else q1
    let q3 : SeqSlot := if cnt then { q2 with cnt := tabOf 0 (imgTable img 0x100 4 512) } else q2
    let q4 : SeqSlot := if bias then { q3 with bias := tabOf 0 (imgTable img 0x900 8 256) } else q3
    { q4 with bound := true, tenant := t }

/-- The checks of an SBIND whose image is read in a given way, and the slot it would leave, with the count of bytes read (R274). -/
def State.bindCheckBy (fetch : State → Nat → Nat → SamplerGot) (s : State) (d c : Nat) (m : Cmd) (sel : BindSel) (a slot : Nat) :
    Except Snag (SeqSlot × Nat × State) :=
  let t := s.tenantOf d c
  let q := (s.die d).slot slot
  let stop (cause : Cause) (progress : Nat) : Except Snag (SeqSlot × Nat × State) := .error (.fault cause none progress)
  if !(s.die d).ownsSlot t slot then stop .unowned 0
  else if sel = .unbind then (if q.bound then .ok (SeqSlot.reset, 0, s) else stop .brandState 0)
  else if !q.bound && sel != .parts true true true true then stop .reservedField 0
  else if a % 16 != 0 then stop .reservedField 0
  else
    match (match s.bindPlaces d c a (bindParts sel) with
      | .ok () => s.bindImage fetch d c m a (bindParts sel)
      | .error e => .error e) with
    | .error e => .error e
    | .ok (img, n, s1) =>
      match badByte img sel with
      | some off => stop .reservedField off
      | none =>
        let prog : Bool := match sel with
          | .parts true _ _ _ => true
          | _ => false
        match (if prog then badWord (imgField img 8 8 != 0) 0 ⟨false, false, false, false⟩ (imgProgram img) else none) with
        | some (cause, i) => stop cause i
        | none => .ok (q.bind t img sel, n, s1)

/-- The checks of an SBIND as the sampler makes them: its reads stand by their stacks, and go to other dies by messages (R274, R285). -/
def State.bindCheck (s : State) (d c : Nat) (m : Cmd) (sel : BindSel) (a slot : Nat) : Except Snag (SeqSlot × Nat × State) :=
  s.bindCheckBy (fun s va len => s.samplerFetch d c m.id va len) d c m sel a slot

/-- The same with every read made at once. -/
def State.bindCheckNow (s : State) (d c : Nat) (m : Cmd) (sel : BindSel) (a slot : Nat) : Except Snag (SeqSlot × Nat × State) :=
  s.bindCheckBy (fun s va len => match s.fetchAt d c (s.tenantOf d c) (s.locked d c) va len with
    | .ok bs s1 => .ready bs s1
    | .bad cause => .bad cause) d c m sel a slot

/-- SBIND_EXECUTE (R274, R278, R285): the sampler takes up an SBIND. -/
def execSbindExecute (d : Nat) (s : State) : Out :=
  let s1 := s.samplerArrive d
  match (s1.die d).job, s1.nextSampler d with
  | none, some (c, m) =>
    match m.body with
    | .sbind sel a slot =>
      (match s1.bindCheck d c m sel a slot with
        | .error .hold => .next s1
        | .error (.wait s2) => .next s2
        | .error (.fault cause hb progress) => .next (s1.failSampler d c m cause hb progress)
        | .ok (q, n, s2) =>
          .next ((s2.putCmd d c 3 (m.run (s2.samplerCycle d) (64 + (n + 255) / 256))).modDie d (fun x =>
            { x with job := some (.sbind c m.id slot q n), fetches := [] })))
    | _ => .next s1
  | _, _ => .next s1

/-- SBIND_COMPLETE (R274, R285): the slot changes as a whole. -/
def execSbindComplete (d : Nat) (s : State) : Out :=
  match (s.die d).job with
  | some (.sbind c id slot q _) =>
    match (s.core d c).cmd 3 id with
    | some m =>
      if m.timeUp (s.samplerCycle d) then
        .next ((s.modDie d (fun x => { x with slots := Tab.set x.slots slot q, job := none })).complete d c 3 m [])
      else .next s
    | none => .next s
  | _ => .next s

/-! SMPL (R277, R279). -/

/-- Rows stand LENT to the sampler, entry by entry; the count bounds the entries met (R277, step 3). -/
def State.lentFrom (s : State) (d t : Nat) : Nat → Nat → Nat → Except Snag Unit
  | 0, _, _ => .ok ()
  | n + 1, va, len =>
    if len = 0 then .ok ()
    else
      let x := s.die d
      match x.brands.find? (fun e => e.2.tenant == t && e.2.covers (vaDie va) (vaLow va)) with
      | none => .error (.fault .unowned none 0)
      | some (i, b) =>
        match judgeEntry b i x.shares [samplerAgent] .read with
        | .bad c hb => .error (.fault c hb 0)
        | .hold => .error .hold
        | .ok =>
          let h := s.brand b.hdie b.pxidx
          if b.state != .lent || (b.proxy && !(h.state == .lent && h.cur == dieAgent d)) then .error (.fault .brandState none 0)
          else
            let k := min len (b.base + 2 ^ b.lsize - vaLow va)
            s.lentFrom d t n (va + k) (len - k)

/-- All rows of a batch (R277). -/
def State.rowsLent (s : State) (d t rows v : Nat) : Nat → Except Snag Unit
  | 0 => .ok ()
  | n + 1 =>
    match s.rowsLent d t rows v n with
    | .error e => .error e
    | .ok () => s.lentFrom d t (4 * v / 256 + 2) (rows + n * rowBytes v) (4 * v)

/-- An access of a batch is permitted, reaches its die and translates there (R258, R277). -/
def State.batchAccess (s : State) (d c : Nat) (m : Cmd) (acc : Access) (va len : Nat) : Except Snag Unit :=
  match (s.samplerRight d c m acc va len).check 0 with
  | .error e => .error e
  | .ok () =>
    match s.unreachable d c va len (acc == .write) with
    | some cause => .error (.fault cause none 0)
    | none => .ok ()

/-- The mask ranges of bound slots are readable (R277, step 2). -/
def State.masksOk (s : State) (d c : Nat) (m : Cmd) (v : Nat) : List Nat → Except Snag Unit
  | [] => .ok ()
  | n :: ns =>
    let q := (s.die d).slot n
    if !q.bound || q.mask == 0 then s.masksOk d c m v ns
    else
      match s.place d c q.mask.toNat (maskLen v) with
      | .error cause => .error (.fault cause none 0)
      | .ok va =>
        match s.batchAccess d c m .read va (maskLen v) with
        | .error e => .error e
        | .ok () => s.masksOk d c m v ns

/-- Every row is reached and translates (R277): the sampler's reads of the running batch cannot fault. -/
def State.rowsReach (s : State) (d c rows v n : Nat) : Except Snag Unit :=
  match (List.range n).findSome? (fun i => s.unreachable d c (rows + i * rowBytes v) (4 * v) false) with
  | some cause => .error (.fault cause none 0)
  | none => .ok ()

/-- Every slot lies in the tenant's range and is bound, and none comes twice (R277, step 4). -/
def Die.slotsOk (x : Die) (t : Nat) (slots : List Nat) : Except Snag Unit :=
  match slots.find? (fun n => !x.ownsSlot t n || !(x.slot n).bound) with
  | some n => .error (.fault (if x.ownsSlot t n then .brandState else .unowned) none 0)
  | none => if slots.Nodup then .ok () else .error (.fault .reservedField none 0)

/-- The place of the rows, where the range resolves. -/
def State.rowsAt (s : State) (d c logits v n : Nat) : Except Cause Nat := s.place d c logits (batchBytes v n)

/-- The pod addresses of a batch's output, masks and rows, its list already read, and its slots: steps 2 to 4 of R277. -/
def State.batchRest (s : State) (d c : Nat) (m : Cmd) (rows oa v n : Nat) (slots : List Nat) : Except Snag Unit :=
  let t := s.tenantOf d c
  match s.batchAccess d c m .write oa (8 * n), s.masksOk d c m v slots with
  | .error e, _ => .error e
  | .ok (), .error e => .error e
  | .ok (), .ok () =>
    match s.rowsLent d t rows v n, s.rowsReach d c rows v n with
    | .error e, _ => .error e
    | .ok (), .error e => .error e
    | .ok (), .ok () => (s.die d).slotsOk t slots

/-- The checks of a batch, in the order of R277, with the slots of its list. -/
def State.batchCheck (s : State) (d c : Nat) (m : Cmd) (logits v list out n : Nat) : Except Snag (List Nat × State) :=
  match s.rowsAt d c logits v n, s.place d c list (4 * n), s.place d c out (8 * n) with
  | .error cause, _, _ => .error (.fault cause none 0)
  | .ok _, .error cause, _ => .error (.fault cause none 0)
  | .ok _, .ok _, .error cause => .error (.fault cause none 0)
  | .ok rows, .ok la, .ok oa =>
    if logits % 256 != 0 || list % 4 != 0 || out % 8 != 0 then .error (.fault .reservedField none 0)
    else
      match (s.samplerRight d c m .read la (4 * n)).check 0 with
      | .error e => .error e
      | .ok () =>
        match s.samplerFetch d c m.id la (4 * n) with
        | .wait s1 => .error (.wait s1)
        | .bad cause => .error (.fault cause none 0)
        | .ready bs s1 =>
          let slots := (rowWords n bs).map (fun w => w.toNat)
          if slots.any (fun w => 2048 ≤ w) then .error (.fault .reservedField none 0)
          else
            match s1.batchRest d c m rows oa v n slots with
            | .error e => .error e
            | .ok () => .ok (slots, s1)

/-- The pod addresses that the rows of a batch name, whether or not their range resolves: where they start, and how many bytes
(R175, R277). -/
def State.rowsSpan (s : State) (d c logits len : Nat) : Nat × Nat :=
  let low := logits % 2 ^ 60
  match logits / 2 ^ 60 with
  | 0 => (low, len)
  | 8 => (spadVa d c low, min len (spadSize - low))
  | 9 =>
    (match (s.ctx d c).bind (fun g => g.2.2.cores[low / 2 ^ 22]?) with
      | some core => (spadVa d core (low % 2 ^ 22), min len (spadSize - low % 2 ^ 22))
      | none => (0, 0))
  | _ => (0, 0)

/-- The brands of a batch go back to their titles (R277, R279). -/
def State.batchReturn (s : State) (d c logits v n : Nat) : State :=
  let span := s.rowsSpan d c logits (batchBytes v n)
  if span.2 = 0 then s else s.samplerReturn d (s.coreAgent d c) span.1 span.2

/-- SMPL_START (R277, R278): the sampler takes up an SMPL and checks its whole batch. -/
def execSmplStart (d : Nat) (s : State) : Out :=
  let s1 := s.samplerArrive d
  match (s1.die d).job, s1.nextSampler d with
  | none, some (c, m) =>
    match m.body with
    | .smpl logits v list out n =>
      (match s1.batchCheck d c m logits v list out n with
        | .error .hold => .next s1
        | .error (.wait s2) => .next s2
        | .error (.fault cause hb _) => .next ((s1.batchReturn d c logits v n).failSampler d c m cause hb 0)
        | .ok (slots, s2) =>
          let first := ((s2.die d).slot (slots.headD 0)).cycles v
          .next ((s2.putCmd d c 3 (m.run (s2.samplerCycle d) (32 + first))).modDie d (fun x =>
            { x with job := some (.smpl c m.id slots 0 0), fetches := [] })))
    | _ => .next s1
  | _, _ => .next s1

/-- A running command's time grows; what it waited for has taken its own time (R285). -/
def Cmd.longer (m : Cmd) (now n : Nat) : Cmd :=
  match m.stage with
  | .running a b => { m with stage := .running a (max b now + n) }
  | _ => m

/-- A word of the run of a die is due. -/
def LogitRun.open_ (r : LogitRun) : Bool := !r.done && r.pc < r.prog.length

/-- The moves that run the words left of a run, and look again at the batch. -/
def LogitRun.moves (r : LogitRun) (d : Nat) : List Move :=
  List.replicate (r.prog.length - r.pc) (.logit d) ++ [.event (.sequenceRun d)]

/-- A batch ends in a fault: its brands return (R277). -/
def State.failBatch (s : State) (d c : Nat) (m : Cmd) (logits v n : Nat) (cause : Cause) : State :=
  (s.batchReturn d c logits v n).failSampler d c m cause none 0

/-- The run of the next sequence is opened when its row is there; its words follow as moves of the agenda (R279). -/
def State.sequenceOpen (s : State) (d c : Nat) (m : Cmd) (logits v n next slot : Nat) : State :=
  match s.place d c (logits + next * rowBytes v) (4 * v) with
  | .error cause => s.failBatch d c m logits v n cause
  | .ok va =>
    match s.samplerFetch d c m.id va (4 * v) with
    | .wait s1 => s1
    | .bad cause => s.failBatch d c m logits v n cause
    | .ready row s1 =>
      let s2 := s1.openRun d c slot v row
      match (s2.die d).run with
      | none => s2
      | some r => { s2 with agenda := r.moves d ++ s2.agenda }

/-- A finished run is closed when its record is written; the next sequence takes its time (R279, R285). -/
def State.sequenceClose (s : State) (d c : Nat) (m : Cmd) (logits v out n : Nat) (slots : List Nat) (next : Nat) (st : Status)
    (r : LogitRun) : State :=
  match s.place d c (out + 8 * next) 8 with
  | .error cause => s.failBatch d c m logits v n cause
  | .ok va =>
    match s.samplerAccess d c m.id va 8 (some (leBytes 8 (r.record ((s.die d).slot r.slot)))) with
    | .wait s1 => s1
    | .bad cause => s.failBatch d c m logits v n cause
    | .ready _ s1 =>
      let s2 := s1.closeSlot d r
      let more := if next + 1 < slots.length then ((s2.die d).slot (slots.getD (next + 1) 0)).cycles v else 0
      (s2.putCmd d c 3 (m.longer (s.samplerCycle d) more)).modDie d (fun x =>
        { x with job := some (.smpl c m.id slots (next + 1) (st ||| r.st)) })

/-- The next sequence of a batch (R279): opened, gone on with when what its mask waited for is there, or closed. -/
def State.nextSequence (s : State) (d c : Nat) (m : Cmd) (logits v out n : Nat) (slots : List Nat) (next : Nat) (st : Status) : State :=
  match (s.die d).run with
  | none => s.sequenceOpen d c m logits v n next (slots.getD next 0)
  | some r =>
    if r.open_ then
      (if r.held ≠ 0 ∧ r.held ≤ s.samplerCycle d then
        { s.modDie d (fun x => { x with run := some { r with held := 0 } }) with agenda := r.moves d ++ s.agenda }
      else s)
    else s.sequenceClose d c m logits v out n slots next st r

/-- SEQUENCE_RUN (R279): the next sequence of the batch runs when its time has come. -/
def execSequenceRun (d : Nat) (s : State) : Out :=
  match (s.die d).job with
  | some (.smpl c id slots next st) =>
    match (s.core d c).cmd 3 id with
    | some m =>
      (match m.body with
        | .smpl logits v _ out n =>
          if next < slots.length ∧ m.timeUp (s.samplerCycle d) then .next (s.nextSequence d c m logits v out n slots next st)
          else .next s
        | _ => .next s)
    | none => .next s
  | _ => .next s

/-- SMPL_COMPLETE (R279): after the last record the brands return and the command completes. -/
def execSmplComplete (d : Nat) (s : State) : Out :=
  match (s.die d).job with
  | some (.smpl c id slots next st) =>
    match (s.core d c).cmd 3 id with
    | some m =>
      (match m.body with
        | .smpl logits v _ _ n =>
          if slots.length ≤ next ∧ m.timeUp (s.samplerCycle d) then
            let s1 := (s.batchReturn d c logits v n).modDie d (fun x => { x with job := none, fetches := [] })
            .next (s1.complete d c 3 { m with status := m.status ||| st } [])
          else .next s
        | _ => .next s)
    | none => .next s
  | _ => .next s

/-! Logit instructions as steps of the open run (R271). -/

/-- A logit instruction acts on the run of the die whose sampler acts. -/
def onRun (s : State) (f : Die → LogitRun → LogitRun) : Out :=
  match s.actor with
  | .logit d =>
    match (s.die d).run with
    | none => .next s
    | some r => if r.done then .next s else .next (s.modDie d (fun x => { x with run := some (f x r).after }))
  | _ => .fault .noActor

/-- LSET (R346). -/
def execLset (k : Fin 8) (f : BitVec 23) (s : State) : Out := onRun s (fun _ r => lsetRun k f r)
/-- LTEMP (R344). -/
def execLtemp (k : Fin 8) (s : State) : Out := onRun s (fun _ r => ltempRun k r)
/-- LBIAS (R344). -/
def execLbias (s : State) : Out := onRun s (fun x r => lbiasRun (x.slot r.slot) r)
/-- LPEN (R344). -/
def execLpen (k : Fin 8) (s : State) : Out := onRun s (fun x r => lpenRun k (x.slot r.slot) r)
/-- The batch of a die ends in a fault that an access of its run met. -/
def State.failJob (s : State) (d : Nat) (cause : Cause) : State :=
  match (s.die d).job with
  | some (.smpl c id _ _ _) =>
    (match (s.core d c).cmd 3 id with
      | some m =>
        (match m.body with
          | .smpl logits v _ _ n => s.failBatch d c m logits v n cause
          | _ => s)
      | none => s)
  | _ => s

/-- The mask of a run, read at its LMASK once for the sequence (R345). -/
def State.runMask (s : State) (d : Nat) (r : LogitRun) : SamplerGot :=
  match r.maskBits, (s.die d).job with
  | [], some (.smpl c id _ _ _) =>
    (match s.place d c ((s.die d).slot r.slot).mask.toNat (maskLen r.x.length) with
      | .error cause => .bad cause
      | .ok va => s.samplerFetch d c id va (maskLen r.x.length))
  | bs, _ => .ready bs s

/-- LMASK (R345). -/
def execLmask (inv : Bool) (s : State) : Out :=
  match s.actor with
  | .logit d =>
    match (s.die d).run with
    | none => .next s
    | some r =>
      if r.done then .next s
      else
        match s.runMask d r with
        | .ready bs s1 => .next (s1.modDie d (fun x => { x with run := some (lmaskRun inv { r with maskBits := bs }).after }))
        | .wait s1 => .next (s1.modDie d (fun x => { x with run := some { r with held := s.samplerCycle d + 1 } }))
        | .bad cause => .next (s.failJob d cause)
  | _ => .fault .noActor
/-- LCAP (R344). -/
def execLcap (k : Fin 8) (s : State) : Out := onRun s (fun _ r => lcapRun k r)
/-- LTOPK (R344). -/
def execLtopk (n : BitVec 23) (s : State) : Out := onRun s (fun _ r => ltopkRun n r)
/-- LTOPP (R281). -/
def execLtopp (k : Fin 8) (s : State) : Out := onRun s (fun _ r => ltoppRun k r)
/-- LMINP (R281). -/
def execLminp (k : Fin 8) (s : State) : Out := onRun s (fun _ r => lminpRun k r)
/-- LSOFT (R280). -/
def execLsoft (s : State) : Out := onRun s (fun _ r => lsoftRun r)
/-- LDRAW (R282). -/
def execLdraw (s : State) : Out := onRun s (fun x r => ldrawRun (x.drawCovered (x.slot r.slot) r) (x.slot r.slot) r)
/-- LDRAW with GREEDY (R282). -/
def execLdrawGreedy (s : State) : Out := onRun s (fun _ r => ldrawGreedyRun r)
/-- LCNT (R283). -/
def execLcnt (s : State) : Out := onRun s (fun _ r => lcntRun r)
/-- LSTOP (R346). -/
def execLstop (s : State) : Out := onRun s (fun _ r => lstopRun r)

end Sys2Proof.Machine
end

