-- ==== Sys2Proof/Machine/Launch.lean ====
section
/-!
DEFINITION. The schedule table and launches: arming and disarming (R28 to R31), entries that become due (R32, R33, R293), the
start with its checks (R34, R35, R37), the load and the loader's state (R36, R38, R39, R213), the first issue, and the retirement
of cores and gangs (R40, R52, R53, R214).
-/
namespace Sys2Proof.Machine

/-! Arming (R31). -/

/-- The cause for which an entry fails at arming, 0 for none (R31, R35). -/
def armingCause (te : Tenant) (e : Nat) (x : SchedEntry) (now : Nat) : Nat :=
  if x.snapWord 5 / 16 % 16 != 0 || Tab.get x.words 7 0 != 0 || 2 ^ 60 ≤ x.snapWord 2 || 2 ^ 60 ≤ x.snapWord 3 then 6
  else if x.pkind == 3 || ((x.pkind == 1 || x.pkind == 2) && (x.pred == e || !hasEntry te.cfg x.pred)) then 6
  else if x.locked && te.activeEntry e && te.startOf x < now then 8
  else 0

/-- An entry is armed: a snapshot is taken, STATE and CAUSE are set, and the arming checks follow (R31). -/
def State.arm (s : State) (d e t : Nat) (te : Tenant) (x : SchedEntry) : State :=
  let y : SchedEntry := { x with snap := x.words.filter (fun w => w.1 < 6), state := .armed, cause := 0, due := false }
  let s1 := s.setSched d e y
  let bad := armingCause te e y (s.now d)
  if bad = 0 then s1 else s1.launchFail d e t bad

/-- The host of tenant t writes the control word of an entry (R31, R179). -/
def State.writeCtl (s : State) (d e t : Nat) (ctl : Word) : State :=
  match s.tenant d t with
  | none => s.answer d (.rdmaError t)
  | some te =>
    if !hasEntry te.cfg e then s.answer d (.rdmaError t)
    else
      let x := s.sched d e
      let y : SchedEntry := { x with words := Tab.set x.words 5 ctl }
      let valid := ctl.toNat % 2 == 1
      match x.state with
      | .loading | .running => s
      | .armed => s.setSched d e (if valid then y else { y with state := .empty, due := false })
      | .empty => if valid then s.arm d e t te y else s.setSched d e y
      | .retired | .failed => if valid then s.arm d e t te y else s.setSched d e { y with state := .empty }

/-- ENTRY_ARM (R31): a write of a control word with VALID set. -/
def execEntryArm (d e t : Nat) (ctl : Word) (s : State) : Out := whenever (ctl.toNat % 2 == 1) s (s.writeCtl d e t ctl)

/-- ENTRY_DISARM (R31): a write of a control word with VALID clear. -/
def execEntryDisarm (d e t : Nat) (ctl : Word) (s : State) : Out := whenever (ctl.toNat % 2 == 0) s (s.writeCtl d e t ctl)

/-! Due entries (R32, R33, R293). -/

/-- Do an entry and a gang select a core in common? -/
def SchedEntry.meets (x : SchedEntry) (g : Gang) : Bool := x.cores.any g.cores.contains

/-- May an entry of tenant t pre-empt a gang (R293)? -/
def SchedEntry.mayPreempt (x : SchedEntry) (t : Nat) (g : Gang) : Bool :=
  !x.locked && !g.locked && g.tenant != t && g.prio < x.prio

/-- Does a live gang hold some core that an entry of tenant t selects? A saved gang holds none against an entry that may pre-empt
it (R32, R293). -/
def Die.busyFor (x : Die) (t : Nat) (en : SchedEntry) : Bool :=
  x.gangs.any (fun g => en.meets g.2 && !(g.2.phase == .saved && en.mayPreempt t g.2))

/-- An armed entry of its tenant's active half. -/
def Die.liveEntry (x : Die) (e : Nat) : Option (Nat × Tenant × SchedEntry) :=
  let en := Tab.get x.sched e SchedEntry.reset
  match x.entryTenant e with
  | none => none
  | some (t, te) => if en.state = .armed ∧ te.activeEntry e = true then some (t, te, en) else none

/-- The most ticks from the decision to pre-empt until the stop has reached every core (R294; log entries 17 and 29). -/
def stopTicks : Nat := 100

/-- The stop starts on its way to a gang, for an entry (R293, R294). -/
def State.preempt (s : State) (d slot e : Nat) : State :=
  match s.gang d slot with
  | none => s
  | some g => s.drawn.setGang d slot { g with phase := .halting e (s.now d + s.latency stopTicks) }

/-- Is STATE of a gang's entry RUNNING while no stop is on its way to it: it runs, or it is loaded and waits for its first issue? -/
def GangPhase.stands : GangPhase → Bool
  | .running | .loaded => true
  | _ => false

/-- A due entry pre-empts the gangs of lower priority that hold its cores and whose STATE is RUNNING (R293). -/
def State.preemptFor (s : State) (d e t : Nat) (en : SchedEntry) : State :=
  let victims := ((s.die d).gangs.filter (fun g => g.2.phase.stands && en.meets g.2 && en.mayPreempt t g.2)).map Prod.fst
  s.each victims (fun s slot => s.preempt d slot e)

/-- ENTRY_DUE (R32, R33): the die examines an armed entry. -/
def execEntryDue (d e : Nat) (s : State) : Out :=
  match (s.die d).liveEntry e with
  | none => .next s
  | some (t, te, en) =>
    let pred := (s.sched d en.pred).state
    let time := te.startOf en ≤ s.now d + en.lead
    if en.due then .next s
    else if en.locked then
      if !time then .next s
      else if en.pkind ≠ 0 then .next (s.launchFail d e t 6)
      else if (s.die d).busyFor t en then .next (s.launchFail d e t 8)
      else .next (s.setSched d e { en with due := true })
    else if en.pkind = 1 ∧ pred = .failed then .next (s.launchFail d e t 7)
    else if time && (en.pkind == 0 || pred == .retired || (en.pkind == 2 && pred == .failed)) then
      .next ((s.setSched d e { en with due := true }).preemptFor d e t en)
    else .next s

/-! The image (R37). -/

/-- The fields of an image header that the loader uses. -/
structure ImgHeader where
  known : Bool
  clean : Bool
  signed : Bool
  features : Nat
  entry : Nat
  codesz : Nat
  datasz : Nat
  impsz : Nat
  sigoff : Nat
  deriving DecidableEq, Repr

/-- The header in 256 bytes (R37). -/
def headerOf (b : List Byte) : ImgHeader :=
  let f (off n : Nat) : Nat := ofLeBytes (slice b off n)
  let signed := f 0x08 4 % 2 == 1
  { known := f 0x00 4 == 0x4E4F4D44 && f 0x04 2 == 1, signed := signed,
    clean := f 0x08 4 / 2 == 0 && f 0x0C 4 == 0 && f 0x3C 196 == 0 && (signed || f 0x38 4 == 0),
    features := f 0x10 16, entry := f 0x20 4, codesz := f 0x24 4, datasz := f 0x28 4, impsz := f 0x2C 4, sigoff := f 0x38 4 }

/-- Where the data section stands in the scratchpad (R38). -/
def dataAt (argsz : Nat) : Nat := (64 * argsz + 255) / 256 * 256
/-- Where the import table stands (R38). -/
def importAt (argsz datasz : Nat) : Nat := (dataAt argsz + datasz + 7) / 8 * 8

/-- The loaded bytes of an image: code, data, import table. -/
def ImgHeader.body (h : ImgHeader) : Nat := h.codesz + h.datasz + 8 * h.impsz

/-- The limits of R37. -/
def ImgHeader.limitsOk (h : ImgHeader) (argsz : Nat) : Bool :=
  h.entry % 4 == 0 && h.entry < h.codesz && h.codesz % 4096 == 0 && 4096 ≤ h.codesz && h.codesz ≤ imemSize
    && h.datasz % 8 == 0 && h.impsz ≤ 256 && importAt argsz h.datasz + 8 * h.impsz + 4096 ≤ spadSize
    && (!h.signed || (h.sigoff % 16 == 0 && 0x100 + h.body ≤ h.sigoff))

/-- What reading part of an image gives: bytes, a page fault that suspends a Free-mode load, or a launch cause. -/
inductive Loaded (α : Type) where
  | ok (a : α)
  | page (va : Nat)
  | bad (cause : Nat)

/-- Bytes of the image or of the argument block, through the tenant's translation; in Locked mode from pinned pages (R34, R35;
log entry 18). -/
def State.imageBytes (s : State) (d t : Nat) (locked : Bool) (va len : Nat) : Loaded (List Byte) :=
  if len = 0 then .ok []
  else if vaDie va ≠ d ∨ vaTranslated va = false ∨ 2 ^ 48 < vaLow va + len then .bad 5
  else
    match (s.die d).read .walker t locked va len with
    | .ok b _ => .ok b
    | .page a => if locked then .bad 5 else .page a
    | .hard _ => .bad 5

/-- Does an image of a tenant carry a valid signature: over the image up to the end of its signature, whose bytes count as zero
(R37; log entry 16)? -/
def signatureOk (ikey : Option Nat) (sigoff : Nat) (img : List Byte) : Bool :=
  match ikey with
  | none => false
  | some n => rsaVerify n (ofBeBytes (slice img sigoff 384)) (splice img sigoff (List.replicate 384 0#8))

/-- Steps 3 and 4 of R34: the header with its checks, the image, the argument block, features and signature, in the order of
R35. -/
def State.judgeImage (s : State) (d t : Nat) (te : Tenant) (x : SchedEntry) : Loaded (ImgHeader × List Byte × List Byte) :=
  let get := s.imageBytes d t x.locked
  match get (x.snapWord 2) 256 with
  | .page va => .page va
  | .bad c => .bad c
  | .ok hb =>
    let h := headerOf hb
    if !h.known || !h.limitsOk x.argsz then .bad 5
    else
      match get (x.snapWord 2) (if h.signed then h.sigoff + 384 else 0x100 + h.body), get (x.snapWord 3) (64 * x.argsz) with
      | .bad c, _ => .bad c
      | _, .bad c => .bad c
      | .page va, _ => .page va
      | _, .page va => .page va
      | .ok img, .ok args =>
        if !h.clean then .bad 6
        else if (List.range 128).any (fun i => h.features / 2 ^ i % 2 == 1 && !(0x3FF / 2 ^ i % 2 == 1)) then .bad 1
        else if h.signed then (if signatureOk te.cfg.ikey h.sigoff img then .ok (h, img, args) else .bad 2)
        else if x.sigreq then .bad 2
        else .ok (h, img, args)

/-! The start (R34). -/

/-- The most ticks of a load (R36). -/
def loadTicks (h : ImgHeader) (argsz : Nat) : Nat := 6000 + (h.codesz + h.datasz + 64 * argsz + 8 * h.impsz + 63) / 64

/-- A launch fails before its load is complete: the slot is free again, the cores are untouched, and pushes kept for it go (R34, R406). -/
def State.dropLaunch (s : State) (d e t slot cause : Nat) : State :=
  (s.modDie d (fun x => { x with gangs := Tab.erase x.gangs slot, kept := x.kept.filter (fun k => k.1 != slot) })).launchFail d e t cause

/-- The ranges that the loader reads: header, argument block, and the image as its header gives it. -/
def State.loaderRanges (s : State) (d t : Nat) (x : SchedEntry) : List (Nat × Nat) :=
  let img := x.snapWord 2
  let whole : Nat := match s.imageBytes d t x.locked img 256 with
    | .ok hb =>
      let h := headerOf hb
      if h.known && h.limitsOk x.argsz then (if h.signed then h.sigoff + 384 else 0x100 + h.body) else 0
    | _ => 0
  [(img, 256), (x.snapWord 3, 64 * x.argsz), (img, whole)]

/-- The 64 KiB pages of a range: addresses with their bytes. -/
def pagePieces (va len : Nat) : List (Nat × Nat) :=
  if len = 0 then []
  else
    (List.range ((va % 65536 + len + 65535) / 65536)).map (fun i =>
      let a := max va (va / 65536 * 65536 + 65536 * i)
      (a, min (va + len) (va / 65536 * 65536 + 65536 * (i + 1)) - a))

/-- What a range asks of the stacks of a die, page by page. -/
def Die.rangeUses (x : Die) (t : Nat) (write : Bool) (va len : Nat) : List (Nat × Nat × Nat) :=
  (pagePieces va len).flatMap (fun e => (x.rawUses .walker t e.1 e.2 write).map (fun u => (e.1, u.1, u.2)))

/-- Bytes of the rate of some stacks are taken. -/
def Die.takeUses (x : Die) (uses : List (Nat × Nat × Nat)) : Die :=
  uses.foldl (fun x u => x.takeRate (u.2.1 * 0xC00000000) u.2.2) x

/-- The first address of what the loader reads for a Locked-mode launch whose stack the plan does not open to it now; the loader goes by the
class 7 id of the tenant (R36, R196; log entry 54). -/
def State.loaderShut (s : State) (d t : Nat) (x : SchedEntry) : Option Nat :=
  (((s.loaderRanges d t x).flatMap (fun r => (s.die d).rangeUses t false r.1 r.2)).find? (fun u =>
    !s.lets d u.2.1 (poolAgent t) x.locked)).map (fun u => u.1)

/-- The load of an entry begins, or begins again: steps 3 to 5 of R34. A page fault suspends it in Free mode (R35); in Locked mode it waits for
the windows of the plan (R36, R196). It takes a tick at least, and its bytes of the stacks' rate (R192). -/
def State.beginLoad (s : State) (d e t slot : Nat) (te : Tenant) : State :=
  let x := s.sched d e
  match s.gang d slot with
  | none => s
  | some g =>
    match s.loaderShut d t x, s.judgeImage d t te x with
    | some va, _ => s.setGang d slot { g with phase := .suspendedLoad va }
    | none, .bad c => s.dropLaunch d e t slot c
    | none, .page va =>
      (s.setGang d slot { g with phase := .suspendedLoad va }).event d t
        { EventRec.blank .pageFault with va := va, entry := e, cslot := slot }
    | none, .ok (h, img, args) =>
      let uses := (s.loaderRanges d t x).flatMap (fun r => (s.die d).rangeUses t false r.1 r.2)
      (s.drawn.modDie d (fun x => x.takeUses uses)).setGang d slot
        { g with phase := .loading, loadDone := s.now d + max 1 (s.latency (loadTicks h x.argsz)), image := img, argBlock := args }

/-- The lowest context slot that no live gang holds (R23). -/
def Die.freeSlot (x : Die) : Option Nat := (List.range 64).find? (fun n => (Tab.find x.gangs n).isNone)

/-- A saved context gives up a scratchpad that its save left in place: it is saved now (R296; log entry 19). -/
def Die.saveSpad (x : Die) (c : Nat) (sc : SavedCore) : SavedCore :=
  if sc.core = c ∧ sc.withSpad = false then
    let y := x.core c
    { sc with withSpad := true, image := { sc.image with spad := y.spad, imem := y.imem } }
  else sc

/-- Every saved context gives up the scratchpads of an entry's cores. -/
def Die.saveSpads (x : Die) (cores : List Nat) : Die :=
  { x with gangs := x.gangs.map (fun g => (g.1, { g.2 with saved := g.2.saved.map (fun sc => cores.foldl (fun sc c => x.saveSpad c sc) sc) })) }

/-- The gang of an entry as it starts. -/
def newGang (t e : Nat) (te : Tenant) (x : SchedEntry) : Gang :=
  { entry := e, tenant := t, cores := x.cores, locked := x.locked, det := x.det, prio := x.prio,
    seed := BitVec.ofNat 64 (x.snapWord 4), start := te.startOf x, phase := .loading, loadDone := 0, haltTick := 0, barDl := none,
    barDone := none, atomOpen := false, batches := 0, saved := [], savedPlanes := [], image := [], argBlock := [] }

/-- LAUNCH_START (R34): a due entry whose cores no live gang holds is checked, takes a slot and begins its load. -/
def execLaunchStart (d e : Nat) (s : State) : Out :=
  match (s.die d).liveEntry e with
  | none => .next s
  | some (t, te, x) =>
    if !x.due || (s.die d).busyFor t x then .next s
    else
      let s0 := { s.setSched d e { x with state := .loading, due := false } with launched := true }
      if x.cores = [] ∨ x.cores.any (fun c => !te.cfg.clamps.getLsbD (c / 4)) = true then .next (s0.launchFail d e t 4)
      else
        match (s0.die d).freeSlot with
        | none => .next (s0.launchFail d e t 3)
        | some slot =>
          let s1 := s0.setSched d e { s0.sched d e with slot := slot }
          let s2 := (s1.modDie d (fun z => z.saveSpads x.cores)).setGang d slot (newGang t e te x)
          .next (s2.beginLoad d e t slot te)

/-- The gang that loads or runs for an entry. -/
def State.gangFor (s : State) (d e : Nat) : Option (Nat × Gang) :=
  ((s.die d).gangs.find? (fun g => g.2.entry == e))

/-- LOAD_RESUME (R35, R36; log entry 18): the page that suspended a Free-mode load translates now, or a Locked-mode load looks again for the
windows that it waits for. -/
def execLoadResume (d e : Nat) (s : State) : Out :=
  match s.gangFor d e, (s.die d).entryTenant e with
  | some (slot, g), some (t, te) =>
    (match g.phase with
      | .suspendedLoad va =>
        (match g.locked, walk (s.die d) t (vaLow va) false with
          | false, .page => .next s
          | _, _ => .next (s.beginLoad d e t slot te))
      | _ => .next s)
  | _, _ => .next s

/-! The loader's state (R38, R39, R213). -/

/-- Strand k as the loader leaves it (R39). -/
def loadedStrand (h : ImgHeader) (argsz k : Nat) : Strand :=
  { Strand.reset k with
    pc := BitVec.ofNat 18 h.entry,
    regs := [(2, SReg.of (BitVec.ofNat 64 (spadAddr + spadSize))), (3, SReg.of (BitVec.ofNat 64 (spadAddr + dataAt argsz)))],
    args := BitVec.ofNat 64 spadAddr, importTab := BitVec.ofNat 64 (spadAddr + importAt argsz h.datasz) }

/-- A core as the loader leaves it for a context (R38, R167, R204). -/
def loadedCore (old : Core) (img args : List Byte) (argsz c slot rank : Nat) : Core :=
  let h := headerOf img
  let code := slice img 0x100 h.codesz
  let data := slice img (0x100 + h.codesz) h.datasz
  let imports := slice img (0x100 + h.codesz + h.datasz) (8 * h.impsz)
  { Core.reset with
    spad := Mem.write (Mem.write (Mem.write [] 0 args) (dataAt argsz) data) (importAt argsz h.datasz) imports,
    imem := Mem.write [] 0 code,
    pages := (List.range (h.codesz / 4096)).map (fun i => (i, Page.code)),
    strands := strandIds.map (fun k => (k, loadedStrand h argsz k)),
    nextCmd := old.nextCmd, issueFrom := old.issueFrom, window := [c], arriving := old.arriving, ctx := some (slot, rank) }

/-- The pushes that link engines made for a context while it was away or being loaded reach it, ahead of any push that its strands make
(R406). -/
def State.keptPushes (s : State) (d slot : Nat) (g : Gang) : State :=
  let mine := (s.die d).kept.filter (fun k => k.1 == slot)
  let s1 := mine.foldl (fun s k =>
    match g.cores[k.2.1]? with
    | some c => s.modCore d c (fun y => { y with held := y.held ++
        [{ ch := k.2.2.1, agent := portAgent k.2.2.2, strand := 0, fresh := false, by_ := .outside }] })
    | none => s) s
  s1.modDie d (fun x => { x with kept := x.kept.filter (fun k => k.1 != slot) })

/-- The SBINDs that a retired context left on a core are performed to their ends before a load takes the core (R36, R52; log entry 20); the
count bounds them. -/
def State.finishBinds (s : State) (d c : Nat) : Nat → State
  | 0 => s
  | n + 1 =>
    match (s.core d c).samplerQ with
    | [] => s
    | m :: _ =>
      let leave (s : State) : State := s.modCore d c (fun y => y.dropCmd 3 m)
      let put (s : State) (slot : Nat) (q : SeqSlot) : State := leave (s.modDie d (fun x => { x with slots := Tab.set x.slots slot q }))
      let running : Option (Nat × SeqSlot) := match (s.die d).job with
        | some (.sbind jc id slot q _) => if jc = c ∧ id = m.id then some (slot, q) else none
        | _ => none
      let s1 : State := match running, m.body with
        | some (slot, q), _ => (put s slot q).modDie d (fun x => { x with job := none })
        | none, .sbind sel a slot =>
          (match s.bindCheckNow d c m sel a slot with
            | .ok (q, _, s1) => put s1 slot q
            | .error (.fault _ hb _) => leave (s.handBack d hb)
            | .error _ => leave s)
        | none, _ => leave s
      s1.finishBinds d c n

/-- The entry and the share records of core c as its saved contexts keep them once the entry is reused: of each that holds the scratchpad and
has not kept them yet (R297). -/
def Die.putBy (x : Die) (c : Nat) : Die :=
  let keep (sc : SavedCore) : SavedCore :=
    if sc.core = c ∧ sc.withSpad = true ∧ sc.entry.isNone then
      { sc with entry := some (x.brand c), shares := x.shares.filter (fun r => r.idx == c) }
    else sc
  { x with gangs := x.gangs.map (fun g => (g.1, { g.2 with saved := g.2.saved.map keep })) }

/-- The loader claims the home entry of core c: entries over its scratchpad become FREE, but for those of a saved context, and
entry c becomes the launch's (R213, R297). -/
def State.claimHome (s0 : State) (d c t agent : Nat) : State :=
  let s := s0.modDie d (fun x => x.putBy c)
  let x := s.die d
  let old := (x.brands.filter (fun e => e.2.homeOf d c && e.1 != c && !spadSaved x e.2.tenant c)).map Prod.fst
  let s1 := s.each old (fun s i => (s.modDie d (fun x => x.freeBrand i)).mirrorAll d i)
  let b : Brand :=
    { Brand.free with hdie := d, base := c * spadSize, lsize := 22, title := agent, cur := agent, tenant := t, home := true,
                      state := .owned }
  s1.modDie d (fun x => { x.changeBrand c b with shares := x.shares.filter (fun r => r.idx != c) })

/-- LOAD_COMPLETE (R34, R36): the cores stand in the loader's state and the entry is RUNNING; what waits for its cores may now
pre-empt the gang (R293). -/
def execLoadComplete (d e : Nat) (s : State) : Out :=
  match s.gangFor d e with
  | none => .next s
  | some (slot, g) =>
    let x := s.sched d e
    if g.phase ≠ .loading ∨ s.now d < g.loadDone ∨ (g.locked = true ∧ (g.start < g.loadDone ∨ g.start < s.now d)) then .next s
    else
      let s0 := s.each g.cores (fun s c => s.finishBinds d c (s.core d c).samplerQ.length)
      let s1 := s0.each (List.range g.cores.length) (fun s r =>
        let c := g.cores.getD r 0
        (s.claimHome d c g.tenant (agentOf 0 slot r)).modCore d c (fun y => loadedCore y g.image g.argBlock x.argsz c slot r))
      let s2 := ((s1.setSched d e { s1.sched d e with state := .running }).setGang d slot { g with phase := .loaded, loadDone := s.now d }).keptPushes d slot g
      let waiting := ((s2.die d).sched.filter (fun w =>
        match (s2.die d).liveEntry w.1 with
        | some (t, _, en) => en.due && en.meets g && en.mayPreempt t g
        | none => false)).map Prod.fst
      .next (match waiting with
        | [] => s2
        | w :: _ => s2.preempt d slot w)

/-- LAUNCH_FIRST_ISSUE (R34): at START in Locked mode, and in Free mode in the first cycle after the load that is not earlier
than START, every strand of the gang may issue. -/
def execLaunchFirstIssue (d slot : Nat) (s : State) : Out :=
  match s.gang d slot with
  | none => .next s
  | some g =>
    whenever (g.phase == .loaded && g.start ≤ s.now d && (g.locked || g.loadDone < s.now d)) s
      ((s.each g.cores (fun s c => s.modCore d c (fun y =>
        { y with strands := y.strands.map (fun z => (z.1, { z.2 with running := true })) }))).setGang d slot { g with phase := .running })

/-- LOAD_LATE (R32, R35): a Locked-mode load that is not complete at START fails with cause 8. -/
def execLoadLate (d e : Nat) (s : State) : Out :=
  match s.gangFor d e with
  | none => .next s
  | some (slot, g) =>
    whenever (g.locked && g.phase.isLoading && g.start ≤ s.now d && (g.start < g.loadDone || g.phase != .loading)) s (s.dropLaunch d e g.tenant slot 8)

/-! Retirement (R52, R53, R214). -/

/-- Is it a command of SMPL? -/
def Cmd.isSmpl (m : Cmd) : Bool :=
  match m.body with
  | .smpl _ _ _ _ _ => true
  | _ => false

/-- The first three conditions of R52: the strands have exited, every copy, matrix, collective and brand command has completed, and so has
every SMPL. -/
def Core.done (y : Core) : Bool :=
  strandIds.all (fun k => (y.strand k).exited) && y.copyQ == [] && y.matrixQ == [] && y.collQ == [] && y.brandQ == []
    && y.samplerQ.all (fun m => !m.isSmpl)

/-- R214: the pieces of the core's scratchpad are OWNED by the context and not shared, and it holds no role elsewhere. -/
def State.onlyHome (s : State) (d c t : Nat) : Bool :=
  let x := s.die d
  let agents := s.agentsOf d c 0 ++ (s.agentsOf d c 1).take 1 ++ (s.agentsOf d c 2).take 1
  let own := (s.agentsOf d c 0)
  x.brands.all (fun e =>
    let b := e.2
    if b.state == .free then true
    else if b.homeOf d c && b.tenant == t then b.state == .owned && own.contains b.title && b.shr == 0
    else !agents.contains b.title && !(b.state == .lent && agents.contains b.cur))
    && x.shares.all (fun r => !agents.contains r.agent)

/-- CORE_RETIRE (R52, R53): the core's part of the launch is over; an interval that this ends closes (R233), and when the core is the gang's
last, the gang retires. -/
def execCoreRetire (d c : Nat) (s : State) : Out :=
  match s.ctx d c with
  | none => .next s
  | some (slot, _, g) =>
    if !g.phase.active || !(s.core d c).done then .next s
    else if !s.onlyHome d c g.tenant then .next (s.declareFailed d c 0xFF 0 .exitHeld)
    else
      let s0 := if s.mayClose d g then s.closeInterval d slot g else s
      let s1 := (s0.retireCore d c).noteBar d slot
      .next (if g.cores.all (fun n => (s1.core d n).ctx.isNone) then s1.retireGang d slot .retired (EventRec.blank .retired) else s1)

end Sys2Proof.Machine
end

