-- ==== Sys2Proof/Machine/HostIf.lean ====
section
/-!
DEFINITION. The host's traffic through the Ethernet engine (R179, R247, R248, R270, R301, R302) and the management sideband:
tenants (R299), the error log (R306), attestation (R307), error injection (R308), telemetry (R309).
-/
namespace Sys2Proof.Machine

/-! Where an RDMA request goes (R178, R179). -/

/-- The part of a die's address space that a request names. -/
inductive HostRange where
  | memory
  | table (off : Nat)
  | link (p off : Nat)
  | landing (p off : Nat)
  | slot
  | none
  deriving DecidableEq, Repr

/-- The range in which the len bytes from a pod address lie (R178). -/
def hostRange (d va len : Nat) : HostRange :=
  let lo := vaLow va
  let hi := lo + len
  if vaTranslated va then (if hi ≤ 2 ^ 48 then .memory else .none)
  else if hi ≤ 64 * spadSize then .memory
  else if 0x12000000 ≤ lo ∧ hi ≤ 0x13000000 then .slot
  else if vaDie va ≠ d then .none
  else if 0x11200000 ≤ lo ∧ hi ≤ 0x11240000 then .table (lo - 0x11200000)
  else if 0x11240000 ≤ lo ∧ hi ≤ 0x112D0000 ∧ (lo - 0x11240000) / 65536 = (hi - 1 - 0x11240000) / 65536 then
    .link ((lo - 0x11240000) / 65536) ((lo - 0x11240000) % 65536)
  else if 0x11300000 ≤ lo ∧ hi ≤ 0x11390000 ∧ (lo - 0x11300000) / 65536 = (hi - 1 - 0x11300000) / 65536 then
    .landing ((lo - 0x11300000) / 65536) ((lo - 0x11300000) % 65536)
  else .none

/-- Does a queue pair of tenant t arrive at a port of the die (R299, R300)? -/
def State.pairAt (s : State) (d port t : Nat) : Bool :=
  match s.tenant d t with
  | none => false
  | some te => te.cfg.qps.any (fun q => q.2 == port)

/-- Bytes at a range of a byte image changed where a write covers it: word w of 8-byte words from a base. -/
def patchWord (old : Word) (base off : Nat) (data : List Byte) : Word :=
  let bs := (leBytes 8 old.toNat).zipIdx.map (fun e =>
    if off ≤ base + e.2 ∧ base + e.2 < off + data.length then data.getD (base + e.2 - off) 0#8 else e.1)
  BitVec.ofNat 64 (ofLeBytes bs)

/-- Does a write cover a byte? -/
def coversByte (off len a : Nat) : Bool := off ≤ a && a < off + len

/-! The schedule table. -/

/-- STATE as STAT encodes it (R30). -/
def SchedState.code : SchedState → Nat
  | .empty => 0 | .armed => 1 | .loading => 2 | .running => 3 | .retired => 4 | .failed => 5

/-- STAT (R30). -/
def SchedEntry.stat (x : SchedEntry) : Nat := x.cause % 256 * 2 ^ 16 + x.slot % 64 * 2 ^ 8 + x.state.code

/-- The 64 bytes of an entry (R28). -/
def SchedEntry.bytes (x : SchedEntry) : List Byte :=
  (List.range 8).flatMap (fun w => leBytes 8 (if w = 6 then x.stat else (Tab.get x.words w 0).toNat))

/-- A host write as it falls on one entry: STAT is not written, the control word is written last (R28, R30, R31). -/
def State.writeEntry (s : State) (d t off : Nat) (data : List Byte) (e : Nat) : State :=
  let x := s.sched d e
  if x.state = .loading ∨ x.state = .running then s
  else
    let words := [0, 1, 2, 3, 4, 5, 7].foldl (fun ws w => Tab.set ws w (patchWord (Tab.get ws w 0) (64 * e + 8 * w) off data)) x.words
    let s1 := s.setSched d e { x with words := words }
    if coversByte off data.length (64 * e + 0x28) then s1.writeCtl d e t (Tab.get words 5 0) else s1

/-- Does a range of the table lie in a tenant's partition (R179)? -/
def inPartition (cfg : TenantCfg) (off len : Nat) : Bool :=
  64 * cfg.schedFirst ≤ off && off + len ≤ 64 * (cfg.schedFirst + cfg.schedSize)

/-- The entries that a range of the table touches. -/
def entriesOf (off len : Nat) : List Nat :=
  if len = 0 then [] else (List.range ((off + len - 1) / 64 + 1 - off / 64)).map (fun i => off / 64 + i)

/-! Link program memory (R247, R248). -/

/-- STATE of a head. -/
def LState.code : LState → Nat
  | .idle => 0 | .armed => 1 | .running => 2 | .done => 3 | .faulted => 4

/-- The 64-byte head (R248). -/
def Port.head (q : Port) : List Byte :=
  leBytes 8 q.start ++ leBytes 4 q.state.code ++ leBytes 4 q.occ ++ leBytes 8 q.base ++ leBytes 4 q.pc ++ leBytes 4 q.step
    ++ leBytes 8 q.lastg ++ leBytes 8 q.fault ++ leBytes 4 q.pmode ++ List.replicate 12 0#8

/-- The 64 KiB of a port's link program memory; the bytes of the collective area are free (R247; log entry 15). -/
def State.linkBytes (s : State) (d p : Nat) : List Byte :=
  let q := s.port d p
  q.head ++ (List.range 32).flatMap (fun i => leBytes 8 (Tab.get q.regs i 0).toNat) ++ Mem.bytes q.plan 0x140 (0x8000 - 0x140)
    ++ (List.range 0x8000).map (fun i => Config.sectionByte i (s.die d).colls.length)

/-- The 64 KiB landing buffer of a port: its flits in the order in which they landed (R252; log entry 24). -/
def Port.landingBytes (q : Port) : List Byte :=
  let one (f : Flit) : List Byte := match f.payload with
    | .raw b => b
    | .part es => (es.flatMap (fun e => leBytes 4 e.1.toNat))
  let bs := q.landing.flatMap one
  bs ++ List.replicate (65536 - bs.length) 0#8

/-- A host write to a port's memory below the collective area: START, PMODE, registers and plan while neither ARMED nor RUNNING,
then STATE (R247, R248; log entry 24). -/
def State.writeLink (s : State) (d p off : Nat) (data : List Byte) : State :=
  let q := s.port d p
  let n := data.length
  let s1 :=
    if q.state = .armed ∨ q.state = .running then s
    else
      let start := (patchWord (BitVec.ofNat 64 q.start) 0 off data).toNat
      let pmode := (patchWord (BitVec.ofNat 64 q.pmode) 0x30 off data).toNat % 2 ^ 32
      let regs := (List.range 32).foldl (fun r i =>
        if off < 0x48 + 8 * i ∧ 0x40 + 8 * i < off + n then Tab.set r i (patchWord (Tab.get r i 0) (0x40 + 8 * i) off data) else r) q.regs
      let plan := if 0x140 < off + n then Mem.write q.plan (max off 0x140) (data.drop (0x140 - off)) else q.plan
      s.setPort d p { q with start := start, pmode := pmode, regs := regs, plan := plan }
  if coversByte off n 0x08 then
    let v := (patchWord (BitVec.ofNat 64 q.state.code) 8 off data).toNat % 2 ^ 32
    if v = 1 then s1.armPort d p else if v = 0 then s1.disarmPort d p else s1
  else s1

/-! What the management agent reads in the direct window (R178, R179, R247). -/

/-- Bytes of the brand table from an offset on (R178, R201). -/
def Die.brandBytes (x : Die) (off len : Nat) : List Byte :=
  slice ((List.range ((off % 32 + len + 31) / 32)).flatMap (fun i => (x.brand (off / 32 + i)).bytes)) (off % 32) len

/-- A read of the direct window of a die by its management agent: the brand table, the link program memories and the landing buffers; nothing
else admits it (R178, R179, R247). -/
def State.mgmtRead (s : State) (d va len : Nat) : Option (List Byte) :=
  let lo := vaLow va
  if vaDie va = d ∧ 0x11000000 ≤ lo ∧ lo + len ≤ 0x11200000 then some ((s.die d).brandBytes (lo - 0x11000000) len)
  else
    match hostRange d va len with
    | .link p off => some (slice (s.linkBytes d p) off len)
    | .landing p off => some (slice (s.port d p).landingBytes off len)
    | _ => none

/-! RDMA (R301). -/

/-- What a host's request comes to: it is done, refused, on its way to another die, or waits for a stack or a pre-empted context (R196,
R254, R297). -/
inductive HostGot (α : Type) where
  | ok (a : α) (s : State)
  | refused
  | sent (s : State)
  | hold (s : State)

/-- A host's access to the memory of its own die stands by the stack that it asks, under the id of its Ethernet port; in Locked operation only a
window of the plan lets it in (R192, R196; log entry 54). -/
def State.hostTurn (s : State) (d port t va len : Nat) (write : Bool) : Bool × State :=
  s.atStacks d (etherAgent port) [va, len] (s.die d).lockedOp true
    (if vaDie va = d then (s.die d).rawUses .walker t va len write else [])

/-- A request for the memory of another die leaves as open traffic (R254, R255). -/
def State.hostSend {α : Type} (s : State) (d port t va : Nat) (imm : Option W32) (body : OpenBody) : HostGot α :=
  if s.reaches d (vaDie va) then
    .sent { s with opens := s.opens ++ [{ tr := s.transit d (vaDie va) (etherAgent port), by_ := .ether port imm, core := noCore, cmd := 0,
                                          tenant := t, locked := false, body := body }] }
  else .refused

/-- A host write, admitted and performed (R179, R247, R301); to another die it is sent (R254). -/
def State.hostWrite (s : State) (d port t : Nat) (addr : Word) (data : List Byte) (imm : Option W32) : HostGot Unit :=
  let va := addr.toNat
  let n := data.length
  if s.pairAt d port t = false ∨ 2 ^ 60 ≤ va ∨ n = 0 then .refused
  else
    match hostRange d va n with
    | .memory =>
      (match s.judge d t [etherAgent port] none .write va n with
        | .hold => .hold s
        | .bad _ _ => .refused
        | .ok =>
          if vaDie va = d then
            (match s.hostTurn d port t va n true with
              | (false, s1) => .hold s1
              | (true, s1) => (match (s1.die d).write .walker t false va data with
                | .ok _ x => .ok () (s1.setDie d x)
                | _ => .refused))
          else s.hostSend d port t va imm (.write va data 0))
    | .table off =>
      (match s.tenant d t with
        | some te =>
          if inPartition te.cfg off n then .ok () ((entriesOf off n).foldl (fun s e => s.writeEntry d t off data e) s) else .refused
        | none => .refused)
    | .link p off => if s.planTenant d p = some t ∧ off + n ≤ 0x8000 then .ok () (s.writeLink d p off data) else .refused
    | _ => .refused

/-- A host read (R179, R247, R270, R301); of another die's memory it is sent (R254). -/
def State.hostRead (s : State) (d port t : Nat) (addr : Word) (len : Nat) : HostGot (List Byte) :=
  let va := addr.toNat
  if s.pairAt d port t = false ∨ 2 ^ 60 ≤ va ∨ len = 0 then .refused
  else
    match hostRange d va len with
    | .memory =>
      (match s.judge d t [etherAgent port] none .read va len with
        | .hold => .hold s
        | .bad _ _ => .refused
        | .ok =>
          if vaDie va = d then
            (match s.hostTurn d port t va len false with
              | (false, s1) => .hold s1
              | (true, s1) => (match (s1.die d).read .walker t false va len with
                | .ok b x => .ok b (s1.setDie d x)
                | _ => .refused))
          else s.hostSend d port t va none (.read va len va))
    | .table off =>
      (match s.tenant d t with
        | some te =>
          if inPartition te.cfg off len then
            .ok (slice ((entriesOf off len).flatMap (fun e => (s.sched d e).bytes)) (off % 64) len) s
          else .refused
        | none => .refused)
    | .link p off => if s.planTenant d p = some t then .ok (slice (s.linkBytes d p) off len) s else .refused
    | .landing p off => if s.planTenant d p = some t then .ok (slice (s.port d p).landingBytes off len) s else .refused
    | .slot =>
      if vaDie va = d then
        (match (s.die d).read .walker t false va len with
          | .ok b _ => .ok b s
          | _ => .refused)
      else s.hostSend d port t va none (.read va len va)
    | .none => .refused

/-- RDMA_WRITE (R301): admitted and performed, or refused with nothing written. -/
def execRdmaWrite (d port t : Nat) (addr : Word) (data : List Byte) (s : State) : Out :=
  match s.hostWrite d port t addr data none with
  | .ok _ s1 => .next (s1.answer d (.rdmaOk t))
  | .refused => .next (s.answer d (.rdmaError t))
  | .sent s1 => .next s1
  | .hold s1 => .next s1

/-- RDMA_READ (R301). -/
def execRdmaRead (d port t : Nat) (addr : Word) (len : Nat) (s : State) : Out :=
  match s.hostRead d port t addr len with
  | .ok b s1 => .next (s1.answer d (.rdmaData t b))
  | .refused => .next (s.answer d (.rdmaError t))
  | .sent s1 => .next s1
  | .hold s1 => .next s1

/-- WRITE_WITH_IMMEDIATE (R302): the write, then, when it is performed, the hand-over. -/
def execWriteWithImmediate (d port t : Nat) (addr : Word) (data : List Byte) (imm : W32) (s : State) : Out :=
  match s.hostWrite d port t addr data (some imm) with
  | .ok _ s1 => .next ((s1.answer d (.rdmaOk t)).intake d t port imm)
  | .refused => .next (s.answer d (.rdmaError t))
  | .sent s1 => .next s1
  | .hold s1 => .next s1

/-! Tenants (R299). -/

/-- A tenant as it is created (R218, R236, R264). -/
def newTenant (cfg : TenantCfg) : Tenant :=
  { cfg := cfg, wslots := [], lowerActive := true, recovery := none, seq := 0, ring := [], pages := [], mark := 0 }

/-- Is a configuration one that R299 describes, its ranges apart from those of the other tenants (log entry 23)? -/
def Die.configOk (x : Die) (t : Nat) (cfg : TenantCfg) : Bool :=
  let apart (a1 a2 b1 b2 : Nat) : Bool := a1 ≥ a2 || b1 ≥ b2 || a2 ≤ b1 || b2 ≤ a1
  t ≤ 7 && cfg.schedSize % 2 == 0 && cfg.schedFirst + cfg.schedSize ≤ 4096 && 64 ≤ cfg.poolFirst && cfg.poolLast ≤ 65535
    && cfg.slotFirst + cfg.slotCount ≤ 2048 && cfg.qps.length ≤ 64 && cfg.qps.all (fun q => q.2 ≤ 1)
    && 4 ≤ cfg.ringLog && cfg.ringLog ≤ 20
    && x.tenants.all (fun u => u.1 == t ||
        (apart cfg.schedFirst (cfg.schedFirst + cfg.schedSize) u.2.cfg.schedFirst (u.2.cfg.schedFirst + u.2.cfg.schedSize)
          && apart cfg.poolFirst (cfg.poolLast + 1) u.2.cfg.poolFirst (u.2.cfg.poolLast + 1)
          && apart cfg.slotFirst (cfg.slotFirst + cfg.slotCount) u.2.cfg.slotFirst (u.2.cfg.slotFirst + u.2.cfg.slotCount)))

/-- The live gangs of a tenant. -/
def Die.gangsOf (x : Die) (t : Nat) : List (Nat × Gang) := x.gangs.filter (fun g => g.2.tenant == t)

/-- Does an agent id name a context of one of some gangs, or an engine of one? -/
def namesGang (gangs : List (Nat × Gang)) (a : Nat) : Bool := agentClass a ≤ 2 && gangs.any (fun g => g.1 == agentSlot a)

/-- Would a configuration cut off state in use: clamps, pool entries, slots or schedule entries that a live gang or an armed entry
of the tenant holds (R299)? -/
def Die.cutsOff (x : Die) (t : Nat) (te : Tenant) (cfg : TenantCfg) : Bool :=
  let gangs := x.gangsOf t
  let armed := x.sched.filter (fun e => hasEntry te.cfg e.1 && e.2.state == .armed)
  let lost (c : Nat) : Bool := te.cfg.clamps.getLsbD (c / 4) && !cfg.clamps.getLsbD (c / 4)
  gangs.any (fun g => g.2.cores.any lost || !hasEntry cfg g.2.entry)
    || armed.any (fun e => e.2.cores.any lost || !hasEntry cfg e.1)
    || x.brands.any (fun b => 64 ≤ b.1 && b.2.state != .free && b.2.tenant == t && !(cfg.poolFirst ≤ b.1 && b.1 ≤ cfg.poolLast)
        && (namesGang gangs b.2.title || namesGang gangs b.2.cur || x.shares.any (fun r => r.idx == b.1 && namesGang gangs r.agent)))
    || (gangs != [] && x.slots.any (fun q => q.2.bound && q.2.tenant == t && !(cfg.slotFirst ≤ q.1 && q.1 < cfg.slotFirst + cfg.slotCount)))

/-- A configuration change is refused with an error record (R299, R306). -/
def State.refuseConfig (s : State) (d t : Nat) : State := (s.errRecord d 0 Config.refusedCause 0 t 0xFF 0).answer d .refused

/-- TENANT_CONFIGURE (R299, R264, R266). -/
def execTenantConfigure (d t : Nat) (cfg : TenantCfg) (s : State) : Out :=
  let x := s.die d
  if !x.configOk t cfg then .next (s.refuseConfig d t)
  else
    match s.tenant d t with
    | none =>
      .next ((s.setTenant d t (newTenant cfg)).modDie d (fun x =>
        { x with slots := x.slots.filter (fun q => !(cfg.slotFirst ≤ q.1 && q.1 < cfg.slotFirst + cfg.slotCount)) }))
    | some te =>
      if x.cutsOff t te cfg then .next (s.refuseConfig d t)
      else
        let moved := te.cfg.schedFirst != cfg.schedFirst || te.cfg.schedSize != cfg.schedSize
        .next (s.setTenant d t { te with cfg := cfg, lowerActive := te.lowerActive || moved,
                                         recovery := if moved then none else te.recovery })

/-- TENANT_REMOVE (R299): a tenant without a live gang goes; its armed entries are EMPTY. -/
def execTenantRemove (d t : Nat) (s : State) : Out :=
  match s.tenant d t with
  | none => .next (s.refuseConfig d t)
  | some te =>
    if (s.die d).gangsOf t ≠ [] then .next (s.refuseConfig d t)
    else
      .next (s.modDie d (fun x =>
        { x with tenants := Tab.erase x.tenants t,
                 sched := x.sched.map (fun e =>
                   if hasEntry te.cfg e.1 && e.2.state == .armed then (e.1, { e.2 with state := .empty, due := false }) else e) }))

/-! Management (R306 to R309). -/

/-- The contents of an attestation report (R307). -/
def State.reportParts (s : State) (d : Nat) (nonce : List Byte) : List (List Byte) :=
  let x := s.die d
  [nonce, leBytes 2 d] ++ x.fwDigests ++ [leBytes 8 x.fwVersion.toNat] ++ x.tenants.map (fun t => sha256 (Config.configLayout t.2.cfg))
    ++ [leBytes 8 x.tick]

/-- ATTESTATION (R307): a report with the nonce, signed with the identity key. -/
def execAttestation (d : Nat) (nonce : List Byte) (s : State) : Out :=
  let report := Config.reportLayout (s.reportParts d nonce)
  .next (s.answer d (if nonce.length = 32 then .report report (Config.identitySign d (sha256 report)) else .refused))

/-- The residue of a scalar register is made wrong (R308; log entry 25). -/
def Strand.spoil (z : Strand) (r : Reg) : Strand :=
  let v := z.sreg r
  z.setSReg r { v with lo := (v.lo + 1) % 15 }

/-- ERROR_INJECTION (R308): only into a tenant whose INJECT is 1, on a core that runs for it. -/
def execErrorInjection (d t c : Nat) (kind : InjectKind) (s : State) : Out :=
  let allowed := match s.tenant d t with
    | some te => te.cfg.inject
    | none => false
  let holds := match s.ctx d c with
    | some (_, _, g) => g.tenant == t
    | none => false
  let agent := s.coreAgent d c
  if !allowed then .next (s.answer d .refused)
  else
    match kind with
    | .flip byte bit =>
      .next (if bit < 8 ∧ c < 64 then
          s.modDie d (fun x => { x with injections := x.injections ++ [{ tenant := t, core := c, byte := byte, bit := bit }] })
        else s.answer d .refused)
    | .resid k r =>
      .next (if holds = true ∧ k < 4 ∧ r < 32 then (s.modStrand ⟨d, c, k⟩ (fun z => z.spoil (Fin.ofNat 32 r))).injected d t agent 0 1 c [k, r]
        else s.answer d .refused)
    | .stall n =>
      .next (if holds = true ∧ 1 ≤ n ∧ n ≤ 65535 then
          (s.modCore d c (fun y => { y with issueFrom := max y.issueFrom (s.cyc d c + n) })).injected d t agent 0 2 c [n]
        else s.answer d .refused)

/-- ERROR_LOG_READ (R306): records of the die's log, from the first one asked for, oldest first. -/
def execErrorLogRead (d first count : Nat) (s : State) : Out :=
  .next (s.answer d (.log (slice (s.die d).errlog.reverse first count)))

/-- TELEMETRY_READ (R309): temperature, power and clock step of each island; the first two are readings (log entry 4). -/
def execTelemetryRead (d : Nat) (s : State) : Out :=
  let vals := (List.range 32).map (fun i =>
    (i, Config.sensor d (1000 + i) s.freeCount, Config.sensor d (2000 + i) s.freeCount, 125 * Tab.get (s.die d).islands i 8))
  .next ({ s with freeCount := s.freeCount + 1 }.answer d (.telemetry vals))

end Sys2Proof.Machine
end

