-- ==== Sys2Proof/Machine/Pod.lean ====
section
/-!
DEFINITION. The pod and the board: time exchange and slews (R239, R240), pod formation (R238, R241), ports that fail and are
restored (R243), aborts (R263), the firmware chain (R307), throttling and protection (R55, R56), the reset of a die (R27).
-/
namespace Sys2Proof.Machine

/-! Pod time (R238 to R241). -/

/-- The stamps of a finished exchange of a die with its parent (R239). -/
def State.stamps (s : State) (d : Nat) : Option (Int × Int × Int × Int) :=
  match Tab.find s.pod.parents d with
  | none => none
  | some p =>
    let e := (s.port d p).exch
    match e.t1, e.t2, e.t3, e.t4 with
    | some a, some b, some c, some f => some (a, b, c, f)
    | _, _, _, _ => none

/-- TIME_EXCHANGE (R239, R240): from the four stamps of an exchange the child computes the delay and its offset from its parent, both in half
ticks; an offset of more than 4 ticks is a time fault. -/
def execTimeExchange (d : Nat) (t1 t2 t3 t4 : Int) (s : State) : Out :=
  match Tab.find s.pod.parents d with
  | none => .next s
  | some p =>
    if s.stamps d ≠ some (t1, t2, t3, t4) then .next s
    else
      let half := (t2 - t1) - (t4 - t3)
      let s1 := (s.setPort d p { s.port d p with exch := Exchange.none }).modDie d (fun x =>
        { x with delay := (t2 - t1) + (t4 - t3), slewLeft := half })
      if half.natAbs ≤ 8 then .next s1
      else
        let locked := (s.die d).lockedOp
        let s2 := s1.errRecord d (if locked then 2 else 0) 0x60 0 0xFF p 0
        .next (if locked then s2.originate d .timeFault 0 [] else s2)

/-- SLEW (R239): one tick is added, or the next one withheld, at most once in 4,096 ticks, until the offset is gone. -/
def execSlew (d : Nat) (s : State) : Out :=
  let x := s.die d
  if x.slewLeft.natAbs < 2 ∨ x.tick < x.slewNext ∨ x.withhold = true then .next s
  else if 0 < x.slewLeft then
    .next (s.setDie d { x.flushEvents with tick := x.tick + 1, slewLeft := x.slewLeft - 2, slewNext := x.tick + 4097 })
  else .next (s.setDie d { x with withhold := true, slewLeft := x.slewLeft + 2, slewNext := x.tick + 4096 })

/-- Does a die hold nothing that pod time drives: no live gang, no engine ARMED or RUNNING? -/
def Die.idle (x : Die) : Bool := x.gangs == [] && x.ports.all (fun p => p.2.state != .armed && p.2.state != .running)

/-- The port that faces a port across a cable, by direction (R18): +x faces -x, and so on; a chord faces a chord. -/
def facing (p q : Nat) : Bool :=
  if p = 8 then q == 8 else if p = 6 ∨ p = 7 then q == 6 || q == 7 else q == (if p % 2 = 0 then p + 1 else p - 1)

/-- Is a hop time one of R199 for a port: the die-to-die link, or an external port with a cable of one of three classes? -/
def hopOk (p hop : Nat) : Bool := if p = 8 then hop == 40 else hop == 120 || hop == 130 || hop == 150

/-- Are the cables of a configuration those of a pod: between ports of its members that face each other, the same at both ends (R2, R18,
R199)? -/
def podCabled (cfg : PodCfg) : Bool :=
  cfg.cables.all (fun e =>
    let d := e.1 / 16
    let p := e.1 % 16
    let k := e.2
    p ≤ 8 && cfg.members.contains d && k.farDie != d && cfg.members.contains k.farDie && facing p k.farPort && hopOk p k.hop
      && Tab.find cfg.cables (16 * k.farDie + k.farPort) == some { farDie := d, farPort := p, hop := k.hop })

/-- The die at the far end of a port, by a configuration. -/
def podFar (cfg : PodCfg) (d p : Nat) : Option Nat := (Tab.find cfg.cables (16 * d + p)).map (fun k => k.farDie)

/-- Is it a torus in x, y and z (R2): a direction is cabled, both ways, at every die or at none, so that each line of dies closes, and two ways
of two ports each from a die lead to one die? -/
def podTorus (cfg : PodCfg) : Bool :=
  let has (d p : Nat) : Bool := (podFar cfg d p).isSome
  [0, 2, 4].all (fun p => cfg.members.all (fun d => has d p && has d (p + 1)) || cfg.members.all (fun d => !has d p && !has d (p + 1)))
    && cfg.members.all (fun d => [0, 2, 4].all (fun p => [0, 2, 4].all (fun q =>
      (podFar cfg d p).bind (fun n => podFar cfg n q) == (podFar cfg d q).bind (fun n => podFar cfg n p))))

/-- Does the way by parent ports from a die lead to the root; the count bounds it (R239)? -/
def podToRoot (cfg : PodCfg) : Nat → Nat → Bool
  | 0, d => d == cfg.root
  | n + 1, d => d == cfg.root || (((Tab.find cfg.parents d).bind (podFar cfg d)).any (fun m => podToRoot cfg n m))

/-- Is a configuration one of a pod: up to 4,096 dies numbered 0 to 4,095, cabled as a torus, with a time tree to its root (R2, R9, R18,
R199, R239)? -/
def podOk (cfg : PodCfg) : Bool :=
  cfg.members.all (fun d => d < 4096) && decide cfg.members.Nodup && cfg.members.contains cfg.root && podCabled cfg && podTorus cfg
    && cfg.members.all (fun d => podToRoot cfg cfg.members.length d)

/-- A die as pod formation leaves it: its count starts at 0, its ports work with a read delay of 32, its side table of compression metadata
stands where the configuration says (R186, R238, R241, R244). -/
def Die.formed (x : Die) (side : Nat) : Die :=
  { x with tick := 0, delay := 0, slewLeft := 0, slewNext := 0, withhold := false, stepEnd := none, aborts := [], abortIn := [],
           abortBy := [], islandHalt := [], lag := [], stackBusy := [], asks := [], sideBase := side,
           cores := x.cores.map (fun c => (c.1, { c.2 with issueFrom := 0 })),
           ports := x.ports.map (fun p =>
             (p.1, { p.2 with occ := 32, skew := 0, skewOut := 0, recentreAt := none, crcFails := 0, line := [], failed := false,
                              silent := none, idleFrom := 0, used := (0, 0), abortOut := [], exch := Exchange.none, ahead := 0 })) }

/-- POD_FORMATION (R9, R238, R241): before any launch, the configuration forms the pod and every member's count starts. -/
def execPodFormation (cfg : PodCfg) (s : State) : Out :=
  whenever (!s.launched && podOk cfg && s.dies.all (fun x => x.2.idle)) s
    ({ s with pod := cfg, formed := true, flits := [], opens := [], brandMsgs := [] }.each cfg.members (fun s d =>
      s.modDie d (fun x => x.formed (Tab.get cfg.sideTables d 0))))

/-! Ports and aborts (R243, R263). -/

/-- PORT_FAILURE (R243, R263, R265): a port is declared failed. The tick raises it for a port that has received no symbol for 64 ticks, whose
read delay is outside its limits, or at which four flits have failed; from outside it is the line that has given no symbol for so long. -/
def execPortFailure (d p : Nat) (s : State) : Out := whenever (s.cable d p).isSome s (s.declarePort d p)

/-- PORT_RESTORE (R243, R244): the pod configuration restores a failed port; its read delay is 32 again, and the far port receives symbols. It
receives none itself while the far port is failed or the far die stands still. -/
def execPortRestore (d p : Nat) (s : State) : Out :=
  let q := s.port d p
  match s.cable d p with
  | none => .next s
  | some k =>
    let skew : Int := (s.now d : Int) - (s.now k.farDie : Int)
    let f := s.port k.farDie k.farPort
    let far := s.die k.farDie
    let quiet := f.failed || far.dead || far.inReset
    let s1 := s.setPort d p { q with failed := false, silent := if quiet then some (s.now d) else none, occ := 32, skew := skew,
                                     recentreAt := none, crcFails := 0, line := [] }
    whenever q.failed s (s1.setPort k.farDie k.farPort { s1.port k.farDie k.farPort with skewOut := skew, silent := none })

/-- ABORT_FLIT (R263): the first abort that has reached a port is met; one that the die originates itself is met here too. -/
def execAbortFlit (d p : Nat) (s : State) : Out :=
  let x := s.die d
  match x.abortIn.find? (fun a => a.1 == p && a.2.1 ≤ x.tick) with
  | none => .next s
  | some a => .next ((s.setDie d { x with abortIn := x.abortIn.erase a }).meetAbort d a.2.2)

/-! Firmware and reset (R27, R307). -/

/-- Does a firmware image verify: its key is the vendor root's, its signature is over its version and its contents (log entry 5)? -/
def FwImage.verifies (i : Sys2Proof.FwImage) : Bool :=
  sha256 (leBytes 384 i.modulus) == Config.vendorRootDigest && rsaVerify i.modulus i.sig (leBytes 8 i.version ++ i.body)

/-- FIRMWARE_BOOT (R307): a die in reset starts with firmware that verifies and is not older than the fused counter. -/
def execFirmwareBoot (d : Nat) (mgmt engine : Sys2Proof.FwImage) (s : State) : Out :=
  let x := s.die d
  if !x.inReset then .next s
  else if FwImage.verifies mgmt && FwImage.verifies engine && x.fused.toNat ≤ mgmt.version && x.fused.toNat ≤ engine.version then
    .next (s.setDie d { x with inReset := false, fwVersion := BitVec.ofNat 64 (min mgmt.version engine.version),
                               fwDigests := [sha256 mgmt.body, sha256 engine.body] })
  else .next (s.errRecord d 3 0x62 0 0xFF 0xFF 0)

/-- The far ends of a die's links receive no valid symbol from now on (R27, R243). -/
def State.silence (s : State) (d : Nat) : State :=
  s.each (List.range 9) (fun s p =>
    match s.cable d p with
    | none => s
    | some k =>
      let f := s.port k.farDie k.farPort
      if f.failed || f.silent.isSome then s else s.setPort k.farDie k.farPort { f with silent := some (s.now k.farDie) })

/-- A die after its reset: its memory arrays, its count and its fuses stand, everything else is as at reset, and it waits for its
firmware (R27, R307; log entry 26). -/
def Die.afterReset (x : Die) : Die :=
  { Die.reset with tick := x.tick, hbm := x.hbm, sideBase := x.sideBase, fused := x.fused, inReset := true }

/-- DIE_RESET (R27): one die is reset, or declared failed and then stands still; its neighbours see their links fail. -/
def execDieReset (d : Nat) (failed : Bool) (s : State) : Out :=
  .next ((s.modDie d (fun x => if failed then { x with dead := true } else x.afterReset)).silence d)

/-! Islands (R55, R56, R309). -/

/-- The clamp islands of a gang. -/
def Gang.islands (g : Gang) : List Nat := sortOnce (g.cores.map (fun c => c / 4))

/-- Islands joined to a set through gangs, so many links deep. -/
def joined (gangs : List Gang) : Nat → List Nat → List Nat
  | 0, l => l
  | n + 1, l =>
    joined gangs n (sortOnce (l ++ (gangs.filter (fun g => g.islands.any l.contains)).flatMap Gang.islands))

/-- The set of islands that move with one (R55). -/
def Die.islandSet (x : Die) (i : Nat) : List Nat := joined (x.gangs.map Prod.snd) 16 [i]

/-- The clock step of a set of islands, in eighths of 1.0 GHz: the lowest that any of them demands, and 1.0 GHz while a Locked-mode
gang is among them, or, for an island that all gangs of the die share, while the die has one (R5, R55, R56). -/
def Die.stepOf (x : Die) (set : List Nat) : Nat :=
  if x.gangs.any (fun g => g.2.locked && (set.any (fun i => 16 ≤ i) || g.2.islands.any set.contains)) then 8
  else (set.map (fun i => Tab.get x.demand i 8)).foldl min 8

/-- THROTTLE_STEP (R55, R56): an island demands a clock step; its set takes the lowest demanded and halts for 500 ticks when that
changes it. -/
def execThrottleStep (d island eighths : Nat) (s : State) : Out :=
  let x := s.die d
  if eighths < 4 ∨ 8 < eighths ∨ 32 ≤ island then .next s
  else
    let x1 : Die := { x with demand := Tab.set x.demand island eighths }
    let set := x1.islandSet island
    let want := x1.stepOf set
    let x2 : Die :=
      if set.all (fun i => Tab.get x1.islands i 8 == want) then x1
      else
        { x1 with islands := set.foldl (fun t i => Tab.set t i want) x1.islands,
                  islandHalt := set.foldl (fun t i => Tab.set t i (x.tick + 500)) x1.islandHalt }
    .next (s.setDie d x2)

/-- THERMAL_PROTECTION (R56): a protection demand during a Locked-mode launch is a timing fault, before any island leaves
1.0 GHz. -/
def execThermalProtection (d island : Nat) (s : State) : Out :=
  let x := s.die d
  whenever (island < 32 && x.gangs.any (fun g => g.2.locked)) s (s.originate d .timingLate 0 [])

end Sys2Proof.Machine
end

