-- ==== Sys2Proof/Machine/Preempt.lean ====
section
/-!
DEFINITION. Pre-emption (R293 to R298): the halt, the wait until the engines are quiet, the save records, and the return of a
pre-empted gang.
-/
namespace Sys2Proof.Machine

/-- PREEMPT_HALT (R294): the stop has reached the cores; every strand stands at a boundary. -/
def execPreemptHalt (d slot : Nat) (s : State) : Out :=
  match s.gang d slot with
  | none => .next s
  | some g =>
    match g.phase with
    | .halting by_ due => whenever (due ≤ s.now d) s (s.setGang d slot { g with phase := .halted by_, haltTick := s.now d })
    | _ => .next s

/-! Quiet engines (R295). -/

/-- Has a copy no chunk on its way? -/
def Cmd.atBoundary (m : Cmd) : Bool :=
  match m.body with
  | .copy j => j.phase != .remote
  | _ => true

/-- Is a collective admitted? -/
def Cmd.isAdmitted (m : Cmd) : Bool :=
  match m.body with
  | .coll _ _ admitted => admitted
  | _ => false

/-- Is a sampler command held back by what the save keeps: an incomplete command of the copy, matrix or collective queue whose range it
meets, a held push, or a full set of records (R191, R278, R291, R295; log entry 21)? -/
def State.samplerKept (s : State) (d c : Nat) (m : Cmd) : Bool :=
  let y := s.core d c
  m.isQueued && (y.samplerQ.any (fun n => n.id ≤ m.id && n.isQueued &&
      (!s.rangeFree d c n || y.brandQ.any (fun b => b.id < n.id && b.isPushing)))
    || (y.records.drop 16).any (fun r => r.queue == 3))

/-- Has everything ended on a core that R295 lets end before a save? -/
def State.coreQuiet (s : State) (d c : Nat) : Bool :=
  let y := s.core d c
  y.samplerQ.all (fun m => m.isPushing || s.samplerKept d c m) && y.brandQ.all (fun m => m.isQueued || m.isPushing) && y.copyQ.all Cmd.atBoundary
    && y.matrixQ.all (fun m => m.isQueued || m.isPushing) && y.collQ.all (fun m => !m.isAdmitted || m.isPushing)
    && y.drainQ.all Cmd.isPushing && y.retiring == [] && y.vstores == [] && y.opq.all (fun q => q.2.all (fun e => e.present))

/-- The cores that a gang still holds, by rank. -/
def State.heldCores (s : State) (d slot : Nat) (g : Gang) : List Nat :=
  g.cores.filter (fun c => match (s.core d c).ctx with
    | some (sl, _) => sl == slot
    | none => false)

/-- May the save of a gang begin: every core is quiet, no core holds a lease, no batch and no NSEND is on its way (R295, R364)? -/
def State.gangQuiet (s : State) (d slot : Nat) (g : Gang) : Bool :=
  g.batches == 0 && g.cores.all (fun c => (s.core d c).arriving == []) && (s.heldCores d slot g).all (fun c =>
    s.coreQuiet d c && ((s.die d).clamp (c / 4)).holder != some c)

/-! Save records (R296). -/

/-- The save record of a context. -/
def saveBase (te : Tenant) (slot rank : Nat) : Nat := te.cfg.saveArea + (64 * slot + rank) * 0x800000

/-- Are some 64 KiB pages from va mapped, pinned, and writable when asked, on die d (R296, R298)? -/
def pagesPinned (x : Die) (d t : Nat) (write : Bool) (va n : Nat) : Bool :=
  vaDie va == d && vaTranslated va && (List.range n).all (fun i =>
    match walk x t (vaLow va + 65536 * i) write with
    | .leaf e => e.pin
    | _ => false)

/-- A vector as 4 KiB. -/
def vecBytes (v : List W32) : List Byte := v.flatMap (fun w => leBytes 4 w.toNat)

/-- Bytes cut or filled with zeros to a size. -/
def fitBytes (n : Nat) (l : List Byte) : List Byte := (l ++ List.replicate (n - l.length) 0#8).take n

/-- A part whose contents the spec gives and whose inner layout it does not: n bytes formed from its contents (R296; log entry 21). -/
def layoutPart {α : Type} (part n : Nat) (contents : α) : List Byte := fitBytes n (Config.saveLayout part contents)

/-- The special registers that are strand state: all that RDS reads but %qstat and %imcode, which describe the core (R107). -/
def strandSpecials : List RdReg :=
  [.strand, .core, .clamp, .group, .die, .physcore, .args, .seed, .mode, .tenant, .importTab, .flags, .cnt, .status, .vrot, .prot, .vbase,
   .vsize, .pbase, .trapvec, .trapcause, .trappc, .trapinfo, .trapsave, .cycle, .tick, .steptick]

/-- The contents of the strand state of a record: the program counter, s1 to s31, the special registers, the pending VFLAG results, the segment
with its cycle count, its signature and its void flag, and the pending engine records (R296). -/
def State.strandContents (s : State) (p : At) :
    Nat × List Nat × List Nat × List PendFlag × (Nat × Nat × Nat × Bool) × List EngRec :=
  let z := s.strand p
  (z.pc.toNat, (List.range 31).map (fun i => (z.reg (Fin.ofNat 32 (i + 1))).toNat), strandSpecials.map (s.special p), z.vflags,
   (z.segCount, z.segStart, z.sig.toNat, z.void), (s.core p.d p.c).records.filter (fun r => r.strand == p.k))

/-- The contents of the core state of a record (R296): sparks with held pushes, formats, the matrix and the copy queue, the CRC chain, the
pending lease request, the checksum counters, the open atomic requests, the posted receives, and the counts of the operand and store
queues, for which the layout of the queue contents has no place. -/
def coreContents (y : Core) : (Tab Nat × List HeldPush × List Word) × (List Cmd × List Cmd) × (Nat × Nat × Bool) × Option Nat ×
    (Nat × Nat × Option Nat) × List Cmd × List NRecv × List Nat :=
  ((y.sparks, y.held, y.fmtq), (y.matrixQ, y.copyQ), (y.crcR.toNat, y.crcW.toNat, y.crcValid), y.leaseReq, (y.mism, y.voids, y.firstRow),
   y.otherQ, y.nrecvs,
   (List.range 4).map (fun q => (Tab.get y.opq q []).length) ++ (List.range 2).map (fun w => (Tab.get y.stq w []).length))

/-- The contents of the head of a record (R296): the cause, the parts that are present, the tick of the halt, the image of the brand entry
and the states of the pages. -/
def headContents (y : Core) (halt : Nat) (entry : Brand) (planes withSpad : Bool) : Nat × (Bool × Bool) × Nat × List Byte × List Page :=
  (Cause.preempt.code, (planes, withSpad), halt, entry.bytes, (List.range 64).map y.page)

/-- The parts of a core's save record in the order of R296: offset and bytes. -/
def State.saveParts (s : State) (d c halt : Nat) (planes : Option (Plane × Plane)) (withSpad : Bool) : List (Nat × List Byte) :=
  let y := s.core d c
  let four (l : List (List W32)) : List Byte := ((List.range 4).flatMap (fun i => vecBytes (l.getD i zeroVec)))
  [(0, layoutPart 0 0x1000 (headContents y halt (s.brand d c) planes.isSome withSpad))]
    ++ strandIds.map (fun k => (0x1000 + 0x400 * k, layoutPart 1 0x400 (s.strandContents ⟨d, c, k⟩)))
    ++ [(0x2000, layoutPart 2 0x2000 (coreContents y)),
        (0x4000, (List.range 40).flatMap (fun i => leBytes 128 (Tab.get y.preds i 0).toNat)),
        (0x10000, (List.range 64).flatMap (fun i => vecBytes (y.vreg i))),
        (0x50000, (List.range 128).flatMap (fun i => vecBytes (Tab.get y.acc i (List.replicate 128 0#32))))]
    ++ (if withSpad then [(0x60000, Mem.bytes y.imem 0 imemSize)] else [])
    ++ [(0xA0000, (List.range 4).flatMap (fun q => four ((Tab.get y.opq q []).map (fun e => e.data)))
      ++ (List.range 2).flatMap (fun w => four (Tab.get y.stq w [])))]
    ++ (match planes with
      | some p => [(0x100000, layoutPart 3 0x80000 p)]
      | none => [])
    ++ (if withSpad then [(0x400000, Mem.bytes y.spad 0 spadSize)] else [])

/-- Write the parts of a record; none when a part cannot be written (R298). -/
def writeParts (t base : Nat) : List (Nat × List Byte) → Die → Option Die
  | [], x => some x
  | (off, bs) :: rest, x =>
    match x.write .walker t true (base + off) bs with
    | .ok _ x' => writeParts t base rest x'
    | _ => none

/-- Does a plane's tag name a gang (R174)? -/
def Plane.names (p : Plane) (slot : Nat) : Bool :=
  match p.tag with
  | .own a => a / 64 % 64 == slot && a / 4096 ≤ 2
  | .shared n => n == slot

/-- The planes that go into the records of a gang: those of clamps that pass to the pre-empting entry and hold a plane of the gang
(R174; log entry 70). -/
def Die.planesOf (x : Die) (slot : Nat) (g : Gang) (wanted : List Nat) : List (Nat × Plane × Plane) :=
  (sortOnce ((g.cores.filter wanted.contains).map (fun c => c / 4))).filterMap (fun m =>
    let l := x.clamp m
    if l.active.names slot || l.shadow.names slot then some (m, l.active, l.shadow) else none)

/-- The save of core c, of a rank: its stores are performed, its record is written (R295, R296). None when it cannot be. -/
def State.saveCore (s : State) (d slot : Nat) (g : Gang) (te : Tenant) (wanted clamps : List Nat) (c rank : Nat) :
    Option (State × SavedCore) :=
  let s1 := s.modCore d c Core.releaseAll
  let y := s1.core d c
  let withSpad := wanted.contains c
  let lowest := (s.heldCores d slot g).all (fun n => n / 4 != c / 4 || c ≤ n)
  let base := saveBase te slot rank
  if pagesPinned (s1.die d) d g.tenant true base 128 = false then none
  else
    let m := (s1.die d).clamp (c / 4)
    let planes := if lowest && clamps.contains (c / 4) then some (m.active, m.shadow) else none
    match writeParts g.tenant base (s1.saveParts d c g.haltTick planes withSpad) (s1.die d) with
    | none => none
    | some x =>
      some (s1.setDie d x,
        { core := c, image := y, withSpad := withSpad, entry := none, shares := [] })

/-- The saves of a gang's cores in rank order; the core whose save cannot be written, if any. -/
def State.saveCores (s : State) (d slot : Nat) (g : Gang) (te : Tenant) (wanted clamps : List Nat) :
    List Nat → State × List SavedCore × Option Nat
  | [] => (s, [], none)
  | c :: cs =>
    let rank := match (s.core d c).ctx with
      | some (_, r) => r
      | none => 0
    match s.saveCore d slot g te wanted clamps c rank with
    | none => (s, [], some c)
    | some (s1, sc) =>
      let (s2, rest, bad) := s1.saveCores d slot g te wanted clamps cs
      (s2, sc :: rest, bad)

/-- The tick in which the stacks have given all that is taken of their rates (R192). -/
def Die.givenBy (x : Die) : Nat := (x.stackBusy.map (fun b => b.2 / stackRate)).foldl max x.tick

/-- CONTEXT_SAVE (R296, R298): the engines are quiet and the records are written; a record that cannot be written fails the
gang. -/
def execContextSave (d slot : Nat) (s : State) : Out :=
  match s.gang d slot with
  | none => .next s
  | some g =>
    match g.phase, s.tenant d g.tenant with
    | .halted by_, some te =>
      if !s.gangQuiet d slot g then .next s
      else
        let wanted := (s.sched d by_).cores
        let planes := (s.die d).planesOf slot g wanted
        let (s1, saved, bad) := s.saveCores d slot g te wanted (planes.map (fun p => p.1)) (s.heldCores d slot g)
        (match bad with
          | some c => .next (s1.declareFailed d c 0xFF 0 .copyPage)
          | none =>
            .next (s1.setGang d slot
              { g with phase := .saving by_, loadDone := (s1.die d).givenBy, saved := saved, savedPlanes := planes }))
    | _, _ => .next s

/-- A core whose context is saved: nothing runs on it; its scratchpad stands as it is. -/
def Core.vacated (y : Core) : Core :=
  { Core.reset with spad := y.spad, imem := y.imem, nextCmd := y.nextCmd, issueFrom := y.issueFrom }

/-- SAVE_COMPLETE (R192, R197, R296, R304): when the stacks have taken the records, pending invalidations are acknowledged, the cores are free
for the pre-empting load, the PREEMPTED record goes out. -/
def execSaveComplete (d slot : Nat) (s : State) : Out :=
  match s.gang d slot with
  | none => .next s
  | some g =>
    match g.phase with
    | .saving by_ =>
      if s.now d < g.loadDone then .next s
      else
        let s1 := s.each (g.saved.map (fun sc => sc.core)) (fun s c => s.acknowledge d c)
        let saved := g.saved.map (fun sc => { sc with image := s1.core d sc.core })
        let s2 := s1.each (g.saved.map (fun sc => sc.core)) (fun s c => s.modCore d c Core.vacated)
        .next ((s2.setGang d slot { g with phase := .saved, saved := saved }).event d g.tenant
          { EventRec.blank .preempted with cause := Cause.preempt.code, entry := g.entry, cslot := slot, info := by_ })
    | _ => .next s

/-! Resumption (R293, R297). -/

/-- May a saved gang return: no other live gang holds its cores, and no entry that may pre-empt it waits for them (R293)? -/
def Die.mayResume (x : Die) (slot : Nat) (g : Gang) : Bool :=
  x.gangs.all (fun h => h.1 == slot || h.2.phase == .saved || !(h.2.cores.any g.cores.contains))
    && x.sched.all (fun e => match x.liveEntry e.1 with
      | some (t, _, en) => !(en.due && en.meets g && en.mayPreempt t g)
      | none => true)

/-- Suspended commands are taken up again (R193), and a pending request is posted anew (R174). -/
def Core.retryHeld (y : Core) (now : Nat) : Core :=
  let copy (m : Cmd) : Cmd := match m.body with
    | .copy j => (match j.phase with
      | .suspended _ => { m with body := .copy { j with phase := .held } }
      | _ => m)
    | _ => m
  let fetch (m : Cmd) : Cmd := match m.body with
    | .mldw ad fw hbm (some _) done next tile => { m with body := .mldw ad fw hbm none done next tile }
    | _ => m
  { y with copyQ := y.copyQ.map copy, matrixQ := y.matrixQ.map fetch, leaseReq := y.leaseReq.map (fun _ => now) }

/-- The registers of a strand with residues formed anew from their values (R105). -/
def Strand.reformed (z : Strand) : Strand := { z with regs := z.regs.map (fun r => (r.1, SReg.of r.2.val)) }

/-- A core is restored from its save: its scratchpad too when the save holds it, and entry p with its generation advanced; the
residues of its scalar registers are formed anew (R105). -/
def State.restoreCore (s : State) (d : Nat) (sc : SavedCore) : State :=
  let c := sc.core
  let cur := s.core d c
  let z := sc.image.retryHeld (s.cyc d c)
  let y : Core := { z with strands := z.strands.map (fun e => (e.1, e.2.reformed)) }
  let y1 : Core := if sc.withSpad then y else { y with spad := cur.spad, imem := cur.imem }
  let s1 := s.setCore d c { y1 with nextCmd := max y.nextCmd cur.nextCmd, issueFrom := cur.issueFrom }
  if sc.withSpad then
    s1.modDie d (fun x => match sc.entry with
      | some e => { x.changeBrand c e with shares := x.shares.filter (fun r => r.idx != c) ++ sc.shares }
      | none => x.changeBrand c (x.brand c))
  else s1

/-- RESUME (R293, R297, R298): a saved gang whose cores are free is restored and goes on at its saved boundaries. -/
def execResume (d slot : Nat) (s : State) : Out :=
  match s.gang d slot with
  | none => .next s
  | some g =>
    match s.tenant d g.tenant with
    | none => .next s
    | some te =>
      if g.phase ≠ .saved ∨ (s.die d).mayResume slot g = false then .next s
      else
        let s1 := g.saved.foldl (fun s sc => s.restoreCore d sc) s
        let s2 := s1.modDie d (fun x => { x with clamps := g.savedPlanes.foldl (fun t p =>
          Tab.set t p.1 { Tab.get t p.1 Clamp.reset with active := p.2.1, shadow := p.2.2 }) x.clamps })
        let issued := g.saved.any (fun sc => strandIds.any (fun k => (sc.image.strand k).running))
        let s3 := s2.setGang d slot { g with phase := if issued then .running else .loaded, saved := [], savedPlanes := [] }
        let rank (sc : SavedCore) : Nat := match sc.image.ctx with
          | some (_, r) => r
          | none => 0
        let bad := g.saved.find? (fun sc => !pagesPinned (s.die d) d g.tenant false (saveBase te slot (rank sc)) 128)
        .next (match bad with
          | some sc => s3.declareFailed d sc.core 0xFF 0 .copyPage
          | none =>
            ((s3.modDie d (fun x => x.takeUses (g.saved.flatMap (fun sc =>
              x.rangeUses g.tenant false (saveBase te slot (rank sc)) (if sc.withSpad then 0x800000 else 0x180000))))).keptPushes d slot g).event d
              g.tenant
              { EventRec.blank .resumed with cause := Cause.preempt.code, entry := g.entry, cslot := slot,
                                             progress := s.now d - g.haltTick })

end Sys2Proof.Machine
end

