-- ==== Sys2Proof/Machine/Spad.lean ====
section
/-!
DEFINITION. The scratchpad port: LD (R349), ST (R374), NSEND and NRECV (R195, R364), and the arrival of neighbour data.
-/
namespace Sys2Proof.Machine

/-- LD (R349): natural alignment, rights, forwarding, XRACE. -/
def execLd (sz : LdSize) (d a : Reg) (imm : BitVec 20) (s : State) : Out :=
  issue (.ld sz d a imm) { uses := [d, a], checked := [a] } s (fun p t =>
    match t.reach p .read (addrSum (t.reg p a) (sext imm)) sz.bytes sz.bytes with
    | .ends e => e
    | .at_ off =>
      let y := t.core p.d p.c
      let v := sz.extend (ofLeBytes (strandBytes y p.k off sz.bytes))
      if y.meetsStore p.k off sz.bytes then .stay
      else
        .done ((t.orStatus p (stIf (y.races p.k off sz.bytes) stXrace)).setReg p d v) (t.seq p (.ld sz d a imm)))

/-- ST (R374): it waits for incomplete commands of the core over its bytes, and enters the forwarding table. -/
def execSt (sz : StSize) (a b : Reg) (imm : BitVec 20) (s : State) : Out :=
  issue (.st sz a b imm) { uses := [a, b], checked := [a, b] } s (fun p t =>
    let ad := addrSum (t.reg p a) (sext imm)
    match t.reach p .write ad sz.bytes sz.bytes with
    | .ends e => e
    | .at_ off =>
      if (t.core p.d p.c).storeHeld p.d p.c off sz.bytes || (t.core p.d p.c).meetsStore p.k off sz.bytes then .stay
      else
        .done (t.modCore p.d p.c (fun y => y.enterStore p.k off (leBytes sz.bytes (t.reg p b).toNat))) (t.seq p (.st sz a b imm)))

/-- The physical core that `%core` number n of a core's clamp and gang names, other than the core itself (R364). -/
def State.neighbour (s : State) (p : At) (n : Nat) : Option Nat :=
  match s.ctx p.d p.c with
  | none => none
  | some (_, _, g) =>
    (g.cores.filter (fun c => c / 4 == p.c / 4 && c != p.c)).find? (fun c => (logicalIds g.cores c).2.2 == n)

/-- The checks that NSEND and NRECV share (R364, R290): the other core and the offset, or how it ends. -/
def neighbourReach (p : At) (t : State) (acc : Access) (a b : Word) (len : Nat) : Reached × Nat :=
  match (if b.toNat ≤ 3 then t.neighbour p b.toNat else none) with
  | none => (.ends (.trap .reservedField 0 none), 0)
  | some other => (t.reach p acc a.toNat len 256, other)

/-- NSEND (R364): a snapshot of the range leaves for the neighbour. -/
def execNsend (a b : Reg) (len : BitVec 32) (sp : Spark) (s : State) : Out :=
  issue (.nsend a b len sp) { uses := [a, b], checked := [a, b], sp := sp, pushes := false, release := true } s (fun p t =>
    match neighbourReach p t .read (t.reg p a) (t.reg p b) len.toNat with
    | (.ends e, _) => e
    | (.at_ off, other) =>
      let job : NSendJob :=
        { fromCore := p.c, strand := p.k, cpc := (t.strand p).pc.toNat, push := pushCh sp,
          data := (t.core p.d p.c).spadBytes off len.toNat, arrives := t.cyc p.d p.c + 12, target := none }
      .done (t.modCore p.d other (fun y => { y with arriving := y.arriving ++ [job] })) (t.seq p (.nsend a b len sp)))

/-- NRECV (R364): one receive is posted for the sender; a second one for it holds the strand. -/
def execNrecv (a b : Reg) (len : BitVec 32) (sp : Spark) (s : State) : Out :=
  issue (.nrecv a b len sp) { uses := [a, b], checked := [a, b], sp := sp, pushes := false, release := (pushCh sp).isSome } s
    (fun p t =>
      match neighbourReach p t .write (t.reg p a) (t.reg p b) len.toNat with
      | (.ends e, _) => e
      | (.at_ off, other) =>
        if (t.core p.d p.c).nrecvs.any (fun r => r.sender == other) then .stay
        else
          let r : NRecv := { sender := other, off := off, len := len.toNat, push := pushCh sp, strand := p.k, taken := false }
          .done (t.modCore p.d p.c (fun y => { y with nrecvs := y.nrecvs ++ [r] })) (t.seq p (.nrecv a b len sp)))

/-- A push of a completed transfer reaches a channel of a core. -/
def State.pushOn (s : State) (d c k : Nat) (ch : Option Nat) : State :=
  match ch with
  | none => s
  | some n => s.modCore d c (fun y => y.push n (s.coreAgent d c) k .outside)

/-- Neighbour data of a job arrives unmatched: it is discarded, and the sender's strand gets a record or, in Locked mode, a timing
fault (R195, R364). -/
def State.strayData (s : State) (d : Nat) (j : NSendJob) : State :=
  if s.locked d j.fromCore then s.timingFault d j.fromCore j.strand j.cpc .timingUnmatched
  else
    s.engRecord d j.fromCore
      { strand := j.strand, cause := .timingUnmatched, progress := 0, cpc := j.cpc, nopush := j.push.isSome, queue := 7, tick := 0, cmd := 0 }

/-- Is it the receive that a send of a core fills? -/
def NRecv.filledBy (r : NRecv) (sender : Nat) : Bool := r.sender == sender && r.taken

/-- 256 bytes of a matched job are written while its receive stands; with the last ones the receive and the send complete and push (R195,
R364). -/
def State.arriveChunk (s : State) (d c : Nat) (j : NSendJob) (off : Nat) (others : List NSendJob) : State :=
  let y := s.core d c
  let r := y.nrecvs.find? (fun r => r.filledBy j.fromCore)
  let y1 := if r.isSome then y.spadWrite off (j.data.take 256) else y
  if j.data.length ≤ 256 then
    let s1 := s.setCore d c { y1 with arriving := others, nrecvs := y1.nrecvs.filter (fun r => !r.filledBy j.fromCore) }
    let s2 := match r with
      | some r => s1.pushOn d c r.strand r.push
      | none => s1
    s2.pushOn d j.fromCore j.strand j.push
  else
    let j' : NSendJob := { j with data := j.data.drop 256, arrives := j.arrives + 1, target := some (off + 256) }
    s.setCore d c { y1 with arriving := j' :: others }

/-- NEIGHBOUR_ARRIVAL (R364): the next chunk that is due at a core arrives; a receive that is being filled is no other one's (log entry
67). -/
def execNeighbourArrival (d c : Nat) (s : State) : Out :=
  let y := s.core d c
  match y.arriving.find? (fun j => j.arrives ≤ s.cyc d c) with
  | none => .next s
  | some j =>
    let others := y.arriving.erase j
    match j.target with
    | some off => .next (s.arriveChunk d c j off others)
    | none =>
      match y.nrecvs.find? (fun r => r.sender == j.fromCore && r.len == j.data.length && !r.taken) with
      | some r =>
        let taken := y.nrecvs.map (fun q => if q.sender = j.fromCore then { q with taken := true } else q)
        .next ((s.setCore d c { y with nrecvs := taken }).arriveChunk d c j r.off others)
      | none => .next ((s.setCore d c { y with arriving := others }).strayData d j)

end Sys2Proof.Machine
end

