-- ==== Sys2Proof/Machine/Undecoded.lean ====
section
/-!
DEFINITION. What a strand or a link engine does when its next words are no instruction: ILLEGAL_OP and ILLEGAL_LEN (R75, R89),
RESERVED_FIELD at decode (R7, R75), FETCH_INVALID (R60, R74).
-/
namespace Sys2Proof.Machine

/-- The cause of a decode fault (R75, R288). -/
def decodeCause : DecodeFault → Cause
  | .illegalLen => .illegalLen
  | .illegalOp => .illegalOp
  | .reservedField => .reservedField

/-- What the next words of a strand decode to, if its fetch finds words. -/
def State.strandWord (s : State) (p : At) : Option (Except DecodeFault Instr) :=
  match (s.core p.d p.c).fetch (s.strand p).fetchAt with
  | .words w0 w1 w2 => some (decodeStrand w0 w1 w2)
  | _ => none

/-- What the next words of a plan stream decode to (R249). -/
def Port.linkWord (q : Port) : Except DecodeFault Instr :=
  let w (i : Nat) : Nat := if q.pc + 4 * i + 4 ≤ 0x8000 then Mem.load q.snapPlan (q.pc + 4 * i) 4 else 0
  decodeLink (w 0) (w 1) (w 2)

/-- The next words of a strand are no instruction: the trap of R75. -/
def State.decodeTrap (s : State) (p : At) (e : DecodeFault) : State := s.takeTrap p (decodeCause e) 0 (s.strand p).pc

/-- ILLEGAL_OP (R75, R89): the words that the acting agent decodes name no instruction of its stream, or none at their length. -/
def execIllegalOp (s : State) : Out :=
  match s.actor with
  | .strand d c k =>
    let p : At := ⟨d, c, k⟩
    (match s.strandWord p with
      | some (.error e) => whenever (s.canIssue p && e != .reservedField) s (s.decodeTrap p e)
      | _ => .next s)
  | .link d p =>
    let q := s.port d p
    (match q.linkWord with
      | .error e => whenever (q.state == .running && e != .reservedField) s (s.linkFault d p (decodeCause e) q.pc)
      | .ok _ => .next s)
  | _ => .fault .noActor

/-- FETCH_INVALID (R60, R74, R287): a word of the acting strand's instruction lies in a FREE page or outside instruction memory;
at %trapvec itself the trap is unhandled. -/
def execFetchInvalid (s : State) : Out :=
  match s.actor with
  | .strand d c k =>
    let p : At := ⟨d, c, k⟩
    let z := s.strand p
    (match (s.core d c).fetch z.fetchAt with
      | .invalid a =>
        whenever (s.canIssue p) s
          (if z.far.isNone ∧ z.pc = z.trapvec then s.declareFailed d c k z.pc.toNat .fetchInvalid
           else s.takeTrap p .fetchInvalid (BitVec.ofNat 64 a) z.pc)
      | _ => .next s)
  | _ => .fault .noActor

end Sys2Proof.Machine
end

