-- ==== Sys2Proof/Machine/VectorMoves.lean ====
section
/-!
DEFINITION. Vector moves, selection and indices (R389), broadcasts (R381), rotations (R391), reductions (R392, R393), flags
(R394), predicate logic and PSET (R365, R366), and VRNG (R402).
-/
namespace Sys2Proof.Machine

/-- VSEL (R389). -/
def execVsel (o : VOp) (b : VReg) (pc : PReg) (s : State) : Out :=
  vectorOp (.vsel o b pc) o [b] [] s noStatus (fun p t a =>
    let y := t.core p.d p.c
    let m := y.pred ((y.strand p.k).pphys pc)
    (a.zip (t.vreg p b)).mapIdx (fun e x => plain (if m.getLsbD e then x.1 else x.2)))

/-- VMOV (R389). -/
def execVmov (o : VOp) (s : State) : Out := vector1 (.vmov o) o s plain

/-- A vector instruction whose operand A is a scalar register of which it uses the low half (R381, R389). -/
def fillOp (i : Instr) (d : VDest) (a : Reg) (zm : Bool) (pred : PredOp) (s : State) (f : W32 → Nat → W32) : Out :=
  issue i { names := d.names, uses := [a], lowChecked := [a], release := !d.isReg } s (fun p t =>
    let y := t.core p.d p.c
    let z := y.strand p.k
    if !(d.room y) then .stay
    else
      let v := mergeVec (predMask y z pred) zm 0 (vecOf (f (low32 (z.reg a)))) (d.old y z)
      .done (t.setCore p.d p.c (d.put y z v)) (t.seq p i))

/-- VBCS (R381). -/
def execVbcs (d : VDest) (a : Reg) (zm : Bool) (pred : PredOp) (s : State) : Out :=
  fillOp (.vbcs d a zm pred) d a zm pred s (fun w _ => w)

/-- What VIOTA counts (R389). -/
def iotaIndex (m : IotaMode) (e : Nat) : Nat :=
  match m with
  | .elem => e
  | .row => rowOf e
  | .col => colOf e

/-- VIOTA (R389). -/
def execViota (ty : VTy) (m : IotaMode) (d : VDest) (a : Reg) (step : BitVec 15) (zm : Bool) (pred : PredOp) (s : State) : Out :=
  fillOp (.viota ty m d a step zm pred) d a zm pred s (fun w e => w + wrap32 (iotaIndex m e * sext step))

/-- A vector instruction that copies, into each element, the element of operand A at an index formed from s[C] + IMM15 (R381,
R391, R431). -/
def permuteOp (i : Instr) (o : VOp) (c : Reg) (imm : BitVec 15) (s : State) (ix : Int → Nat → Nat) : Out :=
  vectorOp i o [] [c] s noStatus (fun p t a =>
    let k := (t.reg p c).toInt + sext imm
    (vecOf (fun e => a.getD (ix k e) 0#32)).map plain)

/-- VROTR (R391). -/
def execVrotr (o : VOp) (c : Reg) (imm : BitVec 15) (s : State) : Out :=
  permuteOp (.vrotr o c imm) o c imm s (fun k e => rowOf e * 64 + ((colOf e + k) % 64).toNat)

/-- VROTC (R391). -/
def execVrotc (o : VOp) (c : Reg) (imm : BitVec 15) (s : State) : Out :=
  permuteOp (.vrotc o c imm) o c imm s (fun k e => ((rowOf e + k) % 16).toNat * 64 + colOf e)

/-- VBCR (R381). -/
def execVbcr (o : VOp) (c : Reg) (imm : BitVec 15) (s : State) : Out :=
  permuteOp (.vbcr o c imm) o c imm s (fun k e => rowOf e * 64 + (k % 64).toNat)

/-- VBCC (R381). -/
def execVbcc (o : VOp) (c : Reg) (imm : BitVec 15) (s : State) : Out :=
  permuteOp (.vbcc o c imm) o c imm s (fun k e => (k % 16).toNat * 64 + colOf e)

/-! Reductions. -/

/-- The identity of a reduction (R393). -/
def identityOf (ty : VTy) (op : RedOp) : W32 :=
  match op, ty with
  | .sum, .f32 => 0x80000000#32
  | .sum, .i32 => 0
  | .sum, .n32 => 0
  | .max, .f32 => 0xFF800000#32
  | .max, .i32 => 0x80000000#32
  | .max, .n32 => 0
  | .min, .f32 => 0x7F800000#32
  | .min, .i32 => 0x7FFFFFFF#32
  | .min, .n32 => 0xFFFFFFFF#32

/-- A reduction over inputs in order (R148, R393). -/
def reduce (ty : VTy) (op : RedOp) (ws : List W32) : Res :=
  match op, ty with
  | .sum, .f32 => treeSum ws
  | .sum, .i32 => plain (ws.foldl (· + ·) 0)
  | .sum, .n32 => plain (ws.foldl (· + ·) 0)
  | .max, _ => plain (ws.foldl (vmax ty) (identityOf ty op))
  | .min, _ => plain (ws.foldl (vmin ty) (identityOf ty op))

/-- Union of the status bits of results. -/
def allStatus (rs : List Res) : Status := rs.foldl (fun s r => s ||| r.2) 0

/-- Cut a list before every element whose flag is set. -/
def cutAt : List (Bool × W32) → List (List W32)
  | [] => []
  | (_, w) :: rest =>
    match rest, cutAt rest with
    | (false, _) :: _, g :: gs => (w :: g) :: gs
    | _, gs => [w] :: gs

/-- Reduce each segment of a row and spread the result over the segment. -/
def reduceRow (ty : VTy) (op : RedOp) (row : List (Bool × W32)) : List Res :=
  (cutAt row).flatMap (fun g => List.replicate g.length (reduce ty op g))

/-- The rows of a list of 1,024 elements. -/
def rowsOf {α : Type} (l : List α) : List (List α) := chunks 64 16 l

/-- A reduction: inactive elements enter as the identity, every element of the destination is written (R393). -/
def reductionOp (i : Instr) (ty : VTy) (op : RedOp) (o : VOp) (s : State) (g : At → State → List W32 → List Res) : Out :=
  issue i { names := o.d.names ++ o.a.names, release := !o.d.isReg } s (fun p t =>
    let y := t.core p.d p.c
    let z := y.strand p.k
    if !(o.a.ready y) || !(o.d.room y) then .stay
    else
      let m := predMask y z o.pred
      let rs := g p t ((o.a.value y z).mapIdx (fun e w => if m.getLsbD e then w else identityOf ty op))
      .done ((t.setCore p.d p.c (o.d.put (o.a.take y) z (rs.map Prod.fst))).orStatus p (allStatus rs)) (t.seq p i))

/-- VREDR (R393). -/
def execVredr (ty : VTy) (op : RedOp) (o : VOp) (s : State) : Out :=
  reductionOp (.vredr ty op o) ty op o s (fun _ _ a => (rowsOf a).flatMap (fun r => List.replicate 64 (reduce ty op r)))

/-- VREDC (R393). -/
def execVredc (ty : VTy) (op : RedOp) (o : VOp) (s : State) : Out :=
  reductionOp (.vredc ty op o) ty op o s (fun _ _ a =>
    let rows := rowsOf a
    let row := (List.range 64).map (fun c => reduce ty op (rows.map (fun r => r.getD c 0#32)))
    (List.replicate 16 row).flatten)

/-- VSEGR (R393). -/
def execVsegr (ty : VTy) (op : RedOp) (o : VOp) (pb : PReg) (s : State) : Out :=
  reductionOp (.vsegr ty op o pb) ty op o s (fun p t a =>
    let y := t.core p.d p.c
    let m := y.pred ((y.strand p.k).pphys pb)
    (rowsOf (a.mapIdx (fun e w => (m.getLsbD e, w)))).flatMap (reduceRow ty op))

/-! Flags and predicates. -/

/-- VFLAG (R394): the results wait for the seventh later issue (R111). -/
def execVflag (pa : PReg) (pred : PredOp) (s : State) : Out :=
  issue (.vflag pa pred) {} s (fun p t =>
    let y := t.core p.d p.c
    let z := y.strand p.k
    let m := predMask y z pred
    let f := vflagResult (popcount 1024 m.toNat) (popcount 1024 (m &&& y.pred (z.pphys pa)).toNat)
    .done (t.modStrand p (fun z => { z with vflags := z.vflags ++ [f] })) (t.seq p (.vflag pa pred)))

/-- The operations of PLOG (R365). -/
def predLogic (op : PLogOp) (a b : BitVec 1024) : BitVec 1024 :=
  match op with
  | .and => a &&& b
  | .or => a ||| b
  | .xor => a ^^^ b
  | .andn => a &&& ~~~b
  | .orn => a ||| ~~~b
  | .nand => ~~~(a &&& b)
  | .nor => ~~~(a ||| b)
  | .xnor => ~~~(a ^^^ b)

/-- PLOG (R365). -/
def execPlog (op : PLogOp) (d a b : PReg) (s : State) : Out :=
  issue (.plog op d a b) {} s (fun p t =>
    let y := t.core p.d p.c
    let z := y.strand p.k
    .done (t.setCore p.d p.c (y.setPred (z.pphys d) (predLogic op (y.pred (z.pphys a)) (y.pred (z.pphys b)))))
      (t.seq p (.plog op d a b)))

/-- Is bit e set by PSET with bound n (R366)? -/
def psetBit (m : PSetMode) (n : Int) (e : Nat) : Bool :=
  match m with
  | .lt => (e : Int) < n
  | .ge => n ≤ (e : Int)
  | .rowlt => (rowOf e : Int) < n
  | .collt => (colOf e : Int) < n

/-- PSET (R366, R431). -/
def execPset (m : PSetMode) (d : PReg) (c : Reg) (imm : BitVec 15) (zm : Bool) (pred : PredOp) (s : State) : Out :=
  issue (.pset m d c imm zm pred) { uses := [c], checked := [c] } s (fun p t =>
    let y := t.core p.d p.c
    let n := min 1024 (max 0 ((t.reg p c).toInt + sext imm))
    .done (t.setCore p.d p.c (y.mergePred (y.strand p.k) d zm pred (packBits ((List.range 1024).map (psetBit m n)))))
      (t.seq p (.pset m d c imm zm pred)))

/-! Random numbers. -/

/-- The four words of a VRNG counter, as bits or as f32 values below 1 (R402). -/
def rngWords (u01 : Bool) (seed n : Word) : List W32 :=
  let q := philoxDraw seed n 0 2
  [q.a, q.b, q.c, q.d].map (fun w => if u01 then (near32 (.num false (w.toNat / 256) 1 (-24))).1 else w)

/-- VRNG (R402). -/
def execVrng (u01 z : Bool) (d : VReg) (a : Reg) (pred : PredOp) (sp : Spark) (s : State) : Out :=
  issue (.vrng u01 z d a pred sp) { names := [d], uses := [a], checked := [a], sp := sp } s (fun p t =>
    let y := t.core p.d p.c
    let st := y.strand p.k
    let base := t.reg p a
    let v := (List.range 256).flatMap (fun i => rngWords u01 (t.seed p.d p.c) (base + BitVec.ofNat 64 i))
    let n := st.vphys d
    .done ((t.setCore p.d p.c (y.setVreg n (mergeVec (predMask y st pred) z 0 v (y.vreg n)))).orStatus p
      (t.drawStatus p base 256)) (t.seq p (.vrng u01 z d a pred sp)))

end Sys2Proof.Machine
end

