-- ==== Sys2Proof/Machine/VectorMemory.lean ====
section
/-!
DEFINITION. Vector memory instructions: VLD, VST, VLDQ, VSTQ (R396 to R398), VGATH and VSCAT (R399), VRAG (R400), VQUANT (R401),
VDEQ (R384) and the filling of an operand queue (R117). All checks are made before any element moves. A load takes its bytes as the
banks stand once every vector store accepted before it is performed; a store reaches the banks after the delay of R395 (log
entry 28).
-/
namespace Sys2Proof.Machine

/-- The base address: s[A] read unsigned, plus the literal (R396, R431). -/
def vbase (t : State) (p : At) (a : Reg) (lit : BitVec 32) : Int := addrSum (t.reg p a) (sext lit)

/-- Offsets of ranges of n bytes at exact addresses, when all lie in the scratchpad (R396). -/
def spadOffsets (n : Nat) : List Int → Option (List Nat)
  | [] => some []
  | a :: as =>
    match strandOffset a n 1, spadOffsets n as with
    | some o, some os => some (o :: os)
    | _, _ => none

/-- Judge ranges of n bytes in address order (R203): the first failure decides. -/
def State.judgeAll (t : State) (p : At) (acc : Access) (n : Nat) : List Nat → Verdict
  | [] => .ok
  | o :: os =>
    match t.judgeStrand p.d p.c acc o n with
    | .ok => t.judgeAll p acc n os
    | v => v

/-- Ranges judged: their offsets in the order given, or how the access ends; %trapinfo is the base address (R289, R396). -/
inductive ReachedAll where
  | at_ (offs : List Nat)
  | ends (a : Act)

/-- Judge the ranges of a vector memory instruction whose base is aligned to some bytes. -/
def State.reachAll (t : State) (p : At) (acc : Access) (base : Int) (align n : Nat) (addrs : List Int) : ReachedAll :=
  match (if base % align ≠ 0 then none else spadOffsets n addrs) with
  | none => .ends (.trap .spadBounds (wrap64 base) none)
  | some offs =>
    match t.judgeAll p acc n (sortOnce offs) with
    | .ok => .at_ offs
    | .hold => .ends .stay
    | .bad c hb => .ends (.trap c (wrap64 base) hb)

/-- Codes widened into containers (R135, R396). -/
def widenAll (ef : EF) (cs : List Nat) : List W32 := cs.map (widen ef)

/-- A container narrowed to a code (R396). -/
def narrow (ef : EF) (ty : VTy) (w : W32) : Nat × Status := roundTo ef .near false 0 (tyValue ty w)

/-- Read codes of width w that stand packed in bytes (R130). -/
def codesOf (w n : Nat) (bs : List Byte) : List Nat := unpackAll w n (ofLeBytes bs)

/-- Bytes of codes of width w (R130). -/
def packedCodes (w : Nat) (cs : List Nat) : List Byte := leBytes ((w * cs.length + 7) / 8) (packAll w cs)

/-- Row addresses of the row forms: contiguous, or a stride apart (R397, R398). -/
def rowAddrs (t : State) (p : At) (ef : EF) (e : Reg) (base : Int) : List Int :=
  (List.range 16).map (fun r : Nat => base + r * (if e = 0 then 8 * ef.width else (t.reg p e).toNat))

/-- Is the stride register refused (R397, R398)? -/
def strideBad (t : State) (p : At) (ef : EF) (e : Reg) (store : Bool) : Bool :=
  let n := (t.reg p e).toNat
  e != 0 && (n % 16 != 0 || (store && n != 0 && n < 8 * ef.width))

/-- Rows of a row form, judged. -/
def State.reachRows (t : State) (p : At) (acc : Access) (ef : EF) (a e : Reg) (lit : BitVec 32) : ReachedAll :=
  if strideBad t p ef e (acc == .write) then .ends (.trap .reservedField 0 none)
  else
    let base := vbase t p a lit
    t.reachAll p acc base 16 (8 * ef.width) (rowAddrs t p ef e base)

/-- The strand's entries over ranges are performed before a vector access (R224). -/
def Core.releaseAt (y : Core) (k n : Nat) (offs : List Nat) : Core := offs.foldl (fun y o => y.releaseRange k o n) y

/-- XRACE for a read of ranges (R226). -/
def Core.raceStatus (y : Core) (k n : Nat) (offs : List Nat) : Status := stIf (offs.any (fun o => y.races k o n)) stXrace

/-- Must a vector store wait for a command of the core (R374)? -/
def State.vstoreHeld (t : State) (p : At) (n : Nat) (offs : List Nat) : Bool :=
  let y := t.core p.d p.c
  offs.any (fun o => y.storeHeld p.d p.c o n)

/-- Elements of row ranges, as the banks stand after the vector stores accepted before (R224). -/
def loadRows (y : Core) (ef : EF) (offs : List Nat) : List W32 :=
  let m := y.vecView
  offs.flatMap (fun o => widenAll ef (codesOf ef.width 64 (Mem.bytes m o (8 * ef.width))))

/-- VLD (R398). -/
def execVld (ef : EF) (z : Bool) (d : VReg) (a e : Reg) (lit : BitVec 32) (pred : PredOp) (sp : Spark) (s : State) : Out :=
  issue (.vld ef z d a e lit pred sp) { names := [d], uses := [a, e], checked := [a, e], sp := sp } s (fun p t =>
    match t.reachRows p .read ef a e lit with
    | .ends x => x
    | .at_ offs =>
      let n := 8 * ef.width
      let y := (t.core p.d p.c).releaseAt p.k n offs
      let st := y.strand p.k
      let v := mergeVec (predMask y st pred) z 0 (loadRows y ef offs) (y.vreg (st.vphys d))
      .done ((t.setCore p.d p.c (y.setVreg (st.vphys d) v)).orStatus p (y.raceStatus p.k n offs))
        (t.seq p (.vld ef z d a e lit pred sp)))

/-- The bits of a row's codes that a store under a mask writes: inactive elements keep theirs (R398). -/
def rowMask (w : Nat) (mask : BitVec 1024) (e : Nat) : List Byte :=
  packedCodes w ((List.range 64).map (fun i => if mask.getLsbD (e + i) then 2 ^ w - 1 else 0))

/-- The rows of a store of 1,024 narrowed elements under a mask, row 0 first (R398). -/
def storedRows (ef : EF) (mask : BitVec 1024) (codes : List Nat) : Nat → List Nat → List (Nat × List Byte × List Byte)
  | _, [] => []
  | r, o :: os =>
    (o, packedCodes ef.width (slice codes (64 * r) 64), rowMask ef.width mask (64 * r)) :: storedRows ef mask codes (r + 1) os

/-- A row of bytes that is written whole. -/
def wholeRow (o : Nat) (bs : List Byte) : Nat × List Byte × List Byte := (o, bs, List.replicate bs.length 0xFF#8)

/-- A vector store is accepted: it is due a delay later, but no earlier than those accepted before it (R224, R395). -/
def Core.storeAfter (y : Core) (k now delay : Nat) (cmd : Option Nat) (rows : List (Nat × List Byte × List Byte)) : Core :=
  { y with vstores := y.vstores ++
      [{ due := y.vstores.foldl (fun m v => max m v.due) (now + delay), strand := k, cmd := cmd, seq := y.nextCmd,
         rows := rows }] }

/-- The store of an instruction i of strand p: the table's entries over its ranges are performed, the rows are on their way. -/
def State.storeRows (t : State) (p : At) (i : Instr) (cmd : Option Nat) (n : Nat) (offs : List Nat)
    (rows : List (Nat × List Byte × List Byte)) : State :=
  t.modCore p.d p.c (fun y =>
    (y.releaseAt p.k n offs).storeAfter p.k (t.cyc p.d p.c) (i.vecDelay (t.bankLines p i)) cmd rows)

/-- The store of VST and VSTQ: its rows, and the status of its active elements. -/
def storeVector (t : State) (p : At) (i : Instr) (cmd : Option Nat) (ef : EF) (ty : VTy) (mask : BitVec 1024) (v : List W32)
    (offs : List Nat) : State :=
  let rs := v.map (narrow ef ty)
  (t.storeRows p i cmd (8 * ef.width) offs (storedRows ef mask (rs.map Prod.fst) 0 offs)).orStatus p
    (statusOf mask 0 (rs.map (fun r => (0#32, r.2))))

/-- VST (R398). -/
def execVst (ef : EF) (ty : VTy) (a : Reg) (b : VReg) (e : Reg) (lit : BitVec 32) (pred : PredOp) (sp : Spark) (s : State) : Out :=
  issue (.vst ef ty a b e lit pred sp) { names := [b], uses := [a, e], checked := [a, e], sp := sp } s (fun p t =>
    match t.reachRows p .write ef a e lit with
    | .ends x => x
    | .at_ offs =>
      if t.vstoreHeld p (8 * ef.width) offs then .stay
      else
        let y := t.core p.d p.c
        let i : Instr := .vst ef ty a b e lit pred sp
        .done (storeVector t p i none ef ty (predMask y (y.strand p.k) pred) (t.vreg p b) offs) (t.seq p i))

/-- VLDQ (R117, R398): the vector is read and its entry reserved at acceptance. -/
def execVldq (ef : EF) (q : Fin 4) (a e : Reg) (lit : BitVec 32) (sp : Spark) (s : State) : Out :=
  issue (.vldq ef q a e lit sp) { uses := [a, e], checked := [a, e], sp := sp, release := true } s (fun p t =>
    let y := t.core p.d p.c
    let held := Tab.get y.opq q.val []
    if 4 ≤ held.length then .stay
    else
      match t.reachRows p .read ef a e lit with
      | .ends x => x
      | .at_ offs =>
        let n := 8 * ef.width
        let entry : OpEntry := { due := t.cyc p.d p.c + 12, present := false, data := loadRows y ef offs }
        .done ((t.setCore p.d p.c { y with opq := Tab.set y.opq q.val (held ++ [entry]) }).orStatus p (y.raceStatus p.k n offs))
          (t.seq p (.vldq ef q a e lit sp)))

/-- The oldest entry that is not present becomes present once its cycle is reached. -/
def fillOldest (now : Nat) : List OpEntry → List OpEntry
  | [] => []
  | e :: es => if e.present then e :: fillOldest now es else if e.due ≤ now then { e with present := true } :: es else e :: es

/-- OPERAND_QUEUE_FILL (R117, R398). -/
def execOperandQueueFill (d c q : Nat) (s : State) : Out :=
  .next (s.modCore d c (fun y => { y with opq := Tab.set y.opq q (fillOldest (s.cyc d c) (Tab.get y.opq q [])) }))

/-- The drain of a store queue is a command of its queue until it has been performed at the banks (R191, R229, R230). -/
def State.acceptDrain (s : State) (p : At) (push : Option Nat) (delay n : Nat) (offs : List Nat) : State :=
  let now := s.cyc p.d p.c
  let rs : List Rng := offs.map (fun o => { sp := .spad, at_ := spadVa p.d p.c o, len := n, wr := true })
  s.modCore p.d p.c (fun y => y.accept 5 { y.newCmd p.k push [] rs .drain with stage := .running now (now + delay) })

/-- The vector stores that are due at a cycle, with those accepted before them. -/
def Core.storesDue (y : Core) (now : Nat) : List VStore := y.vstores.takeWhile (fun v => v.due ≤ now)

/-- What the vector unit of a core owes in a cycle is delivered: stores that are due are performed at the banks, and the drains among
them end; pushes on retire reach their channels (R228, R385, R396). -/
def State.settleCore (s : State) (d c : Nat) : State :=
  let now := s.cyc d c
  let y := s.core d c
  let done := y.storesDue now
  let s1 := s.setCore d c { y with spad := storesOver done y.spad, vstores := y.vstores.drop done.length,
                                   retiring := y.retiring.filter (fun e => now < e.1) }
  let s2 := (done.filterMap (fun v => v.cmd)).foldl (fun s id =>
    match (s.core d c).cmd 5 id with
    | some m => s.complete d c 5 m []
    | none => s) s1
  (y.retiring.filter (fun e => e.1 ≤ now)).foldl (fun s e => s.retirePush ⟨d, c, e.2.2⟩ e.2.1) s2

/-- VSTQ (R117, R398): the head of the store queue goes to the scratchpad. -/
def execVstq (ef : EF) (ty : VTy) (a : Reg) (w : Fin 2) (e : Reg) (lit : BitVec 32) (sp : Spark) (s : State) : Out :=
  issue (.vstq ef ty a w e lit sp) { uses := [a, e], checked := [a, e], sp := sp, pushes := false, release := (pushCh sp).isSome } s (fun p t =>
    let y := t.core p.d p.c
    match y.storeQueue w.val with
    | [] => .stay
    | v :: rest =>
      match t.reachRows p .write ef a e lit with
      | .ends x => x
      | .at_ offs =>
        if t.vstoreHeld p (8 * ef.width) offs then .stay
        else
          let i : Instr := .vstq ef ty a w e lit sp
          let n := 8 * ef.width
          let t1 := (t.setCore p.d p.c { y with stq := Tab.set y.stq w.val rest }).acceptDrain p (pushCh sp) (i.vecDelay 0) n offs
          .done (storeVector t1 p i (some y.nextCmd) ef ty (BitVec.allOnes 1024) v offs) (t.seq p i))

/-! Gather, scatter and ragged rows. -/

/-- Loaded elements by index put into a vector: elements in scope and not loaded follow Z. -/
def putElems (scope : Nat → Bool) (act : Nat → Bool) (z : Bool) (got : Tab W32) (old : List W32) : List W32 :=
  old.mapIdx (fun e o => if !scope e then o else if act e then Tab.get got e 0#32 else if z then 0#32 else o)

/-- One code at an offset. -/
def codeAt (m : Mem) (ef : EF) (o : Nat) : Nat := ofLeBytes (Mem.bytes m o (ef.width / 8))

/-- Load elements by index from their offsets into the destination of a gather form. -/
def gatherInto (t : State) (p : At) (ef : EF) (z : Bool) (d : VReg) (pred : PredOp) (scope : Nat → Bool) (es offs : List Nat) :
    State :=
  let n := ef.width / 8
  let y := (t.core p.d p.c).releaseAt p.k n offs
  let st := y.strand p.k
  let m := predMask y st pred
  let got : Tab W32 := es.zip (offs.map (fun o => widen ef (codeAt y.vecView ef o)))
  let v := putElems scope (fun e => m.getLsbD e) z got (y.vreg (st.vphys d))
  (t.setCore p.d p.c (y.setVreg (st.vphys d) v)).orStatus p (y.raceStatus p.k n offs)

/-- VGATH (R399). -/
def execVgath (ef : EF) (z : Bool) (part : Fin 4) (d : VReg) (a : Reg) (b : VReg) (lit : BitVec 32) (pred : PredOp) (sp : Spark)
    (s : State) : Out :=
  issue (.vgath ef z part d a b lit pred sp) { names := [d, b], uses := [a], checked := [a], sp := sp } s (fun p t =>
    let y := t.core p.d p.c
    let n := ef.width / 8
    let base := vbase t p a lit
    let ix := t.vreg p b
    let es := quarterOf (predMask y (y.strand p.k) pred) part.val
    match t.reachAll p .read base n n (es.map (fun e => base + (ix.getD e 0#32).toNat * n)) with
    | .ends x => x
    | .at_ offs =>
      .done (gatherInto t p ef z d pred (fun e => e / 256 == part.val) es offs) (t.seq p (.vgath ef z part d a b lit pred sp)))

/-- VSCAT (R399): its elements are rows in order of element, so that the highest index stands. -/
def execVscat (ef : EF) (ty : VTy) (part : Fin 4) (a : Reg) (b e : VReg) (lit : BitVec 32) (pred : PredOp) (sp : Spark)
    (s : State) : Out :=
  issue (.vscat ef ty part a b e lit pred sp) { names := [b, e], uses := [a], checked := [a], sp := sp } s (fun p t =>
    let y := t.core p.d p.c
    let n := ef.width / 8
    let base := vbase t p a lit
    let ix := t.vreg p b
    let es := quarterOf (predMask y (y.strand p.k) pred) part.val
    match t.reachAll p .write base n n (es.map (fun e => base + (ix.getD e 0#32).toNat * n)) with
    | .ends x => x
    | .at_ offs =>
      if t.vstoreHeld p n offs then .stay
      else
        let rs := es.map (fun k => narrow ef ty ((t.vreg p e).getD k 0#32))
        let i : Instr := .vscat ef ty part a b e lit pred sp
        let rows := (offs.zip rs).map (fun r => wholeRow r.1 (leBytes n r.2.1))
        .done ((t.storeRows p i none n offs rows).orStatus p (rs.foldl (fun st r => st ||| r.2) 0)) (t.seq p i))

/-- VRAG (R400): each row reads n elements from start s, both taken from the row of vB. -/
def execVrag (ef : EF) (z : Bool) (d : VReg) (a : Reg) (b : VReg) (lit : BitVec 32) (pred : PredOp) (sp : Spark) (s : State) :
    Out :=
  issue (.vrag ef z d a b lit pred sp) { names := [d, b], uses := [a], checked := [a], sp := sp } s (fun p t =>
    let y := t.core p.d p.c
    let n := ef.width / 8
    let base := vbase t p a lit
    let ix := t.vreg p b
    let len (r : Nat) : Nat := (ix.getD (64 * r + 1) 0#32).toNat
    let m := predMask y (y.strand p.k) pred
    if (List.range 16).any (fun r => 64 < len r) then .trap .reservedField 0 none
    else
      let es := raggedOf m ix
      match t.reachAll p .read base n n (es.map (fun e => base + raggedIndex ix e * n)) with
      | .ends x => x
      | .at_ offs => .done (gatherInto t p ef z d pred (fun _ => true) es offs) (t.seq p (.vrag ef z d a b lit pred sp)))

/-! Segment records. -/

/-- The record of each quarter of a vector (R146, R401). -/
def quantRecords (ef : EF) (tt : Nat) (rm : RMode) (sat : Bool) (xs : List (XVal × Nat)) : List (List Byte × Status) :=
  (chunks 256 4 xs).map (segRecord ef tt rm sat)

/-- VQUANT (R401). -/
def execVquant (ef : EF) (a : Reg) (b : VReg) (e : Reg) (tt : Fin 8) (rm : RMode) (sat : Bool) (sp : Spark) (s : State) : Out :=
  issue (.vquant ef a b e tt rm sat sp) { names := [b], uses := [a, e], checked := [a, e], sp := sp } s (fun p t =>
    let base : Int := (t.reg p a).toNat
    let n := 4 * recBytes ef.width
    match t.reachAll p .write base 16 n [base] with
    | .ends x => x
    | .at_ offs =>
      if t.vstoreHeld p n offs then .stay
      else
        let r : Rnd := { rm := rm, sat := sat, c := e }
        let rs := quantRecords ef tt.val rm sat ((t.vreg p b).mapIdx (fun j w => (f32v w, t.rndBits p r j)))
        let i : Instr := .vquant ef a b e tt rm sat sp
        .done ((t.storeRows p i none n offs [wholeRow (offs.headD 0) (rs.flatMap Prod.fst)]).orStatus p
          (rs.foldl (fun st q => st ||| q.2) (t.rndStatus p r))) (t.seq p i))

/-- The elements of four records of a format, each with the one status bit that VDEQ sets, OVERFLOW; none where a check of R147
fails (R384; log entry 8). -/
def readRecords (ef : EF) (bs : List Byte) : Option (List Res) :=
  ((chunks (recBytes ef.width) 4 bs).map (readRecord ef.width)).foldr (fun r acc =>
    match r, acc with
    | some (f, es), some l => if f = ef then some (es.map (fun e => let r := near32 (recordValue ef e.1 e.2); (r.1, r.2 &&& stOverflow)) ++ l) else none
    | _, _ => none) (some [])

/-- VDEQ (R384): it is none of the reads that set XRACE (R226). -/
def execVdeq (ef : EF) (z : Bool) (d : VReg) (a : Reg) (lit : BitVec 32) (pred : PredOp) (sp : Spark) (s : State) : Out :=
  issue (.vdeq ef z d a lit pred sp) { names := [d], uses := [a], checked := [a], sp := sp } s (fun p t =>
    let base := vbase t p a lit
    let n := 4 * recBytes ef.width
    match t.reachAll p .read base 16 n [base] with
    | .ends x => x
    | .at_ offs =>
      let y := (t.core p.d p.c).releaseAt p.k n offs
      match readRecords ef (Mem.bytes y.vecView (offs.headD 0) n) with
      | none => .trap .reservedField 0 none
      | some rs =>
        let st := y.strand p.k
        let m := predMask y st pred
        let v := mergeVec m z 0 (rs.map Prod.fst) (y.vreg (st.vphys d))
        .done ((t.setCore p.d p.c (y.setVreg (st.vphys d) v)).orStatus p (statusOf m 0 rs))
          (t.seq p (.vdeq ef z d a lit pred sp)))

end Sys2Proof.Machine
end

