-- ==== Sys2Proof/Machine/Dispatch.lean ====
section
/-!
DEFINITION. The dispatch of instructions and events to their meanings, one arm for each row of the opcode table.
-/
namespace Sys2Proof.Machine

def exec (i : Instr) (s : State) : Host.Outcome State Fault Refusal :=
  match i with
  | .add d a b => Sys2Proof.Machine.execAdd d a b s
  | .addi d a imm => Sys2Proof.Machine.execAddi d a imm s
  | .sub d a b => Sys2Proof.Machine.execSub d a b s
  | .mul d a b => Sys2Proof.Machine.execMul d a b s
  | .mulh u d a b => Sys2Proof.Machine.execMulh u d a b s
  | .div u d a b => Sys2Proof.Machine.execDiv u d a b s
  | .rem u d a b => Sys2Proof.Machine.execRem u d a b s
  | .and d a b => Sys2Proof.Machine.execAnd d a b s
  | .or d a b => Sys2Proof.Machine.execOr d a b s
  | .xor d a b => Sys2Proof.Machine.execXor d a b s
  | .andn d a b => Sys2Proof.Machine.execAndn d a b s
  | .shlReg d a b => Sys2Proof.Machine.execShlReg d a b s
  | .shlImm d a n => Sys2Proof.Machine.execShlImm d a n s
  | .shrReg d a b => Sys2Proof.Machine.execShrReg d a b s
  | .shrImm d a n => Sys2Proof.Machine.execShrImm d a n s
  | .shaReg d a b => Sys2Proof.Machine.execShaReg d a b s
  | .shaImm d a n => Sys2Proof.Machine.execShaImm d a n s
  | .rotReg d a b => Sys2Proof.Machine.execRotReg d a b s
  | .rotImm d a n => Sys2Proof.Machine.execRotImm d a n s
  | .min u d a b => Sys2Proof.Machine.execMin u d a b s
  | .max u d a b => Sys2Proof.Machine.execMax u d a b s
  | .clz d a => Sys2Proof.Machine.execClz d a s
  | .popc d a => Sys2Proof.Machine.execPopc d a s
  | .ext sx d a pos len => Sys2Proof.Machine.execExt sx d a pos len s
  | .ins d a pos len => Sys2Proof.Machine.execIns d a pos len s
  | .sel cc d a b => Sys2Proof.Machine.execSel cc d a b s
  | .cmpReg a b => Sys2Proof.Machine.execCmpReg a b s
  | .cmpImm a imm => Sys2Proof.Machine.execCmpImm a imm s
  | .setc cc d => Sys2Proof.Machine.execSetc cc d s
  | .li form d lit => Sys2Proof.Machine.execLi form d lit s
  | .mov d a => Sys2Proof.Machine.execMov d a s
  | .adr d lit => Sys2Proof.Machine.execAdr d lit s
  | .b imm => Sys2Proof.Machine.execB imm s
  | .bLong lit => Sys2Proof.Machine.execBLong lit s
  | .bc cc imm => Sys2Proof.Machine.execBc cc imm s
  | .brz nz a imm => Sys2Proof.Machine.execBrz nz a imm s
  | .call imm => Sys2Proof.Machine.execCall imm s
  | .callLong lit => Sys2Proof.Machine.execCallLong lit s
  | .callxReg a => Sys2Proof.Machine.execCallxReg a s
  | .callxImm imm => Sys2Proof.Machine.execCallxImm imm s
  | .jx d a => Sys2Proof.Machine.execJx d a s
  | .loop rv rp a imm => Sys2Proof.Machine.execLoop rv rp a imm s
  | .exit => Sys2Proof.Machine.execExit s
  | .ld sz d a imm => Sys2Proof.Machine.execLd sz d a imm s
  | .st sz a b imm => Sys2Proof.Machine.execSt sz a b imm s
  | .rds d n => Sys2Proof.Machine.execRds d n s
  | .wrs n a => Sys2Proof.Machine.execWrs n a s
  | .wrsImfree a => Sys2Proof.Machine.execWrsImfree a s
  | .wrsWindow n a => Sys2Proof.Machine.execWrsWindow n a s
  | .wrsPbase a => Sys2Proof.Machine.execWrsPbase a s
  | .spush ch => Sys2Proof.Machine.execSpush ch s
  | .spop ch => Sys2Proof.Machine.execSpop ch s
  | .qfence mask => Sys2Proof.Machine.execQfence mask s
  | .nsend a b len sp => Sys2Proof.Machine.execNsend a b len sp s
  | .nrecv a b len sp => Sys2Proof.Machine.execNrecv a b len sp s
  | .vadd ty o b r => Sys2Proof.Machine.execVadd ty o b r s
  | .vsub ty o b r => Sys2Proof.Machine.execVsub ty o b r s
  | .vmul ty o b r => Sys2Proof.Machine.execVmul ty o b r s
  | .vfma ty o b r => Sys2Proof.Machine.execVfma ty o b r s
  | .vfnma ty o b r => Sys2Proof.Machine.execVfnma ty o b r s
  | .vmin ty o b => Sys2Proof.Machine.execVmin ty o b s
  | .vmax ty o b => Sys2Proof.Machine.execVmax ty o b s
  | .vabs ty o => Sys2Proof.Machine.execVabs ty o s
  | .vneg ty o => Sys2Proof.Machine.execVneg ty o s
  | .vrcps o => Sys2Proof.Machine.execVrcps o s
  | .vrsqs o => Sys2Proof.Machine.execVrsqs o s
  | .vexp2 o => Sys2Proof.Machine.execVexp2 o s
  | .vlog2 o => Sys2Proof.Machine.execVlog2 o s
  | .vand o b => Sys2Proof.Machine.execVand o b s
  | .vor o b => Sys2Proof.Machine.execVor o b s
  | .vxor o b => Sys2Proof.Machine.execVxor o b s
  | .vshl ty o n => Sys2Proof.Machine.execVshl ty o n s
  | .vshr ty o n => Sys2Proof.Machine.execVshr ty o n s
  | .vcmp ty cc pd a b zm pred => Sys2Proof.Machine.execVcmp ty cc pd a b zm pred s
  | .vsel o b pc => Sys2Proof.Machine.execVsel o b pc s
  | .vmov o => Sys2Proof.Machine.execVmov o s
  | .vbcs d a zm pred => Sys2Proof.Machine.execVbcs d a zm pred s
  | .viota ty m d a step zm pred => Sys2Proof.Machine.execViota ty m d a step zm pred s
  | .vcvt ef ty o r => Sys2Proof.Machine.execVcvt ef ty o r s
  | .vquant ef a b e t rm sat sp => Sys2Proof.Machine.execVquant ef a b e t rm sat sp s
  | .vdeq ef z d a lit pred sp => Sys2Proof.Machine.execVdeq ef z d a lit pred sp s
  | .vrotr o c imm => Sys2Proof.Machine.execVrotr o c imm s
  | .vrotc o c imm => Sys2Proof.Machine.execVrotc o c imm s
  | .vbcr o c imm => Sys2Proof.Machine.execVbcr o c imm s
  | .vbcc o c imm => Sys2Proof.Machine.execVbcc o c imm s
  | .vredr ty op o => Sys2Proof.Machine.execVredr ty op o s
  | .vredc ty op o => Sys2Proof.Machine.execVredc ty op o s
  | .vsegr ty op o pb => Sys2Proof.Machine.execVsegr ty op o pb s
  | .vflag pa pred => Sys2Proof.Machine.execVflag pa pred s
  | .vld ef z d a e lit pred sp => Sys2Proof.Machine.execVld ef z d a e lit pred sp s
  | .vst ef ty a b e lit pred sp => Sys2Proof.Machine.execVst ef ty a b e lit pred sp s
  | .vldq ef q a e lit sp => Sys2Proof.Machine.execVldq ef q a e lit sp s
  | .vstq ef ty a w e lit sp => Sys2Proof.Machine.execVstq ef ty a w e lit sp s
  | .vgath ef z part d a b lit pred sp => Sys2Proof.Machine.execVgath ef z part d a b lit pred sp s
  | .vscat ef ty part a b e lit pred sp => Sys2Proof.Machine.execVscat ef ty part a b e lit pred sp s
  | .vrag ef z d a b lit pred sp => Sys2Proof.Machine.execVrag ef z d a b lit pred sp s
  | .vrng u01 z d a pred sp => Sys2Proof.Machine.execVrng u01 z d a pred sp s
  | .plog op d a b => Sys2Proof.Machine.execPlog op d a b s
  | .pset m d c imm zm pred => Sys2Proof.Machine.execPset m d c imm zm pred s
  | .mlease => Sys2Proof.Machine.execMlease s
  | .mfree => Sys2Proof.Machine.execMfree s
  | .mfmt a => Sys2Proof.Machine.execMfmt a s
  | .mldw a lit sp => Sys2Proof.Machine.execMldw a lit sp s
  | .mswap => Sys2Proof.Machine.execMswap s
  | .mstrm a stride m row0 sp => Sys2Proof.Machine.execMstrm a stride m row0 sp s
  | .mdrain opt a b e g stride m row0 sp => Sys2Proof.Machine.execMdrain opt a b e g stride m row0 sp s
  | .mchk clr d => Sys2Proof.Machine.execMchk clr d s
  | .cpy a b e lit sp => Sys2Proof.Machine.execCpy a b e lit sp s
  | .cpys a b e g sp => Sys2Proof.Machine.execCpys a b e g sp s
  | .cpycs first last d a b e g lit sp => Sys2Proof.Machine.execCpycs first last d a b e g lit sp s
  | .coll a lit sp => Sys2Proof.Machine.execColl a lit sp s
  | .cwait q a => Sys2Proof.Machine.execCwait q a s
  | .smpl a b e g n sp => Sys2Proof.Machine.execSmpl a b e g n sp s
  | .sbind sel a slot sp => Sys2Proof.Machine.execSbind sel a slot sp s
  | .bclaim d a lsize sp => Sys2Proof.Machine.execBclaim d a lsize sp s
  | .bfree d a push => Sys2Proof.Machine.execBfree d a push s
  | .blend d a b push => Sys2Proof.Machine.execBlend d a b push s
  | .bret d a push => Sys2Proof.Machine.execBret d a push s
  | .bxfer d a b push => Sys2Proof.Machine.execBxfer d a b push s
  | .bsplit d a push => Sys2Proof.Machine.execBsplit d a push s
  | .bjoin d a b push => Sys2Proof.Machine.execBjoin d a b push s
  | .bshare d a b push => Sys2Proof.Machine.execBshare d a b push s
  | .bshareAtomic d a push => Sys2Proof.Machine.execBshareAtomic d a push s
  | .bunsh d a push => Sys2Proof.Machine.execBunsh d a push s
  | .bquery d a push => Sys2Proof.Machine.execBquery d a push s
  | .slotrd d c slot push => Sys2Proof.Machine.execSlotrd d c slot push s
  | .slotsw a slot push => Sys2Proof.Machine.execSlotsw a slot push s
  | .bar stp a imm => Sys2Proof.Machine.execBar stp a imm s
  | .cbar => Sys2Proof.Machine.execCbar s
  | .waittReg a => Sys2Proof.Machine.execWaittReg a s
  | .waittImm a imm => Sys2Proof.Machine.execWaittImm a imm s
  | .segend nosig a lit => Sys2Proof.Machine.execSegend nosig a lit s
  | .atom op ty d a b lit sp => Sys2Proof.Machine.execAtom op ty d a b lit sp s
  | .afence => Sys2Proof.Machine.execAfence s
  | .rsv dom a b e g sp => Sys2Proof.Machine.execRsv dom a b e g sp s
  | .place d a b => Sys2Proof.Machine.execPlace d a b s
  | .trap imm => Sys2Proof.Machine.execTrap imm s
  | .eret => Sys2Proof.Machine.execEret s
  | .sysc imm => Sys2Proof.Machine.execSysc imm s
  | .tlbiq all a b sp => Sys2Proof.Machine.execTlbiq all a b sp s
  | .capr d a imm => Sys2Proof.Machine.execCapr d a imm s
  | .xsend track part a b e lit push => Sys2Proof.Machine.execXsend track part a b e lit push s
  | .xrecv a b e g lit push => Sys2Proof.Machine.execXrecv a b e g lit push s
  | .xfwd a b e lit push => Sys2Proof.Machine.execXfwd a b e lit push s
  | .xred op fin a b e g lit push => Sys2Proof.Machine.execXred op fin a b e g lit push s
  | .xguard len lit => Sys2Proof.Machine.execXguard len lit s
  | .xopen e lit => Sys2Proof.Machine.execXopen e lit s
  | .xstep last lit push => Sys2Proof.Machine.execXstep last lit push s
  | .lset k f => Sys2Proof.Machine.execLset k f s
  | .ltemp k => Sys2Proof.Machine.execLtemp k s
  | .lbias => Sys2Proof.Machine.execLbias s
  | .lpen k => Sys2Proof.Machine.execLpen k s
  | .lmask inv => Sys2Proof.Machine.execLmask inv s
  | .lcap k => Sys2Proof.Machine.execLcap k s
  | .ltopk n => Sys2Proof.Machine.execLtopk n s
  | .ltopp k => Sys2Proof.Machine.execLtopp k s
  | .lminp k => Sys2Proof.Machine.execLminp k s
  | .lsoft => Sys2Proof.Machine.execLsoft s
  | .ldraw => Sys2Proof.Machine.execLdraw s
  | .ldrawGreedy => Sys2Proof.Machine.execLdrawGreedy s
  | .lcnt => Sys2Proof.Machine.execLcnt s
  | .lstop => Sys2Proof.Machine.execLstop s
  | .entryArm d e t ctl => Sys2Proof.Machine.execEntryArm d e t ctl s
  | .entryDisarm d e t ctl => Sys2Proof.Machine.execEntryDisarm d e t ctl s
  | .entryDue d e => Sys2Proof.Machine.execEntryDue d e s
  | .launchStart d e => Sys2Proof.Machine.execLaunchStart d e s
  | .loadResume d e => Sys2Proof.Machine.execLoadResume d e s
  | .loadComplete d e => Sys2Proof.Machine.execLoadComplete d e s
  | .launchFirstIssue d slot => Sys2Proof.Machine.execLaunchFirstIssue d slot s
  | .loadLate d e => Sys2Proof.Machine.execLoadLate d e s
  | .coreRetire d c => Sys2Proof.Machine.execCoreRetire d c s
  | .barRelease d slot => Sys2Proof.Machine.execBarRelease d slot s
  | .barDeadline d slot => Sys2Proof.Machine.execBarDeadline d slot s
  | .cbarRelease d c => Sys2Proof.Machine.execCbarRelease d c s
  | .steptickDeadline d c k => Sys2Proof.Machine.execSteptickDeadline d c k s
  | .waittTarget d c k => Sys2Proof.Machine.execWaittTarget d c k s
  | .vflagLand d c k => Sys2Proof.Machine.execVflagLand d c k s
  | .operandQueueFill d c q => Sys2Proof.Machine.execOperandQueueFill d c q s
  | .sparkPopGrant d c ch => Sys2Proof.Machine.execSparkPopGrant d c ch s
  | .heldPushRetry d c ch => Sys2Proof.Machine.execHeldPushRetry d c ch s
  | .engineFault d c k => Sys2Proof.Machine.execEngineFault d c k s
  | .preemptHalt d slot => Sys2Proof.Machine.execPreemptHalt d slot s
  | .contextSave d slot => Sys2Proof.Machine.execContextSave d slot s
  | .saveComplete d slot => Sys2Proof.Machine.execSaveComplete d slot s
  | .resume d slot => Sys2Proof.Machine.execResume d slot s
  | .leaseGrant d m => Sys2Proof.Machine.execLeaseGrant d m s
  | .tenureEnd d m => Sys2Proof.Machine.execTenureEnd d m s
  | .arrayCommandStart d c => Sys2Proof.Machine.execArrayCommandStart d c s
  | .arrayCommandComplete d c id => Sys2Proof.Machine.execArrayCommandComplete d c id s
  | .fetchStageComplete d c => Sys2Proof.Machine.execFetchStageComplete d c s
  | .copyStart d c => Sys2Proof.Machine.execCopyStart d c s
  | .copyChunk d c => Sys2Proof.Machine.execCopyChunk d c s
  | .copyRetry d c => Sys2Proof.Machine.execCopyRetry d c s
  | .copyComplete d c => Sys2Proof.Machine.execCopyComplete d c s
  | .tlbiqComplete d c id => Sys2Proof.Machine.execTlbiqComplete d c id s
  | .tlbiWatchdog d c id => Sys2Proof.Machine.execTlbiWatchdog d c id s
  | .brandChange d c => Sys2Proof.Machine.execBrandChange d c s
  | .brandMessage n => Sys2Proof.Machine.execBrandMessage n s
  | .brandReply n => Sys2Proof.Machine.execBrandReply n s
  | .atomicIntervalClose d slot => Sys2Proof.Machine.execAtomicIntervalClose d slot s
  | .atomicBatch d n => Sys2Proof.Machine.execAtomicBatch d n s
  | .sbindExecute d => Sys2Proof.Machine.execSbindExecute d s
  | .sbindComplete d => Sys2Proof.Machine.execSbindComplete d s
  | .smplStart d => Sys2Proof.Machine.execSmplStart d s
  | .sequenceRun d => Sys2Proof.Machine.execSequenceRun d s
  | .smplComplete d => Sys2Proof.Machine.execSmplComplete d s
  | .neighbourArrival d c => Sys2Proof.Machine.execNeighbourArrival d c s
  | .collStart d c => Sys2Proof.Machine.execCollStart d c s
  | .collAdmission d c => Sys2Proof.Machine.execCollAdmission d c s
  | .collComplete d c id => Sys2Proof.Machine.execCollComplete d c id s
  | .linkArm d p t => Sys2Proof.Machine.execLinkArm d p t s
  | .linkDisarm d p t => Sys2Proof.Machine.execLinkDisarm d p t s
  | .linkEngineStart d p => Sys2Proof.Machine.execLinkEngineStart d p s
  | .flitDelivery d p => Sys2Proof.Machine.execFlitDelivery d p s
  | .landingBufferExpiry d p => Sys2Proof.Machine.execLandingBufferExpiry d p s
  | .receiveDeadline d p => Sys2Proof.Machine.execReceiveDeadline d p s
  | .guardOverdue d p => Sys2Proof.Machine.execGuardOverdue d p s
  | .openFlitArrival n => Sys2Proof.Machine.execOpenFlitArrival n s
  | .idleGuard d p => Sys2Proof.Machine.execIdleGuard d p s
  | .timeExchange d t1 t2 t3 t4 => Sys2Proof.Machine.execTimeExchange d t1 t2 t3 t4 s
  | .slew d => Sys2Proof.Machine.execSlew d s
  | .podFormation cfg => Sys2Proof.Machine.execPodFormation cfg s
  | .portFailure d p => Sys2Proof.Machine.execPortFailure d p s
  | .abortFlit d p => Sys2Proof.Machine.execAbortFlit d p s
  | .writeWithImmediate d port t addr data imm => Sys2Proof.Machine.execWriteWithImmediate d port t addr data imm s
  | .rdmaWrite d port t addr data => Sys2Proof.Machine.execRdmaWrite d port t addr data s
  | .rdmaRead d port t addr len => Sys2Proof.Machine.execRdmaRead d port t addr len s
  | .tenantConfigure d t cfg => Sys2Proof.Machine.execTenantConfigure d t cfg s
  | .tenantRemove d t => Sys2Proof.Machine.execTenantRemove d t s
  | .attestation d nonce => Sys2Proof.Machine.execAttestation d nonce s
  | .errorInjection d t c kind => Sys2Proof.Machine.execErrorInjection d t c kind s
  | .errorLogRead d first count => Sys2Proof.Machine.execErrorLogRead d first count s
  | .telemetryRead d => Sys2Proof.Machine.execTelemetryRead d s
  | .firmwareBoot d mgmt engine => Sys2Proof.Machine.execFirmwareBoot d mgmt engine s
  | .throttleStep d island eighths => Sys2Proof.Machine.execThrottleStep d island eighths s
  | .thermalProtection d island => Sys2Proof.Machine.execThermalProtection d island s
  | .dieReset d failed => Sys2Proof.Machine.execDieReset d failed s
  | .illegalOp => Sys2Proof.Machine.execIllegalOp s
  | .fetchInvalid => Sys2Proof.Machine.execFetchInvalid s
  | .portRestore d p => Sys2Proof.Machine.execPortRestore d p s

end Sys2Proof.Machine
end

