-- ==== Sys2Proof/Machine/Sched.lean ====
section
/-!
DEFINITION. The order in which the units of the pod act within one tick (R25, R49, R228, R249, R303; log entry 1): the parts of a
die's tick, each planned from the state in which it begins, and the advance of pod time (R238, R239).
-/
namespace Sys2Proof.Machine

/-- Events as moves. -/
def eventMoves (l : List Instr) : List Move := l.map Move.event

/-- The cores of a die that a gang holds, in agent-id order (R25). -/
def Die.heldCores (x : Die) : List Nat :=
  (x.gangs.flatMap (fun g => g.2.cores.filter (fun c => match (x.core c).ctx with
    | some (slot, _) => slot == g.1
    | none => false)))

/-- The held cores whose islands have a cycle in this tick. -/
def Die.clockedCores (x : Die) : List Nat := x.heldCores.filter (fun c => x.clocked (c / 4))

/-- The ports of a die that satisfy a test, lowest first. -/
def Die.portsOf (x : Die) (test : Port → Bool) : List Nat := (x.ports.filter (fun p => test p.2)).map Prod.fst

/-- The cores of a list whose state satisfies a test. -/
def Die.coresOf (x : Die) (l : List Nat) (test : Core → Bool) : List Nat := l.filter (fun c => test (x.core c))

/-! Links. -/

/-- Deliveries that are due on a die. -/
def State.planFlits (s : State) (d : Nat) : List Move :=
  eventMoves ((s.flits.filter (fun f => f.die == d && s.isDue f)).map (fun f => Instr.flitDelivery d f.port))

/-- Engines that start, decode and take (R249). -/
def State.planLinks (s : State) (d : Nat) : List Move :=
  let x := s.die d
  eventMoves ((x.portsOf (fun q => q.state == .armed && q.snapStart ≤ x.tick)).map (Instr.linkEngineStart d))

/-- Decodes of the running engines, one instruction each (R249). -/
def State.planDecodes (s : State) (d : Nat) : List Move :=
  ((s.die d).portsOf (fun q => q.state == .running && !q.ended)).map (Move.link d)

/-- Instructions whose tick has come, in ascending port number (R249). -/
def State.planTakes (s : State) (d : Nat) : List Move :=
  ((s.die d).portsOf (fun q => match q.ops with
    | op :: _ => op.tick ≤ s.now d
    | [] => false)).map (Move.take d)

/-- What the ports of a die send and relay in a tick, aborts first, its collective sections, and then the untimed traffic in the slots that are left
(R242, R254). -/
def State.portTicks (s : State) (d : Nat) : State :=
  (((s.each (List.range 9) (fun s p => s.abortsOut d p (portRate p))).each (List.range 9) (fun s p => s.portTick d p)).collTicks d).each
    (List.range 9) (fun s p => s.sendOpens d p (portRate p))

/-! Messages. -/

/-- Are the numbers in order, the first the weightiest? -/
def leList : List Nat → List Nat → Bool
  | a :: as, b :: bs => a < b || (a == b && leList as bs)
  | _, _ => true

/-- The indexes of the messages that have come to their end at a die or cannot go on there, in the order of a key. -/
def State.dueIndexes (s : State) (d : Nat) (key : Transit → List Nat) (l : List Transit) : List Nat :=
  (sortBy (fun a b => leList (key a.1) (key b.1)) (l.zipIdx.filter (fun e => e.1.at_ == d && s.hop e.1 != .stay))).map Prod.snd

/-- Open flits at a die, in the order in which they came, those of one tick in the order of the agents that they act under there (R25,
R254). -/
def State.planOpens (s : State) (d : Nat) : List Move :=
  eventMoves ((s.dueIndexes d (fun t => [t.due, dieAgent t.fromDie, t.agent]) (s.opens.map (fun o => o.tr))).map Instr.openFlitArrival)

/-- Brand messages and replies that reach the table of a die in a tick: they act under the ids of the dies that they come from (R25, R211,
R212). -/
def State.planBrandMsgs (s : State) (d : Nat) : List Move :=
  eventMoves ((s.dueIndexes d (fun t => [dieAgent t.fromDie, t.due, t.agent]) (s.brandMsgs.map (fun b => b.tr))).flatMap
    (fun n => [Instr.brandReply n, Instr.brandMessage n]))

/-- Batches of a die that have come to their homes or back, in the order of their closes (R233). -/
def State.planBatches (s : State) (d : Nat) : List Move :=
  eventMoves (((s.die d).batches.zipIdx.filter (fun e => !e.1.tr.spent && (s.hop e.1.tr != .stay || !s.inPod e.1.tr.toDie))).map
    (fun e => Instr.atomicBatch d e.2))

/-! Engines of the cores. -/

/-- Brand queues (R206). -/
def State.planBrands (s : State) (d : Nat) : List Move :=
  let x := s.die d
  if x.clocked tableIsland then eventMoves ((x.coresOf x.heldCores (fun y => y.brandQ != [])).map (Instr.brandChange d)) else []

/-- Barriers and intervals of the gangs, in context-slot order. -/
def State.planGangs (s : State) (d : Nat) : List Move :=
  let x := s.die d
  eventMoves (x.gangs.flatMap (fun g =>
    (if g.2.barDone.isSome && (g.2.locked || x.clocked (g.2.cores.headD 0 / 4)) then [Instr.barRelease d g.1] else []) ++ (if g.2.atomOpen then [Instr.atomicIntervalClose d g.1] else [])))

/-- Starts on the cores of a list: every queued command may start in the cycle, in queue order (R155). -/
def Die.arrayStarts (x : Die) (d : Nat) (cores : List Nat) : List Instr :=
  cores.flatMap (fun c => ((x.core c).matrixQ.filter Cmd.isQueued).map (fun _ => Instr.arrayCommandStart d c))

/-- The matrix arrays (R155 to R157, R164). -/
def State.planMatrix (s : State) (d : Nat) : List Move :=
  let x := s.die d
  let cores := x.coresOf x.clockedCores (fun y => y.matrixQ != [])
  let clamps := sortOnce (x.clockedCores.map (fun c => c / 4))
  eventMoves (cores.flatMap (fun c => ((x.core c).matrixQ.filter (fun m => !m.isQueued)).map (fun m => Instr.arrayCommandComplete d c m.id))
    ++ cores.map (Instr.fetchStageComplete d) ++ clamps.map (Instr.leaseGrant d) ++ x.arrayStarts d cores)

/-- Array commands that waited only for a command whose push was made in this cycle, or for a range that was freed in it (R72, R155). -/
def State.planStarts (s : State) (d : Nat) : List Move :=
  eventMoves ((s.die d).arrayStarts d (s.die d).clockedCores)

/-- Array commands under a tenure that was renewed in this cycle (R157). -/
def State.planRenewed (s : State) (d : Nat) : List Move :=
  let x := s.die d
  eventMoves (x.arrayStarts d (x.clockedCores.filter (fun c =>
    (x.clamp (c / 4)).holder == some c && (x.clamp (c / 4)).granted == x.cycle (c / 4))))

/-- Tenures that end in the cycle, when every request of the cycle has been posted (R157). -/
def State.planTenures (s : State) (d : Nat) : List Move :=
  let x := s.die d
  eventMoves (((sortOnce (x.clockedCores.map (fun c => c / 4))).filter (fun m => (x.clamp m).holder.isSome)).map (Instr.tenureEnd d))

/-- Copies (R190 to R193). -/
def State.planCopies (s : State) (d : Nat) : List Move :=
  let x := s.die d
  eventMoves ((x.coresOf x.clockedCores (fun y => y.copyQ != [])).flatMap (fun c =>
    [Instr.copyComplete d c, Instr.copyStart d c, Instr.copyRetry d c, Instr.copyChunk d c]))

/-- Neighbour data: each chunk that is due, at a core that has retired too (R25, R195, R364). -/
def State.planNeighbours (s : State) (d : Nat) : List Move :=
  let x := s.die d
  eventMoves ((x.cores.filter (fun c => x.clocked (c.1 / 4))).flatMap (fun c =>
    (c.2.arriving.filter (fun j => j.arrives ≤ x.cycle (c.1 / 4))).map (fun _ => Instr.neighbourArrival d c.1)))

/-- Operand-queue fills (R398). -/
def State.planFills (s : State) (d : Nat) : List Move :=
  let x := s.die d
  eventMoves (x.clockedCores.flatMap (fun c =>
    ((x.core c).opq.filter (fun q => q.2.any (fun e => !e.present && e.due ≤ x.cycle (c / 4)))).map (fun q =>
      Instr.operandQueueFill d c q.1)))

/-- The cores whose vector unit owes something in this cycle, those that have retired too. -/
def Die.settling (x : Die) : List Nat :=
  (x.cores.filter (fun c => x.clocked (c.1 / 4) && (c.2.vstores != [] || c.2.retiring != []))).map Prod.fst

/-- The cores at which reservations or atomic requests wait for room for a record (R291). -/
def Die.otherWaiting (x : Die) : List Nat := (x.cores.filter (fun c => c.2.otherQ.any Cmd.endsAtOnce)).map Prod.fst

/-- The sampler (R278). -/
def State.planSampler (s : State) (d : Nat) : List Move :=
  let x := s.die d
  if x.clocked samplerIsland && (x.job.isSome || x.cores.any (fun c => c.2.samplerQ != [])) then
    eventMoves [Instr.sbindComplete d, Instr.smplComplete d, Instr.sbindExecute d, Instr.smplStart d, Instr.sequenceRun d]
  else []

/-- Collectives, in agent-id order (R257, R261, R328). -/
def State.planColls (s : State) (d : Nat) : List Move :=
  let x := s.die d
  let cores := x.coresOf x.heldCores (fun y => y.collQ != [])
  eventMoves (cores.flatMap (fun c => ((x.core c).collQ.filter (fun m => !m.isQueued)).map (fun m => Instr.collComplete d c m.id))
    ++ cores.map (Instr.collStart d) ++ cores.map (Instr.collAdmission d))

/-- Invalidations (R197, R198). -/
def State.planTlbis (s : State) (d : Nat) : List Move :=
  eventMoves ((s.die d).tlbis.flatMap (fun i => [Instr.tlbiqComplete d i.core i.cmd, Instr.tlbiWatchdog d i.core i.cmd]))

/-! Launches (R32 to R40, R293 to R297). -/

/-- Gangs that halt, are saved, return, load or issue first. -/
def State.planPhases (s : State) (d : Nat) : List Move :=
  eventMoves ((s.die d).gangs.flatMap (fun g =>
    match g.2.phase with
    | .loading => [Instr.loadComplete d g.2.entry, Instr.launchFirstIssue d g.1]
    | .suspendedLoad _ => [Instr.loadResume d g.2.entry]
    | .loaded => [Instr.launchFirstIssue d g.1]
    | .running => []
    | .halting _ _ => [Instr.preemptHalt d g.1]
    | .halted _ => [Instr.contextSave d g.1]
    | .saving _ => [Instr.saveComplete d g.1]
    | .saved => [Instr.resume d g.1]))

/-- Armed entries, in ascending index order (R32). -/
def State.planEntries (s : State) (d : Nat) : List Move :=
  eventMoves (((s.die d).sched.filter (fun e => e.2.state == .armed)).flatMap (fun e => [Instr.entryDue d e.1, Instr.launchStart d e.1]))

/-! Strands. -/

/-- Ends of waits on the cores: flags that land, targets that are reached, core barriers (R50, R111, R403). -/
def State.planWaits (s : State) (d : Nat) : List Move :=
  let x := s.die d
  eventMoves (x.heldCores.flatMap (fun c =>
    let y := x.core c
    y.strands.flatMap (fun z =>
      (if z.2.vflags.any (fun f => f.left == 0) then [Instr.vflagLand d c z.1] else [])
        ++ (match z.2.wait with
          | .waitt _ => [Instr.waittTarget d c z.1]
          | _ => []))
      ++ (if y.cbarDone.isSome && x.clocked (c / 4) then [Instr.cbarRelease d c] else [])))

/-- The strands of a core in the order of the shared units of 1-cycle occupancy and of the pops, strand (cycle mod 4) first (R49,
R228). -/
def Die.order (x : Die) (c : Nat) : List Nat := [0, 1, 2, 3].map (fun i => (x.cycle (c / 4) + i) % 4)

/-- Pushes that have reached a channel: before the strands act those of channels with room for every one and for a SPUSH besides,
after the sync unit has acted all that are left (R228). -/
def State.planPushes (all : Bool) (s : State) (d : Nat) : List Move :=
  let x := s.die d
  eventMoves (x.clockedCores.flatMap (fun c =>
    let y := x.core c
    ((sortOnce (y.held.map (fun h => h.ch))).filter (fun ch => all || y.spark ch + (y.pushesOf ch).length < 15)).map
      (Instr.heldPushRetry d c)))

/-- Pops that wait: the second step of a channel's cycle (R228). -/
def State.planPops (s : State) (d : Nat) : List Move :=
  let x := s.die d
  eventMoves (x.clockedCores.flatMap (fun c =>
    (sortOnce ((x.core c).strands.filterMap (fun z => z.2.popWait))).map (Instr.sparkPopGrant d c)))

/-- Turns of the strands that can issue, in the order of R49. -/
def State.turns (s : State) (d : Nat) (f : Nat → Nat → Move) : List Move :=
  let x := s.die d
  x.clockedCores.flatMap (fun c => ((x.order c).filter (fun k => s.canIssue ⟨d, c, k⟩)).map (f c))

/-- The sync unit's turns, of strands too whose own push is not applied yet (R228). -/
def State.planSyncs (s : State) (d : Nat) : List Move :=
  let x := s.die d
  x.clockedCores.flatMap (fun c => ((x.order c).filter (fun k => s.canIssue ⟨d, c, k⟩ || (x.core c).pushPending k)).map (Move.sync d c))

/-- The turns of the strands' own units, the scratchpad port and the engine port. -/
def State.planStrands (s : State) (d : Nat) : List Move := s.turns d (Move.early d)

/-- The strands left for the vector unit, when it is free, in its order: the one after its last winner first (R49). -/
def State.planVectors (s : State) (d : Nat) : List Move :=
  let x := s.die d
  x.clockedCores.flatMap (fun c =>
    let y := x.core c
    if y.vfree ≤ x.cycle (c / 4) then
      (([1, 2, 3, 4].map (fun i => (y.lastVec + i) % 4)).filter (fun k => s.canIssue ⟨d, c, k⟩ && (y.strand k).turn != x.tick + 1)).map
        (fun k => Move.strand d c k)
    else [])

/-- Cores that have nothing left to do (R52). -/
def State.planRetire (s : State) (d : Nat) : List Move :=
  let x := s.die d
  eventMoves ((x.coresOf x.heldCores (fun y => strandIds.all (fun k => (y.strand k).exited))).map (Instr.coreRetire d))

/-- Deadlines of the loads, the gangs and the strands (R32, R42, R47). -/
def State.planDeadlines (s : State) (d : Nat) : List Move :=
  let x := s.die d
  eventMoves ((x.gangs.filter (fun g => g.2.locked)).flatMap (fun g =>
    (if g.2.phase.isLoading then [Instr.loadLate d g.2.entry] else []) ++
    (if g.2.barDl.isSome then [Instr.barDeadline d g.1] else [])
      ++ g.2.cores.flatMap (fun c => (strandIds.filter (fun k => ((x.core c).strand k).steptick != 0)).map (Instr.steptickDeadline d c))))

/-! The end of a tick. -/

/-- The checks of the ports (R241, R243, R246, R252), and an exchange on the time tree that has ended (R239). What a port gives back it gives
before the agents of the higher classes act (R25, R222). -/
def State.planChecks (s : State) (d : Nat) : List Move :=
  let x := s.die d
  eventMoves (x.portsOf (fun q => q.recvs.any (q.lateRecv x.tick)) |>.map (Instr.receiveDeadline d))
    ++ eventMoves ((x.portsOf (fun q => q.state == .running && q.guardDue ≤ x.tick)).map (Instr.guardOverdue d))
    ++ eventMoves (((List.range 9).filter (fun p => s.portBroken d p)).map (Instr.portFailure d))
    ++ (match s.stamps d with
      | some (a, b, c, e) => eventMoves [Instr.timeExchange d a b c e]
      | none => [])

/-- Landing buffers whose flits nothing has taken, a collective admitted in the tick among it (R252). -/
def State.planExpiries (s : State) (d : Nat) : List Move :=
  eventMoves (((s.die d).portsOf (fun q => q.landing != [])).map (Instr.landingBufferExpiry d))

/-- Hand-overs that wait for the step end (R302). -/
def State.planIntakes (s : State) (d : Nat) : List Move := if (s.die d).intakes = [] then [] else [Move.intakes d]

/-- Aborts that have reached a die (R263). -/
def State.planAborts (s : State) (d : Nat) : List Move :=
  eventMoves (((s.die d).abortIn.filter (fun a => a.2.1 ≤ s.now d)).map (fun a => Instr.abortFlit d a.1))

/-- Sets of islands whose step is not the one they are to have (R55). -/
def State.planIslands (s : State) (d : Nat) : List Move :=
  let x := s.die d
  eventMoves ((sortOnce (x.islands.map Prod.fst ++ x.demand.map Prod.fst)).filter (fun i =>
    Tab.get x.islands i 8 != x.stepOf (x.islandSet i)) |>.map (fun i => Instr.throttleStep d i (Tab.get x.demand i 8)))

/-- Idle guards that have ended: before anything leaves the ports again (R241). -/
def State.planGuards (s : State) (d : Nat) : List Move :=
  if s.now d % 32768 == 16 then eventMoves ((List.range 9).map (Instr.idleGuard d)) else []

/-- The parts of a die's tick, in order: changes of clock steps, which hold from the tick on (R55), and ends of idle guards; operations at the
brand table by the classes of their agents, and scratchpad accesses by the precedence of R25; then the cores, and what the tick ends. -/
def tickParts : List (State → Nat → List Move) :=
  [State.planIslands, State.planGuards, State.planBrands, State.planFlits, State.planLinks, State.planDecodes, State.planTakes,
   (fun _ d => [Move.ports d]), State.planChecks, State.planOpens, State.planGangs, State.planBatches, State.planMatrix,
   State.planNeighbours, State.planCopies, State.planFills, (fun _ d => [Move.settle d]), State.planColls, State.planExpiries,
   State.planSampler, State.planIntakes, State.planBrandMsgs, State.planTlbis, State.planPhases, State.planEntries, State.planWaits,
   (fun _ d => [Move.pops d]), State.planPushes false, State.planPops, State.planSyncs, State.planPushes true, State.planStarts,
   (fun _ d => [Move.pops d]), State.planPops, State.planStrands, State.planVectors, State.planTenures, State.planRenewed,
   State.planRetire, State.planDeadlines, State.planAborts, State.planIntakes]

/-- The moves of part k of die d's tick; a die that is dead or in reset does nothing. -/
def State.part (s : State) (d k : Nat) : List Move :=
  if (s.die d).dead || (s.die d).inReset then []
  else
    match tickParts[k]? with
    | some f => f s d
    | none => []

/-- Every part of a die's tick. -/
def allParts (d : Nat) : List Move := (List.range tickParts.length).map (Move.plan d)

/-- Is a slew of the die due, and does it add a tick (R239)? -/
def Die.slewDue (x : Die) : Bool := 2 ≤ x.slewLeft.natAbs && x.slewNext ≤ x.tick && !x.withhold

/-- By how many ticks a die's reference clock has drifted in the last 100,000 nominal ones: at most one, which keeps it within 10 parts per
million (R240; log entry 66). -/
def State.driftOf (s : State) (d : Nat) : Int :=
  match Config.drift d (s.steps / 100000) % 3 with
  | 1 => 1
  | 2 => -1
  | _ => 0

/-- A die's count gains the tick that its clock runs ahead, or the next one is withheld (R240). -/
def State.drift (s : State) (d : Nat) : State :=
  s.modDie d (fun x =>
    if s.driftOf d = 1 then { x.flushEvents with tick := x.tick + 1 } else if s.driftOf d = -1 then { x with withhold := true } else x)

/-- The moves by which the reference clocks drift, where no slew of the tick is due; a die whose count gains a tick acts in it too. -/
def State.driftMoves (s : State) : List Move :=
  if s.steps % 100000 = 99999 then
    (s.pod.members.filter (fun d => !(s.die d).slewDue)).flatMap (fun d => Move.drift d :: (if s.driftOf d = 1 then allParts d else []))
  else []

/-- The moves of a tick: each part on every die in turn, then the drifts and the slews, a die whose count gains a tick acting in it too, then
the advance of pod time. -/
def State.tickPlan (s : State) : List Move :=
  let dies := s.pod.members
  (List.range tickParts.length).flatMap (fun k => dies.map (fun d => Move.plan d k))
    ++ s.driftMoves
    ++ (dies.filter (fun d => (s.die d).slewDue)).flatMap (fun d =>
      Move.event (.slew d) :: (if 0 < (s.die d).slewLeft then allParts d else []))
    ++ [Move.tick]

/-- The islands that have no cycle in a tick fall behind it by one more (R5, R55). -/
def Die.lagged (x : Die) : Tab Nat :=
  ((x.islands.map Prod.fst).filter (fun i => !x.clocked i)).foldl (fun t i => Tab.set t i (Tab.get t i 0 + 1)) x.lag

/-- A die's count advances, unless the tick is withheld; the tick's event records reach their rings (R238, R239, R303). -/
def Die.advance (x : Die) : Die :=
  let x1 : Die := { x.flushEvents.pruneAsks with batches := x.flushEvents.batches.filter (fun b => !b.tr.spent) }
  if x1.withhold then { x1 with withhold := false } else { x1 with tick := x1.tick + 1, lag := x1.lagged }

/-- Every die's pod time advances; messages that have come to their ends leave their lists. -/
def State.advance (s : State) : State :=
  { s with opens := s.opens.filter (fun o => !o.tr.spent), brandMsgs := s.brandMsgs.filter (fun b => !b.tr.spent),
           steps := s.steps + 1 }.each s.pod.members
    (fun s d => s.modDie d Die.advance)

end Sys2Proof.Machine
end

