-- ==== Sys2Proof/Machine/Step.lean ====
section
/-!
DEFINITION. One step of the machine: the head of the agenda is taken; an empty agenda is filled with the moves of the next tick
(log entry 1). Beside it, the state in which the next step runs one given instruction.
-/
namespace Sys2Proof.Machine

/-- A strand at its boundary (R75, R228, R290): a pending engine record first, then the wait for a pop that is not granted, then the
fetch, then the instruction it decodes. -/
def State.strandMove (s : State) (d c k : Nat) : Out :=
  let p : At := ⟨d, c, k⟩
  if !s.canIssue p then .next s
  else if (s.core d c).keptRecords.any (fun r => r.strand == k) then exec (.engineFault d c k) s
  else if (s.strand p).popWait.isSome && !(s.strand p).granted then .next (s.stall p (s.strand p).popWait)
  else
    match (s.core d c).fetch (s.strand p).fetchAt with
    | .hold => .next (s.stall p none)
    | .invalid _ => exec .fetchInvalid s
    | .words w0 w1 w2 =>
      match decodeStrand w0 w1 w2 with
      | .ok i => exec i s
      | .error .reservedField => .next (s.decodeTrap p .reservedField)
      | .error _ => exec .illegalOp s

/-- A link engine decodes the next instruction of its plan stream (R249). -/
def State.linkMove (s : State) (d p : Nat) : Out :=
  let q := s.port d p
  if q.state ≠ .running ∨ q.ended then .next s
  else
    match q.linkWord with
    | .ok i => exec i s
    | .error .reservedField => .next (s.linkFault d p .reservedField q.pc)
    | .error _ => exec .illegalOp s

/-- A link engine takes the instruction that stands first (R249). -/
def State.takeMove (s : State) (d p : Nat) : Out :=
  match (s.port d p).ops with
  | op :: _ => exec op.instr s
  | [] => .next s

/-- The sampler's run executes the word it stands at (R271). -/
def State.logitMove (s : State) (d : Nat) : Out :=
  match (s.die d).run with
  | none => .next s
  | some r =>
    match decodeLogit (r.prog.getD r.pc 0) with
    | .ok i => exec i s
    | .error _ => .next s

/-- A strand takes its turn in this cycle, unless it has had it (R49). -/
def State.turnMove (s : State) (d c k : Nat) : Out :=
  let z := s.strand ⟨d, c, k⟩
  if z.turn == s.now d + 1 then .next s
  else { s.modStrand ⟨d, c, k⟩ (fun z => { z with turn := s.now d + 1 }) with actor := .strand d c k }.strandMove d c k

/-- The unit that a strand's turn needs: that of its next instruction (R48); none but its own for an engine record or a failing
fetch. -/
def State.turnUnit (s : State) (p : At) : IssueUnit :=
  if (s.core p.d p.c).keptRecords.any (fun r => r.strand == p.k) then .own
  else
    match s.nextInstr p with
    | some i => i.unit
    | none => .own

/-- The channels whose pushes come before a strand's turn at the sync unit: that of the pop which it was granted, and those of its own
pushes that are not applied yet (R228). -/
def State.firstPushes (s : State) (p : At) : List Nat :=
  let z := s.strand p
  (if z.granted then z.popWait.toList else [])
    ++ ((s.core p.d p.c).held.filter (fun h => h.by_ == Pusher.retire p.k)).map (fun h => h.ch)

/-- The turn of a strand whose instruction is one of the sync unit, after the pushes that come before it. -/
def State.syncMove (s : State) (d c k : Nat) : Out :=
  let p : At := ⟨d, c, k⟩
  if s.turnUnit p != .sync then .next s
  else
    (s.each (s.firstPushes p) (fun s ch => s.applyPushes d c ch ((s.core d c).pushOrder ch))).turnMove d c k

/-- A strand whose next instruction is one of the vector unit leaves the turn to that unit's own order (R49). -/
def State.earlyMove (s : State) (d c k : Nat) : Out :=
  if s.turnUnit ⟨d, c, k⟩ == .vector then .next s else s.turnMove d c k

/-- Would a strand's instruction act now, if the channel that it pops held n? -/
def State.wouldAct (s : State) (p : At) (i : Instr) (ch n : Nat) : Bool :=
  let t := (s.modCore p.d p.c (fun y => { y with popAt := Tab.set y.popAt ch 0 }.setSpark ch n)).modStrand p (fun z =>
    { z with popWait := none, granted := true })
  match exec i { t with actor := .strand p.d p.c p.k } with
  | .next u => !(u.strand p).granted
  | _ => false

/-- The channel whose pop is all that a strand's instruction lacks (R48, R228). -/
def State.lacksPop (s : State) (p : At) : Option Nat :=
  match s.nextInstr p with
  | none => none
  | some i =>
    match popCh i.spark with
    | none => none
    | some ch => if s.wouldAct p i ch 1 && !s.wouldAct p i ch 0 then some ch else none

/-- The strands that are eligible but for a pop are found anew; nothing is granted yet (R228). -/
def State.findPops (s : State) (d : Nat) : State :=
  s.each (s.die d).clockedCores (fun s c => s.each strandIds (fun s k =>
    let p : At := ⟨d, c, k⟩
    if (s.strand p).turn == s.now d + 1 then s
    else
      let w := if s.canIssue p && (s.core d c).keptRecords.all (fun r => r.strand != k) then s.lacksPop p else none
      s.modStrand p (fun z => { z with popWait := w, granted := false })))

/-- One move. -/
def State.move (s : State) : Move → Out
  | .strand d c k => s.turnMove d c k
  | .sync d c k => s.syncMove d c k
  | .early d c k => s.earlyMove d c k
  | .pops d => .next (s.findPops d)
  | .link d p => { s with actor := .link d p }.linkMove d p
  | .take d p => { s with actor := .taken d p }.takeMove d p
  | .logit d => { s with actor := .logit d }.logitMove d
  | .event i => exec i { s with actor := .none }
  | .settle d => .next ((s.each (s.die d).settling (fun s c => s.settleCore d c)).each (s.die d).otherWaiting (fun s c =>
      s.otherTurn d c (s.core d c).otherQ.length))
  | .ports d => .next (s.portTicks d)
  | .drift d => .next (s.drift d)
  | .intakes d => .next (if (s.die d).stepEnd = some (s.now d) then s.handIntakes d else s)
  | .plan d k => .next { s with agenda := s.part d k ++ s.agenda }
  | .tick => .next s.advance

/-- One step. -/
def step (s : State) : Host.Outcome State Fault Refusal :=
  match s.agenda with
  | [] => .next { s with agenda := s.tickPlan }
  | m :: rest => { s with agenda := rest }.move m

/-! The next instruction, given. -/

/-- A gang of one core that runs. -/
def probeGang : Gang :=
  { entry := 0, tenant := 0, cores := [0], locked := false, det := false, prio := 0, seed := 0, start := 0, phase := .running,
    loadDone := 0, haltTick := 0, barDl := none, barDone := none, atomOpen := false, batches := 0, saved := [], savedPlanes := [],
    image := [], argBlock := [] }

/-- Words as bytes. -/
def wordBytes (ws : List Nat) : List Byte := ws.flatMap (leBytes 4)

/-- A strand word stands first in the code of a launched core, and its strand 0 acts next (R38, R39, R213). -/
def State.withStrandWord (s : State) (ws : List Nat) : State :=
  let s1 := s.claimHome 0 0 0 (agentOf 0 0 0)
  let s2 := s1.setGang 0 0 probeGang
  let s3 := s2.modCore 0 0 (fun y =>
    let z := y.strand 0
    { y with imem := Mem.write y.imem 0 (wordBytes ws), pages := Tab.set y.pages 0 .code, ctx := some (0, 0),
             strands := Tab.set y.strands 0 { z with pc := 0, far := none, running := true } })
  { s3 with agenda := [.strand 0 0 0] }

/-- A link word stands first in the plan stream of a running engine, which decodes it next (R248, R249). -/
def State.withLinkWord (s : State) (ws : List Nat) : State :=
  let q := s.port 0 0
  let s1 := s.setPort 0 0 { q with state := .running, snapPlan := Mem.write q.snapPlan 0x140 (wordBytes ws), pc := 0x140,
                                   ended := false, ops := [] }
  { s1 with agenda := [.link 0 0] }

/-- A logit word stands first in the program of a run of the sampler, before LSTOP (R271). -/
def State.withLogitWord (s : State) (w : Nat) : State :=
  let r : LogitRun :=
    { slot := 0, tenant := 0, prog := [w, 0xD], pc := 0, x := [0x3F800000#32, 0x40000000#32], prob := false, k := [], code := 0,
      token := none, count := false, done := false, st := 0, maskBits := [0#8], held := 0 }
  { s.modDie 0 (fun x => { x with run := some r }) with agenda := [.logit 0] }

/-- The state in which the next step fetches and runs the instruction of an opcode-table word. -/
def State.withFetchWord (s : State) (nbits w : Nat) : State :=
  let v := w % 2 ^ nbits
  let w0 := v % 2 ^ 32
  let w1 := v / 2 ^ 32 % 2 ^ 32
  let w2 := v / 2 ^ 64 % 2 ^ 32
  match decodeStrand w0 w1 w2 with
  | .ok _ => s.withStrandWord [w0, w1, w2]
  | .error _ =>
    match Sys2Proof.decodeLink w0 w1 w2 with
    | .ok _ => s.withLinkWord [w0, w1, w2]
    | .error _ =>
      match decodeLogit w0 with
      | .ok _ => s.withLogitWord w0
      | .error _ => s.withStrandWord [w0, w1, w2]

end Sys2Proof.Machine
end

