-- ==== Sys2Proof/Safety.lean ====
section
/-!
DEFINITION. The terms in which statements speak of the machine: when a strand's instruction issues and completes (R48, R66, R72,
R105, R225, R310), what its issue advances beside its own effect (R44, R48, R111, R358), and the canonical form of every memory
(log entry 3), which every step keeps.
-/
namespace Sys2Proof.Machine

/-! When an instruction completes. -/

/-- Strand p acts, and nothing holds its instruction i, which issues as the form f says: its vector names lie in the window (R66),
no engine result is awaited in a register that it uses (R310, R172), its delayed operands have come and its unit is free (R48, R358),
the pop that it needs can be taken (R228), the residues it checks match (R105), a release point finds every store performed (R225, R396),
and the brand window has the entries of its accesses (R204). -/
structure Ready (s : State) (p : At) (i : Instr) (f : Form) : Prop where
  acts : s.actor = .strand p.d p.c p.k
  may : s.canIssue p = true
  names : f.names.all (s.strand p).vnameOk = true
  free : f.uses.any (fun r => (s.strand p).await.any (fun a => a.1 == r.val)) = false
  flagsFree : (f.flags && (s.strand p).awaitFlags.isSome) = false
  operands : (s.core p.d p.c).operandsReady (s.strand p) (s.cyc p.d p.c) (s.readForm p i) = true
  unit : (s.core p.d p.c).unitFree (s.cyc p.d p.c) i = true
  pop : s.popMissing p f.sp = false
  residues : f.checked.all (fun r => ((s.strand p).sreg r).ok) = true
  lows : f.lowChecked.all (fun r => ((s.strand p).sreg r).lowOk) = true
  released : ((f.release || (f.pushes && (pushCh f.sp).isSome)) && (s.core p.d p.c).releaseWaits p.k i) = false
  window : (s.windowed p i).isSome = true

/-- The state in which an instruction's accesses have been judged: their entries are the ones used last in the brand window (R204). -/
def State.looked (s : State) (p : At) (i : Instr) : State := (s.windowed p i).getD s

/-- The state in which an instruction acts: its accesses judged, its pop taken (R228), the VFLAG results that are due landed (R111). -/
def State.opened (s : State) (p : At) (i : Instr) (sp : Spark) : State := ((s.looked p i).atPop p sp).modStrand p Strand.landDue

/-- The state in which an instruction that does not issue traps or fails its context: no pop is taken (R290). -/
def State.unissued (s : State) (p : At) (i : Instr) : State :=
  ((s.looked p i).modStrand p Strand.landDue).modStrand p (fun z => { z with granted := false })

/-- A strand but for what every issue advances: the pc, the segment's counts and signature (R44), and the notes of waits. -/
def Strand.forget (z : Strand) : Strand :=
  { z with pc := 0, far := none, sig := 0, segCount := 0, segStart := 0, stalled := false, popWait := none, granted := false,
           delays := [] }

/-- A core but for what every issue advances: beside the strand's part, the times of its units and of its delayed results (R48). -/
def Core.forget (y : Core) (k : Nat) : Core :=
  { y.setStrand k (y.strand k).forget with vfree := 0, lastVec := 0, unitAt := [], vready := [], pready := [] }

/-- A state but for what every issue of the strand at a place advances. -/
def State.forget (s : State) (p : At) : State := s.modCore p.d p.c (fun y => y.forget p.k)

/-- The instruction i of the strand at p has retired, and t is the state after it: control stands at next, the instruction is counted
in its segment and in the signature (R44, R111), and everything else in the whole machine is as in base. -/
structure Retires (p : At) (i : Instr) (next : Int) (base t : State) : Prop where
  rest : t.forget p = (base.modStrand p Strand.countIssue).forget p
  pc : (t.strand p).pc = BitVec.ofInt 18 next
  count : (t.strand p).segCount = (base.strand p).segCount + 1
  sig : (t.strand p).sig = (encode i).foldl crcWord (base.strand p).sig

/-- A push on retire of an instruction of the vector unit is on its way: it is made when every effect of the instruction has been (R72, R385). -/
def State.owing (s : State) (p : At) (i : Instr) (sp : Spark) (l : Nat) : State :=
  match pushCh sp with
  | none => s
  | some n => s.modCore p.d p.c (fun y => { y with retiring := y.retiring ++ [((s.core p.d p.c).effectsBy (s.cyc p.d p.c + i.vecDelay l) i, n, p.k)] })

/-- The form in which an instruction of a strand issues: the vector names checked against its window (R66), the registers it waits
for (R310) and those whose residue it checks (R105), whether it sees %flags (R172), its spark operation with whether it pushes at
retirement itself (R72), and whether it is a release point (R225). -/
def formOf (i : Instr) : Form :=
  match i with
  | .add d a b => { uses := [d, a, b] }
  | .addi d a _ => { uses := [d, a] }
  | .sub d a b => { uses := [d, a, b] }
  | .mul d a b => { uses := [d, a, b], checked := [a, b] }
  | .mulh _ d a b => { uses := [d, a, b], checked := [a, b] }
  | .div _ d a b => { uses := [d, a, b], checked := [a, b] }
  | .rem _ d a b => { uses := [d, a, b], checked := [a, b] }
  | .and d a b => { uses := [d, a, b], checked := [a, b] }
  | .or d a b => { uses := [d, a, b], checked := [a, b] }
  | .xor d a b => { uses := [d, a, b], checked := [a, b] }
  | .andn d a b => { uses := [d, a, b], checked := [a, b] }
  | .shlReg d a b => { uses := [d, a, b], checked := [a, b] }
  | .shlImm d a _ => { uses := [d, a], checked := [a] }
  | .shrReg d a b => { uses := [d, a, b], checked := [a, b] }
  | .shrImm d a _ => { uses := [d, a], checked := [a] }
  | .shaReg d a b => { uses := [d, a, b], checked := [a, b] }
  | .shaImm d a _ => { uses := [d, a], checked := [a] }
  | .rotReg d a b => { uses := [d, a, b], checked := [a, b] }
  | .rotImm d a _ => { uses := [d, a], checked := [a] }
  | .min _ d a b => { uses := [d, a, b], checked := [a, b] }
  | .max _ d a b => { uses := [d, a, b], checked := [a, b] }
  | .clz d a => { uses := [d, a], checked := [a] }
  | .popc d a => { uses := [d, a], checked := [a] }
  | .ext _ d a _ _ => { uses := [d, a], checked := [a] }
  | .ins d a _ _ => { uses := [d, d, a], checked := [d, a] }
  | .sel _ d a b => { uses := [d, a, b], flags := true }
  | .cmpReg a b => { uses := [a, b], checked := [a, b], flags := true }
  | .cmpImm a _ => { uses := [a], checked := [a], flags := true }
  | .setc _ d => { uses := [d], flags := true }
  | .li _ d _ => { uses := [d] }
  | .mov d a => { uses := [d, a] }
  | .adr d _ => { uses := [d] }
  | .place d a b => { uses := [d, a, b], checked := [a, b] }
  | .bc _ _ => { flags := true }
  | .brz _ a _ => { uses := [a], checked := [a] }
  | .call _ => { uses := [1] }
  | .callLong _ => { uses := [1] }
  | .callxReg a => { uses := [a, 1], checked := [a] }
  | .callxImm _ => { uses := [1] }
  | .jx d a => { uses := [d, a], checked := [a] }
  | .loop _ _ a _ => { uses := [a] }
  | .exit => { release := true }
  | .ld _ d a _ => { uses := [d, a], checked := [a] }
  | .st _ a b _ => { uses := [a, b], checked := [a, b] }
  | .rds d n => { uses := [d], flags := n == .flags }
  | .wrs n a => { uses := [a], checked := [a], flags := n == .flags }
  | .wrsImfree a => { uses := [a], checked := [a] }
  | .wrsWindow _ a => { uses := [a], checked := [a] }
  | .wrsPbase a => { uses := [a], checked := [a] }
  | .capr d a _ => { uses := [d, a], checked := [a] }
  | .spush _ => { release := true }
  | .spop ch => { sp := .pop ch }
  | .qfence _ => { release := true }
  | .cwait _ a => { uses := [a], checked := [a], release := true }
  | .bar _ a _ => { uses := [a], checked := [a], release := true }
  | .cbar => { release := true }
  | .waittReg a => { uses := [a], checked := [a] }
  | .waittImm a _ => { uses := [a], checked := [a] }
  | .segend _ a _ => { uses := [a], checked := [a] }
  | .nsend a b _ sp => { uses := [a, b], checked := [a, b], sp := sp, pushes := false, release := true }
  | .nrecv a b _ sp => { uses := [a, b], checked := [a, b], sp := sp, pushes := false, release := (pushCh sp).isSome }
  | .vadd _ o b r | .vsub _ o b r | .vmul _ o b r | .vfma _ o b r | .vfnma _ o b r =>
    { names := o.d.names ++ o.a.names ++ [b], uses := [r.c], checked := [r.c], release := !o.d.isReg }
  | .vmin _ o b | .vmax _ o b | .vand o b | .vor o b | .vxor o b | .vshl _ o (.reg b) | .vshr _ o (.reg b) | .vsel o b _ =>
    { names := o.d.names ++ o.a.names ++ [b], release := !o.d.isReg }
  | .vabs _ o | .vneg _ o | .vrcps o | .vrsqs o | .vexp2 o | .vlog2 o | .vmov o | .vshl _ o (.imm _) | .vshr _ o (.imm _) =>
    { names := o.d.names ++ o.a.names ++ [], release := !o.d.isReg }
  | .vredr _ _ o | .vredc _ _ o | .vsegr _ _ o _ => { names := o.d.names ++ o.a.names, release := !o.d.isReg }
  | .vcvt _ _ o r => { names := o.d.names ++ o.a.names ++ [], uses := [r.c], checked := [r.c], release := !o.d.isReg }
  | .vrotr o c _ | .vrotc o c _ | .vbcr o c _ | .vbcc o c _ =>
    { names := o.d.names ++ o.a.names ++ [], uses := [c], checked := [c], release := !o.d.isReg }
  | .vcmp _ _ _ a b _ _ => { names := a.names ++ [b] }
  | .vbcs d a _ _ => { names := d.names, uses := [a], lowChecked := [a], release := !d.isReg }
  | .viota _ _ d a _ _ _ => { names := d.names, uses := [a], lowChecked := [a], release := !d.isReg }
  | .pset _ _ c _ _ _ => { uses := [c], checked := [c] }
  | .vld _ _ d a e _ _ sp => { names := [d], uses := [a, e], checked := [a, e], sp := sp }
  | .vst _ _ a b e _ _ sp => { names := [b], uses := [a, e], checked := [a, e], sp := sp }
  | .vldq _ _ a e _ sp => { uses := [a, e], checked := [a, e], sp := sp, release := true }
  | .vstq _ _ a _ e _ sp => { uses := [a, e], checked := [a, e], sp := sp, pushes := false, release := (pushCh sp).isSome }
  | .vgath _ _ _ d a b _ _ sp => { names := [d, b], uses := [a], checked := [a], sp := sp }
  | .vscat _ _ _ a b e _ _ sp => { names := [b, e], uses := [a], checked := [a], sp := sp }
  | .vrag _ _ d a b _ _ sp => { names := [d, b], uses := [a], checked := [a], sp := sp }
  | .vquant _ a b e _ _ _ sp => { names := [b], uses := [a, e], checked := [a, e], sp := sp }
  | .vdeq _ _ d a _ _ sp => { names := [d], uses := [a], checked := [a], sp := sp }
  | .vrng _ _ d a _ sp => { names := [d], uses := [a], checked := [a], sp := sp }
  | .mlease | .mfree | .mswap => engineForm [] .none
  | .mfmt a => engineForm [a] .none
  | .mldw a _ sp => engineForm [a] sp
  | .mstrm a _ _ _ sp => engineForm [a] sp
  | .mdrain _ a b e g _ _ _ sp => engineForm [a, b, e, g] sp
  | .mchk _ d => { uses := [d], flags := true, pushes := false, release := true }
  | .cpy a b e _ sp => engineForm [a, b, e] sp
  | .cpys a b e g sp => engineForm [a, b, e, g] sp
  | .cpycs _ _ d a b e g _ sp => { engineForm [a, b, e, g] sp with uses := [d, a, b, e, g] }
  | .coll a _ sp => engineForm [a] sp
  | .smpl a b e g _ sp => engineForm [a, b, e, g] sp
  | .sbind _ a _ sp => engineForm [a] sp
  | .bclaim d a _ sp => { brandForm [d] [a] with sp := sp }
  | .bfree d a _ | .bret d a _ | .bsplit d a _ | .bshareAtomic d a _ | .bunsh d a _ | .bquery d a _ => brandForm [d] [a]
  | .blend d a b _ | .bxfer d a b _ | .bjoin d a b _ | .bshare d a b _ => brandForm [d] [a, b]
  | .slotrd d c _ _ => brandForm [d, c] []
  | .slotsw a _ _ => brandForm [] [a]
  | .atom _ _ d a b _ sp => { uses := [d, a, b], checked := [a, b], sp := sp, pushes := false, release := true }
  | .rsv _ a b e g sp => engineForm [a, b, e, g] sp
  | .tlbiq all a b sp => engineForm (if all then [] else [a, b]) sp
  | _ => {}

/-- The instruction i of the strand at p is ready to issue in its form. -/
abbrev Issues (s : State) (p : At) (i : Instr) : Prop := Ready s p i (formOf i)

/-- The state in which the instruction i of the strand at p acts. -/
def State.acting (s : State) (p : At) (i : Instr) : State := s.opened p i (formOf i).sp

/-- The instruction i of the strand at p completes: exec answers a next state, which is base but for what every issue advances, and
control stands at next. -/
def Completes (s : State) (p : At) (i : Instr) (next : Int) (base : State) : Prop :=
  ∃ t, exec i s = .next t ∧ Retires p i next base t

/-! The canonical form of memory. -/

/-- The canonical form of a byte memory: addresses strictly rising, no byte listed that an unlisted address would read as. -/
def Memory.wf (m : Mem) : Bool := Mem.wf m

/-- The memories of a core are canonical. -/
def Core.memWf (y : Core) : Bool := Memory.wf y.spad && Memory.wf y.imem

/-- The memories of a gang's saved contexts are canonical. -/
def Gang.memWf (g : Gang) : Bool := g.saved.all (fun sc => sc.image.memWf)

/-- The memories of a die are canonical: every scratchpad and instruction memory, HBM, the plan areas of the ports with their snapshots, and
what saves have put aside. -/
def Die.memWf (x : Die) : Bool :=
  x.cores.all (fun e => e.2.memWf) && Memory.wf x.hbm
    && x.ports.all (fun e => Memory.wf e.2.plan && Memory.wf e.2.snapPlan) && x.gangs.all (fun e => e.2.memWf)

/-- Every memory of the machine is canonical. -/
def State.memWf (s : State) : Bool := s.dies.all (fun e => e.2.memWf)

end Sys2Proof.Machine
end

