-- ==== Sys2Proof/Certificates/Slice0/Obligations.lean ====
section
/-!
DEFINITION. The statements for the provers, each formalising rules of the spec. A statement about an instruction of a strand has the
hypothesis Issues: the strand acts, nothing holds the instruction, and the residues it checks match; its conclusion says that exec
answers a next state, and what that state is: the instruction's own effect, and beside it nothing but what every issue advances
(Retires: the pc, the segment's count and signature, the notes of waits and of unit times). A write to s0 is discarded.
-/
namespace Sys2Proof.Claims
open Sys2Proof.Machine

/-- The instruction i of the strand at p writes v to register d (nothing when d is s0), goes on at next, and else leaves base. -/
def WritesOver (s : State) (p : At) (i : Instr) (d : Reg) (v : Word) (next : Int) (base : State) : Prop :=
  ∃ t, exec i s = .next t ∧ t.reg p d = (if d = 0 then 0 else v) ∧ Retires p i next (base.setReg p d 0) (t.setReg p d 0)

/-- It writes v to register d, goes on at next, and changes nothing else. -/
def Writes (s : State) (p : At) (i : Instr) (d : Reg) (v : Word) (next : Int) : Prop := WritesOver s p i d v next (s.acting p i)

/-- The same for an instruction that goes on at the one after it. -/
def Computes (s : State) (p : At) (i : Instr) (d : Reg) (v : Word) : Prop := Writes s p i d v ((s.strand p).after i)

/-- It completes in base, going on at the instruction after it. -/
def Proceeds (s : State) (p : At) (i : Instr) (base : State) : Prop := Completes s p i ((s.strand p).after i) base

/-- In t the strand at p stands at the handler of a trap that was taken from s (R287): its registers name the cause, the information and
the address to return to, its segment is void and its VFLAGs have landed; its scalar registers, the other strands and the
scratchpads are as before. -/
structure Handles (s : State) (p : At) (cause : Nat) (info : Word) (ret : Int) (t : State) : Prop where
  cause : (t.strand p).trapcause = BitVec.ofNat 8 cause
  info : (t.strand p).trapinfo = info
  ret : (t.strand p).trappc = BitVec.ofInt 18 ret
  pc : (t.strand p).pc = (s.strand p).trapvec
  void : (t.strand p).void = true
  landed : (t.strand p).vflags = []
  regs : (t.strand p).regs = (s.strand p).regs
  others : ∀ q, q ≠ p → t.strand q = s.strand q
  spads : ∀ d c, (t.core d c).spad = (s.core d c).spad

/-- The strand at p has a handler whose page holds code or is filling. -/
def HasHandler (s : State) (p : At) : Prop :=
  (s.strand p).trapvec ≠ 0 ∧ (s.core p.d p.c).page ((s.strand p).trapvec.toNat / 4096) ≠ .free

/-- The instruction i of the strand at p traps before it issues: the handler is entered, and returns to the instruction itself. -/
def Traps (s : State) (p : At) (i : Instr) (cause : Nat) (info : Word) : Prop :=
  HasHandler s p → ∃ t, exec i s = .next t ∧ Handles s p cause info (s.strand p).pc.toNat t

/-- It issues with the effect base, goes on at the next instruction, and its strand then waits in the way w. -/
def Waits (s : State) (p : At) (i : Instr) (w : Wait) (base : State) : Prop :=
  ∃ t, exec i s = .next t ∧ (t.strand p).wait = w
    ∧ Retires p i ((s.strand p).after i) base (t.modStrand p (fun z => { z with wait := .none }))

/-- The byte at a scratchpad offset as strand k reads it: from the newest entry of its own forwarding table that covers it, else from
the bank (R224). -/
def byteSeen (y : Core) (k x : Nat) : Byte :=
  match (y.strand k).fwd.reverse.find? (fun e => e.off ≤ x && x < e.off + e.data.length) with
  | some e => e.data.getD (x - e.off) 0
  | none => Mem.byte y.spad x

/-- A byte under rows of stores, each laid over it where its mask has a one (R398). -/
def byteUnder (rows : List (Nat × List Byte × List Byte)) (x : Nat) (b : Byte) : Byte :=
  rows.foldl (fun b r => if r.1 ≤ x ∧ x < r.1 + r.2.1.length then
    (r.2.1.getD (x - r.1) 0 &&& r.2.2.getD (x - r.1) 0) ||| (b &&& ~~~(r.2.2.getD (x - r.1) 0)) else b) b

/-- The byte at a scratchpad offset as a vector access of strand k finds it: its own table's stores and every vector store accepted
before are performed first (R224). -/
def byteAhead (y : Core) (k x : Nat) : Byte := byteUnder (y.vstores.flatMap (fun v => v.rows)) x (byteSeen y k x)

/-- The number that n bytes form, the first the least significant (R6). -/
def leSum (f : Nat → Byte) : Nat → Nat
  | 0 => 0
  | n + 1 => leSum f n + (f n).toNat * 256 ^ n

/-- Is element e active under an element predicate (R68)? -/
def active (y : Core) (z : Strand) (q : PredOp) (e : Nat) : Bool := e < 1024 && ((y.pred (z.pphys q.p)).getLsbD e != q.neg)

/-- A vector that holds, at each element e, the result where e is active, and else zero under ZM or the old element (R68). -/
def Merged (y : Core) (z : Strand) (q : PredOp) (zm : Bool) (el : Nat → Option W32) (old v : List W32) : Prop :=
  ∀ e, v[e]? = (el e).bind (fun r => (old[e]?).map (fun w => if active y z q e then r else if zm then 0 else w))

/-- Status bits that are exactly those of the active elements (R141). -/
def Gathered (y : Core) (z : Strand) (q : PredOp) (el : Nat → Option Res) (st : Status) : Prop :=
  ∀ k, st.getLsbD k = true ↔ ∃ e r, el e = some r ∧ active y z q e = true ∧ r.2.getLsbD k = true

/-- A format V instruction whose element e results in el e, where the sources hold one: its operand A, if from a queue, is popped, the
merged vector goes to its destination, and the status bits of its active elements, with extra ones, are set. It needs a head in
the operand queue and room in the store queue that it names (R69, R117). -/
def VectorWrites (s : State) (p : At) (i : Instr) (o : VOp) (extra : Status) (el : Nat → Option Res) : Prop :=
  let t := s.acting p i
  let y := t.core p.d p.c
  let z := y.strand p.k
  Issues s p i → o.a.ready y = true → o.d.room y = true →
    ∃ v st, Merged y z o.pred o.zm (fun e => (el e).map Prod.fst) (o.d.old y z) v ∧ Gathered y z o.pred el st
      ∧ Proceeds s p i ((t.setCore p.d p.c (o.d.put (o.a.take y) z v)).orStatus p (st ||| extra))

/-- Operand A and operand B as the instruction i finds them. -/
def opA (s : State) (p : At) (i : Instr) (o : VOp) (e : Nat) : Option W32 :=
  let y := (s.acting p i).core p.d p.c
  (o.a.value y (y.strand p.k))[e]?
def opB (s : State) (p : At) (i : Instr) (b : VReg) (e : Nat) : Option W32 :=
  let y := (s.acting p i).core p.d p.c
  (y.vreg ((y.strand p.k).vphys b))[e]?

/-- Results of one and of two operands, without a status bit. -/
def map1 (f : W32 → W32) (a : Option W32) : Option Res := a.map (fun x => (f x, 0))
def map2 (f : W32 → W32 → W32) (a b : Option W32) : Option Res := a.bind (fun x => b.map (fun y => (f x y, 0)))

/-- The code of width w at place n of the numbers that stand packed in bytes from an offset on (R130). -/
def codeIn (f : Nat → Byte) (off w n : Nat) : Nat := leSum (fun j => f (off + j)) ((w * (n + 1) + 7) / 8) / 2 ^ (w * n) % 2 ^ w

/-- That code in the scratchpad as a vector access of strand k finds it. -/
def codeSeen (y : Core) (k off w n : Nat) : Nat := codeIn (byteAhead y k) off w n

/-- The sixteen rows of a row form lie at the offsets offs of the core's scratchpad, which it may access: a base of 16-byte alignment,
rows that follow each other or stand a register's multiple of 16 apart, and, for a store, do not share a byte unless the stride is 0
(R396, R397, R398). -/
def RowsAt (s : State) (p : At) (i : Instr) (acc : Access) (ef : EF) (a e : Reg) (lit : BitVec 32) (offs : Nat → Nat) : Prop :=
  let base : Int := (s.reg p a).toNat + lit.toInt
  let stride : Nat := if e = 0 then 8 * ef.width else (s.reg p e).toNat
  base % 16 = 0 ∧ (e ≠ 0 → stride % 16 = 0 ∧ (acc = .write → stride = 0 ∨ 8 * ef.width ≤ stride))
    ∧ ∀ r, r < 16 → base + r * stride = 2 ^ 63 + (offs r : Int) ∧ offs r + 8 * ef.width ≤ 0x400000
        ∧ (s.acting p i).judgeStrand p.d p.c acc (offs r) (8 * ef.width) = .ok

/-- Elements of n bytes lie at the offsets of a list, each at 2^63 more, and the core may access them (R396, R399). -/
def ElemsAt (s : State) (p : At) (i : Instr) (acc : Access) (n : Nat) (base : Int) (es : List Nat) (addr off : Nat → Nat) : Prop :=
  base % n = 0 ∧ ∀ e ∈ es, base + addr e * n = 2 ^ 63 + (off e : Int) ∧ off e + n ≤ 0x400000
    ∧ (s.acting p i).judgeStrand p.d p.c acc (off e) n = .ok

/-- It completes in base, and its push on retire is on its way: it is made when the instruction retires, L lines being served by the
busiest bank (R72, R385, R395). -/
def Retiring (s : State) (p : At) (i : Instr) (base : State) : Prop :=
  ∃ u, exec i s = .next u ∧ Retires p i ((s.strand p).after i) (base.owing p i (formOf i).sp ((s.acting p i).bankLines p i)) u

/-! Exact values and their rounding. -/

/-- The rational that an exact finite value stands for. -/
def ratio (neg : Bool) (n d : Nat) (e : Int) : Rat := (if neg then -1 else 1) * ((n : Rat) / d) * (2 : Rat) ^ e

/-- The rational of an exact value that is a number. -/
def valueOf : XVal → Rat
  | .num s n d e => ratio s n d e
  | _ => 0

/-- An exact value that is a number. -/
def IsNumber (x : XVal) : Prop := ∃ s n d e, x = .num s n d e ∧ 0 < d

/-- The magnitude of code k of a floating format, its binades going on past the largest (R132, R137). -/
def gridPoint (f : Flt) (k : Nat) : Rat :=
  let t := f.prec - 1
  let m : Rat := ((k % 2 ^ t : Nat) : Rat) / (2 : Rat) ^ t
  if k / 2 ^ t = 0 then (2 : Rat) ^ (1 - (f.bias : Int)) * m else (2 : Rat) ^ (((k / 2 ^ t : Nat) : Int) - (f.bias : Int)) * (1 + m)

/-- A rational goes to the point k of a grid of magnitudes in a mode: it lies between two neighbours, and the mode chooses; the
stochastic one by the number sr that was drawn (R136, R137, R138). -/
def Gridded (g : Nat → Rat) (m : RMode) (sr : Nat) (x : Rat) (k : Nat) : Prop :=
  ∃ l, let a := if x < 0 then -x else x
    let u := (a - g l) / (g (l + 1) - g l)
    g l ≤ a ∧ a < g (l + 1) ∧ k = if u = 0 then l else
      match m with
      | .near => if u < 1 / 2 ∨ u = 1 / 2 ∧ l % 2 = 0 then l else l + 1
      | .zero => l
      | .down => if x < 0 then l + 1 else l
      | .up => if x < 0 then l else l + 1
      | .away => if u < 1 / 2 then l else l + 1
      | .stoch => if x < 0 then (if (sr + 1 : Rat) ≤ 65536 * (1 - u) then l else l + 1)
        else if (sr + 1 : Rat) ≤ 65536 * u then l + 1 else l

/-- The code and the status bits of a rational in a floating format, with the sign that a zero has (R137). -/
def RoundedFloat (f : Flt) (m : RMode) (sat : Bool) (sr : Nat) (neg : Bool) (x : Rat) (r : Nat × Status) : Prop :=
  ∃ k, Gridded (gridPoint f) m sr x k ∧
    let sign := if neg && !f.unsign then 2 ^ (f.width - 1) else 0
    r = if f.unsign = true ∧ x < 0 ∧ k ≠ 0 then (if sat then (0, stOverflow ||| stInexact) else (f.nan, stInvalid))
      else if f.maxIdx < k then
        (if sat = true ∨ m = .zero ∨ (m = .down ∧ 0 < x) ∨ (m = .up ∧ x < 0) then sign + f.maxIdx
          else if f.hasInf then sign + (f.maxIdx + 1) else f.nan, stOverflow ||| stInexact)
      else (if k = 0 ∧ f.small = true then 0 else sign + k, if gridPoint f k = (if x < 0 then -x else x) then 0 else stInexact)

/-- The integer and the status bits of a rational in an integer format of some bits (R137). -/
def RoundedInt (signed : Bool) (bits : Nat) (m : RMode) (sr : Nat) (x : Rat) (r : Int × Status) : Prop :=
  ∃ k : Nat, Gridded (fun n => (n : Rat)) m sr x k ∧
    let y : Int := if x < 0 then -(k : Int) else k
    let lo : Int := if signed then -(2 ^ (bits - 1)) else 0
    let hi : Int := if signed then 2 ^ (bits - 1) - 1 else 2 ^ bits - 1
    r = if y < lo then (lo, stOverflow ||| stInexact) else if hi < y then (hi, stOverflow ||| stInexact)
      else (y, if (y : Rat) = x then 0 else stInexact)

/-- An f32 result and its status bits are those of a rational. -/
def Rounded32 (m : RMode) (sat : Bool) (sr : Nat) (neg : Bool) (x : Rat) (r : W32 × Status) : Prop :=
  RoundedFloat fltF32 m sat sr neg x (r.1.toNat, r.2)

end Sys2Proof.Claims
open Sys2Proof Sys2Proof.Machine Sys2Proof.Claims

/-! Scalar instructions. -/

/-- R312: ADD, AND, ANDN and CLZ write the sum modulo 2^64, the conjunctions and the number of zero bits above the highest 1 bit;
flags and status stay, a write to s0 is discarded, and the result waits for no delay. -/
def Obligations.SumAndConjunctions : Prop :=
  ∀ (s : State) (p : At) (d a b : Reg),
    (Issues s p (.add d a b) → Computes s p (.add d a b) d (BitVec.ofNat 64 ((s.reg p a).toNat + (s.reg p b).toNat)))
    ∧ (Issues s p (.and d a b) → Computes s p (.and d a b) d (s.reg p a &&& s.reg p b))
    ∧ (Issues s p (.andn d a b) → Computes s p (.andn d a b) d (s.reg p a &&& ~~~(s.reg p b)))
    ∧ (Issues s p (.clz d a) → Computes s p (.clz d a) d
        (BitVec.ofNat 64 ((List.range 64).countP (fun k => (s.reg p a).toNat < 2 ^ k))))
    ∧ Instr.delayed (.add d a b) = none ∧ Instr.delayed (.and d a b) = none ∧ Instr.delayed (.andn d a b) = none
    ∧ Instr.delayed (.clz d a) = none

/-- R360: MUL, MULH, OR, POPC, REM and SUB. The remainder is the dividend's for a zero divisor, and else the dividend less the
divisor times the truncated quotient; for every other divisor the quotient that DIV writes, times it, and the remainder give the
dividend modulo 2^64. -/
def Obligations.ProductsAndRemainders : Prop :=
  ∀ (s : State) (p : At) (d a b : Reg) (u : Bool),
    let x := s.reg p a
    let y := s.reg p b
    let m : Int := if u then x.toNat else x.toInt
    let n : Int := if u then y.toNat else y.toInt
    (Issues s p (.mul d a b) → Computes s p (.mul d a b) d (BitVec.ofNat 64 (x.toNat * y.toNat)))
    ∧ (Issues s p (.mulh u d a b) → Computes s p (.mulh u d a b) d (BitVec.ofInt 64 (m * n / 2 ^ 64)))
    ∧ (Issues s p (.or d a b) → Computes s p (.or d a b) d (x ||| y))
    ∧ (Issues s p (.popc d a) → Computes s p (.popc d a) d (BitVec.ofNat 64 ((List.range 64).countP (fun k => x.getLsbD k))))
    ∧ (Issues s p (.rem u d a b) → Computes s p (.rem u d a b) d
        (if n = 0 then x else BitVec.ofInt 64 (m - n * Int.tdiv m n)))
    ∧ (Issues s p (.sub d a b) → Computes s p (.sub d a b) d (BitVec.ofInt 64 ((x.toNat : Int) - y.toNat)))
    ∧ (n ≠ 0 → Issues s p (.div u d a b) → Issues s p (.rem u d a b) → ∃ q r : Word, Computes s p (.div u d a b) d q
        ∧ Computes s p (.rem u d a b) d r ∧ x = BitVec.ofInt 64 (q.toInt * y.toInt + r.toInt))

/-- R338: DIV writes all ones for a zero divisor, and else the quotient rounded toward zero, modulo 2^64. -/
def Sys2Proof.Claims.Quotient : Prop :=
  ∀ (s : State) (p : At) (d a b : Reg) (u : Bool), Issues s p (.div u d a b) →
    let m : Int := if u then (s.reg p a).toNat else (s.reg p a).toInt
    let n : Int := if u then (s.reg p b).toNat else (s.reg p b).toInt
    Computes s p (.div u d a b) d (if n = 0 then 0xFFFFFFFFFFFFFFFF else BitVec.ofInt 64 (Int.tdiv m n))

/-- R405: XOR in format R with opcode 0x00A and F zero (the word's example and its refusal), on the strand-local unit; it writes the
exclusive or and changes no flag. -/
def Obligations.ExclusiveOr : Prop :=
  (∀ d a b : Reg, encode (.xor d a b) = [0x00A * 4 + d.val * 2 ^ 12 + a.val * 2 ^ 17 + b.val * 2 ^ 22])
  ∧ decodeStrand 0x039AC028 0 0 = .ok (.xor 12 13 14)
  ∧ (∀ f : Fin 32, f ≠ 0 → decodeStrand (0x039AC028 + f.val * 2 ^ 27) 0 0 = .error .reservedField)
  ∧ ∀ (s : State) (p : At) (d a b : Reg), Instr.unit (.xor d a b) = .own ∧
      (Issues s p (.xor d a b) → Computes s p (.xor d a b) d (s.reg p a ^^^ s.reg p b))

/-- R352: MIN writes the lesser and MAX the greater of the two operands, compared signed, or unsigned under U; their words, and the
example with -1 and 1. -/
def Obligations.LesserAndGreater : Prop :=
  (∀ (u : Bool) (d a b : Reg), encode (.min u d a b) =
      [0x010 * 4 + d.val * 2 ^ 12 + a.val * 2 ^ 17 + b.val * 2 ^ 22 + (if u then 2 ^ 27 else 0)]
    ∧ encode (.max u d a b) = [0x011 * 4 + d.val * 2 ^ 12 + a.val * 2 ^ 17 + b.val * 2 ^ 22 + (if u then 2 ^ 27 else 0)])
  ∧ decodeStrand 0x039AC040 0 0 = .ok (.min false 12 13 14) ∧ decodeStrand 0x039AC044 0 0 = .ok (.max false 12 13 14)
  ∧ decodeStrand 0x0B9AC044 0 0 = .ok (.max true 12 13 14)
  ∧ (∀ f : Fin 32, 2 ≤ f.val → decodeStrand (0x039AC040 + f.val * 2 ^ 27) 0 0 = .error .reservedField
      ∧ decodeStrand (0x039AC044 + f.val * 2 ^ 27) 0 0 = .error .reservedField)
  ∧ ∀ (s : State) (p : At) (u : Bool) (d a b : Reg),
      let x := s.reg p a
      let y := s.reg p b
      let less : Prop := if u then x.toNat < y.toNat else x.toInt < y.toInt
      Instr.unit (.min u d a b) = .own ∧ Instr.unit (.max u d a b) = .own
      ∧ (Issues s p (.min u d a b) → (less → Computes s p (.min u d a b) d x) ∧ (¬less → Computes s p (.min u d a b) d y))
      ∧ (Issues s p (.max u d a b) → (less → Computes s p (.max u d a b) d y) ∧ (¬less → Computes s p (.max u d a b) d x))

/-- R361: shifts and rotation by n, which is the low six bits of the register or the immediate. -/
def Sys2Proof.Claims.ShiftsAndRotation : Prop :=
  ∀ (s : State) (p : At) (d a b : Reg) (k : Fin 64),
    let x := s.reg p a
    let n := (s.reg p b).toNat % 64
    let shl (n : Nat) : Word := BitVec.ofNat 64 (x.toNat * 2 ^ n)
    let shr (n : Nat) : Word := BitVec.ofNat 64 (x.toNat / 2 ^ n)
    let sha (n : Nat) : Word := BitVec.ofInt 64 (x.toInt / 2 ^ n)
    let rot (n : Nat) : Word := BitVec.ofNat 64 (x.toNat / 2 ^ n + x.toNat % 2 ^ n * 2 ^ (64 - n))
    (Issues s p (.shlReg d a b) → Computes s p (.shlReg d a b) d (shl n))
    ∧ (Issues s p (.shrReg d a b) → Computes s p (.shrReg d a b) d (shr n))
    ∧ (Issues s p (.shaReg d a b) → Computes s p (.shaReg d a b) d (sha n))
    ∧ (Issues s p (.rotReg d a b) → Computes s p (.rotReg d a b) d (rot n))
    ∧ (Issues s p (.shlImm d a k) → Computes s p (.shlImm d a k) d (shl k.val))
    ∧ (Issues s p (.shrImm d a k) → Computes s p (.shrImm d a k) d (shr k.val))
    ∧ (Issues s p (.shaImm d a k) → Computes s p (.shaImm d a k) d (sha k.val))
    ∧ (Issues s p (.rotImm d a k) → Computes s p (.rotImm d a k) d (rot k.val))

/-- R341: bit i of an EXT result is bit POS + i of the source below LEN, and above it zero or, under S, the field's top bit; INS
replaces the field of sD by the low bits of sA. LEN is 1 to 64 and the field lies in the word (R340). -/
def Sys2Proof.Claims.BitFields : Prop :=
  ∀ (s : State) (p : At) (sx : Bool) (d a : Reg) (pos : Fin 64) (len : Fin 128),
    1 ≤ len.val → pos.val + len.val ≤ 64 →
    (Issues s p (.ext sx d a pos len) →
      ∃ v, Computes s p (.ext sx d a pos len) d v ∧ ∀ i, i < 64 → v.getLsbD i =
        if i < len.val then (s.reg p a).getLsbD (pos.val + i) else sx && (s.reg p a).getLsbD (pos.val + len.val - 1))
    ∧ (Issues s p (.ins d a pos len) →
      ∃ v, Computes s p (.ins d a pos len) d v ∧ ∀ i, i < 64 → v.getLsbD i =
        if pos.val ≤ i ∧ i < pos.val + len.val then (s.reg p a).getLsbD (i - pos.val) else (s.reg p d).getLsbD i)

/-- Shifts, rotations, bit fields and division: Claims.Quotient, Claims.ShiftsAndRotation, Claims.BitFields. -/
def Obligations.ShiftsFieldsAndQuotient : Prop := Claims.Quotient ∧ Claims.ShiftsAndRotation ∧ Claims.BitFields

/-- R313, R314, R350, R357, R362, R54: sums with an immediate and with the pc, literals, moves, selections by a condition code, and
PLACE, whose result is the first Philox word of the task spread over the places. -/
def Sys2Proof.Claims.LiteralsAndSelections : Prop :=
  ∀ (s : State) (p : At) (d a b : Reg) (imm : BitVec 20) (lit : BitVec 32) (cc : Cond),
    let f := ((s.acting p (.mov d a)).strand p).flags
    let n : Nat := if (s.reg p b).toNat % 2 ^ 32 = 0 then 2 ^ 32 else (s.reg p b).toNat % 2 ^ 32
    let q := (philoxDraw (s.seed p.d p.c) (s.reg p a) 0 1).a
    (Issues s p (.addi d a imm) → Computes s p (.addi d a imm) d (BitVec.ofInt 64 ((s.reg p a).toInt + imm.toInt)))
    ∧ (Issues s p (.adr d lit) → Computes s p (.adr d lit) d (BitVec.ofInt 64 (((s.strand p).pc.toNat : Int) + lit.toInt)))
    ∧ (Issues s p (.li .sx d lit) → Computes s p (.li .sx d lit) d (BitVec.ofInt 64 lit.toInt))
    ∧ (Issues s p (.li .zx d lit) → Computes s p (.li .zx d lit) d (BitVec.ofNat 64 lit.toNat))
    ∧ (Issues s p (.li .hi d lit) → Computes s p (.li .hi d lit) d
        (BitVec.ofNat 64 (lit.toNat * 2 ^ 32 + (s.reg p d).toNat % 2 ^ 32)))
    ∧ (Issues s p (.mov d a) → Computes s p (.mov d a) d (s.reg p a))
    ∧ (Issues s p (.sel cc d a b) → Computes s p (.sel cc d a b) d (if condHolds f cc then s.reg p a else s.reg p b))
    ∧ (Issues s p (.setc cc d) → Computes s p (.setc cc d) d (if condHolds f cc then 1 else 0))
    ∧ (Issues s p (.place d a b) → Computes s p (.place d a b) d (BitVec.ofNat 64 (q.toNat * n / 2 ^ 32)))

/-- R320: what each condition code tests, and that codes 15 to 31 raise RESERVED_FIELD in the three instructions that hold one. -/
def Obligations.ConditionCodes : Prop :=
  (∀ f : BitVec 8,
    let eq := f.getLsbD 0
    let lt := f.getLsbD 1
    let ltu := f.getLsbD 2
    let any := f.getLsbD 4
    let all := f.getLsbD 5
    let none := f.getLsbD 6
    [Cond.eq, .ne, .lt, .ge, .ltu, .geu, .le, .gt, .leu, .gtu, .any, .none, .all, .nall, .al].map (condHolds f)
      = [eq, !eq, lt, !lt, ltu, !ltu, lt || eq, !lt && !eq, ltu || eq, !ltu && !eq, any, none, all, !all, true])
  ∧ (∀ c : Fin 32, Cond.ofCode c = [Cond.eq, .ne, .lt, .ge, .ltu, .geu, .le, .gt, .leu, .gtu, .any, .none, .all, .nall, .al][c.val]?)
  ∧ (∀ c : Fin 32, 15 ≤ c.val → decodeStrand (0x00000105 + c.val * 2 ^ 27) 2 0 = .error .reservedField
      ∧ decodeStrand (0x039AC058 + c.val * 2 ^ 27) 0 0 = .error .reservedField
      ∧ decodeStrand (0x0000C060 + c.val * 2 ^ 27) 0 0 = .error .reservedField)
  ∧ (∀ (s : State) (p : At) (i : Instr), ((s.acting p i).strand p).flags =
      ((s.strand p).vflags.filter (fun e => e.left == 0)).foldl vectorFlags (s.strand p).flags)

/-- R326: CMP sets EQ, LT and LTU from its operands, the second a register or a sign-extended immediate, and changes no other bit
of %flags and nothing else. -/
def Sys2Proof.Claims.Comparison : Prop :=
  ∀ (s : State) (p : At) (a b : Reg) (imm : BitVec 20),
    let compared (i : Instr) (x y : Word) : Prop :=
      ∃ f : BitVec 8, Proceeds s p i ((s.acting p i).modStrand p (fun z => { z with flags := f }))
        ∧ (f.getLsbD 0 = true ↔ x = y) ∧ (f.getLsbD 1 = true ↔ x.toInt < y.toInt) ∧ (f.getLsbD 2 = true ↔ x.toNat < y.toNat)
        ∧ ∀ k, 3 ≤ k → f.getLsbD k = ((s.acting p i).strand p).flags.getLsbD k
    (Issues s p (.cmpReg a b) → compared (.cmpReg a b) (s.reg p a) (s.reg p b))
    ∧ (Issues s p (.cmpImm a imm) → compared (.cmpImm a imm) (s.reg p a) (BitVec.ofInt 64 imm.toInt))

/-- Literals, selections and comparisons: Claims.LiteralsAndSelections, Claims.Comparison. -/
def Obligations.ComparisonAndLiterals : Prop := Claims.LiteralsAndSelections ∧ Claims.Comparison

/-- R105: when the residues of the operands match their values, those that ADD, ADDI, SUB, MOV, SEL, LOOP and li.hi carry into
their results match too. -/
def Sys2Proof.Claims.CarriedResidues : Prop :=
  ∀ (s : State) (p : At) (d a b : Reg) (imm : BitVec 20) (lit : BitVec 32) (cc : Cond) (rv rp : Bool),
    let good (r : Reg) : Prop := ((s.strand p).sreg r).ok = true
    let leaves (i : Instr) (r : Reg) : Prop := Issues s p i → ∃ t, exec i s = .next t ∧ ((t.strand p).sreg r).ok = true
    (good a → good b → leaves (.add d a b) d ∧ leaves (.sub d a b) d ∧ leaves (.sel cc d a b) d)
    ∧ (good a → leaves (.addi d a imm) d ∧ leaves (.mov d a) d ∧ leaves (.loop rv rp a imm) a)
    ∧ (good d → leaves (.li .hi d lit) d)

/-- R105: a source whose residue does not match raises RESIDUE, a machine check that fails the context, whatever the instruction: of a
register read whole, of the low half that one uses, and of a BAR's operand where it is read (in Locked mode), after which the barriers
are looked at. -/
def Sys2Proof.Claims.WrongResidue : Prop :=
  ∀ (s : State) (p : At) (i : Instr),
    let f := formOf i
    let z := s.strand p
    let failed := (s.unissued p i).declareFailed p.d p.c p.k z.pc.toNat .residue
    s.actor = .strand p.d p.c p.k → s.canIssue p = true → f.names.all z.vnameOk = true →
    f.uses.any (fun r => z.await.any (fun a => a.1 == r.val)) = false → (f.flags && z.awaitFlags.isSome) = false →
    (s.core p.d p.c).operandsReady z (s.cyc p.d p.c) (s.readForm p i) = true → (s.core p.d p.c).unitFree (s.cyc p.d p.c) i = true →
    s.popMissing p f.sp = false → (s.windowed p i).isSome = true →
    (∃ r, (r ∈ f.checked ∧ (z.sreg r).ok = false) ∨ (r ∈ f.lowChecked ∧ (z.sreg r).lowOk = false)) →
      ((∀ stp a imm, i ≠ .bar stp a imm) → exec i s = .next failed)
      ∧ (∀ stp a imm, i = .bar stp a imm → s.locked p.d p.c = true → exec i s = .next (failed.noteArrivals p))

/-- Residues carried with values, and the machine check of one that does not match: Claims.CarriedResidues, Claims.WrongResidue. -/
def Obligations.Residues : Prop := Claims.CarriedResidues ∧ Claims.WrongResidue

/-! Control. -/

/-- R321: a taken transfer goes to the address of its own word 0 plus four times the immediate, or plus the literal; one not taken
goes on at the next instruction. -/
def Sys2Proof.Claims.Branches : Prop :=
  ∀ (s : State) (p : At) (a : Reg) (imm : BitVec 20) (lit : BitVec 32) (cc : Cond) (nz : Bool),
    let pc : Int := (s.strand p).pc.toNat
    let goes (i : Instr) (next : Int) : Prop := Issues s p i → Completes s p i next (s.acting p i)
    goes (.b imm) (pc + 4 * imm.toInt)
    ∧ goes (.bLong lit) (pc + lit.toInt)
    ∧ goes (.bc cc imm) (if condHolds ((s.acting p (.bc cc imm)).strand p).flags cc then pc + 4 * imm.toInt else pc + 8)
    ∧ goes (.brz nz a imm) (if (s.reg p a = 0) ↔ nz = false then pc + 4 * imm.toInt else pc + 8)

/-- R321, R342: CALL leaves the next address in s1; JX leaves it in sD and goes to the old value of sA, or traps when that is no
multiple of 4. -/
def Sys2Proof.Claims.Calls : Prop :=
  ∀ (s : State) (p : At) (d a : Reg) (imm : BitVec 20) (lit : BitVec 32),
    let pc : Int := (s.strand p).pc.toNat
    (Issues s p (.call imm) → Writes s p (.call imm) 1 (BitVec.ofInt 64 (pc + 8)) (pc + 4 * imm.toInt))
    ∧ (Issues s p (.callLong lit) → Writes s p (.callLong lit) 1 (BitVec.ofInt 64 (pc + 12)) (pc + lit.toInt))
    ∧ (Issues s p (.jx d a) → (s.reg p a).toNat % 4 = 0 →
        Writes s p (.jx d a) d (BitVec.ofInt 64 (pc + 4)) (s.reg p a).toNat)
    ∧ (Issues s p (.jx d a) → (s.reg p a).toNat % 4 ≠ 0 → Traps s p (.jx d a) 0x03 0)

/-- R122, R123, R124, R431: CALLX of an index whose entry is valid, well formed and fits the window goes to its target with the next
address in s1; the entry is read as the strand sees its bytes, once its own vector stores over them are performed, and a store of
another strand still on its way sets XRACE. The checks in their order: an index above 255, a misaligned %import, an entry that lies
outside the scratchpad or that the core may not read, an entry that is not valid, one with a reserved bit, a misaligned target or a
need above 16, and one that needs a larger window. -/
def Sys2Proof.Claims.ImportCalls : Prop :=
  ∀ (s : State) (p : At) (a : Reg) (imm : BitVec 20) (i : Instr) (w : Word) (off : Nat),
    (i = .callxReg a ∧ w = s.reg p a ∨ i = .callxImm imm ∧ w = BitVec.ofInt 64 imm.toInt) → Issues s p i →
    let t := s.acting p i
    let y := t.core p.d p.c
    let z := s.strand p
    let at_ : Int := (z.importTab.toNat : Int) + 8 * w.toNat
    let e := leSum (fun j => byteSeen y p.k (off + j)) 8
    let need := e / 2 ^ 32 % 32
    let formed : Prop := e / 2 ^ 37 % 2 ^ 26 = 0 ∧ e / 2 ^ 18 % 2 ^ 14 = 0 ∧ e % 4 = 0 ∧ need ≤ 16
    (255 < w.toNat → Traps s p i 0x06 w)
    ∧ (w.toNat ≤ 255 → z.importTab.toNat % 8 ≠ 0 → Traps s p i 0x03 0)
    ∧ (w.toNat ≤ 255 → z.importTab.toNat % 8 = 0 →
      ((at_ < 2 ^ 63 ∨ 2 ^ 63 + 0x400000 < at_ + 8) → Traps s p i 0x08 (BitVec.ofInt 64 at_))
      ∧ (at_ = 2 ^ 63 + (off : Int) → off + 8 ≤ 0x400000 →
        (∀ c hb, t.judgeStrand p.d p.c .read off 8 = .bad c hb → Traps s p i c.code (BitVec.ofInt 64 at_))
        ∧ (t.judgeStrand p.d p.c .read off 8 = .ok →
          (y.meetsStore p.k off 8 = true → exec i s = .next (s.stall p none))
          ∧ (y.meetsStore p.k off 8 = false →
            (e / 2 ^ 63 = 0 → Traps s p i 0x06 w)
            ∧ (e / 2 ^ 63 = 1 → ¬formed → Traps s p i 0x03 0)
            ∧ (e / 2 ^ 63 = 1 → formed → z.vsize.toNat < need → Traps s p i 0x05 0)
            ∧ (e / 2 ^ 63 = 1 → formed → need ≤ z.vsize.toNat →
                WritesOver s p i 1 (BitVec.ofInt 64 (z.after i)) ((e % 2 ^ 18 : Nat) : Int)
                  (t.orStatus p (if y.races p.k off 8 then stXrace else 0)))))))

namespace Sys2Proof.Claims

/-- The address to which a transfer goes that is taken (R74, R321, R342, R351). -/
def goesTo (s : State) (p : At) (i : Instr) : Option Int :=
  let pc : Int := (s.strand p).pc.toNat
  match i with
  | .b imm | .call imm => some (pc + 4 * imm.toInt)
  | .bLong lit | .callLong lit => some (pc + lit.toInt)
  | .bc cc imm => if condHolds ((s.acting p i).strand p).flags cc then some (pc + 4 * imm.toInt) else none
  | .brz nz a imm => if (s.reg p a = 0) ↔ nz = false then some (pc + 4 * imm.toInt) else none
  | .jx _ a => if (s.reg p a).toNat % 4 = 0 then some (s.reg p a).toNat else none
  | .loop _ _ a imm => if s.reg p a = 1 then none else some (pc + 4 * imm.toInt)
  | _ => none

end Sys2Proof.Claims

/-- R74, R60, R289: a transfer that goes outside instruction memory is taken, and the fetch there, whatever the pages hold by then, raises
FETCH_INVALID: %trappc holds the target modulo 2^18, %trapinfo the target. -/
def Sys2Proof.Claims.FarTargets : Prop :=
  ∀ (s : State) (p : At) (i : Instr) (next : Int), Issues s p i → goesTo s p i = some next → (next < 0 ∨ 2 ^ 18 ≤ next) →
    ∃ t, exec i s = .next t ∧ (t.strand p).pc = BitVec.ofInt 18 next ∧ (t.strand p).fetchAt = (BitVec.ofInt 64 next).toNat
      ∧ ∀ u : State, u.strand p = t.strand p →
          (u.core p.d p.c).fetch (u.strand p).fetchAt = .invalid (BitVec.ofInt 64 next).toNat
          ∧ (u.actor = .strand p.d p.c p.k → u.canIssue p = true → HasHandler u p →
              ∃ v, exec .fetchInvalid u = .next v ∧ Handles u p 0x06 (BitVec.ofInt 64 next) next v)

/-- Branches and calls, by the import table too: Claims.Branches, Claims.Calls, Claims.ImportCalls, Claims.FarTargets. -/
def Obligations.BranchesAndCalls : Prop := Claims.Branches ∧ Claims.Calls ∧ Claims.ImportCalls ∧ Claims.FarTargets

/-- R351, R116: LOOP counts its register down, rotates the windows that it names, and branches while the counter is not 0; a counter
of 0 wraps and branches. -/
def Obligations.LoopRotates : Prop :=
  ∀ (s : State) (p : At) (rv rp : Bool) (a : Reg) (imm : BitVec 20), a ≠ 0 → Issues s p (.loop rv rp a imm) →
    let z := s.strand p
    let pc : Int := z.pc.toNat
    WritesOver s p (.loop rv rp a imm) a (s.reg p a - 1) (if s.reg p a = 1 then pc + 8 else pc + 4 * imm.toInt)
      ((s.acting p (.loop rv rp a imm)).modStrand p (fun w =>
        { w with vrot := if rv then BitVec.ofNat 4 ((z.vrot.toNat + z.vsize.toNat - 1) % z.vsize.toNat) else z.vrot,
                 prot := if rp then BitVec.ofNat 3 ((z.prot.toNat + 7) % 8) else z.prot }))

/-- R287: what a trap does. With a handler, the strand stands at it, and the registers name the cause, the information and the address;
without one, or with a handler in a free page, the context is declared failed (R292). -/
def Sys2Proof.Claims.TrapDelivery : Prop :=
  ∀ (s : State) (p : At) (cause : Cause) (info : Word) (ret : BitVec 18),
    (HasHandler s p → Handles s p cause.code info ret.toNat (s.takeTrap p cause info ret))
    ∧ (¬HasHandler s p → ∃ u : State, (u.strand p).trapcause = BitVec.ofNat 8 cause.code ∧ (u.strand p).trapinfo = info
        ∧ (u.strand p).trappc = ret ∧ s.takeTrap p cause info ret = u.declareFailed p.d p.c p.k ret.toNat cause)

/-- R375, R287: TRAP and SYSC issue, and then trap with the sign-extended immediate; the handler returns to the next instruction. -/
def Sys2Proof.Claims.SoftwareTraps : Prop :=
  ∀ (s : State) (p : At) (imm : BitVec 20), HasHandler s p →
    (Issues s p (.trap imm) → ∃ t, exec (.trap imm) s = .next t ∧
      Handles s p 0x40 (BitVec.ofInt 64 imm.toInt) ((s.strand p).pc.toNat + 8) t)
    ∧ (Issues s p (.sysc imm) → ∃ t, exec (.sysc imm) s = .next t ∧
      Handles s p 0x41 (BitVec.ofInt 64 imm.toInt) ((s.strand p).pc.toNat + 8) t)

/-- R339: ERET goes to %trappc and restores nothing else; a %trappc that is no multiple of 4 traps. Its one encoding. -/
def Sys2Proof.Claims.TrapReturn : Prop :=
  encode .eret = [0x684]
  ∧ ∀ (s : State) (p : At), Issues s p .eret →
      ((s.strand p).trappc.toNat % 4 = 0 → Completes s p .eret (s.strand p).trappc.toNat (s.acting p .eret))
      ∧ ((s.strand p).trappc.toNat % 4 ≠ 0 → Traps s p .eret 0x03 0)

/-- The delivery of a trap, the traps of software and the return: Claims.TrapDelivery, Claims.SoftwareTraps, Claims.TrapReturn. -/
def Obligations.TrapsAndReturn : Prop := Claims.TrapDelivery ∧ Claims.SoftwareTraps ∧ Claims.TrapReturn

/-- R51, R291: EXIT stops the strand; its pending engine records become ORPHAN events, and the barriers are looked at again. -/
def Sys2Proof.Claims.StrandExit : Prop :=
  ∀ (s : State) (p : At), Issues s p .exit →
    let t := s.acting p .exit
    let mine := (t.core p.d p.c).records.filter (fun r => r.strand == p.k)
    let base := ((mine.foldl (fun t r => t.orphan p.d p.c r) t).modCore p.d p.c (fun y =>
      { y with records := y.records.filter (fun r => r.strand != p.k) })).modStrand p (fun z => { z with exited := true })
    ∃ u, exec .exit s = .next (u.noteArrivals p) ∧ Retires p .exit ((s.strand p).pc.toNat + 4) base u
      ∧ ((u.noteArrivals p).strand p).exited = true ∧ (u.noteArrivals p).canIssue p = false

/-! The scratchpad port. -/

/-- R348, R349, R224, R226: LD of an aligned place that the core may read writes the bytes as the strand sees them, extended; it sets
XRACE when a byte stands in another strand's table; it waits only for the strand's own vector stores over them. -/
def Sys2Proof.Claims.Loads : Prop :=
  ∀ (s : State) (p : At) (sz : LdSize) (d a : Reg) (imm : BitVec 20) (off : Nat),
    let i : Instr := .ld sz d a imm
    let t := s.acting p i
    let y := t.core p.d p.c
    let ad : Int := (s.reg p a).toNat + imm.toInt
    let n : Nat := match sz with
      | .n8 | .i8 => 1 | .n16 | .i16 => 2 | .n32 | .i32 => 4 | .w64 => 8
    let v := leSum (fun j => byteSeen y p.k (off + j)) n
    Issues s p i → ad = 2 ^ 63 + (off : Int) → off + n ≤ 0x400000 → off % n = 0 → t.judgeStrand p.d p.c .read off n = .ok →
    y.meetsStore p.k off n = false →
      WritesOver s p i d
        (match sz with
          | .i8 => (BitVec.ofNat 8 v).signExtend 64 | .i16 => (BitVec.ofNat 16 v).signExtend 64
          | .i32 => (BitVec.ofNat 32 v).signExtend 64 | _ => BitVec.ofNat 64 v)
        ((s.strand p).after i) (t.orStatus p (if y.races p.k off n then stXrace else 0))

/-- R373, R374, R224: ST enters the forwarding table, whose oldest entry reaches the bank when the table is full; as the strand reads
memory, the stored bytes and no others change. -/
def Sys2Proof.Claims.Stores : Prop :=
  ∀ (s : State) (p : At) (sz : StSize) (a b : Reg) (imm : BitVec 20) (off : Nat),
    let i : Instr := .st sz a b imm
    let t := s.acting p i
    let y := t.core p.d p.c
    let z := t.strand p
    let ad : Int := (s.reg p a).toNat + imm.toInt
    let n : Nat := match sz with
      | .b8 => 1 | .b16 => 2 | .b32 => 4 | .w64 => 8
    let e : FwdEntry := { off := off, data := leBytes n (s.reg p b).toNat }
    Issues s p i → ad = 2 ^ 63 + (off : Int) → off + n ≤ 0x400000 → off % n = 0 → t.judgeStrand p.d p.c .write off n = .ok →
    y.storeHeld p.d p.c off n = false → y.meetsStore p.k off n = false →
      ∃ u, exec i s = .next u
        ∧ Retires p i (z.after i)
            (if z.fwd.length < 16 then t.modStrand p (fun z => { z with fwd := z.fwd ++ [e] })
              else (t.modCore p.d p.c (fun y => { y with spad := z.fwd.head?.elim y.spad (fun o => Mem.write y.spad o.off o.data) })).modStrand p
                (fun z => { z with fwd := z.fwd.drop 1 ++ [e] })) u
        ∧ ∀ x, byteSeen (u.core p.d p.c) p.k x =
            if off ≤ x ∧ x < off + n then BitVec.ofNat 8 ((s.reg p b).toNat / 256 ^ (x - off)) else byteSeen y p.k x

/-- R349, R374, R203, R290: a load or store at an address that is no place of the scratchpad, or not aligned, traps with SPAD_BOUNDS;
one that the core has no right to traps with the cause of the right it lacks. %trapinfo holds the address. -/
def Sys2Proof.Claims.AccessFaults : Prop :=
  ∀ (s : State) (p : At) (lz : LdSize) (sz : StSize) (d a b : Reg) (imm : BitVec 20),
    let ad : Int := (s.reg p a).toNat + imm.toInt
    let outside (n : Nat) : Prop := ad < 2 ^ 63 ∨ 2 ^ 63 + 0x400000 < ad + n ∨ ad % n ≠ 0
    (Issues s p (.ld lz d a imm) → outside lz.bytes → Traps s p (.ld lz d a imm) 0x08 (BitVec.ofInt 64 ad))
    ∧ (Issues s p (.st sz a b imm) → outside sz.bytes → Traps s p (.st sz a b imm) 0x08 (BitVec.ofInt 64 ad))
    ∧ (∀ c, Issues s p (.ld lz d a imm) → ¬outside lz.bytes →
        (s.acting p (.ld lz d a imm)).judgeStrand p.d p.c .read (ad.toNat - 2 ^ 63) lz.bytes = .bad c none →
        Traps s p (.ld lz d a imm) c.code (BitVec.ofInt 64 ad))
    ∧ (∀ c, Issues s p (.st sz a b imm) → ¬outside sz.bytes →
        (s.acting p (.st sz a b imm)).judgeStrand p.d p.c .write (ad.toNat - 2 ^ 63) sz.bytes = .bad c none →
        Traps s p (.st sz a b imm) c.code (BitVec.ofInt 64 ad))

/-- Loads and stores, and what an access that may not be made does: Claims.Loads, Claims.Stores, Claims.AccessFaults. -/
def Obligations.LoadsAndFaults : Prop := Claims.Loads ∧ Claims.Stores ∧ Claims.AccessFaults

/-- R364, R195: NSEND takes a snapshot of a readable range of the own scratchpad on its way to the neighbour whose number sB holds,
another core of the gang in the clamp, counted by the cores of the gang below it (R19): the first 256 bytes arrive 12 cycles later.
NRECV posts one receive from the neighbour over a writable range; a second one for the same sender holds the strand. A sB above 3 or
one that names no neighbour traps, and so does a range that is no multiple of 256 of the scratchpad. -/
def Sys2Proof.Claims.NeighbourTransfers : Prop :=
  ∀ (s : State) (p : At) (a b : Reg) (len : BitVec 32) (sp : Spark) (slot rank : Nat) (g : Gang), s.ctx p.d p.c = some (slot, rank, g) →
    let snd : Instr := .nsend a b len sp
    let rcv : Instr := .nrecv a b len sp
    let n := len.toNat
    let number (c : Nat) : Nat := (List.range c).countP (fun x => x / 4 == c / 4 && g.cores.contains x)
    let names (c : Nat) : Prop := c ∈ g.cores ∧ c / 4 = p.c / 4 ∧ c ≠ p.c ∧ (s.reg p b).toNat = number c
    let within (off : Nat) : Prop := (s.reg p a).toNat = 2 ^ 63 + off ∧ off % 256 = 0 ∧ off + n ≤ 0x400000
    (∀ other off, Issues s p snd → names other → within off → (s.acting p snd).judgeStrand p.d p.c .read off n = .ok →
      Proceeds s p snd ((s.acting p snd).modCore p.d other (fun y => { y with arriving := y.arriving ++
        [{ fromCore := p.c, strand := p.k, cpc := (s.strand p).pc.toNat, push := pushCh sp,
           data := (List.range n).map (fun j => Mem.byte (s.core p.d p.c).spad (off + j)), arrives := s.cyc p.d p.c + 12, target := none }] })))
    ∧ (∀ other off, Issues s p rcv → names other → within off → (s.acting p rcv).judgeStrand p.d p.c .write off n = .ok →
      ((∀ r ∈ (s.core p.d p.c).nrecvs, r.sender ≠ other) →
        Proceeds s p rcv ((s.acting p rcv).modCore p.d p.c (fun y => { y with nrecvs := y.nrecvs ++
          [{ sender := other, off := off, len := n, push := pushCh sp, strand := p.k, taken := false }] })))
      ∧ ((∃ r ∈ (s.core p.d p.c).nrecvs, r.sender = other) → exec rcv s = .next (s.stall p none)))
    ∧ ∀ i, i = snd ∨ i = rcv → Issues s p i →
        ((∀ c, ¬names c) → Traps s p i 0x03 0)
        ∧ ((∃ c, names c) → ((s.reg p a).toNat < 2 ^ 63 ∨ 2 ^ 63 + 0x400000 < (s.reg p a).toNat + n ∨ (s.reg p a).toNat % 256 ≠ 0) →
            Traps s p i 0x08 (s.reg p a))

/-! Special registers. -/

/-- R368, R106, R107, R57: RDS writes the special register, zero-extended; a timing-dependent one reads as zero in a deterministic
launch and sets NONDET. What the registers hold, by their names. -/
def Sys2Proof.Claims.SpecialReads : Prop :=
  ∀ (s : State) (p : At) (d : Reg) (n : RdReg),
    let i : Instr := .rds d n
    let t := s.acting p i
    let z := t.strand p
    let hide := n ∈ [RdReg.physcore, .qstat, .tick, .imcode] ∧ t.det p.d p.c = true
    (Issues s p i → WritesOver s p i d (if hide then 0 else BitVec.ofNat 64 (t.special p n)) (z.after i)
      (t.modStrand p (fun z => { z with status := z.status ||| (if hide then stNondet else 0) })))
    ∧ [RdReg.strand, .die, .physcore, .args, .importTab, .cnt, .status, .vrot, .prot, .vbase, .vsize, .pbase].map (t.special p)
        = [p.k, p.d, p.c, z.args.toNat, z.importTab.toNat, z.cnt.toNat, z.status.toNat, z.vrot.toNat, z.prot.toNat, z.vbase.toNat,
           z.vsize.toNat, z.pbase.toNat]
    ∧ [RdReg.trapvec, .trapcause, .trappc, .trapinfo, .trapsave, .steptick, .tick, .flags].map (t.special p)
        = [z.trapvec.toNat, z.trapcause.toNat, z.trappc.toNat, z.trapinfo.toNat, z.trapsave.toNat, z.steptick.toNat, t.now p.d,
           (z.flags &&& 0x77#8).toNat]
    ∧ (∀ slot rank g, t.ctx p.d p.c = some (slot, rank, g) →
        [RdReg.seed, .mode, .tenant].map (t.special p) = [g.seed.toNat, if g.locked then 1 else 0, g.tenant]
        ∧ t.special p .cycle = min 0xFFFFFFFF
            (if g.locked then (if z.segCount = 0 then 0 else t.now p.d - z.segStart) else z.segCount))

/-- R404, R107: WRS writes its register, cut to its width, for the next instruction; a %trapvec that is no multiple of 4 traps. -/
def Sys2Proof.Claims.SpecialWrites : Prop :=
  ∀ (s : State) (p : At) (n : WrReg) (a : Reg),
    let v := s.reg p a
    Issues s p (.wrs n a) →
      (¬(n = .trapvec ∧ v.toNat % 4 ≠ 0) → Proceeds s p (.wrs n a) ((s.acting p (.wrs n a)).modStrand p (fun z =>
        match n with
        | .importTab => { z with importTab := v }
        | .flags => { z with flags := BitVec.ofNat 8 v.toNat &&& 0x77#8 }
        | .status => { z with status := BitVec.ofNat 7 v.toNat }
        | .prot => { z with prot := BitVec.ofNat 3 v.toNat }
        | .trapvec => { z with trapvec := BitVec.ofNat 18 v.toNat }
        | .trappc => { z with trappc := BitVec.ofNat 18 v.toNat }
        | .trapsave => { z with trapsave := v }
        | .steptick => { z with steptick := v })))
      ∧ (n = .trapvec → v.toNat % 4 ≠ 0 → Traps s p (.wrs n a) 0x03 0)

/-- R113, R115: a window register takes a value that keeps its window among registers 16 to 63, judged whole; a new base or size sets
the rotation to 0; %pbase takes 8 to 32; any other value traps. -/
def Sys2Proof.Claims.WindowWrites : Prop :=
  ∀ (s : State) (p : At) (a : Reg),
    let v := (s.reg p a).toNat
    let z := s.strand p
    let wr (n : WinReg) : Instr := .wrsWindow n a
    let good (n : WinReg) : Prop := match n with
      | .vbase => 16 ≤ v ∧ v + z.vsize.toNat ≤ 64
      | .vsize => v ≠ 0 ∧ v ≤ 16 ∧ z.vbase.toNat + v ≤ 64
      | .vrot => v < z.vsize.toNat
    (∀ n, Issues s p (wr n) → good n → Proceeds s p (wr n) ((s.acting p (wr n)).modStrand p (fun w => match n with
        | .vbase => { w with vbase := BitVec.ofNat 6 v, vrot := 0 }
        | .vsize => { w with vsize := BitVec.ofNat 5 v, vrot := 0 }
        | .vrot => { w with vrot := BitVec.ofNat 4 v })))
    ∧ (∀ n, Issues s p (wr n) → ¬good n → Traps s p (wr n) 0x03 0)
    ∧ (Issues s p (.wrsPbase a) → 8 ≤ v ∧ v ≤ 32 → Proceeds s p (.wrsPbase a) ((s.acting p (.wrsPbase a)).modStrand p (fun w =>
        { w with pbase := BitVec.ofNat 6 v })))
    ∧ (Issues s p (.wrsPbase a) → ¬(8 ≤ v ∧ v ≤ 32) → Traps s p (.wrsPbase a) 0x03 0)

/-- R128: WRS to %imfree frees the named pages, leaves the others, and refuses to free anything while a named page is filling. -/
def Sys2Proof.Claims.PageFrees : Prop :=
  ∀ (s : State) (p : At) (a : Reg),
    let i : Instr := .wrsImfree a
    let v := s.reg p a
    let t := s.acting p i
    let y := t.core p.d p.c
    Issues s p i →
      ((∀ n, n < 64 → v.getLsbD n = true → y.page n ≠ .filling) →
        ∃ q : Tab Page, Proceeds s p i (t.modCore p.d p.c (fun y => { y with pages := q }))
          ∧ ∀ n, n < 64 → Tab.get q n .free = if v.getLsbD n then .free else y.page n)
      ∧ ((∃ n, n < 64 ∧ v.getLsbD n = true ∧ y.page n = .filling) → Traps s p i 0x03 0)

/-- R325, R305, R57: CAPR writes capability entry sA + IMM20, read exactly; a physical one reads as zero with NONDET in a deterministic
launch; an index outside 0 to 63 traps. Entries 1, 9 to 15 and 20 to 63 read zero. -/
def Sys2Proof.Claims.Capabilities : Prop :=
  ∀ (s : State) (p : At) (d a : Reg) (imm : BitVec 20),
    let i : Instr := .capr d a imm
    let n : Int := (s.reg p a).toInt + imm.toInt
    let t := s.acting p i
    let hide := (16 ≤ n ∧ n ≤ 19) ∧ t.det p.d p.c = true
    Issues s p i →
      (0 ≤ n ∧ n ≤ 63 → WritesOver s p i d (if hide then 0 else t.capability p.d p.c n.toNat) ((s.strand p).after i)
        ({ t with freeCount := t.freeCount + (if n = 18 then 1 else 0) }.modStrand p (fun z =>
          { z with status := z.status ||| (if hide then stNondet else 0) })))
      ∧ (n < 0 ∨ 63 < n → Traps s p i 0x03 0)
      ∧ [2, 3, 4, 5, 7].map (t.capability p.d p.c) =
          [0x000000000C020180#64, 0x0000000002040040, 0x0004000000400000, 0x0000003000000000, 0x0000400000010000]
      ∧ ∀ k, (k = 1 ∨ 9 ≤ k ∧ k ≤ 15 ∨ 20 ≤ k ∧ k ≤ 63) → t.capability p.d p.c k = 0

/-- Reads and writes of special registers, freed pages and capability words: Claims.SpecialReads, Claims.SpecialWrites, Claims.WindowWrites, Claims.PageFrees, Claims.Capabilities. -/
def Obligations.SpecialRegisters : Prop := Claims.SpecialReads ∧ Claims.SpecialWrites ∧ Claims.WindowWrites ∧ Claims.PageFrees ∧ Claims.Capabilities

/-! Joins and waits. -/

/-- R228, R372: SPUSH adds one to its channel when it and the pushes before it fit below 16; else it is held behind them, and its strand
stays before it. SPOP issues when the count is above zero and the channel has not been popped in this cycle, and takes one off it; with
a count of 0 it waits for the channel. -/
def Sys2Proof.Claims.Sparks : Prop :=
  ∀ (s : State) (p : At) (ch : Chan),
    let y := s.core p.d p.c
    let waiting := (y.held.filter (fun h => h.ch == ch.val)).length
    (Issues s p (.spush ch) → (∀ h ∈ y.held, h.by_ ≠ Pusher.spush p.k) →
      (y.spark ch + waiting < 15 → Proceeds s p (.spush ch)
        ((s.acting p (.spush ch)).modCore p.d p.c (fun y => { y with sparks := Tab.set y.sparks ch (y.spark ch + 1) })))
      ∧ (15 ≤ y.spark ch + waiting → ∃ t, exec (.spush ch) s = .next t
          ∧ (t.core p.d p.c).held = y.held ++
              [{ ch := ch, agent := s.coreAgent p.d p.c, strand := p.k, fresh := true, by_ := .spush p.k }]
          ∧ (t.core p.d p.c).sparks = y.sparks ∧ (t.strand p).pc = (s.strand p).pc ∧ (t.strand p).regs = (s.strand p).regs))
    ∧ (Issues s p (.spush ch) → (∃ h ∈ y.held, h.by_ = Pusher.spush p.k) → exec (.spush ch) s = .next (s.stall p none))
    ∧ (Issues s p (.spop ch) → 0 < y.spark ch ∧ Tab.get y.popAt ch 0 ≤ s.cyc p.d p.c
      ∧ ∃ t, exec (.spop ch) s = .next t
        ∧ (t.core p.d p.c).spark ch = y.spark ch - 1 ∧ Tab.get (t.core p.d p.c).popAt ch 0 = s.cyc p.d p.c + 1
        ∧ (t.strand p).regs = (s.strand p).regs ∧ (t.core p.d p.c).held = y.held
        ∧ (t.strand p).pc = BitVec.ofInt 18 ((s.strand p).pc.toNat + 4) ∧ ∀ j, j ≠ ch.val → (t.core p.d p.c).spark j = y.spark j)
    ∧ (s.actor = .strand p.d p.c p.k → s.canIssue p = true → y.unitFree (s.cyc p.d p.c) (.spop ch) = true →
      y.spark ch = 0 → exec (.spop ch) s = .next (s.stall p (some ch.val)))

/-- R230, R335, R336: QFENCE waits for every command of the queues that its mask names, CWAIT until no more than sA of its queue's
commands are left; where nothing is to wait for, they go on. -/
def Sys2Proof.Claims.QueueWaits : Prop :=
  ∀ (s : State) (p : At) (mask : Fin 128) (q : QName) (a : Reg),
    let y := s.core p.d p.c
    let fence : Instr := .qfence mask
    let wait : Instr := .cwait q a
    let ids := ([0, 1, 2, 3, 4, 5, 6].filter (fun n => mask.val.testBit n)).flatMap (fun n => (y.queue n).map (fun m => m.id))
    let mine := (y.queue (match q with
      | .copy => 0 | .matrix => 1 | .coll => 2 | .sampler => 3 | .brand => 4 | .vstq => 5 | .other => 6)).map (fun m => m.id)
    (Issues s p fence → (ids = [] → Proceeds s p fence (s.acting p fence))
      ∧ (ids ≠ [] → Waits s p fence (.qfence ids) (s.acting p fence)))
    ∧ (Issues s p wait → (mine.length ≤ (s.reg p a).toNat → Proceeds s p wait (s.acting p wait))
      ∧ ((s.reg p a).toNat < mine.length → Waits s p wait (.cwait mine (s.reg p a).toNat) (s.acting p wait)))

/-- R42: BAR makes the strand arrive and wait; in Locked mode the first arrival sets the deadline START + sA + IMM20, the later ones must
name the same, and it must not have passed; else the context fails. In Free mode it reads no operand. -/
def Sys2Proof.Claims.BarrierArrival : Prop :=
  ∀ (s : State) (p : At) (stp : Bool) (a : Reg) (imm : BitVec 20) (slot rank : Nat) (g : Gang),
    let i : Instr := .bar stp a imm
    let t := s.acting p i
    let dl : Int := g.start + ((s.reg p a).toInt + imm.toInt)
    let arrives (base : State) : Prop := ∃ u : State, exec i s = .next (u.noteArrivals p) ∧ (u.strand p).wait = .bar
      ∧ Retires p i ((s.strand p).after i) base (u.modStrand p (fun z => { z with wait := .none }))
    let fails (c : Cause) : Prop := exec i s = .next (((s.unissued p i).declareFailed p.d p.c p.k (s.strand p).pc.toNat c).noteArrivals p)
    Ready s p i (s.barForm a) → s.ctx p.d p.c = some (slot, rank, g) →
      (g.locked = false → arrives t)
      ∧ (g.locked = true → g.barDl = none → g.start ≤ dl → (s.now p.d : Int) ≤ dl →
          arrives (t.setGang p.d slot { g with barDl := some (dl, stp) }))
      ∧ (g.locked = true → g.barDl = some (dl, stp) → (s.now p.d : Int) ≤ dl → arrives t)
      ∧ (g.locked = true → g.barDl = none → (dl < g.start ∨ dl < s.now p.d) → fails .timingLate)
      ∧ (g.locked = true → g.barDl = some (dl, stp) → dl < s.now p.d → fails .timingLate)
      ∧ (∀ dl' stp', g.locked = true → g.barDl = some (dl', stp') → (dl', stp') ≠ (dl, stp) → fails .planConflict)

/-- R42, R50: what an arrival notes: when every strand of the gang has exited or waits at BAR, the barrier's tick, in Free mode its
cycle; when every strand of the core has exited or waits at CBAR, the core's cycle; nothing else changes. -/
def Sys2Proof.Claims.ArrivalNotes : Prop :=
  ∀ (s : State) (p : At) (slot rank : Nat) (g : Gang), s.ctx p.d p.c = some (slot, rank, g) →
    let waitsAt (w : Wait) (c k : Nat) : Prop := (s.strand ⟨p.d, c, k⟩).exited = true ∨ (s.strand ⟨p.d, c, k⟩).wait = w
    let all : Prop := ∀ c ∈ g.cores, ∀ k ∈ [0, 1, 2, 3], waitsAt .bar c k
    let some_ : Prop := ∃ c ∈ g.cores, ∃ k ∈ [0, 1, 2, 3], (s.strand ⟨p.d, c, k⟩).wait = .bar
    let call : Prop := ∀ k ∈ [0, 1, 2, 3], waitsAt .cbar p.c k
    let csome : Prop := ∃ k ∈ [0, 1, 2, 3], (s.strand ⟨p.d, p.c, k⟩).wait = .cbar
    let t := s.noteArrivals p
    (g.barDone = none → all → some_ →
        t.gang p.d slot = some { g with barDone := some (Prod.mk
          (if g.locked then s.now p.d else s.cyc p.d (g.cores.headD 0)) (!(s.die p.d).ports.any (fun q => q.2.state == .running))) })
    ∧ (¬(all ∧ some_) ∨ g.barDone.isSome = true → t.gang p.d slot = some g)
    ∧ ((s.core p.d p.c).cbarDone = none → call → csome → (t.core p.d p.c).cbarDone = some (s.cyc p.d p.c))
    ∧ (¬(call ∧ csome) ∨ (s.core p.d p.c).cbarDone.isSome = true → (t.core p.d p.c).cbarDone = (s.core p.d p.c).cbarDone)
    ∧ ∀ q, t.strand q = s.strand q

/-- R50, R403, R315: CBAR waits for its core; WAITT waits for the tick START + t, goes on at once in Free mode when it has passed, and
fails in Locked mode then; AFENCE waits for the interval that its strand has not arrived in yet, and else goes on. -/
def Sys2Proof.Claims.TimedWaits : Prop :=
  ∀ (s : State) (p : At) (a : Reg) (imm : BitVec 20) (slot rank : Nat) (g : Gang),
    s.ctx p.d p.c = some (slot, rank, g) →
    let timed (i : Instr) (rel : Int) : Prop := Issues s p i →
      ((s.now p.d : Int) ≤ g.start + rel → Waits s p i (.waitt (g.start + rel)) (s.acting p i))
      ∧ (g.start + rel < s.now p.d → g.locked = false → Proceeds s p i (s.acting p i))
      ∧ (g.start + rel < s.now p.d → g.locked = true →
          exec i s = .next ((s.unissued p i).declareFailed p.d p.c p.k (s.strand p).pc.toNat .timingLate))
    (Issues s p .cbar → ∃ u : State, exec .cbar s = .next (u.noteArrivals p) ∧ (u.strand p).wait = .cbar
      ∧ Retires p .cbar ((s.strand p).after .cbar) (s.acting p .cbar) (u.modStrand p (fun z => { z with wait := .none })))
    ∧ timed (.waittReg a) (s.reg p a).toInt
    ∧ timed (.waittImm a imm) ((s.reg p a).toInt + imm.toInt)
    ∧ (Issues s p .afence →
        (g.atomOpen = true → (s.strand p).arrivedAtomic = false →
          Waits s p .afence .afence ((s.acting p .afence).modStrand p (fun z => { z with arrivedAtomic := true })))
        ∧ (g.atomOpen = false ∨ (s.strand p).arrivedAtomic = true → Proceeds s p .afence (s.acting p .afence)))

/-- R44, R46: SEGEND checks the signature unless the segment is void or the check is waived, then, in Locked mode, the cycle count; a
segment that passes begins anew, the core acknowledges invalidations, and nothing is counted; one that does not fails the context. -/
def Obligations.SegmentEnd : Prop :=
  ∀ (s : State) (p : At) (nosig : Bool) (a : Reg) (lit : BitVec 32),
    let i : Instr := .segend nosig a lit
    let t := s.acting p i
    let z := t.strand p
    let sigBad : Prop := z.void = false ∧ nosig = false ∧ z.sig ^^^ 0xFFFFFFFF#32 ≠ lit
    let cycBad : Prop := z.void = false ∧ t.locked p.d p.c = true ∧ s.reg p a ≠ 0 ∧ t.special p .cycle ≠ (s.reg p a).toNat
    Issues s p i →
      (¬sigBad → ¬cycBad → ∃ u, exec i s = .next u ∧ (u.strand p).pc = BitVec.ofInt 18 ((s.strand p).after i)
        ∧ (u.strand p).segCount = 0 ∧ (u.strand p).sig = 0xFFFFFFFF#32 ∧ (u.strand p).void = false
        ∧ (u.strand p).regs = (s.strand p).regs
        ∧ ∀ e ∈ (u.die p.d).tlbis, ∀ key, (t.core p.d p.c).ctx = some key → key ∉ e.pending)
      ∧ (sigBad → exec i s = .next ((s.unissued p i).declareFailed p.d p.c p.k (s.strand p).pc.toNat .segSignature))
      ∧ (¬sigBad → cycBad → exec i s = .next ((s.unissued p i).declareFailed p.d p.c p.k (s.strand p).pc.toNat .segCycles))

/-! Numbers. -/

/-- R132: the value of every code of a small-float format; one code is NaN, with X one magnitude is the infinity, none is -0, and the
others are the subnormal points and the binades. The values of the integer formats (R129). -/
def Sys2Proof.Claims.ElementValues : Prop :=
  (∀ (ef : EF) (c : Nat), ef.ok = true → 128 ≤ ef.val →
    let w := 8 - 2 * (ef.val / 32 % 4)
    let t := ef.val / 4 % 8 - 1
    let uns : Bool := ef.val / 2 % 2 == 1
    let infs : Bool := ef.val % 2 == 1
    let neg : Bool := !uns && decide (2 ^ (w - 1) ≤ c)
    let m := if uns then c else c % 2 ^ (w - 1)
    let bias : Int := if uns then 2 ^ (w - t - 1) else 2 ^ (w - t - 2)
    let top := if uns then 2 ^ w - 2 else 2 ^ (w - 1) - 1
    let v : Rat := if m / 2 ^ t = 0 then (2 : Rat) ^ (1 - bias) * ((m % 2 ^ t : Nat) : Rat) / 2 ^ t
      else (2 : Rat) ^ (((m / 2 ^ t : Nat) : Int) - bias) * (1 + ((m % 2 ^ t : Nat) : Rat) / 2 ^ t)
    c < 2 ^ w →
      (c = (if uns then 2 ^ w - 1 else 2 ^ (w - 1)) → efValue ef c = .nan)
      ∧ (c ≠ (if uns then 2 ^ w - 1 else 2 ^ (w - 1)) → infs = true → m = top → efValue ef c = .inf neg)
      ∧ (c ≠ (if uns then 2 ^ w - 1 else 2 ^ (w - 1)) → ¬(infs = true ∧ m = top) →
          ∃ n d e, efValue ef c = .num neg n d e ∧ 0 < d ∧ ratio neg n d e = (if neg then -v else v)))
  ∧ (∀ (w : Nat) (ef : EF) (c : Nat), (ef, w) ∈ [((3 : EF), 32), (5, 16), (7, 8), (9, 4)] →
      ∃ n, efValue ef c = .num (decide ((BitVec.ofNat w c).toInt < 0)) n 1 0 ∧ n = (BitVec.ofNat w c).toInt.natAbs)
  ∧ ∀ (w : Nat) (ef : EF) (c : Nat), (ef, w) ∈ [((4 : EF), 32), (6, 16), (8, 8)] → efValue ef c = .num false (c % 2 ^ w) 1 0

/-- R136, R137, R138, R139: the one rounding, to every valid format: a rational goes to the neighbouring point of the format's grid that
the mode chooses, with the results beyond the largest finite value and below zero that R137 gives; infinities and NaN. -/
def Sys2Proof.Claims.RoundedOnce : Prop :=
  ∀ (ef : EF) (m : RMode) (sat : Bool) (sr n d : Nat) (neg : Bool) (e : Int), ef.ok = true → 0 < d → sr < 65536 →
    match efKind ef with
    | .flt f => RoundedFloat f m sat sr neg (ratio neg n d e) (roundTo ef m sat sr (.num neg n d e))
        ∧ roundTo ef m sat sr .nan = (f.nan, 0)
        ∧ roundTo ef m sat sr (.inf neg) =
            (if f.unsign && neg then (if sat then (0, stOverflow ||| stInexact) else (f.nan, stInvalid))
              else if f.hasInf then ((if neg then 2 ^ (f.width - 1) else 0) + (f.maxIdx + 1), 0)
              else if sat then ((if neg then 2 ^ (f.width - 1) else 0) + f.maxIdx, stInexact) else (f.nan, stInvalid))
    | .int sg w => ∃ y st, RoundedInt sg w m sr (ratio neg n d e) (y, st)
        ∧ roundTo ef m sat sr (.num neg n d e) = ((BitVec.ofInt w y).toNat, st) ∧ roundTo ef m sat sr .nan = (0, stInvalid)
        ∧ roundTo ef m sat sr (.inf neg) = ((BitVec.ofInt w (if neg then (if sg then -(2 ^ (w - 1)) else 0)
            else if sg then 2 ^ (w - 1) - 1 else 2 ^ w - 1)).toNat, stOverflow ||| stInexact)

/-- R139, R140, R387: the sum, the product and the fused sum of f32 arithmetic are the exact rationals rounded once; an exact zero has
the sign of IEEE 754; infinities, and the operands that set INVALID. The model's choice: a sum of two zeros of one sign keeps that sign in every
mode (log entry 65). -/
def Sys2Proof.Claims.ExactArithmetic : Prop :=
  ∀ (m : RMode) (sat : Bool) (sr n d k c u v : Nat) (s t z : Bool) (e g h : Int), sr < 65536 → 0 < d → 0 < c → 0 < v →
    let a : XVal := .num s n d e
    let b : XVal := .num t k c g
    let o : XVal := .num z u v h
    let x := ratio s n d e
    let y := ratio t k c g
    let w := ratio z u v h
    let bad : W32 × Status := (nan32, stInvalid)
    let zero (p q : Bool) : Bool := if p = q then p else m == .down
    (∃ neg, Rounded32 m sat sr neg (x + y) (sumF m sat sr a b)
        ∧ (x + y ≠ 0 → (neg = true ↔ x + y < 0)) ∧ (x + y = 0 → neg = if x = 0 then zero s t else m == .down))
    ∧ Rounded32 m sat sr (s != t) (x * y) (mulF m sat sr a b)
    ∧ (∃ neg, Rounded32 m sat sr neg (w + x * y) (fmaF m sat sr o a b)
        ∧ (w + x * y ≠ 0 → (neg = true ↔ w + x * y < 0)) ∧ (w + x * y = 0 → neg = if w = 0 then zero z (s != t) else m == .down))
    ∧ (∀ r : XVal, sumF m sat sr .nan r = (nan32, 0) ∧ sumF m sat sr r .nan = (nan32, 0) ∧ mulF m sat sr .nan r = (nan32, 0)
        ∧ mulF m sat sr r .nan = (nan32, 0))
    ∧ sumF m sat sr (.inf s) (.inf t) = (if s = t then round32 m sat sr (.inf s) else bad)
    ∧ sumF m sat sr (.inf s) b = round32 m sat sr (.inf s) ∧ sumF m sat sr b (.inf s) = round32 m sat sr (.inf s)
    ∧ mulF m sat sr (.inf s) (.inf t) = round32 m sat sr (.inf (s != t))
    ∧ mulF m sat sr (.inf s) b = (if k = 0 then bad else round32 m sat sr (.inf (s != t)))
    ∧ mulF m sat sr b (.inf s) = (if k = 0 then bad else round32 m sat sr (.inf (t != s)))
    ∧ (k = 0 → fmaF m sat sr .nan (.inf s) b = bad ∧ fmaF m sat sr .nan b (.inf s) = bad)
    ∧ fmaF m sat sr .nan a b = (nan32, 0)

/-- R152: a seed is the reciprocal, or the reciprocal of the square root, of a finite operand rounded to fifteen significant bits and then
to f32; INEXACT says that the result is not the exact value. The cases of zero, infinity and NaN. -/
def Sys2Proof.Claims.Seeds : Prop :=
  ∀ (a : W32) (s : Bool) (n d : Nat) (e : Int), f32v a = .num s n d e →
    let x := ratio s n d e
    let judged (neg : Bool) (big : Nat) (q : Int) (right : Rat → Prop) (r : W32 × Status) : Prop :=
      ∃ w st, Rounded32 .near false 0 neg ((if neg then -1 else 1) * (big : Rat) * (2 : Rat) ^ q) (w, st) ∧ r.1 = w
        ∧ (r.2.getLsbD 5 = st.getLsbD 5) ∧ (∀ k, k < 5 → r.2.getLsbD k = false)
        ∧ (r.2.getLsbD 6 = true ↔ ¬∃ n d e, f32v w = .num neg n d e ∧ right (ratio neg n d e))
    (n ≠ 0 → ∃ (big : Nat) (q : Int), 2 ^ 14 ≤ big ∧ big ≤ 2 ^ 15
        ∧ (let y := (if s then -1 else 1) / x
           (2 * big - 1 : Rat) * (2 : Rat) ^ (q - 1) ≤ y ∧ y ≤ (2 * big + 1 : Rat) * (2 : Rat) ^ (q - 1)
             ∧ (big % 2 = 1 → (2 * big - 1 : Rat) * (2 : Rat) ^ (q - 1) < y ∧ y < (2 * big + 1 : Rat) * (2 : Rat) ^ (q - 1)))
        ∧ judged s big q (fun v => v * x = 1) (rcpSeed a))
    ∧ (n ≠ 0 → s = false → ∃ (big : Nat) (q : Int), 2 ^ 14 ≤ big ∧ big ≤ 2 ^ 15
        ∧ ((2 * big - 1 : Rat) * (2 : Rat) ^ (q - 1)) ^ 2 * x ≤ 1 ∧ 1 ≤ ((2 * big + 1 : Rat) * (2 : Rat) ^ (q - 1)) ^ 2 * x
        ∧ judged false big q (fun v => v * v * x = 1) (rsqrtSeed a))
    ∧ (n = 0 → rcpSeed a = (if s then 0xFF800000 else 0x7F800000, 0) ∧ rsqrtSeed a = (if s then 0xFF800000 else 0x7F800000, 0))
    ∧ (n ≠ 0 → s = true → rsqrtSeed a = (nan32, stInvalid))
    ∧ rcpSeed 0x7F800000 = (0, 0) ∧ rcpSeed 0xFF800000 = (0x80000000, 0) ∧ rcpSeed nan32 = (nan32, 0)
    ∧ rsqrtSeed 0x7F800000 = (0, 0) ∧ rsqrtSeed 0xFF800000 = (nan32, stInvalid) ∧ rsqrtSeed nan32 = (nan32, 0)

/-- The values of elements, and results that are the exact values rounded once: Claims.ElementValues, Claims.RoundedOnce, Claims.ExactArithmetic, Claims.Seeds. -/
def Obligations.ExactResults : Prop := Claims.ElementValues ∧ Claims.RoundedOnce ∧ Claims.ExactArithmetic ∧ Claims.Seeds

/-- R154: 2^x and log2 x, correctly rounded: where a number of fixed precision below and one above the exact result round alike, that is
the result, and the two enclose the exact value (log entry 9); exact results, and the cases of R154. The exact value of 2^x
is compared through powers: x is k + i / 2^j, and log2 of n * 2^e lies between l / 2^p and h / 2^p. -/
def Obligations.FunctionValues : Prop :=
  ∀ (a : W32) (s : Bool) (n d : Nat) (e : Int), f32v a = .num s n d e →
    let x := ratio s n d e
    let both (neg : Bool) (lo hi : Nat) (q : Int) (w : W32) : Prop := ∀ v : Rat,
      (lo : Rat) * (2 : Rat) ^ q ≤ v → v ≤ (hi : Rat) * (2 : Rat) ^ q → ∃ st, Rounded32 .near false 0 neg (if neg then -v else v) (w, st)
    (∀ (k : Int) (i j : Nat), x = k + (i : Rat) / 2 ^ j → i < 2 ^ j → -1024 < x → x < 1024 →
      (i = 0 → Rounded32 .near false 0 false ((2 : Rat) ^ k) (exp2F a))
      ∧ (i ≠ 0 → (∃ lo hi p : Nat, lo ^ 2 ^ j ≤ 2 ^ (p * 2 ^ j + i) ∧ 2 ^ (p * 2 ^ j + i) ≤ hi ^ 2 ^ j
            ∧ both false lo hi (k - p) (exp2F a).1 ∧ (exp2F a).2.getLsbD 6 = true)
          ∨ ∀ c ∈ precisions.map (enclExp2 k i j),
              (near32 (.num false c.lo 1 (c.e - (c.p : Int)))).1 ≠ (near32 (.num false c.hi 1 (c.e - (c.p : Int)))).1))
    ∧ (1024 ≤ x → exp2F a = (0x7F800000, stOverflow ||| stInexact)) ∧ (x ≤ -1024 → exp2F a = (0, stInexact))
    ∧ (n = 0 → log2F a = (0xFF800000, 0)) ∧ (n ≠ 0 → s = true → log2F a = (nan32, stInvalid))
    ∧ (∀ k : Int, x = (2 : Rat) ^ k → Rounded32 .near false 0 (decide (k < 0)) k (log2F a))
    ∧ (∀ (k : Int) (l : Nat), s = false → n ≠ 0 → l = Nat.log2 n → n ≠ 2 ^ l → k = (l : Int) + e →
        (∃ lo hi p : Nat, both (decide (k < 0)) lo hi (-p) (log2F a).1 ∧ (log2F a).2.getLsbD 6 = true
            ∧ (let y := if k < 0 then 1 / x else x
               (2 : Rat) ^ lo ≤ y ^ 2 ^ p ∧ y ^ 2 ^ p ≤ (2 : Rat) ^ hi))
          ∨ ∀ c ∈ precisions.map (enclLog2 k n l),
              (near32 (.num (decide (k < 0)) c.lo 1 (c.e - (c.p : Int)))).1 ≠ (near32 (.num (decide (k < 0)) c.hi 1 (c.e - (c.p : Int)))).1)
    ∧ exp2F 0x7F800000 = (0x7F800000, 0) ∧ exp2F 0xFF800000 = (0, 0) ∧ exp2F nan32 = (nan32, 0)
    ∧ log2F 0x7F800000 = (0x7F800000, 0) ∧ log2F 0xFF800000 = (nan32, stInvalid) ∧ log2F nan32 = (nan32, 0)


/-! The vector unit. -/

/-- R112, R115: names 0 to 15 of vectors and 0 to 7 of predicates are the physical registers of that number, and the others lie in the
rotating windows; predicate 0 is all true, and writes to it are discarded. -/
def Sys2Proof.Claims.WindowMaps : Prop :=
  ∀ (z : Strand) (y : Core) (v : VReg) (q : PReg) (n m : Nat) (w : BitVec 1024),
    (v.val < 16 → z.vphys v = v.val)
    ∧ (16 ≤ v.val → z.vphys v = z.vbase.toNat + (v.val - 16 + z.vrot.toNat) % z.vsize.toNat)
    ∧ (q.val < 8 → z.pphys q = q.val)
    ∧ (8 ≤ q.val → z.pphys q = z.pbase.toNat + (q.val - 8 + z.prot.toNat) % 8)
    ∧ y.pred 0 = BitVec.allOnes 1024 ∧ y.setPred 0 w = y
    ∧ (n ≠ 0 → (y.setPred n w).pred m = if m = n then w else y.pred m)

/-- R66: an instruction of the vector unit that names a register outside its strand's window traps with WINDOW_NAME. -/
def Sys2Proof.Claims.WindowNames : Prop :=
  ∀ (s : State) (p : At) (i : Instr), i.unit = .vector → s.actor = .strand p.d p.c p.k → s.canIssue p = true →
    (∃ v ∈ (formOf i).names, 16 + (s.strand p).vsize.toNat ≤ v.val) → Traps s p i 0x05 0

/-- Windows of vector registers and predicates: Claims.WindowMaps, Claims.WindowNames. -/
def Obligations.Windows : Prop := Claims.WindowMaps ∧ Claims.WindowNames

/-- R380, R387, R140, R378: sums, differences, products and fused sums, element by element: exact in f32 and then rounded once, modulo
2^32 in the integers; a stochastic mode reports counters that are not reserved. -/
def Sys2Proof.Claims.VectorSums : Prop :=
  ∀ (s : State) (p : At) (ty : VTy) (o : VOp) (b : VReg) (r : Rnd),
    let t := s.acting p (.vadd ty o b r)
    let y := t.core p.d p.c
    let bits := t.rndBits p r
    let two (i : Instr) (flt : Nat → XVal → XVal → Res) (int : W32 → W32 → W32) : Prop :=
      VectorWrites s p i o (t.rndStatus p r) (fun e => (opA s p i o e).bind (fun x => (opB s p i b e).map (fun w =>
        if ty = .f32 then flt e (f32v x) (f32v w) else (int x w, 0))))
    let three (i : Instr) (flt : Nat → XVal → XVal → XVal → Res) (int : W32 → W32 → W32 → W32) : Prop :=
      VectorWrites s p i o (t.rndStatus p r) (fun e => ((o.d.old y (y.strand p.k))[e]?).bind (fun d =>
        (opA s p i o e).bind (fun x => (opB s p i b e).map (fun w =>
          if ty = .f32 then flt e (f32v d) (f32v x) (f32v w) else (int d x w, 0)))))
    two (.vadd ty o b r) (fun e x w => sumF r.rm r.sat (bits e) x w) (fun x w => BitVec.ofNat 32 (x.toNat + w.toNat))
    ∧ two (.vsub ty o b r) (fun e x w => sumF r.rm r.sat (bits e) x w.neg) (fun x w => BitVec.ofInt 32 ((x.toNat : Int) - w.toNat))
    ∧ two (.vmul ty o b r) (fun e x w => mulF r.rm r.sat (bits e) x w) (fun x w => BitVec.ofNat 32 (x.toNat * w.toNat))
    ∧ three (.vfma ty o b r) (fun e d x w => fmaF r.rm r.sat (bits e) d x w)
        (fun d x w => BitVec.ofNat 32 (d.toNat + x.toNat * w.toNat))
    ∧ three (.vfnma ty o b r) (fun e d x w => fmaF r.rm r.sat (bits e) d x.neg w)
        (fun d x w => BitVec.ofInt 32 ((d.toNat : Int) - x.toNat * w.toNat))

/-- R380, R387, R388, R389: minima, maxima, signs, logic, shifts, selection and moves, element by element, without a status bit. -/
def Sys2Proof.Claims.VectorSelections : Prop :=
  ∀ (s : State) (p : At) (ty : VTy) (o : VOp) (b : VReg) (k : Fin 32) (pc : PReg),
    let one (i : Instr) (f : W32 → W32) : Prop := VectorWrites s p i o 0 (fun e => map1 f (opA s p i o e))
    let two (i : Instr) (f : W32 → W32 → W32) : Prop := VectorWrites s p i o 0 (fun e => map2 f (opA s p i o e) (opB s p i b e))
    let less (x w : W32) : Bool := if ty = .i32 then decide (x.toInt < w.toInt) else decide (x.toNat < w.toNat)
    let sel : Instr := .vsel o b pc
    let y := (s.acting p sel).core p.d p.c
    let shr (x : W32) (n : Nat) : W32 := if ty = .i32 then BitVec.ofInt 32 (x.toInt / 2 ^ n) else BitVec.ofNat 32 (x.toNat / 2 ^ n)
    two (.vmin ty o b) (fun x w => if ty = .f32 then minF x w else if less w x then w else x)
    ∧ two (.vmax ty o b) (fun x w => if ty = .f32 then maxF x w else if less x w then w else x)
    ∧ (ty ≠ .n32 → one (.vabs ty o) (fun x => if ty = .f32 then (if (f32v x).isNan then nan32 else x &&& 0x7FFFFFFF#32)
        else BitVec.ofNat 32 x.toInt.natAbs))
    ∧ one (.vneg ty o) (fun x => if ty = .f32 then (if (f32v x).isNan then nan32 else x ^^^ 0x80000000#32)
        else BitVec.ofInt 32 (-(x.toNat : Int)))
    ∧ two (.vand o b) (fun x w => x &&& w)
    ∧ two (.vor o b) (fun x w => x ||| w)
    ∧ two (.vxor o b) (fun x w => x ^^^ w)
    ∧ two (.vshl ty o (.reg b)) (fun x w => BitVec.ofNat 32 (x.toNat * 2 ^ (w.toNat % 32)))
    ∧ one (.vshl ty o (.imm k)) (fun x => BitVec.ofNat 32 (x.toNat * 2 ^ k.val))
    ∧ two (.vshr ty o (.reg b)) (fun x w => shr x (w.toNat % 32))
    ∧ one (.vshr ty o (.imm k)) (fun x => shr x k.val)
    ∧ one (.vmov o) (fun x => x)
    ∧ VectorWrites s p sel o 0 (fun e => map2 (fun x w => if (y.pred ((y.strand p.k).pphys pc)).getLsbD e then x else w)
        (opA s p sel o e) (opB s p sel b e))

/-- R152, R154, R383, R378: the function seeds and the conversion to the grid of a format, element by element. -/
def Sys2Proof.Claims.VectorFunctions : Prop :=
  ∀ (s : State) (p : At) (ty : VTy) (o : VOp) (ef : EF) (r : Rnd),
    let one (i : Instr) (f : W32 → Res) : Prop := VectorWrites s p i o 0 (fun e => (opA s p i o e).map f)
    let cvt : Instr := .vcvt ef ty o r
    let t := s.acting p cvt
    one (.vrcps o) rcpSeed ∧ one (.vrsqs o) rsqrtSeed ∧ one (.vexp2 o) exp2F ∧ one (.vlog2 o) log2F
    ∧ VectorWrites s p cvt o (t.rndStatus p r) (fun e => (opA s p cvt o e).map (fun x =>
        let c := roundTo ef r.rm r.sat (t.rndBits p r e) (tyValue ty x)
        (widen ef c.1, c.2)))

/-- Element-wise arithmetic, selections and functions: Claims.VectorSums, Claims.VectorSelections, Claims.VectorFunctions. -/
def Obligations.VectorArithmetic : Prop := Claims.VectorSums ∧ Claims.VectorSelections ∧ Claims.VectorFunctions

/-- R381, R389, R391: broadcasts, index vectors and rotations within rows of 64 and columns of 16. -/
def Sys2Proof.Claims.VectorPermutations : Prop :=
  ∀ (s : State) (p : At) (ty : VTy) (m : IotaMode) (o : VOp) (d : VDest) (a c : Reg) (imm step : BitVec 15) (zm : Bool) (pred : PredOp),
    let k : Int := (s.reg p c).toInt + imm.toInt
    let moved (i : Instr) (ix : Nat → Int → Nat) : Prop :=
      VectorWrites s p i o 0 (fun e => if e < 1024 then some ((opA s p i o (ix e k)).getD 0, 0) else none)
    let filled (i : Instr) (f : Nat → W32) : Prop :=
      let t := s.acting p i
      let y := t.core p.d p.c
      let z := y.strand p.k
      Issues s p i → d.room y = true →
        ∃ v, Merged y z pred zm (fun e => if e < 1024 then some (f e) else none) (d.old y z) v
          ∧ Proceeds s p i (t.setCore p.d p.c (d.put y z v))
    let low : Int := (s.reg p a).toNat
    moved (.vrotr o c imm) (fun e k => e / 64 * 64 + ((e % 64 + k) % 64).toNat)
    ∧ moved (.vrotc o c imm) (fun e k => ((e / 64 + k) % 16).toNat * 64 + e % 64)
    ∧ moved (.vbcr o c imm) (fun e k => e / 64 * 64 + (k % 64).toNat)
    ∧ moved (.vbcc o c imm) (fun e k => (k % 16).toNat * 64 + e % 64)
    ∧ filled (.vbcs d a zm pred) (fun _ => BitVec.ofInt 32 low)
    ∧ filled (.viota ty m d a step zm pred) (fun e =>
        BitVec.ofInt 32 (low + (match m with | .elem => e | .row => e / 64 | .col => e % 64 : Nat) * step.toInt))

/-- R393, R148: a reduction replaces inactive elements by the identity and writes every element: VREDR the reduced row, VREDC the
reduced column, VSEGR the reduced segment, whose first elements its predicate marks. -/
def Sys2Proof.Claims.VectorReductions : Prop :=
  ∀ (s : State) (p : At) (ty : VTy) (op : RedOp) (o : VOp) (pb : PReg),
    let written (i : Instr) (group : Core → Strand → Nat → List Nat) (pick : (Nat → Option W32) → List Nat → List W32)
        (whole : Bool) : Prop :=
      let t := s.acting p i
      let y := t.core p.d p.c
      let z := y.strand p.k
      let xs := o.a.value y z
      let input (e : Nat) : Option W32 := (xs[e]?).map (fun w => if active y z o.pred e then w else identityOf ty op)
      let out (e : Nat) : Res := reduce ty op (pick input (group y z e))
      let n := if whole then 1024 else min 1024 xs.length
      Issues s p i → o.a.ready y = true → o.d.room y = true →
        ∃ v st, v.length = n ∧ (∀ e, e < n → v[e]? = some (out e).1)
          ∧ (∀ k, st.getLsbD k = true ↔ ∃ e, e < n ∧ (out e).2.getLsbD k = true)
          ∧ Proceeds s p i ((t.setCore p.d p.c (o.d.put (o.a.take y) z v)).orStatus p st)
    written (.vredr ty op o) (fun _ _ e => (List.range 64).map (fun c => e / 64 * 64 + c)) (fun f l => l.filterMap f) true
    ∧ written (.vredc ty op o) (fun _ _ e => (List.range 16).map (fun r => r * 64 + e % 64)) (fun f l => l.map (fun x => (f x).getD 0))
        true
    ∧ written (.vsegr ty op o pb) (fun y z e =>
        let first (x : Nat) : Bool := (y.pred (z.pphys pb)).getLsbD x
        ((List.range 64).map (fun c => e / 64 * 64 + c)).filter (fun x =>
          (List.range 1024).all (fun j => !(min x e < j && j ≤ max x e && first j)))) (fun f l => l.filterMap f) false

/-- Permutations and reductions: Claims.VectorPermutations, Claims.VectorReductions. -/
def Obligations.RowsAndColumns : Prop := Claims.VectorPermutations ∧ Claims.VectorReductions

/-- R365, R366, R382, R394, R111: comparisons, predicate logic and bounds write a predicate, element by element; VFLAG counts the true
ones among the active elements, and its result lands later. -/
def Sys2Proof.Claims.Predicates : Prop :=
  ∀ (s : State) (p : At) (ty : VTy) (cc : VCond) (pd pa pb : PReg) (a : VSrc) (b : VReg) (zm : Bool) (q : PredOp) (op : PLogOp)
    (m : PSetMode) (c : Reg) (imm : BitVec 15),
    let cmp : Instr := .vcmp ty cc pd a b zm q
    let log : Instr := .plog op pd pa pb
    let set : Instr := .pset m pd c imm zm q
    let flg : Instr := .vflag pa q
    let t := s.acting p cmp
    let y := t.core p.d p.c
    let z := y.strand p.k
    let n : Int := min 1024 (max 0 ((s.reg p c).toInt + imm.toInt))
    let keeps (w : BitVec 1024) (f : Nat → Bool) : Prop := ∀ e, e < 1024 → w.getLsbD e =
      if active y z q e then f e else if zm then false else (y.pred (z.pphys pd)).getLsbD e
    (Issues s p cmp → a.ready y = true → ∃ w : BitVec 1024, (keeps w (fun e =>
        match (a.value y z)[e]?, (y.vreg (z.vphys b))[e]? with
        | some x, some u => vcompare ty cc x u
        | _, _ => false))
      ∧ Proceeds s p cmp (t.setCore p.d p.c ((a.take y).setPred (z.pphys pd) w)))
    ∧ (Issues s p log → ∃ w : BitVec 1024, (∀ e, e < 1024 → w.getLsbD e =
          (let x := (y.pred (z.pphys pa)).getLsbD e
           let u := (y.pred (z.pphys pb)).getLsbD e
           match op with
           | .and => x && u | .or => x || u | .xor => x != u | .andn => x && !u | .orn => x || !u | .nand => !(x && u)
           | .nor => !(x || u) | .xnor => x == u))
      ∧ Proceeds s p log (t.setCore p.d p.c (y.setPred (z.pphys pd) w)))
    ∧ (Issues s p set → ∃ w : BitVec 1024, (keeps w (fun e => match m with
          | .lt => decide ((e : Int) < n) | .ge => decide (n ≤ e) | .rowlt => decide (((e / 64 : Nat) : Int) < n)
          | .collt => decide (((e % 64 : Nat) : Int) < n)))
      ∧ Proceeds s p set (t.setCore p.d p.c (y.setPred (z.pphys pd) w)))
    ∧ (Issues s p flg →
        let act := (List.range 1024).filter (active y z q)
        let cnt := act.countP (fun e => (y.pred (z.pphys pa)).getLsbD e)
        Proceeds s p flg (t.modStrand p (fun z => { z with vflags := z.vflags ++
          [{ left := 8, any := decide (0 < cnt), all := decide (cnt = act.length), none := decide (cnt = 0), cnt := cnt }] })))

/-- R402, R138: VRNG fills a vector with the Philox words of 256 counters from sA, four to a counter, as bits or as values below 1. -/
def Sys2Proof.Claims.RandomVectors : Prop :=
  ∀ (s : State) (p : At) (u01 zm : Bool) (d : VReg) (a : Reg) (q : PredOp) (sp : Spark),
    let i : Instr := .vrng u01 zm d a q sp
    let t := s.acting p i
    let y := t.core p.d p.c
    let z := y.strand p.k
    let word (e : Nat) : W32 :=
      let w := (philoxDraw (t.seed p.d p.c) (s.reg p a + BitVec.ofNat 64 (e / 4)) 0 2).at (e % 4)
      if u01 then (near32 (.num false (w.toNat / 256) 1 (-24))).1 else w
    Issues s p i → ∃ v u, Merged y z q zm (fun e => if e < 1024 then some (word e) else none) (y.vreg (z.vphys d)) v
      ∧ exec i s = .next u
      ∧ Retires p i (z.after i) (((t.setCore p.d p.c (y.setVreg (z.vphys d) v)).orStatus p (t.drawStatus p (s.reg p a) 256)).owing p i sp 0) u

/-- Predicates and random vectors: Claims.Predicates, Claims.RandomVectors. -/
def Obligations.PredicatesAndDraws : Prop := Claims.Predicates ∧ Claims.RandomVectors

/-! Vectors and the scratchpad. -/

/-- R396, R398, R224, R226, R117: VLD widens sixteen rows of packed codes into the active elements; VLDQ reserves an entry of its queue
for all of them, which is present 12 cycles later. The bytes are those that the vector unit finds, the stores accepted before it
performed, and a byte in another strand's table sets XRACE; the strand's own entries over the rows reach the bank first. -/
def Sys2Proof.Claims.VectorLoads : Prop :=
  ∀ (s : State) (p : At) (ef : EF) (zm : Bool) (d : VReg) (q : Fin 4) (a e : Reg) (lit : BitVec 32) (pred : PredOp) (sp : Spark)
    (offs : Nat → Nat),
    let ld : Instr := .vld ef zm d a e lit pred sp
    let lq : Instr := .vldq ef q a e lit sp
    let l := (List.range 16).map offs
    let word (y : Core) (x : Nat) : Option W32 :=
      if x < 1024 then some (widen ef (codeSeen y p.k (offs (x / 64)) ef.width (x % 64))) else none
    let races (y : Core) : Status := if l.any (fun o => y.races p.k o (8 * ef.width)) then stXrace else 0
    (let t := s.acting p ld
     let y := t.core p.d p.c
     let z := y.strand p.k
     Issues s p ld → RowsAt s p ld .read ef a e lit offs →
      ∃ v, Merged y z pred zm (word y) (y.vreg (z.vphys d)) v ∧
        Retiring s p ld ((t.setCore p.d p.c ((y.releaseAt p.k (8 * ef.width) l).setVreg (z.vphys d) v)).orStatus p (races y)))
    ∧ (let t := s.acting p lq
       let y := t.core p.d p.c
       Issues s p lq → RowsAt s p lq .read ef a e lit offs → (Tab.get y.opq q.val []).length < 4 →
        ∃ v : List W32, (∀ x, v[x]? = word y x) ∧
          Retiring s p lq ((t.setCore p.d p.c { y with opq := Tab.set y.opq q.val (Tab.get y.opq q.val [] ++
            [{ due := s.cyc p.d p.c + 12, present := false, data := v }]) }).orStatus p (races y)))

/-- R399, R400: VGATH loads the active elements of its quarter from base + index * size, VRAG those of each row below the row's length
from the row's start on; an inactive element of the scope is zero under Z, and else every other element stays. -/
def Sys2Proof.Claims.Gathers : Prop :=
  ∀ (s : State) (p : At) (ef : EF) (zm : Bool) (part : Fin 4) (d : VReg) (a : Reg) (b : VReg) (lit : BitVec 32) (pred : PredOp)
    (sp : Spark) (off : Nat → Nat),
    let ga : Instr := .vgath ef zm part d a b lit pred sp
    let rg : Instr := .vrag ef zm d a b lit pred sp
    let n := ef.width / 8
    let base : Int := (s.reg p a).toNat + lit.toInt
    let ix (x : Nat) : Nat := (((s.core p.d p.c).vreg ((s.strand p).vphys b)).getD x 0).toNat
    let act (x : Nat) : Bool := active (s.core p.d p.c) (s.strand p) pred x
    let loads (i : Instr) (scope : Nat → Bool) (addr : Nat → Nat) (es : List Nat) : Prop :=
      let t := s.acting p i
      let y := t.core p.d p.c
      let z := y.strand p.k
      ElemsAt s p i .read n base es addr off → ∃ v : List W32,
        (∀ x, v[x]? = ((y.vreg (z.vphys d))[x]?).map (fun w =>
          if !scope x then w else if x ∈ es then widen ef (codeSeen y p.k (off x) (8 * n) 0)
          else if act x then 0 else if zm then 0 else w))
        ∧ Retiring s p i ((t.setCore p.d p.c ((y.releaseAt p.k n (es.map off)).setVreg (z.vphys d) v)).orStatus p
            (if (es.map off).any (fun o => y.races p.k o n) then stXrace else 0))
    (Issues s p ga → loads ga (fun x => x / 256 == part.val) ix (((List.range 256).map (fun k => 256 * part.val + k)).filter act))
    ∧ (Issues s p rg → (∀ r, r < 16 → ix (64 * r + 1) ≤ 64) →
        loads rg (fun _ => true) (fun x => ix (x / 64 * 64) + x % 64)
          ((List.range 1024).filter (fun x => act x && x % 64 < ix (x / 64 * 64 + 1))))
    ∧ (Issues s p rg → (∃ r, r < 16 ∧ 64 < ix (64 * r + 1)) → Traps s p rg 0x03 0)

/-- R396, R398, R224, R117: VST and VSTQ store sixteen rows of narrowed codes where the core may write and no command of it stands in the
way; VSTQ takes the head of its store queue, and its drain is a command until the bytes have reached the banks. -/
def Obligations.VectorStores : Prop :=
  ∀ (s : State) (p : At) (ef : EF) (ty : VTy) (a e : Reg) (b : VReg) (w : Fin 2) (lit : BitVec 32) (pred : PredOp) (sp : Spark)
    (offs : Nat → Nat) (head : List W32) (rest : List (List W32)),
    let st : Instr := .vst ef ty a b e lit pred sp
    let sq : Instr := .vstq ef ty a w e lit sp
    let l := (List.range 16).map offs
    let n := 8 * ef.width
    let clear : Prop := ∀ r, r < 16 → (s.core p.d p.c).storeHeld p.d p.c (offs r) n = false
    (let t := s.acting p st
     let y := t.core p.d p.c
     let z := y.strand p.k
     Issues s p st → RowsAt s p st .write ef a e lit offs → clear →
      Retiring s p st (storeVector t p st none ef ty (predMask y z pred) (y.vreg (z.vphys b)) l))
    ∧ (let t := s.acting p sq
       let y := t.core p.d p.c
       Issues s p sq → RowsAt s p sq .write ef a e lit offs → clear → y.storeQueue w.val = head :: rest →
      Proceeds s p sq (storeVector ((t.setCore p.d p.c { y with stq := Tab.set y.stq w.val rest }).acceptDrain p (pushCh sp) 8 n l)
        p sq (some y.nextCmd) ef ty (BitVec.allOnes 1024) head l))

/-- R224, R395, R396: a vector store goes to the end of the vector unit's stores, due its delay later but not before one accepted before
it; with it the strand's entries over its ranges reach the bank. To vector accesses its bytes are there at once, under its masks. When
it is due, it is performed at the banks, with those accepted before it. -/
def Sys2Proof.Claims.AcceptedStores : Prop :=
  ∀ (t : State) (p : At) (i : Instr) (cmd : Option Nat) (n : Nat) (offs : List Nat) (rows : List (Nat × List Byte × List Byte)),
    let y := t.core p.d p.c
    let u := (t.storeRows p i cmd n offs rows).core p.d p.c
    (∃ v : VStore, u.vstores = y.vstores ++ [v] ∧ v.strand = p.k ∧ v.cmd = cmd ∧ v.rows = rows
        ∧ t.cyc p.d p.c + i.vecDelay (t.bankLines p i) ≤ v.due ∧ (∀ g ∈ y.vstores, g.due ≤ v.due)
        ∧ (v.due = t.cyc p.d p.c + i.vecDelay (t.bankLines p i) ∨ ∃ g ∈ y.vstores, g.due = v.due))
    ∧ (∀ j, byteAhead u p.k j = byteUnder rows j (byteAhead y p.k j)) ∧ (∀ j, j ≠ p.k → u.strand j = y.strand j)
    ∧ ∀ (d c : Nat),
        let y := t.core d c
        let w := (t.settleCore d c).core d c
        let done := y.vstores.takeWhile (fun v => v.due ≤ t.cyc d c)
        w.vstores = y.vstores.drop done.length
          ∧ (∀ x, Mem.byte w.spad x = byteUnder (done.flatMap (fun v => v.rows)) x (Mem.byte y.spad x))
          ∧ w.retiring = y.retiring.filter (fun e => t.cyc d c < e.1)

/-- R398, R224: what the store of a vector does to memory as its strand's vector accesses find it, for rows that share no byte: the
active elements' codes change to the narrowed ones, the inactive ones' keep their bits, and no byte outside the rows changes. -/
def Sys2Proof.Claims.StoredVector : Prop :=
  ∀ (t : State) (p : At) (i : Instr) (cmd : Option Nat) (ef : EF) (ty : VTy) (mask : BitVec 1024) (v : List W32) (offs : Nat → Nat),
    v.length = 1024 → (∀ r r', r < r' → r' < 16 → offs r + 8 * ef.width ≤ offs r') →
    let y := t.core p.d p.c
    let s := storeVector t p i cmd ef ty mask v ((List.range 16).map offs)
    let u := s.core p.d p.c
    (∀ x w, x < 1024 → v[x]? = some w → codeSeen u p.k (offs (x / 64)) ef.width (x % 64) =
      if mask.getLsbD x then (narrow ef ty w).1 % 2 ^ ef.width else codeSeen y p.k (offs (x / 64)) ef.width (x % 64))
    ∧ (∀ j, (∀ r, r < 16 → ¬(offs r ≤ j ∧ j < offs r + 8 * ef.width)) → byteAhead u p.k j = byteAhead y p.k j)
    ∧ ∀ k, (s.strand p).status.getLsbD k = true ↔ (t.strand p).status.getLsbD k = true ∨
        ∃ x w, x < 1024 ∧ v[x]? = some w ∧ mask.getLsbD x = true ∧ (narrow ef ty w).2.getLsbD k = true

/-- R224: the entries of a strand's table that a vector access performs change nothing of memory as that strand sees it, and none that
remains shares a byte with the range. -/
def Sys2Proof.Claims.TableRelease : Prop :=
  ∀ (y : Core) (k off n : Nat),
    let u := y.releaseRange k off n
    (∀ j, byteSeen u k j = byteSeen y k j)
    ∧ (∀ e ∈ (u.strand k).fwd, e ∈ (y.strand k).fwd ∧ (e.off + e.data.length ≤ off ∨ off + n ≤ e.off))
    ∧ u.vstores = y.vstores ∧ (∀ j, j ≠ k → u.strand j = y.strand j)

/-- What a store leaves in the forwarding table and the vector unit, and how it is released: Claims.AcceptedStores, Claims.StoredVector, Claims.TableRelease. -/
def Obligations.ForwardingTable : Prop := Claims.AcceptedStores ∧ Claims.StoredVector ∧ Claims.TableRelease

/-- R399: VSCAT stores the active elements of its quarter of vE at base + index * size, narrowed, a higher element over a lower one. -/
def Sys2Proof.Claims.Scatters : Prop :=
  ∀ (s : State) (p : At) (ef : EF) (ty : VTy) (part : Fin 4) (a : Reg) (b e : VReg) (lit : BitVec 32) (pred : PredOp) (sp : Spark)
    (off : Nat → Nat),
    let i : Instr := .vscat ef ty part a b e lit pred sp
    let t := s.acting p i
    let y := t.core p.d p.c
    let z := y.strand p.k
    let n := ef.width / 8
    let ix (x : Nat) : Nat := ((y.vreg (z.vphys b)).getD x 0).toNat
    let es := ((List.range 256).map (fun k => 256 * part.val + k)).filter (active y z pred)
    let out (x : Nat) : Nat × Status := narrow ef ty ((y.vreg (z.vphys e)).getD x 0)
    Issues s p i → ElemsAt s p i .write n ((s.reg p a).toNat + lit.toInt) es ix off →
      (∀ x ∈ es, y.storeHeld p.d p.c (off x) n = false) →
      Retiring s p i ((t.storeRows p i none n (es.map off)
          (es.map (fun x => (off x, leBytes n (out x).1, List.replicate n 0xFF)))).orStatus p (es.foldl (fun st x => st ||| (out x).2) 0))

/-- Gathers and scatters: Claims.Gathers, Claims.Scatters. -/
def Obligations.GathersAndScatters : Prop := Claims.Gathers ∧ Claims.Scatters

/-- R401, R384, R146, R147: VQUANT stores the four segment records of a vector at an aligned place; VDEQ reads four records, refuses any
that is malformed or of another format, and writes the values of the active elements. The model's choice between R384 and R147: VDEQ sets OVERFLOW
and no other bit (log entry 8). -/
def Sys2Proof.Claims.SegmentRecords : Prop :=
  ∀ (s : State) (p : At) (ef : EF) (zm : Bool) (d b : VReg) (a e : Reg) (tt : Fin 8) (rm : RMode) (sat : Bool) (lit : BitVec 32)
    (pred : PredOp) (sp : Spark) (off : Nat),
    let qu : Instr := .vquant ef a b e tt rm sat sp
    let dq : Instr := .vdeq ef zm d a lit pred sp
    let n := 4 * recBytes ef.width
    let r : Rnd := { rm := rm, sat := sat, c := e }
    let reaches (i : Instr) (acc : Access) (base : Int) : Prop := base % 16 = 0 ∧ base = 2 ^ 63 + (off : Int) ∧ off + n ≤ 0x400000
      ∧ (s.acting p i).judgeStrand p.d p.c acc off n = .ok
    (let t := s.acting p qu
     let y := t.core p.d p.c
     let recs := quantRecords ef tt.val rm sat ((y.vreg ((y.strand p.k).vphys b)).mapIdx (fun j w => (f32v w, t.rndBits p r j)))
     let bytes := recs.flatMap Prod.fst
     Issues s p qu → reaches qu .write (s.reg p a).toNat → y.storeHeld p.d p.c off n = false →
      Retiring s p qu ((t.storeRows p qu none n [off] [(off, bytes, List.replicate bytes.length 0xFF)]).orStatus p
        (recs.foldl (fun st x => st ||| x.2) (t.rndStatus p r))))
    ∧ (let t := s.acting p dq
       let y := t.core p.d p.c
       let z := y.strand p.k
       let bytes := (List.range n).map (fun j => byteAhead y p.k (off + j))
       let y1 := y.releaseAt p.k n [off]
       Issues s p dq → reaches dq .read ((s.reg p a).toNat + lit.toInt) →
        (∀ rs, readRecords ef bytes = some rs →
          ∃ v st, Merged y z pred zm (fun x => (rs[x]?).map Prod.fst) (y.vreg (z.vphys d)) v ∧ Gathered y z pred (fun x => rs[x]?) st
            ∧ (∀ k, k ≠ 5 → st.getLsbD k = false)
            ∧ Retiring s p dq ((t.setCore p.d p.c (y1.setVreg (z.vphys d) v)).orStatus p st))
        ∧ (readRecords ef bytes = none → Traps s p dq 0x03 0))

/-- Vector loads and the records of segments: Claims.VectorLoads, Claims.SegmentRecords. -/
def Obligations.VectorLoadsAndRecords : Prop := Claims.VectorLoads ∧ Claims.SegmentRecords

/-! Commands for the engines. -/

/-- R48, R229, R310: a command that the engine port accepts stands last in its queue, with its number, strand and pc, its push and its
ranges; its result registers but s0 are awaited from then on; the other queues, strands and registers stay. -/
def Obligations.CommandAcceptance : Prop :=
  ∀ (s : State) (p : At) (q : Nat) (push : Option Nat) (dregs : List Nat) (ranges : List Rng) (body : CmdBody), q < 7 →
    let y := s.core p.d p.c
    let u := s.acceptCmd p q push dregs ranges body
    let w := u.core p.d p.c
    w.queue q = y.queue q ++ [{ id := y.nextCmd, strand := p.k, cpc := (s.strand p).pc.toNat, push := push, dregs := dregs,
                                stage := .queued, status := 0, ranges := ranges, body := body, bad := none }]
    ∧ w.nextCmd = y.nextCmd + 1
    ∧ (∀ n, n ≠ q → w.queue n = y.queue n)
    ∧ (u.strand p).await = (s.strand p).await ++ (dregs.filter (fun r => r != 0)).map (fun r => (r, y.nextCmd))
    ∧ (u.strand p).regs = (s.strand p).regs ∧ (u.strand p).pc = (s.strand p).pc
    ∧ (∀ j, j ≠ p.k → w.strand j = y.strand j)
    ∧ w.spad = y.spad ∧ w.vregs = y.vregs ∧ w.preds = y.preds ∧ w.sparks = y.sparks ∧ w.fmtq = y.fmtq

/-- R157, R158, R161, R172: MLEASE asks for the array, MFREE, MSWAP and MCHK take a place in the matrix queue, MFMT adds a format word
that it has checked to a queue of sixteen; MCHK's register and %flags are awaited. -/
def Sys2Proof.Claims.MatrixControl : Prop :=
  ∀ (s : State) (p : At) (a d : Reg) (clr : Bool),
    let t := s.acting p .mlease
    let y := t.core p.d p.c
    let fmt : Instr := .mfmt a
    let chk : Instr := .mchk clr d
    let asks (u : State) : State := if (s.clamp p.d (p.c / 4)).holder = some p.c then u
      else u.modCore p.d p.c (fun y => { y with leaseReq := some (y.leaseReq.getD (s.cyc p.d p.c)) })
    (Issues s p .mlease → Proceeds s p .mlease (asks t))
    ∧ (Issues s p .mfree → Proceeds s p .mfree (t.acceptCmd p 1 none [] [] .mfree))
    ∧ (Issues s p .mswap → Proceeds s p .mswap (asks (t.acceptCmd p 1 none [] [] .mswap)))
    ∧ (Issues s p fmt → y.fmtq.length < 16 → (fmtOf (s.reg p a)).ok = true →
        Proceeds s p fmt (t.modCore p.d p.c (fun y => { y with fmtq := y.fmtq ++ [s.reg p a] })))
    ∧ (Issues s p fmt → y.fmtq.length < 16 → (fmtOf (s.reg p a)).ok = false → Traps s p fmt 0x03 0)
    ∧ (Issues s p fmt → 16 ≤ y.fmtq.length → exec fmt s = .next (s.stall p none))
    ∧ (Issues s p chk → Proceeds s p chk ((t.acceptCmd p 1 none [d.val] [] (.mchk clr)).modStrand p (fun z =>
        { z with awaitFlags := some y.nextCmd })))

/-- R164, R166, R169, R157, R161: MLDW, MSTRM and MDRAIN take the format word at the head of the queue and a place in the matrix queue, and
ask for the array; with no format word they trap with QUEUE_UNDERFLOW. -/
def Sys2Proof.Claims.MatrixCommands : Prop :=
  ∀ (s : State) (p : At) (a b e g : Reg) (lit : BitVec 32) (sp : Spark) (stride : Fin 65536) (m : Fin 256) (row0 : Fin 128)
    (opt : DrainOpt) (fw : Word) (rest : List Word),
    let ld : Instr := .mldw a lit sp
    let st : Instr := .mstrm a stride m row0 sp
    let dr : Instr := .mdrain opt a b e g stride m row0 sp
    let t := s.acting p ld
    let y := t.core p.d p.c
    let f := fmtOf fw
    let ad : Int := (s.reg p a).toNat + lit.toInt
    let popped := t.modCore p.d p.c (fun y => { y with fmtq := rest })
    let asks (u : State) : State := u.postRequest p.d p.c
    let out := (s.reg p a).toNat
    let bias := (s.reg p e).toNat
    let table := (s.reg p g).toNat
    (y.fmtq = [] → (Issues s p ld → Traps s p ld 0x09 0) ∧ (Issues s p st → Traps s p st 0x09 0) ∧ (Issues s p dr → Traps s p dr 0x09 0))
    ∧ (y.fmtq = fw :: rest →
      (∀ hbm va, Issues s p ld → mldwSource t p ad f.tileBytes = .ok (hbm, va) →
        Proceeds s p ld (asks (popped.acceptCmd p 1 (pushCh sp) []
          [{ sp := if hbm then .pod else .spad, at_ := va, len := f.tileBytes, wr := false }] (.mldw va fw hbm none (!hbm) none []))))
      ∧ (∀ c hb, Issues s p ld → mldwSource t p ad f.tileBytes = .error (c, hb) →
        ∃ u m, exec ld s = .next u ∧ (u.core p.d p.c).matrixQ.getLast? = some m ∧ m.id = y.nextCmd ∧ m.bad = some (c, 0)
          ∧ (u.core p.d p.c).fmtq = rest ∧ (u.strand p).pc = BitVec.ofInt 18 ((s.strand p).after ld))
      ∧ (Issues s p st → Proceeds s p st (asks (popped.acceptCmd p 1 (pushCh sp) []
          (rowsRange p out stride.val m.val f.rowBytes false)
          (.mstrm out fw stride.val m.val row0.val false { mism := 0, voids := 0, first := none }))))
      ∧ (Issues s p dr → drainRefused opt b stride.val m.val f = false → Proceeds s p dr (asks (popped.acceptCmd p 1 (pushCh sp) []
          (rowsRange p out stride.val (if opt.req && f.orec then m.val / 2 else m.val) (f.outBytes opt.req) true
            ++ (if opt.bias || opt.csc then rowsRange p bias 0 1 (if opt.csc then 1024 else 512) false else [])
            ++ (if opt.act then rowsRange p table 0 1 2064 false else []))
          (.mdrain out bias table (s.reg p b).toNat opt fw stride.val m.val row0.val))))
      ∧ (Issues s p dr → drainRefused opt b stride.val m.val f = true → Traps s p dr 0x03 0))

/-- The commands of the matrix clamp: Claims.MatrixControl, Claims.MatrixCommands. -/
def Obligations.Matrix : Prop := Claims.MatrixControl ∧ Claims.MatrixCommands

/-- R190, R330, R331, R332: CPY copies one row of sE + LIT bytes, CPYS sE's rows of sE's length at sG's strides, CPYCS one row under the
chain's checksum; each enters the copy queue of sixteen, and one of 2^40 bytes or more traps. -/
def Sys2Proof.Claims.CopyCommands : Prop :=
  ∀ (s : State) (p : At) (d a b e g : Reg) (lit : BitVec 32) (sp : Spark) (first last : Bool),
    let cp : Instr := .cpy a b e lit sp
    let cs : Instr := .cpys a b e g sp
    let cc : Instr := .cpycs first last d a b e g lit sp
    let t := s.acting p cp
    let hi (r : Reg) : Nat := (s.reg p r).toNat / 2 ^ 32
    let lo (r : Reg) : Nat := (s.reg p r).toNat % 2 ^ 32
    let len := (s.reg p e).toNat + lit.toNat
    let job : CopyJob :=
      { dst := (s.reg p a).toNat, src := (s.reg p b).toNat, rows := 1, rlen := len, dstr := 0, sstr := 0, crc := false, first := false,
        last := false, expect := 0, row := 0, off := 0, moved := 0, crcNext := 0, pages := [], leaf := none, phase := .queued }
    let grid : CopyJob := { job with rows := hi e, rlen := lo e, dstr := hi g, sstr := lo g }
    let chained : CopyJob := { job with crc := true, first := first, last := last, expect := BitVec.ofNat 32 (s.reg p g).toNat }
    let room : Prop := (t.core p.d p.c).copyQ.length < 16
    let takes (i : Instr) (dregs : List Nat) (j : CopyJob) : Prop := Issues s p i → room →
      (j.rows * j.rlen < 2 ^ 40 → Proceeds s p i (t.acceptCmd p 0 (pushCh sp) dregs (copyRanges t p j) (.copy j)))
      ∧ (2 ^ 40 ≤ j.rows * j.rlen → Traps s p i 0x03 0)
    takes cp [] job ∧ takes cs [] grid ∧ takes cc [d.val] chained
    ∧ (¬room → (Issues s p cp → exec cp s = .next (s.stall p none)) ∧ (Issues s p cs → exec cs s = .next (s.stall p none))
        ∧ (Issues s p cc → exec cc s = .next (s.stall p none)))

/-- R273, R275, R316 to R318, R327, R370, R377: COLL, SMPL, SBIND, ATOM, RSV and TLBIQ enter their queues. An ATOM opens the gang's
interval with its count, one whose address names no element too, which its engine ends; a reservation that meets none and finds room
stands in the table at once; an invalidation drops the memory-side entries and awaits the tenant's contexts. The model's choice: RSV's entry, or
its RNG_OVERLAP record, comes in RSV's own step (log entry 34). -/
def Sys2Proof.Claims.ServiceCommands : Prop :=
  ∀ (s : State) (p : At) (d a b e g : Reg) (lit : BitVec 32) (sp : Spark) (n : Fin 4096) (sel : BindSel) (slot : Fin 2048)
    (op : AtomOp) (ty : VTy) (dom : RsvDom) (all : Bool) (cs cr : Nat) (gang : Gang),
    let t := s.acting p (.coll a lit sp)
    let y := t.core p.d p.c
    let val (r : Reg) : Nat := (s.reg p r).toNat
    let ad : Int := val a + lit.toInt
    let rng (x : Int) (len : Nat) (wr : Bool) : List Rng := (t.spot p.d p.c dataSpace x len).rng len wr
    let co : Instr := .coll a lit sp
    let sm : Instr := .smpl a b e g n sp
    let sb : Instr := .sbind sel a slot sp
    let at_ : Instr := .atom op ty d a b lit sp
    let rs : Instr := .rsv dom a b e g sp
    let tl : Instr := .tlbiq all a b sp
    (Issues s p co → Proceeds s p co (t.acceptCmd p 2 (pushCh sp) [] ((t.spot p.d p.c ownSpace ad 128).rng 128 false) (.coll ad none false)))
    ∧ (Issues s p sm → 1 ≤ val b → val b ≤ 2 ^ 20 → Proceeds s p sm (t.acceptCmd p 3 (pushCh sp) []
        (rng (val a) (batchBytes (val b) n.val) false ++ rng (val e) (4 * n.val) false ++ rng (val g) (8 * n.val) true)
        (.smpl (val a) (val b) (val e) (val g) n.val)))
    ∧ (Issues s p sm → (val b = 0 ∨ 2 ^ 20 < val b) → Traps s p sm 0x03 0)
    ∧ (Issues s p sb → Proceeds s p sb (t.acceptCmd p 3 (pushCh sp) []
        ((bindParts sel).flatMap (fun r => rng ((val a + r.1 : Nat) : Int) r.2 false)) (.sbind sel (val a) slot.val)))
    ∧ (∀ va, Issues s p at_ → t.ctx p.d p.c = some (cs, cr, gang) → atomSpot t p ad = .ok va →
        let z := t.strand p
        Proceeds s p at_ (((t.acceptCmd p 6 (pushCh sp) [d.val] [{ sp := .pod, at_ := va, len := 4, wr := true }]
          (.atom op ty va (BitVec.ofNat 32 (val b)) z.atomCount)).modStrand p (fun z => { z with atomCount := z.atomCount + 1 })).setGang p.d cs
            { gang with atomOpen := true }))
    ∧ (∀ c, Issues s p at_ → t.ctx p.d p.c = some (cs, cr, gang) → atomSpot t p ad = .error c → y.otherQ.any Cmd.endsAtOnce = false →
        y.records.length ≤ 16 → ∃ u, exec at_ s = .next u ∧ (u.strand p).pc = BitVec.ofInt 18 ((s.strand p).after at_)
          ∧ (u.strand p).atomCount = (s.strand p).atomCount + 1 ∧ (∃ g, u.gang p.d cs = some g ∧ g.atomOpen = true)
          ∧ (u.core p.d p.c).otherQ.length = y.otherQ.length
          ∧ ∃ r ∈ (u.core p.d p.c).records, r.cause = c ∧ r.progress = 0 ∧ r.cmd = y.nextCmd ∧ r.strand = p.k)
    ∧ (Issues s p rs →
        let r : Rsv := { tenant := t.tenantOf p.d p.c, gang := agentSlot (t.coreAgent p.d p.c), key := s.reg p a,
                         domain := match dom with | .d1 => 1 | .d2 => 2 | .d3 => 3,
                         stream := val g, first := val b, count := val e }
        (1 ≤ val e → val b + val e ≤ 2 ^ 64 → val g < 2 ^ 32 → (val g = 0 ∨ dom = .d3) →
          y.otherQ.any Cmd.endsAtOnce = false → y.records.length ≤ 16 →
          ∃ u, exec rs s = .next u ∧ (u.strand p).pc = BitVec.ofInt 18 ((s.strand p).after rs) ∧ (u.strand p).regs = (s.strand p).regs
            ∧ (if (t.die p.d).rsvs.any (fun x => x.meets r) = true ∨ 256 ≤ (t.die p.d).rsvs.length then
                (u.die p.d).rsvs = (t.die p.d).rsvs ∧ ∃ q ∈ (u.core p.d p.c).records, q.cause = .rngOverlap ∧ q.cmd = y.nextCmd
                  ∧ q.progress = (if (t.die p.d).rsvs.any (fun x => x.meets r) then 0 else 1)
              else (u.die p.d).rsvs = (t.die p.d).rsvs ++ [r]))
        ∧ (val e = 0 ∨ 2 ^ 64 < val b + val e ∨ 2 ^ 32 ≤ val g ∨ (val g ≠ 0 ∧ dom ≠ .d3) → Traps s p rs 0x03 0))
    ∧ (Issues s p tl →
        let start := if all then 2 ^ 47 else val a % 2 ^ 48
        let len := if all then 2 ^ 47 else val b
        let good : Prop := all = true ∨ (val a < 2 ^ 60 ∧ val a / 2 ^ 48 = p.d ∧ val a / 2 ^ 47 % 2 = 1 ∧ val a % 65536 = 0
          ∧ val b % 65536 = 0 ∧ val b ≠ 0 ∧ start + len ≤ 2 ^ 48)
        let tn := t.tenantOf p.d p.c
        (good → Proceeds s p tl ((t.acceptCmd p 6 (pushCh sp) [] [] (.tlbiq all start len)).modDie p.d (fun x =>
          { x with memTlb := x.memTlb.filter (fun m => !m.inRange tn start len),
                   gangs := x.gangs.map (fun m => (m.1, if m.2.tenant = tn then m.2.dropTlb tn start len else m.2)),
                   tlbis := x.tlbis ++ [{ core := p.c, cmd := y.nextCmd, tenant := tn, start := start, len := len, accepted := x.tick,
                                          pending := x.pendingFor tn, late := [] }] })))
        ∧ (¬good → Traps s p tl 0x03 0))

/-- Commands to the copy engine, the sampler, the collectives and the other queues: Claims.CopyCommands, Claims.ServiceCommands. -/
def Obligations.CopyAndServiceCommands : Prop := Claims.CopyCommands ∧ Claims.ServiceCommands

/-- R200, R205, R206, R219, R322: a brand instruction whose names and target are well formed enters the brand queue with its result
registers awaited; a later access of the core's strands is made only under rights that the table would still give with it and the
operations before it done; a malformed operand traps. -/
def Obligations.BrandCommands : Prop :=
  ∀ (s : State) (p : At) (d a b c : Reg) (lsize slot : Fin 64) (sp : Spark) (push : Option Chan),
    let x := (s.reg p a).toNat
    let w := (s.reg p b).toNat
    let ch := push.map (fun c => c.val)
    let name (v : Nat) : Prop := v < 2 ^ 28
    let target (v : Nat) : Prop := v < 2 ^ 28 ∧ agentOk (v % 65536) = true
    let takes (i : Instr) (good : Prop) (push : Option Nat) (dregs : List Nat) (op : BrandOp) : Prop :=
      let t := s.acting p i
      let y := t.core p.d p.c
      let u := t.acceptCmd p 4 push dregs [] (.brand op false)
      let tn := t.tenantOf p.d p.c
      Issues s p i → (good → Proceeds s p i u
          ∧ ∀ acc off len, u.judgeStrand p.d p.c acc off len = .ok →
              u.judgeIn ((y.pendingOps (y.nextCmd + 1) ++ [op]).foldl (fun x o => x.asDone p.d tn (t.coreAgent p.d p.c) o) (u.die p.d))
                p.d tn (t.agentsOf p.d p.c 0) acc (spadVa p.d p.c off) len = .ok)
        ∧ (¬good → Traps s p i 0x03 0)
    takes (.bclaim d a lsize sp) (x < 2 ^ 60 ∧ x / 2 ^ 47 % 2 = 1 ∧ x % 2 ^ 48 % 2 ^ lsize.val = 0) (pushCh sp) [d.val] (.claim x lsize.val)
    ∧ takes (.bfree d a push) (name x) ch [d.val] (.free x)
    ∧ takes (.blend d a b push) (name x ∧ target w) ch [d.val] (.lend x w)
    ∧ takes (.bret d a push) (name x) ch [d.val] (.ret x)
    ∧ takes (.bxfer d a b push) (name x ∧ target w) ch [d.val] (.xfer x w)
    ∧ takes (.bsplit d a push) (name x) ch [d.val] (.split x)
    ∧ takes (.bjoin d a b push) (name x ∧ name w) ch [d.val] (.join x w)
    ∧ takes (.bshare d a b push) (name x ∧ target w) ch [d.val] (.share x w)
    ∧ takes (.bshareAtomic d a push) (name x) ch [d.val] (.atomic x)
    ∧ takes (.bunsh d a push) (name x) ch [d.val] (.unshare x)
    ∧ takes (.bquery d a push) (name x) ch [d.val] (.query x)
    ∧ takes (.slotrd d c slot push) True ch [d.val, c.val] (.slotRead slot.val)
    ∧ takes (.slotsw a slot push) (name x) ch [] (.slotSwitch x slot.val)

/-! Events at strands and cores. -/

/-- R42, R43, R50: when the barrier of a running gang may release, every strand that waits at BAR goes on and the barrier is forgotten:
16 cycles after its last arrival in Free mode; at the deadline in Locked mode, or with STEP in the tick after a step end that comes no
earlier than the last arrival, at once where no engine ran then. CBAR releases its core two cycles after the last arrival. The model's choice: the
release at once where no engine was RUNNING follows R42's words, against the worked program of R424 to R426 (log entry 63). -/
def Sys2Proof.Claims.BarrierReleases : Prop :=
  ∀ (s : State) (d slot c t0 : Nat) (g : Gang) (idle : Bool),
    let now := s.now d
    let freed (w : Wait) (z : Strand) : Strand := { z with wait := if z.wait = w then .none else z.wait }
    let opens : Prop := if g.locked then
        (∃ dl : Int, g.barDl = some (dl, false) ∧ dl ≤ now)
          ∨ (∃ dl : Int, g.barDl = some (dl, true) ∧ if idle then t0 < now else ∃ e, (s.die d).stepEnd = some e ∧ t0 ≤ e ∧ e < now)
      else t0 + 16 ≤ s.cyc d (g.cores.headD 0)
    (s.gang d slot = some g → g.phase.active = true → g.barDone = some (t0, idle) →
      (opens → ∃ t : State, exec (.barRelease d slot) s = .next t ∧ t.gang d slot = some { g with barDl := none, barDone := none }
        ∧ (∀ x ∈ g.cores, ∀ k, t.strand ⟨d, x, k⟩ = freed .bar (s.strand ⟨d, x, k⟩))
        ∧ ∀ q : At, (q.d = d → q.c ∉ g.cores) → t.strand q = s.strand q)
      ∧ (¬opens → exec (.barRelease d slot) s = .next s))
    ∧ ((s.core d c).cbarDone = some t0 →
      (t0 + 2 ≤ s.cyc d c → ∃ t : State, exec (.cbarRelease d c) s = .next t ∧ (t.core d c).cbarDone = none
        ∧ (∀ k, t.strand ⟨d, c, k⟩ = freed .cbar (s.strand ⟨d, c, k⟩))
        ∧ ∀ q : At, (q.d = d → q.c ≠ c) → t.strand q = s.strand q)
      ∧ (s.cyc d c < t0 + 2 → exec (.cbarRelease d c) s = .next s))

/-- Barriers: arrival, the notes of arrival and release: Claims.BarrierArrival, Claims.ArrivalNotes, Claims.BarrierReleases. -/
def Obligations.Barriers : Prop := Claims.BarrierArrival ∧ Claims.ArrivalNotes ∧ Claims.BarrierReleases

/-- R42, R47: the deadlines of waits in Locked mode: a barrier whose deadline has come while a strand is missing fails the context of the
first one missing, and a strand that still waits at START + %steptick in a wait that it bounds fails its own, both with TIMING_LATE;
before that, nothing happens. The model's choices: which waits %steptick bounds, and that a wait begun after that tick fails in the tick in which
it begins (log entry 39). -/
def Sys2Proof.Claims.WaitDeadlines : Prop :=
  ∀ (s : State) (d slot rank c k : Nat) (g : Gang) (dl : Int) (stp : Bool) (before after : List Nat),
    let p : At := ⟨d, c, k⟩
    let z := s.strand p
    let arrived (x j : Nat) : Prop := (s.strand ⟨d, x, j⟩).exited = true ∨ (s.strand ⟨d, x, j⟩).wait = .bar
    let late : Host.Outcome State Fault Refusal := .next (s.declareFailed d c k z.pc.toNat .timingLate)
    (s.gang d slot = some g → g.locked = true → g.barDl = some (dl, stp) →
      g.cores = before ++ c :: after → k < 4 → (∀ x ∈ before, ∀ j < 4, arrived x j) → (∀ j < k, arrived c j) → ¬arrived c k →
      exec (.barDeadline d slot) s = if dl ≤ s.now d then late else .next s)
    ∧ (s.ctx d c = some (slot, rank, g) → g.locked = true → z.running = true → z.exited = false → z.steptick ≠ 0 →
      ((z.stalled = true ∨ (z.wait ≠ .none ∧ z.wait ≠ .bar ∧ ∀ u, z.wait ≠ .waitt u)) →
        exec (.steptickDeadline d c k) s = if g.start + z.steptick.toNat ≤ s.now d then late else .next s)
      ∧ (z.stalled = false → (z.wait = .none ∨ z.wait = .bar ∨ ∃ u, z.wait = .waitt u) → exec (.steptickDeadline d c k) s = .next s))

/-- Waits on queues and on time, and their deadlines: Claims.QueueWaits, Claims.TimedWaits, Claims.WaitDeadlines. -/
def Obligations.WaitsAndDeadlines : Prop := Claims.QueueWaits ∧ Claims.TimedWaits ∧ Claims.WaitDeadlines

/-- R111, R117, R403, R394: at its tick a WAITT goes on; the VFLAGs whose count has run out reach %flags and %vcnt, the last of them last;
and the oldest entry of an operand queue that is not present becomes present once it is due. -/
def Sys2Proof.Claims.LandingEvents : Prop :=
  ∀ (s : State) (d c k q : Nat) (target : Int) (before after : List OpEntry) (e : OpEntry),
    let p : At := ⟨d, c, k⟩
    let z := s.strand p
    let queue (l : List OpEntry) : State := s.modCore d c (fun y => { y with opq := Tab.set y.opq q l })
    (z.wait = .waitt target →
      exec (.waittTarget d c k) s = .next (if target ≤ s.now d then s.modStrand p (fun z => { z with wait := .none }) else s))
    ∧ (let due := z.vflags.filter (fun f => f.left = 0)
      ∃ t, exec (.vflagLand d c k) s = .next t ∧ (t.strand p).vflags = z.vflags.filter (fun f => f.left ≠ 0)
        ∧ (t.strand p).regs = z.regs ∧ (t.strand p).pc = z.pc ∧ (t.strand p).status = z.status
        ∧ (due = [] → (t.strand p).flags = z.flags ∧ (t.strand p).cnt = z.cnt)
        ∧ (∀ f, due.getLast? = some f → (t.strand p).cnt = BitVec.ofNat 11 f.cnt
            ∧ ∀ n < 8, (t.strand p).flags.getLsbD n
              = if n = 4 then f.any else if n = 5 then f.all else if n = 6 then f.none else z.flags.getLsbD n))
    ∧ (Tab.get (s.core d c).opq q [] = before ++ e :: after → (∀ b ∈ before, b.present = true) → e.present = false →
      exec (.operandQueueFill d c q) s
        = .next (queue (before ++ { e with present := decide (e.due ≤ s.cyc d c) } :: after)))

/-- R228: of the strands that wait for a pop, the one first in the order from cycle mod 4 is granted it, when the pushes that have reached
the channel leave it a count, it has not been popped in this cycle and no other strand has the grant. The pushes that have reached a
channel are applied in order, those held before this cycle first and then by agent and strand, while the count is below 15, and the
others are held: an applied SPUSH issues, a retired instruction's strand goes on, a command leaves its queue. -/
def Sys2Proof.Claims.SparkEvents : Prop :=
  ∀ (s : State) (d c ch k : Nat) (h : HeldPush),
    let p : At := ⟨d, c, k⟩
    let y := s.core d c
    let z := s.strand p
    let now := s.cyc d c
    let waits (j : Nat) : Prop := (y.strand j).running = true ∧ (y.strand j).popWait = some ch
    let mine := y.held.filter (fun h => h.ch == ch)
    let open_ : Prop := 0 < y.spark ch + mine.length ∧ Tab.get y.popAt ch 0 ≤ now
      ∧ ∀ j < 4, ¬((y.strand j).granted = true ∧ (y.strand j).popWait = some ch)
    let made : Core := { y with held := y.held.erase h, sparks := Tab.set y.sparks ch (y.spark ch + 1) }
    (∀ n < 4, k = (now + n) % 4 → waits k → (∀ m < n, ¬waits ((now + m) % 4)) →
      (open_ → exec (.sparkPopGrant d c ch) s = .next (s.modStrand p (fun z => { z with granted := true })))
      ∧ (¬open_ → exec (.sparkPopGrant d c ch) s = .next s))
    ∧ ((∀ j < 4, ¬waits j) → exec (.sparkPopGrant d c ch) s = .next s)
    ∧ (∃ new, y.pushOrder ch = mine.filter (fun h => !h.fresh) ++ new ∧ new.Perm (mine.filter (fun h => h.fresh))
        ∧ new.Pairwise (fun a b => a.agent < b.agent ∨ (a.agent = b.agent ∧ a.strand ≤ b.strand)))
    ∧ (∃ t, exec (.heldPushRetry d c ch) s = .next t
        ∧ (y.spark ch ≤ 15 → (t.core d c).spark ch = min 15 (y.spark ch + mine.length)) ∧ (∀ m, m ≠ ch → (t.core d c).spark m = y.spark m)
        ∧ (15 ≤ y.spark ch → (t.core d c).held = y.held.map (fun g => if g.ch = ch then { g with fresh := false } else g)))
    ∧ (mine = [h] → y.spark ch < 15 →
      (h.by_ = .spush k → ch < 8 → z.wait = .none → ∃ t, exec (.heldPushRetry d c ch) s = .next t
          ∧ Retires p (.spush (Fin.ofNat 8 ch)) (z.after (.spush (Fin.ofNat 8 ch))) (s.setCore d c made) t)
      ∧ (h.by_ = .retire k → z.wait = .heldPush ch →
          exec (.heldPushRetry d c ch) s = .next ((s.setCore d c made).modStrand p (fun z => { z with wait := .none })))
      ∧ (∀ id, h.by_ = .cmd id → ∃ t, exec (.heldPushRetry d c ch) s = .next t
          ∧ (t.core d c).held = made.held ∧ (t.core d c).sparks = made.sparks ∧ ∀ q < 7, ∀ m ∈ (t.core d c).queue q, y.cmd q id ≠ some m)
      ∧ (h.by_ = .outside → exec (.heldPushRetry d c ch) s = .next (s.setCore d c made)))

/-- Spark channels: Claims.Sparks, Claims.SparkEvents. -/
def Obligations.SparkChannels : Prop := Claims.Sparks ∧ Claims.SparkEvents

/-- R289, R290, R291: the oldest of the sixteen records that its core keeps for a strand that runs and waits for nothing after an issue is delivered as ENGINE_FAULT, with the
record's word in %trapinfo, and leaves the pending records; to a strand that waits after issue it is not delivered yet. -/
def Sys2Proof.Claims.EngineFaults : Prop :=
  ∀ (s : State) (d c k : Nat) (r : EngRec),
    let p : At := ⟨d, c, k⟩
    let z := s.strand p
    let bit (b : Bool) : Nat := if b then 1 else 0
    let word := r.progress % 2 ^ 32 * 2 ^ 32 + r.cpc % 2 ^ 18 * 2 ^ 12 + bit r.nopush * 2 ^ 11 + r.queue * 2 ^ 8 + r.cause.code
    (s.core d c).keptRecords.find? (fun r => r.strand == k) = some r → z.running = true → z.exited = false →
      (z.wait = .none → HasHandler s p → ∃ t, exec (.engineFault d c k) s = .next t
        ∧ Handles s p 0x50 (BitVec.ofNat 64 word) z.pc.toNat t ∧ (t.core d c).records = (s.core d c).records.erase r)
      ∧ (z.wait ≠ .none → exec (.engineFault d c k) s = .next s)

/-- Results and pages that land, and the faults of engines: Claims.LandingEvents, Claims.EngineFaults. -/
def Obligations.LandingsAndEngineFaults : Prop := Claims.LandingEvents ∧ Claims.EngineFaults

/-- R195, R364: the next 256 bytes of a neighbour transfer arrive at its matched place, the receive matching the sender with the exact
length, which is no other transfer's any more (the model's choice where a second one of the sender comes: log 67); with the last bytes the
receive is gone, and both ends push. A transfer that finds no receive is discarded, and its sender's strand gets a record, or in Locked
mode its context fails. -/
def Sys2Proof.Claims.NeighbourArrivals : Prop :=
  ∀ (s : State) (d c off : Nat) (before after : List NSendJob) (j : NSendJob) (r : NRecv),
    let y := s.core d c
    let n := min 256 j.data.length
    let pushed (agent k : Nat) (ch : Option Nat) : List HeldPush :=
      ch.toList.map (fun n => { ch := n, agent := agent, strand := k, fresh := true, by_ := .outside })
    let gone := s.setCore d c { y with arriving := before ++ after }
    y.arriving = before ++ j :: after → (∀ b ∈ before, s.cyc d c < b.arrives) → j.arrives ≤ s.cyc d c →
    (y.nrecvs.filter (fun r => r.sender == j.fromCore) = [r] →
      (j.target = some off ∧ r.taken = true ∨ j.target = none ∧ r.taken = false ∧ r.off = off ∧ r.len = j.data.length) → j.fromCore ≠ c →
      ∃ t, exec (.neighbourArrival d c) s = .next t
        ∧ (∀ x, Mem.byte (t.core d c).spad x = if off ≤ x ∧ x < off + n then j.data.getD (x - off) 0 else Mem.byte y.spad x)
        ∧ (∀ q, t.strand q = s.strand q)
        ∧ (256 < j.data.length → (t.core d c).nrecvs = y.nrecvs.map (fun q => if q.sender = j.fromCore then { q with taken := true } else q)
            ∧ (t.core d c).held = y.held
            ∧ (t.core d c).arriving = { j with data := j.data.drop 256, arrives := j.arrives + 1, target := some (off + 256) } :: (before ++ after))
        ∧ (j.data.length ≤ 256 → (t.core d c).arriving = before ++ after
            ∧ (t.core d c).nrecvs = y.nrecvs.filter (fun r => r.sender != j.fromCore)
            ∧ (t.core d c).held = y.held ++ pushed (s.coreAgent d c) r.strand r.push
            ∧ (t.core d j.fromCore).held = (s.core d j.fromCore).held ++ pushed (s.coreAgent d j.fromCore) j.strand j.push))
    ∧ (j.target = none → (∀ r ∈ y.nrecvs, ¬(r.sender = j.fromCore ∧ r.len = j.data.length ∧ r.taken = false)) →
      (s.locked d j.fromCore = true →
        exec (.neighbourArrival d c) s = .next (gone.declareFailed d j.fromCore j.strand j.cpc .timingUnmatched))
      ∧ (s.locked d j.fromCore = false → ∃ t, exec (.neighbourArrival d c) s = .next t ∧ (t.core d c).arriving = before ++ after
          ∧ (t.core d c).spad = y.spad ∧ (t.core d c).nrecvs = y.nrecvs
          ∧ ((s.strand ⟨d, j.fromCore, j.strand⟩).exited = false → ∃ e ∈ (t.core d j.fromCore).records, e.strand = j.strand
              ∧ e.cause = .timingUnmatched ∧ e.progress = 0 ∧ e.cpc = j.cpc ∧ e.nopush = j.push.isSome)))

/-- Neighbour transfers, as instructions and at their arrival: Claims.NeighbourTransfers, Claims.NeighbourArrivals. -/
def Obligations.NeighbourData : Prop := Claims.NeighbourTransfers ∧ Claims.NeighbourArrivals

/-! The schedule table and launches. -/

/-- R31, R35: a write of CTL with VALID to an entry that is EMPTY, RETIRED or FAILED takes the snapshot and arms it, unless an arming
check fails it with cause 6 or 8; a write that clears VALID disarms it; while it is LOADING or RUNNING a write changes nothing. -/
def Sys2Proof.Claims.EntryWrites : Prop :=
  ∀ (s : State) (d e t : Nat) (te : Tenant) (ctl : Word),
    let x := s.sched d e
    let word (n : Nat) : Nat := (Tab.get x.words n 0).toNat
    let f (lo n : Nat) : Nat := ctl.toNat / 2 ^ lo % 2 ^ n
    let pkind := f 18 2
    let malformed : Prop := f 4 4 ≠ 0 ∨ word 7 ≠ 0 ∨ 2 ^ 60 ≤ word 2 ∨ 2 ^ 60 ≤ word 3 ∨ pkind = 3
      ∨ ((pkind = 1 ∨ pkind = 2) ∧ (f 20 12 = e ∨ hasEntry te.cfg (f 20 12) = false))
    let late : Prop := f 1 1 = 1 ∧ te.activeEntry e = true ∧ te.recovery.getD 0 + word 0 < s.now d
    let arm := exec (.entryArm d e t ctl) s
    let disarm := exec (.entryDisarm d e t ctl) s
    s.tenant d t = some te → hasEntry te.cfg e = true →
      ((x.state = .loading ∨ x.state = .running) → (f 0 1 = 1 → arm = .next s) ∧ (f 0 1 = 0 → disarm = .next s))
      ∧ (f 0 1 = 1 → (x.state = .empty ∨ x.state = .retired ∨ x.state = .failed) → ∃ u, arm = .next u
          ∧ (∀ w < 6, Tab.get (u.sched d e).snap w 0 = if w = 5 then ctl else Tab.get x.words w 0)
          ∧ (malformed → (u.sched d e).state = .failed ∧ (u.sched d e).cause = 6)
          ∧ (¬malformed → late → (u.sched d e).state = .failed ∧ (u.sched d e).cause = 8)
          ∧ (¬malformed → ¬late → u = s.setSched d e
              { x with words := Tab.set x.words 5 ctl, snap := (Tab.set x.words 5 ctl).filter (fun w => w.1 < 6), state := .armed, cause := 0,
                       due := false }))
      ∧ (f 0 1 = 1 → x.state = .armed → arm = .next (s.setSched d e { x with words := Tab.set x.words 5 ctl }))
      ∧ (f 0 1 = 0 → x.state ≠ .loading → x.state ≠ .running → ∃ u, disarm = .next u ∧ (u.sched d e).state = .empty
          ∧ (u.sched d e).snap = x.snap ∧ (u.sched d e).words = Tab.set x.words 5 ctl)

/-- R32, R33, R34, R35, R293: an armed entry of the active half becomes due at START less LEAD, with its predecessor's state as PKIND asks;
in Locked mode one with a predecessor fails with cause 6, one whose cores are busy with cause 8; in Free mode one whose predecessor must
retire and has failed fails with cause 7; one that becomes due stops the Free-mode gangs of other tenants, loaded or running, with a lower priority on
its cores, within 100 ticks. A failed launch is FAILED with its cause, and in Locked mode an abort originates. -/
def Sys2Proof.Claims.EntriesDue : Prop :=
  ∀ (s : State) (d e t cause : Nat) (te : Tenant) (en : SchedEntry),
    let due := exec (.entryDue d e) s
    let start := te.recovery.getD 0 + en.snapWord 0
    let time : Prop := start ≤ s.now d + en.lead
    let pred := (s.sched d en.pred).state
    let marked := s.setSched d e { en with due := true }
    let ready : Prop := en.pkind = 0 ∨ pred = .retired ∨ (en.pkind = 2 ∧ pred = .failed)
    ((s.die d).liveEntry e = some (t, te, en) → en.due = false →
      (en.locked = true → ¬time → due = .next s)
      ∧ (en.locked = true → time → en.pkind ≠ 0 → due = .next (s.launchFail d e t 6))
      ∧ (en.locked = true → time → en.pkind = 0 → (s.die d).busyFor t en = true → due = .next (s.launchFail d e t 8))
      ∧ (en.locked = true → time → en.pkind = 0 → (s.die d).busyFor t en = false → due = .next marked)
      ∧ (en.locked = false → en.pkind = 1 → pred = .failed → due = .next (s.launchFail d e t 7))
      ∧ (en.locked = false → ¬(en.pkind = 1 ∧ pred = .failed) → ¬(time ∧ ready) → due = .next s)
      ∧ (en.locked = false → ¬(en.pkind = 1 ∧ pred = .failed) → time → ready →
          (∀ g ∈ (s.die d).gangs, (g.2.phase = .running ∨ g.2.phase = .loaded) → en.cores.any g.2.cores.contains = true →
            g.2.locked = true ∨ g.2.tenant = t ∨ en.prio ≤ g.2.prio) → due = .next marked)
      ∧ (en.locked = false → ¬(en.pkind = 1 ∧ pred = .failed) → time → ready → ∃ u, due = .next u ∧ (u.sched d e).due = true
          ∧ ∀ slot g, s.gang d slot = some g → (g.phase = .running ∨ g.phase = .loaded) → en.cores.any g.cores.contains = true → g.locked = false → g.tenant ≠ t →
            g.prio < en.prio → ∃ n ≤ 100, u.gang d slot = some { g with phase := .halting e (s.now d + n) }))
    ∧ (let u := s.launchFail d e t cause
       (u.sched d e).state = .failed ∧ (u.sched d e).cause = cause ∧ (u.sched d e).slot = 0 ∧ (∀ n, n ≠ e → u.sched d n = s.sched d n)
        ∧ (u.die d).abortIn = (s.die d).abortIn ++ (if (s.sched d e).locked then
            [(selfPort, s.now d, { die := d, tick := s.now d, cause := .launchFailed, lcause := cause })] else []))

/-- Schedule entries: Claims.EntryWrites, Claims.EntriesDue. -/
def Obligations.ScheduleEntries : Prop := Claims.EntryWrites ∧ Claims.EntriesDue

/-- R23, R34, R36: a due entry whose cores are free takes the lowest free context slot and begins its load; without cores, or with cores
outside the tenant's clamps, it fails with cause 4, without a slot with cause 3. The load of an image that passes its checks is
complete within 6,000 ticks and one more for each 64 loaded bytes begun. A load that a page fault suspends begins again when the page translates,
and a Locked-mode load whose stacks the plan does not open looks again. The model's choices: the loader goes by the tenant's class 7 id in the
plan's windows, and a load takes a tick at least (log entry 54). -/
def Obligations.LaunchStarts : Prop :=
  ∀ (s : State) (d e t slot cause va : Nat) (te : Tenant) (x : SchedEntry) (g : Gang) (h : ImgHeader) (img args : List Byte),
    let start := exec (.launchStart d e) s
    let begun : State := { s.setSched d e { x with state := .loading, due := false } with launched := true }
    let taken := ((begun.setSched d e { begun.sched d e with slot := slot }).modDie d (fun z => z.saveSpads x.cores)).setGang d slot
      (newGang t e te x)
    ((s.die d).liveEntry e = some (t, te, x) → (x.due = false ∨ (s.die d).busyFor t x = true) → start = .next s)
    ∧ ((s.die d).liveEntry e = some (t, te, x) → x.due = true → (s.die d).busyFor t x = false →
      ((x.cores = [] ∨ ∃ c ∈ x.cores, te.cfg.clamps.getLsbD (c / 4) = false) → start = .next (begun.launchFail d e t 4))
      ∧ (x.cores ≠ [] → (∀ c ∈ x.cores, te.cfg.clamps.getLsbD (c / 4) = true) → (∀ n < 64, (s.gang d n).isSome = true) →
          start = .next (begun.launchFail d e t 3))
      ∧ (x.cores ≠ [] → (∀ c ∈ x.cores, te.cfg.clamps.getLsbD (c / 4) = true) → slot < 64 → s.gang d slot = none →
          (∀ n < slot, (s.gang d n).isSome = true) → start = .next (taken.beginLoad d e t slot te)))
    ∧ (s.gang d slot = some g →
      (∀ a, s.loaderShut d t (s.sched d e) = some a → (s.beginLoad d e t slot te).gang d slot = some { g with phase := .suspendedLoad a })
      ∧ (s.loaderShut d t (s.sched d e) = none → s.judgeImage d t te (s.sched d e) = .ok (h, img, args) → ∃ n, 1 ≤ n ∧ n ≤ 6000 + (h.codesz + h.datasz + 64 * (s.sched d e).argsz + 8 * h.impsz + 63) / 64
        ∧ (s.beginLoad d e t slot te).gang d slot = some { g with phase := .loading, loadDone := s.now d + n, image := img, argBlock := args })
      ∧ (s.loaderShut d t (s.sched d e) = none → s.judgeImage d t te (s.sched d e) = .bad cause → ((s.beginLoad d e t slot te).sched d e).state = .failed
          ∧ ((s.beginLoad d e t slot te).sched d e).cause = cause ∧ (s.beginLoad d e t slot te).gang d slot = none)
      ∧ (s.loaderShut d t (s.sched d e) = none → s.judgeImage d t te (s.sched d e) = .page va → (s.beginLoad d e t slot te).gang d slot = some { g with phase := .suspendedLoad va }))
    ∧ (s.gangFor d e = some (slot, g) → g.phase = .suspendedLoad va → (s.die d).entryTenant e = some (t, te) →
      exec (.loadResume d e) s = .next (match g.locked, walk (s.die d) t (vaLow va) false with
        | false, .page => s
        | _, _ => s.beginLoad d e t slot te))

/-- R34, R36, R38, R39: a load that is complete leaves each core in the loader's state: its context, the code, every strand at ENTRY with
s2 above the scratchpad, s3 at the data and every other register 0; the entry is RUNNING. -/
def Sys2Proof.Claims.LoadCompletes : Prop :=
  ∀ (s : State) (d e slot : Nat) (g : Gang), s.gangFor d e = some (slot, g) → g.phase = .loading → g.loadDone ≤ s.now d →
    (g.locked = true → g.loadDone ≤ g.start ∧ s.now d ≤ g.start) → g.cores.Nodup →
    let field (off : Nat) : Nat := ofLeBytes (slice g.image off 4)
    let data := (64 * (s.sched d e).argsz + 255) / 256 * 256
    let imports := (data + field 0x28 + 7) / 8 * 8
    ∃ t, exec (.loadComplete d e) s = .next t ∧ (t.sched d e).state = .running
      ∧ (∃ h, t.gang d slot = some h ∧ h.cores = g.cores ∧ h.start = g.start ∧ (h.phase = .loaded ∨ ∃ b n, h.phase = .halting b n))
      ∧ ∀ r c, g.cores[r]? = some c → (t.core d c).ctx = some (slot, r)
        ∧ (∀ a, field 0x24 ≤ 0x40000 → a < field 0x24 → 0x100 + field 0x24 ≤ g.image.length →
            Mem.byte (t.core d c).imem a = g.image.getD (0x100 + a) 0)
        ∧ ∀ k < 4, let z := t.strand ⟨d, c, k⟩
          z.pc = BitVec.ofNat 18 (field 0x20) ∧ z.running = false ∧ z.exited = false
          ∧ (∀ q, z.reg q = if q = 2 then 0x8000000000400000#64 else if q = 3 then 0x8000000000000000#64 + BitVec.ofNat 64 data else 0)
          ∧ z.args = 0x8000000000000000#64 ∧ z.importTab = 0x8000000000000000#64 + BitVec.ofNat 64 imports
          ∧ z.vbase = BitVec.ofNat 6 (16 + 12 * k) ∧ z.vsize = 12 ∧ z.vrot = 0 ∧ z.prot = 0

/-- R38, R213: what a loaded core holds: the argument block, the data and the import table in its scratchpad and zeros beside them, the pages
of its code, vector registers, predicates, queues and sparks at zero, and its home brand, OWNED by the launch over the whole scratchpad; no
other entry of the die stands over that scratchpad but one whose scratchpad a saved context holds (R297). -/
def Sys2Proof.Claims.LoadedContents : Prop :=
  ∀ (s : State) (d e slot : Nat) (g : Gang), s.gangFor d e = some (slot, g) → g.phase = .loading → g.loadDone ≤ s.now d →
    (g.locked = true → g.loadDone ≤ g.start ∧ s.now d ≤ g.start) → g.cores.Nodup →
    let field (off : Nat) : Nat := ofLeBytes (slice g.image off 4)
    let argsz := 64 * (s.sched d e).argsz
    let data := (argsz + 255) / 256 * 256
    let imports := (data + field 0x28 + 7) / 8 * 8
    g.argBlock.length = argsz → 0x100 + field 0x24 + field 0x28 + 8 * field 0x2C ≤ g.image.length → field 0x24 ≤ 0x40000 →
    imports + 8 * field 0x2C ≤ 0x400000 →
    ∃ t, exec (.loadComplete d e) s = .next t ∧ ∀ r c, g.cores[r]? = some c → let y := t.core d c; let b := t.brand d c
      (∀ a < 0x400000, Mem.byte y.spad a =
        if a < argsz then g.argBlock.getD a 0
        else if data ≤ a ∧ a < data + field 0x28 then g.image.getD (0x100 + field 0x24 + (a - data)) 0
        else if imports ≤ a ∧ a < imports + 8 * field 0x2C then g.image.getD (0x100 + field 0x24 + field 0x28 + (a - imports)) 0
        else 0)
      ∧ (∀ n < 64, y.page n = if n < field 0x24 / 4096 then .code else .free)
      ∧ (∀ n, y.vreg n = zeroVec) ∧ (∀ n, n ≠ 0 → y.pred n = 0)
      ∧ (∀ q, Tab.get y.opq q [] = [] ∧ Tab.get y.stq q [] = []) ∧ y.fmtq = [] ∧ (∀ ch, y.spark ch = 0)
      ∧ y.copyQ = [] ∧ y.matrixQ = [] ∧ y.collQ = [] ∧ y.samplerQ = [] ∧ y.brandQ = []
      ∧ b.state = .owned ∧ b.home = true ∧ b.title = agentOf 0 slot r ∧ b.cur = agentOf 0 slot r ∧ b.tenant = g.tenant ∧ b.hdie = d
      ∧ b.base = c * 0x400000 ∧ b.lsize = 22 ∧ b.shr = 0 ∧ (∀ q ∈ (t.die d).shares, q.idx ≠ c)
      ∧ ∀ i, i ≠ c → (t.brand d i).homeOf d c = true → spadSaved (t.die d) (t.brand d i).tenant c = true

/-- R32, R34: at START, in Free mode not before the tick after the load, every strand of the gang starts; a Locked-mode load not complete
at START, under way or held for the plan's windows, fails with cause 8; one whose load ends by START does not. -/
def Sys2Proof.Claims.FirstIssue : Prop :=
  ∀ (s : State) (d e slot : Nat) (g : Gang),
    let opens : Prop := g.start ≤ s.now d ∧ (g.locked = true ∨ g.loadDone < s.now d)
    (s.gang d slot = some g → g.phase = .loaded →
      (opens → ∃ t : State, exec (.launchFirstIssue d slot) s = .next t ∧ t.gang d slot = some { g with phase := .running }
        ∧ ∀ c ∈ g.cores, ∀ k z, Tab.find (s.core d c).strands k = some z → t.strand ⟨d, c, k⟩ = { z with running := true })
      ∧ (¬opens → exec (.launchFirstIssue d slot) s = .next s))
    ∧ (s.gangFor d e = some (slot, g) → g.locked = true →
      (g.start ≤ s.now d → ((g.phase = .loading ∧ g.start < g.loadDone) ∨ ∃ a, g.phase = .suspendedLoad a) →
        ∃ t, exec (.loadLate d e) s = .next t ∧ t.gang d slot = none ∧ (t.sched d e).state = .failed ∧ (t.sched d e).cause = 8)
      ∧ ((s.now d < g.start ∨ (g.phase = .loading ∧ g.loadDone ≤ g.start)) → exec (.loadLate d e) s = .next s))

/-- The end of a load and the first issue: Claims.LoadCompletes, Claims.LoadedContents, Claims.FirstIssue. -/
def Obligations.LoadAndFirstIssue : Prop := Claims.LoadCompletes ∧ Claims.LoadedContents ∧ Claims.FirstIssue

/-- R52, R53, R214: a core whose strands have exited and whose copy, matrix, collective, brand and SMPL commands have ended retires if its brands allow it, else its context fails;
with its last core the gang retires. The model's choices: the failure names strand 0xFF and pc 0 (log entry 33), and an SBIND that is
still queued stays with the core, which retires without it (log entry 20). -/
def Sys2Proof.Claims.Retirement : Prop :=
  ∀ (s : State) (d c slot rank : Nat) (g : Gang), s.ctx d c = some (slot, rank, g) →
    let retire := exec (.coreRetire d c) s
    let y := s.core d c
    let ends : Prop := g.phase.active = true ∧ (∀ k < 4, (s.strand ⟨d, c, k⟩).exited = true) ∧ y.copyQ = [] ∧ y.matrixQ = [] ∧ y.collQ = []
      ∧ y.brandQ = [] ∧ ∀ m ∈ y.samplerQ, ∀ l v u o n, m.body ≠ .smpl l v u o n
    (¬ends → retire = .next s)
    ∧ (ends → s.onlyHome d c g.tenant = false → retire = .next (s.declareFailed d c 0xFF 0 .exitHeld))
    ∧ (ends → s.onlyHome d c g.tenant = true → ∃ t, retire = .next t ∧ (t.core d c).ctx = none ∧ (t.core d c).retired = true ∧ (t.core d c).samplerQ = y.samplerQ
        ∧ (t.core d c).opq = [] ∧ (t.core d c).stq = [] ∧ (t.core d c).fmtq = [] ∧ (t.core d c).sparks = [] ∧ (t.core d c).crcValid = false
        ∧ ((∃ n ∈ g.cores, n ≠ c ∧ (s.core d n).ctx.isSome = true) → (t.gang d slot).isSome = true)
        ∧ ((∀ n ∈ g.cores, n ≠ c → (s.core d n).ctx = none) → t.gang d slot = none ∧ (t.sched d g.entry).state = .retired))

/-- R294, R295, R296, R297, R298: the halt at its tick; the save once the engines are quiet, core by core in rank order; with its end the
cores hold no context and keep their scratchpads; a saved gang whose cores are free returns with its registers as they were, their residues formed anew (R105). The save ends when the stacks have
taken its bytes (R192). The model's choices: a save or a return that fails names strand 0xFF and pc 0 (log entry 33), and the scratchpad stays
in place until its core is given to another (log entry 19). -/
def Obligations.Preemption : Prop :=
  ∀ (s s1 : State) (d slot b due : Nat) (g : Gang) (te : Tenant) (saved : List SavedCore) (bad : Option Nat), s.gang d slot = some g →
    let wanted := (s.sched d b).cores
    let planes := (s.die d).planesOf slot g wanted
    let core (sc : SavedCore) : Nat := sc.core
    (g.phase = .halting b due → exec (.preemptHalt d slot) s
      = .next (if due ≤ s.now d then s.setGang d slot { g with phase := .halted b, haltTick := s.now d } else s))
    ∧ (g.phase = .halted b → s.tenant d g.tenant = some te →
      (s.gangQuiet d slot g = false → exec (.contextSave d slot) s = .next s)
      ∧ (s.gangQuiet d slot g = true → s.saveCores d slot g te wanted (planes.map Prod.fst) (s.heldCores d slot g) = (s1, saved, bad) →
          (bad = none → saved.map core = s.heldCores d slot g
            ∧ exec (.contextSave d slot) s = .next (s1.setGang d slot { g with phase := .saving b, loadDone := (s1.die d).givenBy, saved := saved, savedPlanes := planes }))
          ∧ (∀ c, bad = some c → exec (.contextSave d slot) s = .next (s1.declareFailed d c 0xFF 0 .copyPage))))
    ∧ (g.phase = .saving b → s.now d < g.loadDone → exec (.saveComplete d slot) s = .next s)
    ∧ (g.phase = .saving b → g.loadDone ≤ s.now d → ∃ (t : State) (h : Gang), exec (.saveComplete d slot) s = .next t ∧ t.gang d slot = some h ∧ h.phase = .saved
        ∧ h.saved.map core = g.saved.map core ∧ ∀ sc ∈ g.saved, (t.core d sc.core).ctx = none
          ∧ (t.core d sc.core).spad = (s.core d sc.core).spad ∧ (t.core d sc.core).imem = (s.core d sc.core).imem)
    ∧ (g.phase = .saved → s.tenant d g.tenant = some te →
      ((s.die d).mayResume slot g = false → exec (.resume d slot) s = .next s)
      ∧ ((s.die d).mayResume slot g = true → (g.saved.map core).Nodup →
          (∀ sc ∈ g.saved, ∃ sl r, sc.image.ctx = some (sl, r)
            ∧ pagesPinned (s.die d) d g.tenant false (te.cfg.saveArea + (64 * slot + r) * 0x800000) 128 = true) →
          ∃ t, exec (.resume d slot) s = .next t
            ∧ (∃ h, t.gang d slot = some h ∧ h.cores = g.cores ∧ h.saved = [] ∧ (h.phase = .running ∨ h.phase = .loaded))
            ∧ ∀ sc ∈ g.saved, let y := t.core d sc.core
              y.strands = sc.image.strands.map (fun e => (e.1, { e.2 with regs := e.2.regs.map (fun r => (r.1, SReg.of r.2.val)) })) ∧ y.vregs = sc.image.vregs ∧ y.preds = sc.image.preds ∧ y.acc = sc.image.acc
              ∧ y.ctx = sc.image.ctx ∧ y.spad = (if sc.withSpad then sc.image else s.core d sc.core).spad))

/-! Events at the engines. -/

/-- R155, R157: an idle array goes to the core whose request is the earliest, four cycles after it, or to the core chosen at the end of
the last tenure at its cycle. A tenure ends after 64 commands, or when a start came too late for it, and with another core asking
after 64 cycles without a ready command; the next grant is chosen then, eight cycles off, or the tenure is renewed. The model's choice: the 64
cycles count from the last start or completion, and a command is ready at the head of the queue with its fetch done (log entry 69). -/
def Sys2Proof.Claims.LeaseEvents : Prop :=
  ∀ (s : State) (d m n c t0 due : Nat) (e : Cmd),
    let x := s.die d
    let l := s.clamp d m
    let now := x.cycle m
    let y := x.core c
    let held (k : Nat) : Prop := ∃ t : State, exec (.leaseGrant d m) s = .next t ∧ (t.clamp d m).holder = some k
      ∧ (t.clamp d m).granted = now ∧ (t.clamp d m).started = 0 ∧ (t.clamp d m).idleFrom = now ∧ (t.clamp d m).handover = none
      ∧ (t.core d k).leaseReq = none ∧ ∀ j, j ≠ k → t.core d j = s.core d j
    let req (k : Nat) : Option Nat := (x.core k).leaseReq
    let bored : Prop := (nextRequest x c).isSome = true ∧ y.arrayReady = false ∧ l.idleFrom + 64 ≤ now
    let ends : Prop := l.started = 64 ∨ l.refused = true ∨ bored
    let tenure := exec (.tenureEnd d m) s
    (l.holder = none → l.handover = none → n / 4 = m → req n = some t0 →
      (∀ k t1, k / 4 = m → k ≠ n → req k = some t1 → t0 < t1) →
        (t0 + 4 ≤ now → held n) ∧ (now < t0 + 4 → exec (.leaseGrant d m) s = .next s))
    ∧ (l.holder = none → l.handover = some (n, due) → (req n).isSome = true →
      (due ≤ now → held n) ∧ (now < due → exec (.leaseGrant d m) s = .next s))
    ∧ (l.holder = some c → c / 4 = m → y.arrayRunning = true → tenure = .next s)
    ∧ (l.holder = some c → c / 4 = m → y.arrayRunning = false → s.enginesRun d c 1 = true → y.atFree = false →
      (¬ends → tenure = .next s)
      ∧ (ends → nextRequest x c = some n → ∃ t : State, tenure = .next t ∧ (t.clamp d m).holder = none
          ∧ (t.clamp d m).handover = some (n, now + 8) ∧ (t.core d c).leaseReq.isSome = (y.wantsArray || (req c).isSome))
      ∧ (ends → nextRequest x c = none → ∃ t : State, tenure = .next t
          ∧ (if y.wantsArray = true ∨ (req c).isSome = true then (t.clamp d m).holder = some c ∧ (t.clamp d m).granted = now
                ∧ (t.clamp d m).started = 0 ∧ (t.core d c).leaseReq = none
              else (t.clamp d m).holder = none)))
    ∧ (l.holder = some c → c / 4 = m → y.arrayRunning = false → s.enginesRun d c 1 = true → y.atFree = true → nextRequest x c = some n →
        y.matrixQ.find? (fun q => q.body == .mfree) = some e → ∃ t : State, tenure = .next t ∧ (t.clamp d m).holder = none
          ∧ (t.clamp d m).handover = some (n, now + 8) ∧ (t.core d c).cmd 1 e.id = none)
    ∧ (l.holder = some c → c / 4 = m → y.arrayRunning = false → s.enginesRun d c 1 = false → ∃ t : State, tenure = .next t
          ∧ (t.clamp d m).holder = none ∧ ∀ n, nextRequest x c = some n → (t.clamp d m).handover = some (n, now + 8))

/-- R155, R156, R157, R158, R171, R204: the next queued array command starts under the lease, unless the tenure is too old for it, when
the brand window has its entries; an MSWAP with no valid shadow plane ends in SHADOW_INVALID; at its end an MSWAP has exchanged
the planes, an MSTRM's counts are added, saturated. The model's choice: an array command moves its data at its start and makes its status, its
counts and its push at its completion (log entry 42). -/
def Sys2Proof.Claims.ArrayEvents : Prop :=
  ∀ (s s1 : State) (d c id until_ since : Nat) (m : Cmd) (rest before : List Cmd),
    let y := s.core d c
    let l := s.clamp d (c / 4)
    let now := s.cyc d c
    let start := exec (.arrayCommandStart d c) s
    let done := exec (.arrayCommandComplete d c id) s
    let isArray : Prop := (∀ clr, m.body ≠ .mchk clr) ∧ m.body ≠ .mfree
    let counted : Clamp := { l with started := l.started + 1, idleFrom := now }
    (y.matrixQ = before ++ m :: rest → m.isQueued = true → (∀ e ∈ before, e.isQueued = false) → s.mayStart d c 1 = true →
      (∀ e ∈ y.matrixQ, e.id < m.id → e.holdsStart now m.body = false) → isArray → l.holder = some c → m.body.fetched = true →
      l.started < 64 → s.rangeFree d c m = true →
        (l.granted + 15976 < now → start = .next (s.setClamp d (c / 4) { l with refused := true }))
        ∧ (now ≤ l.granted + 15976 → s.seek d c (s.cmdIds d c m) = none → start = .next (s.lookUp d c (s.cmdIds d c m)))
        ∧ (now ≤ l.granted + 15976 → s.seek d c (s.cmdIds d c m) = some s1 →
            start = .next ((s1.setClamp d (c / 4) counted).startArray d c m))
        ∧ (now ≤ l.granted + 15976 → m.body = .mswap → m.ranges = [] → l.shadow.valid = true → ∃ t : State, start = .next t
            ∧ (t.core d c).cmd 1 m.id = (y.cmd 1 m.id).map (fun _ => { m with stage := .running now (now + 1) })
            ∧ t.clamp d (c / 4) = counted)
        ∧ (now ≤ l.granted + 15976 → m.body = .mswap → m.ranges = [] → l.shadow.valid = false →
            start = .next ((s.setClamp d (c / 4) counted).failCmd d c 1 m .shadowInvalid 0)))
    ∧ (y.cmd 1 id = some m → m.stage = .running since until_ →
      (now < until_ → done = .next s)
      ∧ (until_ ≤ now → ∃ t, done = .next t)
      ∧ (until_ ≤ now → m.bad = none → m.push = none → ∃ t, done = .next t ∧ (t.core d c).cmd 1 id = none
          ∧ (t.clamp d (c / 4)).idleFrom = now
          ∧ (m.body = .mswap → (t.clamp d (c / 4)).active = l.shadow ∧ (t.clamp d (c / 4)).shadow = l.active)
          ∧ (∀ a fw st n r old tl, m.body = .mstrm a fw st n r old tl → (t.core d c).mism = min (y.mism + tl.mism) 65535
              ∧ (t.core d c).voids = min (y.voids + tl.voids) 65535
              ∧ (t.core d c).firstRow = (if y.firstRow = none then tl.first else y.firstRow))))

/-- R130, R163: the weight at a logical row and a column of a tile: the code packed there, or in a sparse tile that of the stored row of
the group whose metadata name the position, and none where it is pruned. -/
def Sys2Proof.Claims.TileWeights : Prop :=
  ∀ (f : Fmt) (tile : List Byte) (g r n : Nat),
    let b (i : Nat) : Byte := tile.getD i 0
    let w := f.wef.width
    let at_ (k : Nat) : Option Nat := ((f.weights tile).getD k []).getD n none
    let value (row : Nat) : Nat := codeIn b (16 * w * row) w n
    let place (row : Nat) : Nat := codeIn b (16 * w * f.ks + 16 * f.pb * row) f.pb n
    f.ok = true → tile.length = f.tileBytes → n < 128 →
      (f.sparse = 0 → r < f.kt → at_ r = some (value r))
      ∧ (f.sparse ≠ 0 → g < f.ks / f.keep → r < f.keep → (∀ q, q < r → place (f.keep * g + q) ≠ place (f.keep * g + r)) →
          at_ (2 * f.keep * g + place (f.keep * g + r)) = some (value (f.keep * g + r)))
      ∧ (f.sparse ≠ 0 → g < f.ks / f.keep → r < 2 * f.keep → (∀ q, q < f.keep → place (f.keep * g + q) ≠ r) →
          at_ (2 * f.keep * g + r) = none)

/-- R148, R149, R150, R151: the sum of a column: in the narrow class the exact sum of the products of the kept positions, rounded once;
in the 16-bit class the tree of the rounded products, a pruned position entering as -0. Infinities of both signs, a NaN, and a
kept product of zero and an infinity make it the canonical NaN. The tree adds the sums of its two parts. -/
def Sys2Proof.Claims.ColumnSums : Prop :=
  ∀ (ts : List (XVal × Option XVal)) (us vs : List W32) (k : Nat) (a w : XVal),
    let v : Rat := (ts.map (fun x => match x.2 with
      | some w => valueOf x.1 * valueOf w
      | none => 0)).sum
    let mul (x : XVal × Option XVal) : W32 × Status := match x.2 with
      | some w => mulF .near false 0 x.1 w
      | none => (0x80000000#32, 0)
    let infs (neg : Bool) : Prop := ∃ x ∈ ts, ∃ w, x.2 = some w ∧ (XVal.mul x.1 w).1 = .inf neg
    let join (p q : W32 × Status) : W32 × Status :=
      let r := sumF .near false 0 (f32v p.1) (f32v q.1)
      (r.1, p.2 ||| q.2 ||| r.2)
    ((∀ x ∈ ts, IsNumber x.1 ∧ ∀ w, x.2 = some w → IsNumber w) → Rounded32 .near false 0 (decide (v < 0)) v (narrowSum ts))
    ∧ ((a, some w) ∈ ts → a = .nan ∨ w = .nan → (narrowSum ts).1 = nan32 ∧ (wideSum ts).1 = nan32)
    ∧ ((a, some w) ∈ ts → (XVal.mul a w).2 = true → (narrowSum ts).1 = nan32 ∧ (narrowSum ts).2.getLsbD 4 = true
        ∧ (wideSum ts).1 = nan32 ∧ (wideSum ts).2.getLsbD 4 = true)
    ∧ (infs true → infs false → (narrowSum ts).1 = nan32 ∧ (narrowSum ts).2.getLsbD 4 = true)
    ∧ (wideSum ts).1 = (treeSum (ts.map (fun x => (mul x).1))).1
    ∧ (∀ j, (wideSum ts).2.getLsbD j = true ↔ (treeSum (ts.map (fun x => (mul x).1))).2.getLsbD j = true ∨ ∃ x ∈ ts, (mul x).2.getLsbD j = true)
    ∧ (∀ u, (f32v u).isFin = true → treeSum [u] = (u, 0))
    ∧ ((∀ u ∈ us ++ vs, (f32v u).isFin = true) → us.length = 2 ^ k → 0 < vs.length → vs.length ≤ 2 ^ k →
        treeSum (us ++ vs) = join (treeSum us) (treeSum vs))

/-- R165, R166, R167, R170, R171: an MSTRM whose checks hold adds to each accumulator of the rows it streams the column's sum, rounded once,
up to the first row whose records fail; other rows and the scratchpad stay. It runs for its rows and 160 cycles; the void rows and
the rows that mismatch are counted where the word asks for the check. One whose checks fail ends at once and changes no accumulator. The model's
choices: rows are paired with the plane's as far as both formats reach (log entry 59), and MATRIX_CHECK carries the row of the partition, the
data being read at the start (log entry 42). -/
def Sys2Proof.Claims.StreamedRows : Prop :=
  ∀ (s : State) (d c : Nat) (m : Cmd) (a stride n row0 k : Nat) (fw : Word) (old : Bool) (tl : Tally) (offs : List Nat)
    (al : Nat → List XVal),
    let y := s.core d c
    let p := (s.clamp d (c / 4)).active
    let f := fmtOf fw
    let t := s.startArray d c m
    let ws := (fmtOf p.fw).weightValues p.tile
    let row (i : Nat) : List Byte := y.spadBytes (offs.getD i 0) f.rowBytes
    let column (i j : Nat) : List (XVal × Option XVal) := (al i).zip (ws.map (fun r => r.getD j none))
    let total (i j : Nat) : W32 × Status := if EF16 f.aef then wideSum (column i j) else narrowSum (column i j)
    let sum (i j : Nat) : W32 × Status := sumF .near false 0 (f32v ((accRow y.acc (row0 + i)).getD j 0)) (f32v (total i j).1)
    let void (i : Nat) : Bool := p.spec || (al i).any (fun x => !x.isFin)
      || (List.range 128).any (fun j => (total i j).2.getLsbD 5 || !(f32v (sum i j).1).isFin)
    let differs (i : Nat) : Bool := rowMismatch (EF16 f.aef) (al i) ws ((List.range 128).map (fun j => (total i j).1))
    let count (q : Nat → Bool) : Nat := ((List.range k).filter (fun i => f.cken && q i)).length
    let fits : Prop := p.wef = f.wef.val ∧ p.sparse = f.sparse ∧ (f.cken = true → p.ck = true) ∧ a % 16 = 0
    let reached := s.ownRanges d c m .read f.rowBytes ((List.range n).map (fun i => ((a + i * 16 * stride : Nat) : Int)))
    m.body = .mstrm a fw stride n row0 old tl →
      (s.entitled d c p = false → t = s.failCmd d c 1 m .planeTag 0)
      ∧ (s.entitled d c p = true → ¬fits → t = s.failCmd d c 1 m .reservedField 0)
      ∧ (∀ cause hb, s.entitled d c p = true → fits → reached = .error (cause, hb) → t = (s.handBack d hb).failCmd d c 1 m cause 0)
      ∧ (s.entitled d c p = true → fits → reached = .ok offs → k ≤ n → (∀ i, i < k → f.alphas (row i) = some (al i)) →
          (k < n → f.alphas (row k) = none) → (∀ i, i < k → (accRow y.acc (row0 + i)).length = 128) →
            (∀ i j, i < k → j < 128 → (accRow (t.core d c).acc (row0 + i))[j]? = some (sum i j).1)
            ∧ (∀ r, r < row0 ∨ row0 + k ≤ r → accRow (t.core d c).acc r = accRow y.acc r) ∧ (t.core d c).spad = y.spad
            ∧ ∃ m' tl', (t.core d c).cmd 1 m.id = (y.cmd 1 m.id).map (fun _ => m')
              ∧ m'.stage = .running (s.cyc d c) (s.cyc d c + (n + 160)) ∧ m'.body = .mstrm a fw stride n row0 false tl'
              ∧ (∀ b, m'.status.getLsbD b = true ↔ (∃ i j, i < k ∧ j < 128 ∧ ((total i j).2.getLsbD b = true ∨ (sum i j).2.getLsbD b = true))
                  ∨ b = 3 ∧ ∃ i, i < k ∧ f.cken = true ∧ void i = true)
              ∧ tl'.voids = count void ∧ tl'.mism = count (fun i => !void i && differs i)
              ∧ tl'.first = ((List.range k).find? (fun i => f.cken && !void i && differs i)).map (fun i => row0 + i)
              ∧ m'.bad = (if k < n then some (.reservedField, k)
                  else if f.cktrap then tl'.first.map (fun r => (.matrixCheck, r)) else none))

/-- R168, R169: the chain of an MDRAIN on an accumulator: the bias is added, the table's line for the interval of the
value is taken in one rounding; without an option its step is left out. The biases, scales and the table are the f32 words at their
places in the scratchpad. -/
def Sys2Proof.Claims.DrainChain : Prop :=
  ∀ (s : State) (d c : Nat) (m : Cmd) (bias table draw bo tab : Nat) (opt : DrainOpt) (f : Fmt) (j : Nat) (q : W32),
    let y := s.core d c
    let word (off : Nat) : W32 := BitVec.ofNat 32 (leSum (fun i => Mem.byte y.spad (off + i)) 4)
    let lo := word tab
    let hi := word (tab + 4)
    let biased : W32 × Status := if opt.bias then sumF .near false 0 (f32v q) (f32v (word (bo + 4 * j))) else (q, 0)
    let low := valueOf (f32v lo)
    let high := valueOf (f32v hi)
    let x : Rat := match f32v biased.1 with
      | .inf neg => if neg then low else high
      | v => max low (min high (valueOf v))
    let w : Rat := (high - low) / 256
    (opt.bias = true ∨ opt.csc = true → bias % 16 = 0 ∧ s.ownRange d c m .read bias (if opt.csc then 1024 else 512) = .ok bo) →
    (opt.act = true → table % 16 = 0 ∧ s.ownRange d c m .read table 2064 = .ok tab ∧ IsNumber (f32v lo) ∧ IsNumber (f32v hi) ∧ low < high
      ∧ word (tab + 8) = 0 ∧ word (tab + 12) = 0) → j < 128 →
      ∃ z, s.drainInputs d c m bias table draw opt f = .ok z ∧ z.req = opt.req ∧ z.fmt = f
        ∧ z.scales.getD j 0x3F800000#32 = (if opt.csc then word (bo + 512 + 4 * j) else 0x3F800000#32)
        ∧ (∀ e, z.bits e = if opt.req = true ∧ f.rm = 5 then srBits (s.seed d c) (BitVec.ofNat 64 draw) e else 0)
        ∧ (opt.act = false → z.chain j q = biased)
        ∧ (opt.act = true → f32v biased.1 ≠ .nan → ∃ i : Nat, i < 256 ∧ low + i * w ≤ x ∧ (i < 255 → x < low + (i + 1) * w)
            ∧ (IsNumber (f32v (word (tab + 16 + 8 * i))) → IsNumber (f32v (word (tab + 20 + 8 * i))) →
                let r := valueOf (f32v (word (tab + 16 + 8 * i))) + valueOf (f32v (word (tab + 20 + 8 * i))) * (x - low - i * w)
                ∃ neg st, Rounded32 .near false 0 neg r ((z.chain j q).1, st) ∧ (r ≠ 0 → (neg = true ↔ r < 0))
                  ∧ (z.chain j q).2 = biased.2 ||| st))
        ∧ (opt.act = true → f32v biased.1 = .nan → (z.chain j q).1 = nan32)

/-- R130, R144, R145, R169: an MDRAIN whose checks hold writes each output row, or the record of each two rows, to its place: the results of the
chain as f32, or divided by their scales and rounded to the output format, or quantised; it writes no other byte, zeroes the rows
it has read where CLR asks for it, and runs for its rows and 24 cycles. One whose checks fail writes and clears nothing. The model's choices: a
misaligned output ends it in RESERVED_FIELD, and it reads and writes at its start (log entry 42). -/
def Sys2Proof.Claims.DrainedRows : Prop :=
  ∀ (s : State) (d c : Nat) (m : Cmd) (out bias table draw stride n row0 : Nat) (opt : DrainOpt) (fw : Word) (offs : List Nat)
    (z : DrainIn),
    let y := s.core d c
    let f := fmtOf fw
    let t := s.startArray d c m
    let records := opt.req && f.orec
    let pieces := if records then n / 2 else n
    let len := f.outBytes opt.req
    let w := f.oef.width
    let reached := s.ownRanges d c m .write len ((List.range pieces).map (fun i => ((out + i * 16 * stride : Nat) : Int)))
    let inputs := s.drainInputs d c m bias table draw opt f
    let e (i j : Nat) : W32 × Status := z.chain j ((accRow y.acc (row0 + i)).getD j 0)
    let code (i j : Nat) : Nat × Status := divF f.oef (rmOf f.rm) f.sat (z.bits (128 * i + j)) (f32v (e i j).1)
      (f32v (z.scales.getD j 0x3F800000#32))
    let record (i : Nat) : List Byte × Status := segRecord f.oef f.t (rmOf f.rm) f.sat
      ((List.range 256).map (fun k => (f32v (e (2 * i + k / 128) (k % 128)).1, z.bits (256 * i + k))))
    let byte (i : Nat) : Nat → Byte := fun b => Mem.byte (t.core d c).spad (offs.getD i 0 + b)
    m.body = .mdrain out bias table draw opt fw stride n row0 →
      (out % 16 ≠ 0 → t = s.failCmd d c 1 m .reservedField 0)
      ∧ (∀ cause hb, out % 16 = 0 → reached = .error (cause, hb) → t = (s.handBack d hb).failCmd d c 1 m cause 0)
      ∧ (∀ cause hb, out % 16 = 0 → reached = .ok offs → inputs = .error (cause, hb) → t = (s.handBack d hb).failCmd d c 1 m cause 0)
      ∧ (out % 16 = 0 → reached = .ok offs → inputs = .ok z → len ≤ 16 * stride → (records = true → n % 2 = 0) →
          (∀ i, i < n → (accRow y.acc (row0 + i)).length = 128) →
            (opt.req = false → ∀ i j, i < n → j < 128 → codeIn (byte i) 0 32 j = (e i j).1.toNat)
            ∧ (opt.req = true → f.orec = false → ∀ i j, i < n → j < 128 → codeIn (byte i) 0 w j = (code i j).1 % 2 ^ w)
            ∧ (records = true → ∀ i b, i < pieces → b < len → byte i b = (record i).1.getD b 0)
            ∧ (∀ x, (∀ i, i < pieces → x < offs.getD i 0 ∨ offs.getD i 0 + len ≤ x) → Mem.byte (t.core d c).spad x = Mem.byte y.spad x)
            ∧ (∀ r, accRow (t.core d c).acc r = if opt.clr = true ∧ row0 ≤ r ∧ r < row0 + n then List.replicate 128 0 else accRow y.acc r)
            ∧ ∃ m', (t.core d c).cmd 1 m.id = (y.cmd 1 m.id).map (fun _ => m')
              ∧ m'.stage = .running (s.cyc d c) (s.cyc d c + (n + 24))
              ∧ (∀ b, m'.status.getLsbD b = true ↔ (∃ i j, i < n ∧ j < 128 ∧ (e i j).2.getLsbD b = true)
                  ∨ (opt.req = true ∧ f.orec = false ∧ ∃ i j, i < n ∧ j < 128 ∧ (code i j).2.getLsbD b = true)
                  ∨ (records = true ∧ ∃ i, i < pieces ∧ (record i).2.getLsbD b = true)
                  ∨ (opt.req = true ∧ f.rm = 5
                      ∧ (s.drawStatus ⟨d, c, m.strand⟩ (BitVec.ofNat 64 draw) (16 * n)).getLsbD b = true)))

/-- Weights, streamed rows and drained rows: Claims.TileWeights, Claims.ColumnSums, Claims.StreamedRows, Claims.DrainChain, Claims.DrainedRows. -/
def Obligations.ArrayArithmetic : Prop := Claims.TileWeights ∧ Claims.ColumnSums ∧ Claims.StreamedRows ∧ Claims.DrainChain ∧ Claims.DrainedRows

/-- R156, R162, R163, R164: the load stage of an MLDW puts its tile with its record into the shadow plane and runs for 16 cycles and one
for each 512 bytes begun; metadata that do not ascend make the plane invalid, and the command ends in SPARSE_META with the first
bad group. The model's choice: the tile is read, and the shadow plane valid, at the start of the stage (log entry 42). -/
def Sys2Proof.Claims.LoadedPlane : Prop :=
  ∀ (s : State) (d c : Nat) (m : Cmd) (va : Int) (fw : Word) (hbm : Bool) (sus nxt : Option Nat) (kept : List Byte),
    let y := s.core d c
    let f := fmtOf fw
    let l := s.clamp d (c / 4)
    let tile := if hbm then kept else (List.range f.tileBytes).map (fun i => Mem.byte y.spad (va.toNat % 2 ^ 22 + i))
    let t := s.startArray d c m
    let run := { m with stage := .running (s.cyc d c) (s.cyc d c + (16 + (f.tileBytes + 511) / 512)) }
    m.body = .mldw va fw hbm sus true nxt kept →
      (f.badGroup tile = none → ∃ tag spec, t.clamp d (c / 4) = { l with shadow :=
            { valid := true, wef := f.wef.val, sparse := f.sparse, ck := f.cken, spec := spec, tag := tag, fw := fw, tile := tile } }
          ∧ (spec = true ↔ ∃ r ∈ f.weightValues tile, ∃ x ∈ r, ∃ v, x = some v ∧ v.isFin = false)
          ∧ (∀ slot rank, y.ctx = some (slot, rank) → tag = if f.wtag then .shared slot else .own (slot * 64 + rank))
          ∧ (t.core d c).cmd 1 m.id = (y.cmd 1 m.id).map (fun _ => run))
      ∧ (∀ g, f.badGroup tile = some g → t.clamp d (c / 4) = { l with shadow := { l.shadow with valid := false } }
          ∧ (t.core d c).cmd 1 m.id = (y.cmd 1 m.id).map (fun _ => { run with bad := some (.sparseMeta, g) }))

/-- R164, R190, R193, R194, R199, R353: the fetch stage of an MLDW from HBM reads its tile chunk by chunk, none over a 4 KiB boundary: a first chunk
comes after 40 cycles from the clamp's cache, else within 600, each when its stack serves the clamp. The stage suspends at a page
that does not translate and keeps what it has; in Locked mode it ends the command there. The model's choice: how a stack serves the clamp
among its requesters (log entry 54); one that waits there changes nothing but its place. -/
def Sys2Proof.Claims.TileFetches : Prop :=
  ∀ (s s1 : State) (d c va due : Nat) (fw : Word) (hbm : Bool) (rest before : List Cmd) (m : Cmd) (tile : List Byte),
    let fetch := exec (.fetchStageComplete d c) s
    let b := (fmtOf fw).tileBytes
    let from_ := va + tile.length
    let len := min (b - tile.length) (4096 - from_ % 4096)
    let ids := (s.die d).entryIds (s.tenantOf d c) from_ len
    let stands := s1.fetchTurn d c m from_ len
    let t := s1.fetchChunk d c m va fw tile
    let found := (s1.die d).read (.cached c (s1.cmdAgent d c 1)) (s1.tenantOf d c) (s1.locked d c) from_ len
    let last := decide (b ≤ tile.length + len)
    let next := if last then none else some (s1.cyc d c + (len + 255) / 256)
    let body (sus : Option Nat) (done : Bool) (nxt : Option Nat) (got : List Byte) : CmdBody := .mldw va fw true sus done nxt got
    (s.mayStart d c 1 = true → (s.core d c).matrixQ = before ++ m :: rest → (∀ e ∈ before, e.body.fetched = true) →
      (∀ sus nxt cause n, m.body = .mldw va fw hbm sus false nxt tile → m.bad = some (cause, n) → fetch = .next (s.failCmd d c 1 m cause n))
      ∧ (m.bad = none → m.body = .mldw va fw hbm none false none tile → ∃ n, n ≤ 600
          ∧ ((s.die d).stackAsked c (s.tenantOf d c) from_ len false = none → n = 40)
          ∧ fetch = .next (s.drawn.putCmd d c 1 { m with body := body none false (some (s.cyc d c + n)) tile }))
      ∧ (m.bad = none → m.body = .mldw va fw hbm none false (some due) tile →
          (s.cyc d c < due → fetch = .next s)
          ∧ (due ≤ s.cyc d c → s.seek d c ids = none → fetch = .next (s.lookUp d c ids))
          ∧ (due ≤ s.cyc d c → s.seek d c ids = some s1 →
              (stands.1 = true → fetch = .next (stands.2.fetchChunk d c m va fw tile))
              ∧ (stands.1 = false → fetch = .next stands.2)
              ∧ ∃ l, stands.2.die d = { s1.die d with asks := l } ∧ ∀ k, k ≠ d → stands.2.die k = s1.die k))
      ∧ (∀ p nxt, m.bad = none → m.body = .mldw va fw hbm (some p) false nxt tile → fetch = .next s))
    ∧ (∀ bs x, found = .ok bs x → t = (s1.setDie d x).putCmd d c 1 { m with body := body none last next (tile ++ bs) })
    ∧ (∀ cause, found = .hard cause → t = s1.failCmd d c 1 m cause 0)
    ∧ (∀ p, found = .page p → s1.locked d c = true → t = (s1.failCmd d c 1 m .copyPage tile.length).cmdTimingFault d c m .copyPage)
    ∧ (∀ p, found = .page p → s1.locked d c = false →
        t = (s1.putCmd d c 1 { m with body := body (some p) false none tile }).pageFaultEvent d c 1 p tile.length)

/-- Leases, array commands, loads and tile fetches: Claims.LeaseEvents, Claims.ArrayEvents, Claims.LoadedPlane, Claims.TileFetches. -/
def Obligations.MatrixEvents : Prop := Claims.LeaseEvents ∧ Claims.ArrayEvents ∧ Claims.LoadedPlane ∧ Claims.TileFetches

/-- R125, R126, R190, R199, R331, R332: the copy at the head of its queue starts when its ranges are free: its instruction pages, which
must be FREE, are FILLING, and its first chunk is due after 16 cycles between scratchpads, after 40 from the clamp's cache, else
within 600; a chain without a FIRST ends in COPY_CHECKSUM. -/
def Sys2Proof.Claims.CopyStarts : Prop :=
  ∀ (s : State) (d c : Nat) (m : Cmd) (j : CopyJob) (rest : List Cmd) (pages : List Nat) (cause : Cause),
    let y := s.core d c
    let start := exec (.copyStart d c) s
    let begun := if j.crc = true ∧ j.first = true then
      s.setCore d c { y with crcR := 0xFFFFFFFF#32, crcW := 0xFFFFFFFF#32, crcValid := true } else s
    let (a, b, len) := j.chunk
    y.copyQ = m :: rest → m.body = .copy j → m.isQueued = true →
      ((s.mayStart d c 0 = false ∨ s.rangeFree d c m = false) → start = .next s)
      ∧ (s.mayStart d c 0 = true → s.rangeFree d c m = true →
        (j.crc = true → j.first = false → y.crcValid = false → start = .next (s.failCopy d c m j .copyChecksum))
        ∧ ((j.crc = true → j.first = false → y.crcValid = true) →
          (j.rows * j.rlen ≠ 0 → begun.checkRows d c j j.rows 0 = .error cause → start = .next (begun.failCopy d c m j cause))
          ∧ (j.rows * j.rlen ≠ 0 → begun.checkRows d c j j.rows 0 = .ok pages → (∃ q ∈ pages, y.page q ≠ .free) →
              start = .next (begun.failCopy d c m j .brandState))
          ∧ ((j.rows * j.rlen = 0 ∧ pages = [] ∨ j.rows * j.rlen ≠ 0 ∧ begun.checkRows d c j j.rows 0 = .ok pages) →
              (∀ q ∈ pages, y.page q = .free) → ∃ t n, start = .next t ∧ n ≤ 600
                ∧ (j.rows * j.rlen = 0 → n = 0)
                ∧ (j.rows * j.rlen ≠ 0 → (s.endAway d c a len true).2 = false → (s.endAway d c b len false).2 = false →
                    n = if (s.endAway d c a len true).1 ∨ (s.endAway d c b len false).1 then 40 else 16)
                ∧ (t.core d c).copyQ.head? = some { m with stage := .running (s.cyc d c) (s.cyc d c + n),
                                                           body := .copy { j with phase := .moving, pages := pages } }
                ∧ (∀ q, (t.core d c).page q = if q ∈ pages then .filling else y.page q)
                ∧ (t.core d c).spad = y.spad ∧ (t.core d c).imem = y.imem)))

/-- R126, R190, R193, R332, R333, R334: a running copy takes its next chunk when the last one's time is over, and a suspended one again once
it is retried; after the last chunk it completes: its pages are CODE, the chain's value is compared and goes to sD, and no byte that it
wrote is left in the clamp's cache alone. -/
def Sys2Proof.Claims.CopyEvents : Prop :=
  ∀ (s : State) (d c : Nat) (m : Cmd) (j : CopyJob) (rest : List Cmd) (r : Reg) (since until_ : Nat),
    let y := s.core d c
    let sum := y.crcR ^^^ 0xFFFFFFFF#32
    let spent : Prop := j.rows * j.rlen = 0 ∨ j.rows ≤ j.row
    let done := exec (.copyComplete d c) s
    y.copyQ = m :: rest → m.body = .copy j → m.stage = .running since until_ →
      (j.phase = .moving → until_ ≤ s.cyc d c → ¬spent → s.enginesRun d c 0 = true → exec (.copyChunk d c) s = .next (s.chunkTurn d c m j))
      ∧ ((j.phase ≠ .moving ∨ s.cyc d c < until_ ∨ spent ∨ s.enginesRun d c 0 = false) → exec (.copyChunk d c) s = .next s)
      ∧ (j.phase = .held → s.enginesRun d c 0 = true → exec (.copyRetry d c) s = .next (s.chunkTurn d c m { j with phase := .moving }))
      ∧ (j.phase ≠ .held → exec (.copyRetry d c) s = .next s)
      ∧ ((j.phase ≠ .moving ∨ s.cyc d c < until_ ∨ ¬spent) → done = .next s)
      ∧ (j.phase = .moving → until_ ≤ s.cyc d c → spent →
        (j.crc = true → j.last = true → sum ≠ j.expect → done = .next (s.failCopy d c m j .copyChecksum))
        ∧ ((j.crc = true → j.last = true → sum = j.expect) → m.push = none → ∃ t : State, done = .next t
          ∧ (∀ q, (t.core d c).page q = if q ∈ j.pages then .code else y.page q) ∧ (t.core d c).cmd 0 m.id = none
          ∧ (j.crc = true → j.last = true → (t.core d c).crcValid = false) ∧ (t.core d c).spad = y.spad
          ∧ (∀ l ∈ (t.clamp d (c / 4)).cache, l.agent = s.cmdAgent d c 0 → l.dirty = false)
          ∧ (m.dregs = [r.val] → r ≠ 0 → (t.strand ⟨d, c, m.strand⟩).reg r = sum.setWidth 64)))

/-- R183, R184, R185, R187: the walk judges the root, and at each of three levels the entry that the address indexes: an invalid one is a page
fault; reserved bits, a misplaced or misaligned table or frame, a reserved CMP and a frame beyond 192 GiB are RESERVED_FIELD; what lies outside
the tenant's allotment is UNOWNED_ACCESS; a write needs W. A leaf so found maps the address, wholly inside the allotment. An access whose
TLB maps the address does not walk. -/
def Sys2Proof.Claims.PageWalks : Prop :=
  ∀ (x : Die) (t va level n base : Nat) (write : Bool) (te : Tenant) (cfg : TenantCfg) (l : TlbEntry),
    let shift := if level = 1 then 36 else if level = 2 then 26 else 16
    let index := va / 2 ^ shift % (if level = 1 then 2048 else 1024)
    let e := leSum (fun i => Mem.byte x.hbm (base + 8 * index + i)) 8
    let bits (hi lo : Nat) : Nat := e / 2 ^ lo % 2 ^ (hi + 1 - lo)
    let pa := bits 37 12 * 4096
    let size := 2 ^ shift
    let inside (cfg : TenantCfg) (pa size : Nat) : Prop := cfg.allotBase ≤ pa ∧ pa + size ≤ cfg.allotLimit
    let root := te.cfg.root
    let walked := walk x t va write
    let judged := walkLevel x cfg t va write (n + 1) level base
    let plain : Prop := bits 0 0 = 1 ∧ bits 63 38 = 0 ∧ bits 11 8 = 0
    let mapped : TlbEntry := { tenant := t, va := va / size * size, size := size, pa := pa, w := decide (bits 2 2 = 1), cmp := bits 5 3,
                               meta_ := decide (bits 6 6 = 1), pin := decide (bits 7 7 = 1) }
    (Tab.find x.tenants t = none → walked = .hard .unowned)
    ∧ (Tab.find x.tenants t = some te →
        (root % 0x4000 ≠ 0 → walked = .hard .reservedField)
        ∧ (root % 0x4000 = 0 → ¬inside te.cfg root 0x4000 → walked = .hard .unowned)
        ∧ (root % 0x4000 = 0 → inside te.cfg root 0x4000 → walked = walkLevel x te.cfg t va write 3 1 root))
    ∧ (1 ≤ level → n + level = 3 →
      (bits 0 0 = 0 → judged = .page)
      ∧ (bits 0 0 = 1 → bits 63 38 ≠ 0 ∨ bits 11 8 ≠ 0 → judged = .hard .reservedField)
      ∧ (plain → bits 1 1 = 0 →
        (level = 3 ∨ bits 7 2 ≠ 0 ∨ pa % 0x2000 ≠ 0 → judged = .hard .reservedField)
        ∧ (level < 3 → bits 7 2 = 0 → pa % 0x2000 = 0 → (¬inside cfg pa 0x2000 → judged = .hard .unowned)
            ∧ (inside cfg pa 0x2000 → judged = walkLevel x cfg t va write n (level + 1) pa)))
      ∧ (plain → bits 1 1 = 1 →
        (pa % size ≠ 0 ∨ 3 ≤ bits 5 3 ∨ 0x3000000000 < pa + size → judged = .hard .reservedField)
        ∧ (pa % size = 0 → bits 5 3 < 3 → pa + size ≤ 0x3000000000 →
          (¬inside cfg pa size → judged = .hard .unowned)
          ∧ (inside cfg pa size → write = true → bits 2 2 = 0 → judged = .page)
          ∧ (inside cfg pa size → write = false ∨ bits 2 2 = 1 → judged = .leaf mapped))))
    ∧ (walked = .leaf l → ∃ te, Tab.find x.tenants t = some te ∧ inside te.cfg l.pa l.size ∧ l.pa + l.size ≤ 0x3000000000 ∧ l.cmp < 3
        ∧ l.tenant = t ∧ (l.size = 2 ^ 36 ∨ l.size = 2 ^ 26 ∨ l.size = 2 ^ 16) ∧ l.pa % l.size = 0 ∧ l.va ≤ va ∧ va < l.va + l.size
        ∧ (write = true → l.w = true))
    ∧ (∀ u : TlbUse, u = .memSide ∨ u = .walker →
        let held := if u = .memSide then x.memTlb else []
        (held.find? (fun e => e.hits t va) = none → (x.translate u t va write).1 = walked)
        ∧ (held.find? (fun e => e.hits t va) = some l →
            (x.translate u t va write).1 = if write = true ∧ l.w = false then .page else .leaf l))

/-- R186: what an agent reads of a compressed page: under CMP 1 a sector that is marked reads as zeros, under CMP 2 the plane of it that is
marked, and else the bytes of HBM; the marks stand in the side table or in the last 64 bytes of the page, which are no data. A write of a
sector, its marks with it, is read back, whatever the method, and no other sector of the page reads otherwise. -/
def Sys2Proof.Claims.CompressedSectors : Prop :=
  ∀ (x : Die) (l : TlbEntry) (t va pa pb len : Nat) (pinned : Bool) (data : List Byte),
    let n := pa / 256 % 256
    let marks := if l.meta_ then x.sideBase + 64 * (pa / 65536) else pa / 65536 * 65536 + 0xFFC0
    let marked (half : Nat) : Bool := (Mem.byte x.hbm (marks + 32 * half + n / 8)).getLsbD (n % 8)
    let holds (pa : Nat) : Nat := if l.cmp ≠ 0 ∧ l.meta_ = false ∧ pa % 65536 = 0xFF00 then 192 else 256
    let apart (pa : Nat) : Prop := l.meta_ = false ∨ pa + 256 ≤ marks ∨ marks + 64 ≤ pa
    let after := sectorWrite x l pa data
    let tail (pa : Nat) : Prop := l.cmp ≠ 0 ∧ l.meta_ = false ∧ 0xFFC0 < pa % 65536 + len
    let at_ := l.pa + (vaLow va - l.va)
    l.cmp < 3 →
    (pa % 256 = 0 → (sectorRead x l pa).length = holds pa ∧ ∀ i, i < holds pa → (sectorRead x l pa)[i]? =
        some (if (l.cmp = 1 ∧ marked 0 = true) ∨ (l.cmp = 2 ∧ marked (if i % 2 = 1 then 0 else 1) = true) then 0 else Mem.byte x.hbm (pa + i)))
    ∧ (pa % 256 = 0 → apart pa → data.length = holds pa → sectorRead after l pa = data
        ∧ (∀ a, (a < pa ∨ pa + holds pa ≤ a) → (l.cmp = 0 ∨ a < marks ∨ marks + 64 ≤ a) → Mem.byte after.hbm a = Mem.byte x.hbm a)
        ∧ (pb % 256 = 0 → pb / 65536 = pa / 65536 → pb ≠ pa → apart pb → sectorRead after l pb = sectorRead x l pb))
    ∧ (∀ i, i < len → ¬tail pa → (hbmRead x l pa len)[i]? = (sectorRead x l ((pa + i) / 256 * 256))[(pa + i) % 256]?)
    ∧ (∀ y, x.translate .memSide t (vaLow va) false = (.leaf l, y) → vaTranslated va = true → 0 < len → va % 4096 + len ≤ 4096 →
        (pinned = true → l.pin = false → x.read .memSide t pinned va len = .page va)
        ∧ (pinned = false ∨ l.pin = true → tail at_ → x.read .memSide t pinned va len = .hard .unowned)
        ∧ (pinned = false ∨ l.pin = true → ¬tail at_ → ∃ z, x.read .memSide t pinned va len = .ok (hbmRead y l at_ len) z))

/-- R190, R192, R196, R204, R331, R332: a chunk is what is left of its row up to the next 4 KiB boundary of either end. It waits for its stacks and
for the brand window; then the bytes read at its source, a scratchpad, the own instruction memory or HBM of the die, stand at its
destination, and no other byte of a scratchpad or an instruction memory changes. The job counts them, the chain takes them, and
the next chunk is due after a cycle for each 256 of them. A right that is wanting ends the copy before a byte moves. The model's choices: a
fault of the source ends the copy whatever the destination holds (log entry 30), and a chunk is served whole by its stacks (log entry 54). -/
def Sys2Proof.Claims.CopiedBytes : Prop :=
  ∀ (s : State) (d c : Nat) (m : Cmd) (j : CopyJob) (bs : List Byte) (x x2 : Die),
    let (a, b, len) := j.chunk
    let right (u : State) (acc : Access) (va : Nat) : Prop := brandless acc va = false ∧ u.judgeCmd d c 0 m acc va len = .ok
    let source : Prop := match s.spot d c anySpace b len with
      | .imem off => (s.core d c).page (off / 4096) = .code ∧ bs = Mem.bytes (s.core d c).imem off len ∧ x = s.die d
      | .spad va => right s .read va ∧ bs = Mem.bytes (s.core d (vaLow va / 2 ^ 22)).spad (vaLow va % 2 ^ 22) len ∧ x = s.die d
      | .pod va => vaDie va = d ∧ right s .read va
          ∧ (s.die d).read (.cached c (s.cmdAgent d c 0)) (s.tenantOf d c) (s.locked d c) va len = .ok bs x
      | .bad _ => False
    let u := s.setDie d x
    let t := s.chunk d c m j
    let covered (off n : Nat) (old : Byte) : Byte := if off ≤ n ∧ n < off + len then bs.getD (n - off) 0 else old
    let reached : Prop := match u.spot d c anySpace a len with
      | .imem _ => True
      | .spad va => right u .write va
      | .pod va => vaDie va = d ∧ right u .write va
          ∧ x.write (.cached c (u.cmdAgent d c 0)) (u.tenantOf d c) (u.locked d c) va bs = .ok () x2
      | .bad _ => False
    (a = j.dst + j.row * j.dstr + j.off ∧ b = j.src + j.row * j.sstr + j.off
        ∧ len = min (j.rlen - j.off) (min (4096 - a % 4096) (4096 - b % 4096)))
    ∧ (∀ cause, s.spot d c anySpace b len = .bad cause → t = s.failCopy d c m j cause)
    ∧ (∀ va cause hb, s.spot d c anySpace b len = .spad va → brandless .read va = false → s.judgeCmd d c 0 m .read va len = .bad cause hb →
        t = (s.handBack d hb).failCopy d c m j cause)
    ∧ (source → reached → bs.length = len → x.injections = [] → (j.crc = true → (u.core d c).crcR = (u.core d c).crcW) →
        (∀ k n, Mem.byte (t.core d k).spad n = match u.spot d c anySpace a len with
          | .spad va => if k = vaLow va / 2 ^ 22 then covered (vaLow va % 2 ^ 22) n (Mem.byte (x.core k).spad n) else Mem.byte (x.core k).spad n
          | .pod _ => Mem.byte (x2.core k).spad n
          | _ => Mem.byte (x.core k).spad n)
        ∧ (∀ k n, Mem.byte (t.core d k).imem n = match u.spot d c anySpace a len with
          | .imem off => if k = c then covered off n (Mem.byte (x.core k).imem n) else Mem.byte (x.core k).imem n
          | .pod _ => Mem.byte (x2.core k).imem n
          | _ => Mem.byte (x.core k).imem n)
        ∧ (t.die d).hbm = (match u.spot d c anySpace a len with
          | .pod _ => x2.hbm
          | _ => x.hbm)
        ∧ (j.crc = true → (t.core d c).crcR = crcUpdate (u.core d c).crcR bs ∧ (t.core d c).crcW = crcUpdate (u.core d c).crcR bs)
        ∧ (t.core d c).cmd 0 m.id = ((match u.spot d c anySpace a len with
            | .pod _ => x2.core c
            | _ => x.core c).cmd 0 m.id).map (fun _ => { m with
              stage := .running (t.cyc d c) (t.cyc d c + (len + 255) / 256),
              body := .copy { j with off := if j.rlen ≤ j.off + len then 0 else j.off + len, phase := .moving, moved := j.moved + len,
                                     row := if j.rlen ≤ j.off + len then j.row + 1 else j.row } }))

/-- Copies under way, the bytes that they move, and how the memory of a die is reached: Claims.CopyStarts, Claims.CopyEvents, Claims.PageWalks, Claims.CompressedSectors, Claims.CopiedBytes. -/
def Obligations.CopyEngine : Prop := Claims.CopyStarts ∧ Claims.CopyEvents ∧ Claims.PageWalks ∧ Claims.CompressedSectors ∧ Claims.CopiedBytes

/-- R193, R197, R198, R377: an invalidation that every context has acknowledged, with no chunk of one still on its way, ends its TLBIQ and
retries the page faults it covers; one that a context has not acknowledged 200,000 ticks after acceptance is over: its TLBIQ ends in
TLBI_WATCHDOG, and the context, whose translations go, is declared failed. The model's choice: the failure names strand 0xFF and pc 0
(log entry 33). -/
def Sys2Proof.Claims.InvalidationEvents : Prop :=
  ∀ (s : State) (d c id slot rank : Nat) (i : Tlbi) (m : Cmd),
    let x := s.die d
    let complete := exec (.tlbiqComplete d c id) s
    let watch := exec (.tlbiWatchdog d c id) s
    let left := (x.pendingFor i.tenant).filter (fun q => i.pending.contains q || i.late.contains q)
    let gone : State := (s.modDie d (fun x => x.dropTlbi c id)).failCmd d c 6 m .tlbiWatchdog (slot * 64 + rank + 65536)
    x.tlbi c id = some i → (s.core d c).cmd 6 id = some m →
      (i.pending = [] → i.late = [] → complete
        = .next (((s.modDie d (fun x => x.dropTlbi c id)).complete d c 6 m []).retryAll d i.tenant i.start i.len))
      ∧ (i.pending ≠ [] ∨ i.late ≠ [] → complete = .next s)
      ∧ (left = [] ∨ s.now d < i.accepted + 200000 → watch = .next s)
      ∧ (left ≠ [] → i.accepted + 200000 ≤ s.now d → ∃ t, watch = .next t)
      ∧ (∀ g k, left = [(slot, rank)] → i.accepted + 200000 ≤ s.now d → s.gang d slot = some g → g.cores[rank]? = some k →
          watch = .next ((gone.modCore d k (fun y =>
            { y with tlb := y.tlb.filter (fun e => !e.inRange i.tenant i.start i.len) })).declareFailed d k 0xFF 0 .tlbiWatchdog))

/-- R207: the transitions of an entry by its title holder, its borrower and its sharers: what BLEND, BRET, BXFER, BFREE, BSHARE and
BSHARE.atomic leave; every change advances the generation, which is the result. -/
def Sys2Proof.Claims.BrandTransitions : Prop :=
  ∀ (x : Die) (hd t ia gslot holder n w : Nat),
    let i := n % 65536
    let b := x.brand i
    let gives (op : BrandOp) (b' : Brand) : Prop := ∃ y, x.table hd t ia gslot holder false op = .ok (y, [(b.gen + 1) % 2 ^ 32])
      ∧ y.brand i = { b' with gen := (b.gen + 1) % 2 ^ 32 } ∧ ∀ j, j ≠ i → y.brand j = x.brand j
    x.otherPool t i = false → b.tenant = t → b.proxy = false → b.title = ia →
      (b.state = .owned → gives (.lend n w) { b with state := .lent, cur := holder }
        ∧ (b.inslot = false → gives (.xfer n w) { b with title := holder, cur := holder })
        ∧ (b.home = false → b.inslot = false → gives (.free n) Brand.free)
        ∧ gives (.atomic n) { b with state := .atomic }
        ∧ (x.shareCount < 16384 → gives (.share n w) { b with state := .shared, shr := b.shr + 1 }))
      ∧ (b.state = .lent → b.cur = ia → gives (.ret n) { b with state := .owned, cur := b.title })
      ∧ (b.state = .atomic → gives (.unshare n) { b with state := .owned })
      ∧ (b.state = .lent ∨ b.state = .atomic → x.table hd t ia gslot holder false (.lend n w) = .error (.brandState, none)
        ∧ x.table hd t ia gslot holder false (.free n) = .error (.brandState, none)
        ∧ x.table hd t ia gslot holder false (.xfer n w) = .error (.brandState, none))

/-- R24, R203, R208: an access of an agent is judged by the live entry of its tenant that covers its first byte: OWNED, the title holder reads
and writes; LENT, the borrower does, and the title holder meets BRAND_STATE; SHARED, the title holder and the sharers read; ATOMIC, ATOM is
for every agent of the tenant; FORFEIT gives BRAND_FORFEIT, and its title takes the entry back (R217). Without an entry, and for an agent
without a role, it ends in UNOWNED_ACCESS. Over two entries the first failure in address order decides. The model's choice: an ATOM outside
an ATOMIC region counts as a read and a write (log entry 11). -/
def Sys2Proof.Claims.RightsTable : Prop :=
  ∀ (s : State) (d t a va len i j : Nat) (b f : Brand) (acc : Access),
    let x := s.die d
    let low := vaLow va
    let covers (b : Brand) (at_ : Nat) : Prop := b.tenant = t ∧ b.state ≠ .free ∧ b.hdie = d ∧ b.base ≤ at_ ∧ at_ < b.base + 2 ^ b.lsize
    let only (i : Nat) (b : Brand) (at_ : Nat) : Prop := (i, b) ∈ x.brands ∧ ∀ e ∈ x.brands, covers e.2 at_ ↔ e = (i, b)
    let shares (i : Nat) : Prop := ∃ r ∈ x.shares, r.idx = i ∧ (r.agent = a ∨ (r.gang = true ∧ agentClass a ≤ 2 ∧ agentSlot a = agentSlot r.agent))
    let meets (i : Nat) (b : Brand) (v : Verdict) : Prop :=
      let none_ : Prop := v = .bad .unowned none
      let state : Prop := v = .bad .brandState none
      (b.state = .owned → (b.title = a → v = .ok) ∧ (b.title ≠ a → none_))
      ∧ (b.state = .lent → (b.cur = a → v = .ok) ∧ (b.cur ≠ a → (b.title = a → state) ∧ (b.title ≠ a → none_)))
      ∧ (b.state = .shared → (b.title = a ∨ shares i → (acc = .read → v = .ok) ∧ (acc ≠ .read → state))
          ∧ (b.title ≠ a → ¬shares i → none_))
      ∧ (b.state = .atomic → (acc = .atom → v = .ok) ∧ (acc ≠ .atom → (b.title = a → state) ∧ (b.title ≠ a → none_)))
      ∧ (b.state = .forfeit → v = .bad .forfeit (if b.title = a ∧ b.cur = a then some i else none))
    let judged (va len : Nat) : Verdict := s.judge d t [a] none acc va len
    let first := b.base + 2 ^ b.lsize - low
    vaDie va = d → 0 < len → (∀ k, spadSaved x t k = false) →
    ((∀ e ∈ x.brands, ¬covers e.2 low) → judged va len = .bad .unowned none)
    ∧ (only i b low → low + len ≤ b.base + 2 ^ b.lsize → meets i b (judged va len))
    ∧ (only i b low → b.base + 2 ^ b.lsize < low + len →
        (judged va first ≠ .ok → judged va len = judged va first)
        ∧ (judged va first = .ok → (∀ e ∈ x.brands, ¬covers e.2 (low + first)) → judged va len = .bad .unowned none)
        ∧ (judged va first = .ok → only j f (low + first) → low + len ≤ f.base + 2 ^ f.lsize → meets j f (judged va len)))

/-- R206, R211, R212, R323: the command at the head of the brand queue ends its flush when it may start; eight cycles later it changes
its entry, or it leaves for the other die at once; a message that has arrived changes the home entry and goes back as a reply; with
a reply the proxies follow, with the role that the operation gave if it was not refused, and it ends its command. A broken way ends the command
in UNOWNED_ACCESS. The model's choices: what has already been done at the home die stands, its proxies follow all the same (log entry 32). -/
def Sys2Proof.Claims.BrandEvents : Prop :=
  ∀ (s : State) (d c n since until_ : Nat) (m : Cmd) (rest : List Cmd) (op : BrandOp) (b : BrandMsg) (a : BrandAnswer),
    let change := exec (.brandChange d c) s
    let now := (s.die d).cycle 31
    let clean := if ((s.die d).flushing d op).isSome then s.flush d c else s
    let r := (s.endMsg n).changeBrandAt b.tr.fromDie (b.op.home b.tr.fromDie) b.tenant b.agent (agentSlot b.agent) b.op
    let back : Transit := { fromDie := b.tr.toDie, toDie := b.tr.fromDie, at_ := b.tr.toDie, due := r.state.now b.tr.toDie, via := none,
                            agent := b.tr.agent, gone := 0, spent := false }
    let settled := (s.endMsg n).settleProxies b.tr.toDie (b.op.home b.tr.toDie) b.agent (match a with
      | .done _ => b.op.gives
      | .failed _ => none) b.touched b.pledge
    let message := exec (.brandMessage n) s
    let reply := exec (.brandReply n) s
    ((s.core d c).brandQ = m :: rest → m.body = .brand op false →
      (m.stage = .queued → (s.mayStart d c 4 = false ∨ s.flushed d c m op = false) → change = .next s)
      ∧ (m.stage = .queued → s.mayStart d c 4 = true → s.flushed d c m op = true → op.far d = none →
          change = .next (clean.putCmd d c 4 { m with stage := .running now (now + 8) }))
      ∧ (m.stage = .queued → s.mayStart d c 4 = true → s.flushed d c m op = true → op.far d ≠ none →
          change = .next (clean.performBrand d c { m with stage := .running now now } op))
      ∧ (m.stage = .running since until_ → now < until_ → change = .next s)
      ∧ (m.stage = .running since until_ → until_ ≤ now → change = .next (s.performBrand d c m op)))
    ∧ (s.brandMsgs[n]? = some b → b.reply = none →
      (s.hop b.tr = .stay → message = .next s)
      ∧ (s.hop b.tr = .lost → message = .next ((s.endMsg n).endBrand b.tr.fromDie b.core b.cmd (.failed .unowned)))
      ∧ (s.hop b.tr = .here → ∃ u, message = .next u
          ∧ u.brandMsgs = r.state.brandMsgs ++ [{ b with tr := back, reply := some r.answer, touched := r.touched, pledge := r.pledge }]
          ∧ u.dies = r.state.dies ∧ u.pod = r.state.pod))
    ∧ (s.brandMsgs[n]? = some b → b.reply = some a →
      (s.hop b.tr = .stay → reply = .next s)
      ∧ (((s.core b.tr.toDie b.core).cmd 4 b.cmd).isSome = true →
          (s.hop b.tr = .lost → reply = .next (settled.endBrand b.tr.toDie b.core b.cmd (.failed .unowned)))
          ∧ (s.hop b.tr = .here → reply = .next (settled.endBrand b.tr.toDie b.core b.cmd a))))

/-- Rights, brand transitions and invalidations: Claims.InvalidationEvents, Claims.BrandTransitions, Claims.RightsTable, Claims.BrandEvents. -/
def Obligations.BrandEngine : Prop := Claims.InvalidationEvents ∧ Claims.BrandTransitions ∧ Claims.RightsTable ∧ Claims.BrandEvents

/-- R233, R234: when every strand of a running gang has issued AFENCE or exited, its open interval closes: one batch leaves for each home
die, and the counts of the strands begin anew. -/
def Sys2Proof.Claims.IntervalCloses : Prop :=
  ∀ (s : State) (d slot : Nat) (g : Gang), s.gang d slot = some g →
    let ends : Prop := g.phase.active = true ∧ g.atomOpen = true
      ∧ ∀ c ∈ g.cores, ∀ k < 4, (s.strand ⟨d, c, k⟩).exited = true ∨ (s.strand ⟨d, c, k⟩).arrivedAtomic = true
    let reqs := s.intervalReqs d slot g
    (¬ends → exec (.atomicIntervalClose d slot) s = .next s)
    ∧ (ends → ∃ (t : State) (made : List Batch), exec (.atomicIntervalClose d slot) s = .next t
        ∧ (t.die d).batches = (s.die d).batches ++ made
        ∧ t.gang d slot = some { g with atomOpen := false, batches := g.batches + made.length }
        ∧ (∀ b ∈ made, b.tr.fromDie = d ∧ b.slot = slot ∧ b.ends = none ∧ b.reqs = reqs.filter (fun r => vaDie r.addr == b.tr.toDie))
        ∧ (∀ r ∈ reqs, ∃ b ∈ made, r ∈ b.reqs)
        ∧ ∀ c ∈ g.cores, ∀ k, (t.strand ⟨d, c, k⟩).atomCount = 0 ∧ (t.strand ⟨d, c, k⟩).arrivedAtomic = false)

/-- R233, R317, R318: what a request computes at its home: the element takes the value that its operation gives from the one before and the
operand, and the ticket is the value before; a request whose element does not translate, or that lacks the right, changes nothing.
Its ticket goes to sD, sign-extended for i32, and a request that fails leaves 0 there. -/
def Sys2Proof.Claims.AtomValues : Prop :=
  ∀ (s : State) (h d : Nat) (b : Batch) (r : AtomReq) (bs : List Byte) (x1 : Die) (m : Cmd) (reg : Reg),
    let use : TlbUse := if b.tr.fromDie = h then .walker else .memSide
    let agents := if b.tr.fromDie = h then [r.agent]
      else if (s.die b.tr.fromDie).entryIds b.tenant r.addr 4 = [] then [] else [dieAgent b.tr.fromDie]
    let found := (s.die h).read use b.tenant false r.addr 4
    let judged := s.judge h b.tenant agents none .atom r.addr 4
    let old : W32 := BitVec.ofNat 32 (leSum (fun i => bs.getD i 0) 4)
    let sgn (w : W32) : Int := match r.ty with
      | .i32 => w.toInt
      | _ => w.toNat
    let new : W32 := match r.op with
      | .add => (match r.ty with
        | .f32 => (sumF .near false 0 (f32v old) (f32v r.val)).1
        | _ => BitVec.ofNat 32 (old.toNat + r.val.toNat))
      | .min => (match r.ty with
        | .f32 => minF old r.val
        | _ => if sgn r.val < sgn old then r.val else old)
      | .max => (match r.ty with
        | .f32 => maxF old r.val
        | _ => if sgn old < sgn r.val then r.val else old)
      | .and => old &&& r.val
      | .or => old ||| r.val
      | .xor => old ^^^ r.val
      | .xchg => r.val
    let st : Status := if r.op = .add ∧ r.ty = .f32 then (sumF .near false 0 (f32v old) (f32v r.val)).2 else 0
    let at_ : At := ⟨d, r.core, m.strand⟩
    (∀ cause, r.refused = some cause → s.atomAt h b r = (.failed cause, s))
    ∧ (∀ va, r.refused = none → found = .page va → s.atomAt h b r = (.failed .copyPage, s))
    ∧ (∀ cause, r.refused = none → found = .hard cause → s.atomAt h b r = (.failed cause, s))
    ∧ (∀ cause hb, r.refused = none → found = .ok bs x1 → judged = .bad cause hb → s.atomAt h b r = (.failed cause, s.handBack h hb))
    ∧ (∀ x2, r.refused = none → found = .ok bs x1 → judged = .ok → bs.length = 4 →
        x1.write use b.tenant false r.addr [new.setWidth 8, (new >>> 8).setWidth 8, (new >>> 16).setWidth 8, (new >>> 24).setWidth 8]
          = .ok () x2 → s.atomAt h b r = (.ticket old st, s.setDie h x2))
    ∧ ((s.core d r.core).cmd 6 r.cmd = some m → m.dregs = [reg.val] → reg ≠ 0 →
        (∀ w flags, m.push = none → (let t := s.endAtom d r (.ticket w flags)
          (t.strand at_).reg reg = (if r.ty = .i32 then w.signExtend 64 else w.setWidth 64)
            ∧ (t.strand at_).status = (s.strand at_).status ||| (m.status ||| flags) ∧ (t.core d r.core).cmd 6 r.cmd = none))
        ∧ (∀ cause, (cause = .copyPage → s.locked d r.core = false) → s.endAtom d r (.failed cause)
            = (s.modStrand at_ (fun z => z.setReg reg 0)).failCmd d r.core 6 m cause 0))

/-- R211, R233: the requests of an interval are the queued ATOMs of the gang's cores, in the order of the cores, then of the strands, then
of the strand's count; each one that its own die refuses carries that cause. A batch takes its requests one after the other, each
upon what the ones before it have left. -/
def Sys2Proof.Claims.AtomOrder : Prop :=
  ∀ (s : State) (d slot h : Nat) (g : Gang) (b : Batch) (r : AtomReq) (rs qs : List AtomReq),
    let count (m : Cmd) : Option Nat := match m.body with
      | .atom _ _ _ _ n => if m.isQueued && m.bad.isNone then some n else none
      | _ => none
    let before (p q : AtomReq) : Prop :=
      p.rank < q.rank ∨ p.rank = q.rank ∧ (p.strand < q.strand ∨ p.strand = q.strand ∧ p.seq < q.seq)
    ((∀ c ∈ g.cores, (s.core d c).otherQ.Pairwise (fun m e => m.strand = e.strand → ∀ i j, count m = some i → count e = some j → i < j)) →
      (s.intervalReqs d slot g).Pairwise before)
    ∧ (r ∈ s.intervalReqs d slot g ↔ ∃ m addr, g.cores[r.rank]? = some r.core ∧ r.strand < 4 ∧ m ∈ (s.core d r.core).otherQ
        ∧ m.body = .atom r.op r.ty addr r.val r.seq ∧ m.strand = r.strand ∧ m.isQueued = true ∧ m.bad = none ∧ r.cmd = m.id
        ∧ r.addr = addr.toNat ∧ r.agent = slot * 64 + r.rank ∧ r.refused = s.atomRefused d g.tenant r.agent r.addr)
    ∧ s.atomsAt h b (rs ++ r :: qs) =
        (let x := s.atomsAt h b rs
         let y := x.2.atomAt h b r
         let z := y.2.atomsAt h b qs
         (x.1 ++ y.1 :: z.1, z.2))

/-- R233, R254, R255, R317, R318: a batch is applied in its order at its home, none before an earlier one for that die, and its ends reach
the commands; in another die it goes on by its way, and comes back with its ends; one whose way is broken ends in UNOWNED_ACCESS. One that meets
an entry of a pre-empted context waits for it (R297), and one waits for its stacks; the model's choice is the agent that a batch stands for
there (log entry 54). -/
def Sys2Proof.Claims.AtomicBatches : Prop :=
  ∀ (s : State) (d n : Nat) (b : Batch) (ends : List AtomEnd),
    let batch := exec (.atomicBatch d n) s
    let gone := s.modDie d (fun x => { x with batches := x.batches.modify n (fun b => { b with tr := { b.tr with spent := true } }) })
    let lost := b.reqs.map (fun _ => AtomEnd.failed .unowned)
    let waits (e : Batch) : Prop := e.tr.spent = false ∧ e.tr.toDie = b.tr.toDie ∧ e.ends = none
    let earlier : Prop := (∃ e ∈ (s.die d).batches.take n, waits e)
      ∨ ∃ x ∈ s.dies, x.1 ≠ d ∧ ∃ e ∈ x.2.batches, waits e ∧ s.hop e.tr = .here ∧ e.tr.due < b.tr.due
    let free : Prop := ¬earlier ∧ s.atomsHeld b.tr.toDie b = false
    let applied := (gone.batchTurn b.tr.toDie b).2.atomsAt b.tr.toDie b b.reqs
    (s.die d).batches[n]? = some b →
      (b.tr.spent = true → batch = .next s)
      ∧ (b.tr.spent = false → s.inPod b.tr.toDie = false → batch = .next (gone.endBatch d b lost))
      ∧ (b.tr.spent = false → s.inPod b.tr.toDie = true →
        (s.hop b.tr = .stay → batch = .next s)
        ∧ (s.hop b.tr = .lost → batch = .next (gone.endBatch d b lost))
        ∧ (s.hop b.tr = .here → b.ends = some ends → batch = .next (gone.endBatch d b ends))
        ∧ (s.hop b.tr = .here → b.ends = none → ¬free → batch = .next s)
        ∧ (s.hop b.tr = .here → b.ends = none → free → (s.batchTurn b.tr.toDie b).1 = false → batch = .next (s.batchTurn b.tr.toDie b).2)
        ∧ (s.hop b.tr = .here → b.ends = none → free → (s.batchTurn b.tr.toDie b).1 = true → b.tr.toDie = d → batch = .next (applied.2.endBatch d b applied.1))
        ∧ (s.hop b.tr = .here → b.ends = none → free → (s.batchTurn b.tr.toDie b).1 = true → b.tr.toDie ≠ d → ∃ u q, batch = .next u
            ∧ (u.die d).batches = (applied.2.die d).batches ++ [{ b with tr := q, ends := some applied.1 }]
            ∧ q.fromDie = b.tr.toDie ∧ q.toDie = b.tr.fromDie ∧ q.at_ = b.tr.toDie ∧ q.due = applied.2.now b.tr.toDie ∧ q.spent = false))

/-- Atomic intervals: Claims.IntervalCloses, Claims.AtomValues, Claims.AtomOrder, Claims.AtomicBatches. -/
def Obligations.AtomicIntervals : Prop := Claims.IntervalCloses ∧ Claims.AtomValues ∧ Claims.AtomOrder ∧ Claims.AtomicBatches

/-! The sampler and its logit programs. -/

/-- R271, R279, R344, R345, R346: what the logit instructions that reshape a row do to the run of the sampler that acts: LSET sets a parameter of
the run, LTEMP divides, LBIAS and LPEN follow the slot's tables entry by entry, LMASK, which reads the slot's mask once, and LTOPK leave -∞ where they do not keep, LCAP
bounds; a parameter out of range ends the run with PARAM before any element changes, a NaN at LTOPK with NAN. The model's choice: a fetch of the
mask that fails ends the running batch (log entry 50). -/
def Obligations.LogitReshaping : Prop :=
  ∀ (s : State) (d : Nat) (r : LogitRun) (k : Fin 8) (f n : BitVec 23) (inv : Bool),
    s.actor = .logit d → (s.die d).run = some r → r.done = false →
    let q := (s.die d).slot r.slot
    let ran (i : Instr) (r' : LogitRun) : Prop := exec i s = .next (s.modDie d (fun x => { x with run := some { r' with pc := r.pc + 1 } }))
    let stops (i : Instr) (code : Nat) : Prop := ran i { r with code := code, done := true }
    let k0 := Tab.get r.k k.val 0
    let maps (i : Instr) (g : W32 → W32 × Status) : Prop := ∃ xs st, ran i { r with x := xs, st := r.st ||| st }
      ∧ (∀ t : Nat, xs[t]? = (r.x[t]?).map (fun w => (g w).1)) ∧ ∀ b, st.getLsbD b = true ↔ ∃ w ∈ r.x, (g w).2.getLsbD b = true
    let ahead (t u : Nat) : Bool := match r.x[t]?, r.x[u]? with
      | some v, some w => (f32v w).lt (f32v v) || (!(f32v v).lt (f32v w) && t < u)
      | _, _ => false
    let masked (bs : List Byte) (xs : List W32) : Prop := ∀ t : Nat, xs[t]? = (r.x[t]?).map (fun w =>
      if (bs.getD (t / 8) 0).getLsbD (t % 8) = inv then w else 0xFF800000#32)
    ran (.lset k f) { r with k := Tab.set r.k k.val (f.setWidth 32 <<< 9) }
    ∧ (posFinite k0 = true → maps (.ltemp k) (fun w => quot32 (f32v w) (f32v k0)))
    ∧ (posFinite k0 = false → stops (.ltemp k) 3)
    ∧ (posFinite k0 = true → maps (.lcap k) (fun w => tanhF w k0))
    ∧ (posFinite k0 = false → stops (.lcap k) 3)
    ∧ (let y := (q.bias.map Prod.snd).foldl biasToken (r.x, 0); ran .lbias { r with x := y.1, st := r.st ||| y.2 })
    ∧ (let k1 := Tab.get r.k (k.val + 1) 0
       let k2 := Tab.get r.k (k.val + 2) 0
       let y := (q.cnt.map Prod.snd).foldl (penToken (f32v k0) (f32v k1) (f32v k2)) (r.x, 0)
       (posFinite k0 = true → finite32 k1 = true → finite32 k2 = true → ran (.lpen k) { r with x := y.1, st := r.st ||| y.2 })
       ∧ (posFinite k0 = false ∨ finite32 k1 = false ∨ finite32 k2 = false → stops (.lpen k) 3))
    ∧ (r.maskBits ≠ [] → ∃ xs, ran (.lmask inv) { r with x := xs } ∧ masked r.maskBits xs)
    ∧ (∀ c id out next st m va got, r.maskBits = [] → (s.die d).job = some (.smpl c id out next st) →
        s.place d c q.mask.toNat ((r.x.length + 7) / 8) = .ok va → s.samplerFetch d c id va ((r.x.length + 7) / 8) = got →
        (∀ bs u, got = .ready bs u → ∃ xs, masked bs xs ∧ exec (.lmask inv) s
            = .next (u.modDie d (fun x => { x with run := some { r with maskBits := bs, x := xs, pc := r.pc + 1 } })))
        ∧ (∀ u, got = .wait u → exec (.lmask inv) s
            = .next (u.modDie d (fun x => { x with run := some { r with held := (s.die d).cycle 29 + 1 } })))
        ∧ (∀ cause logits v list rec n, got = .bad cause → (s.core d c).cmd 3 id = some m → m.body = .smpl logits v list rec n →
            exec (.lmask inv) s = .next ((s.batchReturn d c logits v n).failSampler d c m cause none 0)))
    ∧ ((∃ w ∈ r.x, (f32v w).isNan = true) → stops (.ltopk n) 1)
    ∧ ((∀ w ∈ r.x, (f32v w).isNan = false) → ∃ xs, ran (.ltopk n) { r with x := xs } ∧ ∀ t : Nat, xs[t]? = (r.x[t]?).map (fun w =>
        if ((List.range r.x.length).filter (fun u => ahead u t)).length < n.toNat then w else 0xFF800000#32))

/-- R280, R281, R282, R283, R284, R346: LSOFT leaves quotients by the sum of chunks and the phase PROB, or ends the run with NAN or EMPTY; LTOPP keeps
the greatest tokens up to the first at which the running sum reaches p, LMINP those not below p times the greatest, the others are
cleared; greedy LDRAW takes the first greatest token, LDRAW the least whose exact running sum exceeds its draw, with RNG_RANGE where
no reservation holds the counter; LCNT notes that the token is counted, LSTOP ends the run. Each adds the status bits of its steps. -/
def Obligations.LogitSelection : Prop :=
  ∀ (s : State) (d : Nat) (r : LogitRun) (k : Fin 8), s.actor = .logit d → (s.die d).run = some r → r.done = false →
    let q := (s.die d).slot r.slot
    let ran (i : Instr) (r' : LogitRun) : Prop := exec i s = .next (s.modDie d (fun x => { x with run := some { r' with pc := r.pc + 1 } }))
    let stops (i : Instr) (code : Nat) : Prop := ran i { r with code := code, done := true }
    let nan : Prop := ∃ w ∈ r.x, (f32v w).isNan = true
    let p := f32v (Tab.get r.k k.val 0)
    let top := greatest r.x
    let plus (a b : W32 × Status) : W32 × Status :=
      let z := sumF .near false 0 (f32v a.1) (f32v b.1)
      (z.1, a.2 ||| b.2 ||| z.2)
    let power (w : W32) : W32 × Status :=
      let u := sumF .near false 0 (f32v w) (f32v top).neg
      if top = 0x7F800000 then (if w = top then 0x3F800000 else 0, 0) else ((expF u.1).1, u.2 ||| (expF u.1).2)
    let chunk (j : Nat) : W32 × Status := treeSum ((List.range 64).map (fun i => ((r.x.map power).map Prod.fst).getD (64 * j + i) 0))
    let total := ((List.range ((r.x.length + 63) / 64)).tail.map chunk).foldl plus (chunk 0)
    let ahead (t u : Nat) : Prop := ∀ v w, r.x[t]? = some v → r.x[u]? = some w →
      (f32v w).lt (f32v v) = true ∨ ((f32v v).lt (f32v w) = false ∧ t < u)
    let part (order : List Nat) (n : Nat) : W32 × Status := ((order.take n).map (fun t => (r.x.getD t 0, (0 : Status)))).foldl plus (0, 0)
    let clamped : XVal := if p.lt (.ofInt 0) then .ofInt 0 else if (XVal.ofInt 1).lt p then .ofInt 1 else p
    let bound := mulF .near false 0 clamped (f32v top)
    let u := (philoxDraw q.key q.step (BitVec.ofNat 32 r.slot) 3).a.toNat / 256
    let prefix_ (t : Nat) : Rat := ((r.x.take t).map (fun w => valueOf (f32v w))).sum
    let covered : Prop := ∃ v ∈ (s.die d).rsvs, v.tenant = r.tenant ∧ v.key = q.key ∧ v.domain = 3 ∧ v.stream = r.slot
      ∧ v.first ≤ q.step.toNat ∧ q.step.toNat < v.first + v.count
    let flag (st : Status) : Prop := (covered → st = 0) ∧ (¬covered → st = stRng)
    let none_ : Prop := (exactSum (r.x.map f32v)).isZero = true
    (nan → stops .lsoft 1 ∧ stops .ldraw 1 ∧ stops .ldrawGreedy 1)
    ∧ (¬nan → top = 0xFF800000#32 → stops .lsoft 2)
    ∧ (¬nan → top ≠ 0xFF800000#32 → ∃ xs st, ran .lsoft { r with x := xs, st := r.st ||| st, prob := true }
        ∧ (∀ t : Nat, xs[t]? = (r.x[t]?).map (fun w => (quot32 (f32v (power w).1) (f32v total.1)).1))
        ∧ ∀ b, st.getLsbD b = true ↔ total.2.getLsbD b = true
            ∨ ∃ w ∈ r.x, (power w).2.getLsbD b = true ∨ (quot32 (f32v (power w).1) (f32v total.1)).2.getLsbD b = true)
    ∧ (p.isNan = true → stops (.ltopp k) 3 ∧ stops (.lminp k) 3)
    ∧ (p.isNan = false → nan → stops (.ltopp k) 1 ∧ stops (.lminp k) 1)
    ∧ (p.isNan = false → ¬nan → ∃ xs order n, ran (.ltopp k) { r with x := xs, st := r.st ||| (part order n).2 }
        ∧ order.Perm (List.range r.x.length) ∧ order.Pairwise ahead ∧ n ≤ r.x.length ∧ (r.x ≠ [] → 0 < n)
        ∧ (n < r.x.length → p.le (f32v (part order n).1) = true)
        ∧ (∀ j, 0 < j → j < n → p.le (f32v (part order j).1) = false)
        ∧ ∀ t : Nat, xs[t]? = (r.x[t]?).map (fun w => if t ∈ order.take n then w else 0))
    ∧ (p.isNan = false → ¬nan → ∃ xs, ran (.lminp k) { r with x := xs, st := r.st ||| bound.2 }
        ∧ ∀ t : Nat, xs[t]? = (r.x[t]?).map (fun w => if (f32v bound.1).le (f32v w) then w else 0))
    ∧ (¬nan → none_ → ∃ st, flag st ∧ ran .ldraw { r with code := 2, done := true, st := r.st ||| st })
    ∧ (¬nan → ¬none_ → ∃ st token, flag st ∧ ran .ldraw { r with st := r.st ||| st, token := token }
        ∧ ((∀ w ∈ r.x, IsNumber (f32v w)) → ∀ t, token = some t ↔ t < r.x.length
            ∧ (u : Rat) * prefix_ r.x.length / 2 ^ 24 < prefix_ (t + 1)
            ∧ ∀ j, j < t → prefix_ (j + 1) ≤ (u : Rat) * prefix_ r.x.length / 2 ^ 24))
    ∧ (∀ (t : Nat) (w : W32), ¬nan → r.x[t]? = some w → (∀ (u : Nat) (v : W32), r.x[u]? = some v → (f32v w).lt (f32v v) = false ∧ (u < t → (f32v v).lt (f32v w) = true)) →
        (r.prob = false → w ≠ 0xFF800000#32 → ran .ldrawGreedy { r with token := some t })
        ∧ (r.prob = true → (f32v w).isZero = false → ran .ldrawGreedy { r with token := some t })
        ∧ (r.prob = false → w = 0xFF800000#32 → stops .ldrawGreedy 2)
        ∧ (r.prob = true → (f32v w).isZero = true → stops .ldrawGreedy 2))
    ∧ ran .lcnt { r with count := true }
    ∧ ran .lstop { r with done := true }

/-- R274, R278, R285: the sampler takes up the command that reached it first when it is free: an SBIND that passes its checks runs 64 cycles and
one for each 256 bytes begun, and at its end its slot changes as a whole; one that does not ends in its fault. -/
def Sys2Proof.Claims.SlotBinding : Prop :=
  ∀ (s s2 : State) (d c id slot a n hb progress : Nat) (m : Cmd) (sel : BindSel) (q : SeqSlot) (cause : Cause),
    let s1 := s.samplerArrive d
    let check := s1.bindCheck d c m sel a slot
    let bind := exec (.sbindExecute d) s
    ((s1.die d).job = none → s1.nextSampler d = some (c, m) → m.body = .sbind sel a slot →
      (check = .ok (q, n, s2) → bind = .next ((s2.putCmd d c 3
          { m with stage := .running (s2.samplerCycle d) (s2.samplerCycle d + (64 + (n + 255) / 256)) }).modDie d (fun x =>
            { x with job := some (.sbind c m.id slot q n), fetches := [] })))
      ∧ (check = .error (.wait s2) → bind = .next s2)
      ∧ (check = .error (.fault cause none progress) → bind = .next (s1.failSampler d c m cause none progress))
      ∧ (check = .error (.fault cause (some hb) progress) → bind = .next (s1.failSampler d c m cause (some hb) progress))
      ∧ (check = .error .hold → bind = .next s1))
    ∧ ((s1.die d).job.isSome = true → bind = .next s1)
    ∧ ((s.die d).job = some (.sbind c id slot q n) → (s.core d c).cmd 3 id = some m →
      (m.timeUp (s.samplerCycle d) = false → exec (.sbindComplete d) s = .next s)
      ∧ (m.timeUp (s.samplerCycle d) = true → ∃ t, exec (.sbindComplete d) s = .next t ∧ (t.die d).slot slot = q ∧ (t.die d).job = none
          ∧ (∀ k, k ≠ slot → (t.die d).slot k = (s.die d).slot k) ∧ (m.push = none → (t.core d c).cmd 3 id = none)))

/-- R276, R277, R278, R279, R285: an SMPL whose batch passes its checks runs; each sequence opens its run when its row is there, its words follow
one by one, and a run that has ended leaves its record, the slot's STEP advanced and its count; after the last the brands go back
and the command completes. The model's choices: a command that fails its checks ends at once, and a batch that runs ends at an access that fails,
the sequences before it standing (log entry 50). -/
def Sys2Proof.Claims.SamplingEvents : Prop :=
  ∀ (s s1 s2 : State) (d c id logits v list out n next va : Nat) (m : Cmd) (slots : List Nat) (st : Status) (r : LogitRun)
    (cause : Cause) (row : List Byte),
    let s0 := s.samplerArrive d
    let now := s.samplerCycle d
    let check := s0.batchCheck d c m logits v list out n
    let start := exec (.smplStart d) s
    let sequence := exec (.sequenceRun d) s
    let done := exec (.smplComplete d) s
    let fails : Host.Outcome State Fault Refusal := .next ((s.batchReturn d c logits v n).failSampler d c m cause none 0)
    let slot := slots.getD next 0
    let q := (s.die d).slot r.slot
    let word := q.step.toNat % 2 ^ 32 * 2 ^ 32 + r.code * 2 ^ 24 + (if r.code = 0 then r.token.getD 0xFFFFF else 0xFFFFF)
    let taken : Stage := .running (s2.samplerCycle d) (s2.samplerCycle d + (32 + ((s2.die d).slot (slots.headD 0)).cycles v))
    let fetched := s.samplerFetch d c m.id va (4 * v)
    let wrote := s.samplerAccess d c m.id va 8 (some (leBytes 8 word))
    let first (u : State) : LogitRun :=
      let q := (u.die d).slot slot
      { slot := slot, tenant := u.tenantOf d c, prog := q.prog.take q.plen, pc := 0, x := (List.range v).map (fun j =>
          BitVec.ofNat 32 (leSum (fun i => row.getD (4 * j + i) 0) 4)), prob := false, k := q.kreg, code := 0, token := none, count := false,
        done := false, st := 0, maskBits := [], held := 0 }
    let words (r : LogitRun) : List Move := List.replicate (r.prog.length - r.pc) (.logit d) ++ [.event (.sequenceRun d)]
    let ended : Prop := r.done = true ∨ r.prog.length ≤ r.pc
    ((s0.die d).job = none → s0.nextSampler d = some (c, m) → m.body = .smpl logits v list out n →
      (check = .ok (slots, s2) → ∃ t, start = .next t ∧ (t.die d).job = some (.smpl c m.id slots 0 0)
          ∧ (t.core d c).cmd 3 m.id = ((s2.core d c).cmd 3 m.id).map (fun _ => { m with stage := taken }))
      ∧ (∀ hb p, check = .error (.fault cause hb p) →
          start = .next ((s0.batchReturn d c logits v n).failSampler d c m cause hb 0))
      ∧ (check = .error (.wait s2) → start = .next s2)
      ∧ (check = .error .hold → start = .next s0))
    ∧ ((s0.die d).job.isSome = true → start = .next s0)
    ∧ ((s.die d).job = some (.smpl c id slots next st) → (s.core d c).cmd 3 id = some m → m.body = .smpl logits v list out n →
      ((slots.length ≤ next ∨ m.timeUp now = false) → sequence = .next s)
      ∧ (next < slots.length → m.timeUp now = true → (s.die d).run = none →
          s.place d c ((logits + next * ((4 * v + 255) / 256 * 256) : Nat) : Int) (4 * v) = .ok va →
          (fetched = .ready row s1 → ∃ t, sequence = .next t ∧ (t.die d).run = some (first s1)
              ∧ t.agenda = words (first s1) ++ s1.agenda ∧ (t.die d).slots = (s1.die d).slots)
          ∧ (fetched = .wait s1 → sequence = .next s1)
          ∧ (fetched = .bad cause → sequence = fails))
      ∧ (next < slots.length → m.timeUp now = true → (s.die d).run = some r → ¬ended →
          (r.held ≠ 0 → r.held ≤ now → ∃ t, sequence = .next t ∧ (t.die d).run = some { r with held := 0 } ∧ t.agenda = words r ++ s.agenda)
          ∧ (r.held = 0 ∨ now < r.held → sequence = .next s))
      ∧ (next < slots.length → m.timeUp now = true → (s.die d).run = some r → ended →
          s.place d c ((out + 8 * next : Nat) : Int) 8 = .ok va →
          (wrote = .ready row s1 → ∃ t, sequence = .next t ∧ (t.die d).job = some (.smpl c id slots (next + 1) (st ||| r.st))
            ∧ (t.die d).run = none ∧ (t.die d).slots = ((s1.closeSlot d r).die d).slots)
          ∧ (wrote = .wait s1 → sequence = .next s1)
          ∧ (wrote = .bad cause → sequence = fails))
      ∧ ((next < slots.length ∨ m.timeUp now = false) → done = .next s)
      ∧ (slots.length ≤ next → m.timeUp now = true → ∃ t, done = .next t ∧ (t.die d).job = none
          ∧ (m.push = none → (t.core d c).cmd 3 id = none)))
    ∧ (let z := ((s.closeSlot d r).die d).slot r.slot
       z.step = q.step + 1 ∧ z.key = q.key ∧ ((r.code ≠ 0 ∨ r.count = false ∨ r.token = none) → z.cnt = q.cnt)
        ∧ (∀ t, r.code = 0 → r.count = true → r.token = some t → z.cnt = countToken q.cnt t))

/-- The binding of slots and the runs of the sampler: Claims.SlotBinding, Claims.SamplingEvents. -/
def Obligations.SamplerEvents : Prop := Claims.SlotBinding ∧ Claims.SamplingEvents

/-! Collectives. -/

/-- R256, R257, R261, R328: a COLL at its engine reads its 128-byte block and its member list once, from the own scratchpad, and is admitted when
its checks hold, or ends in a fault; it completes when every instruction of its sections has retired. The model's choices: the tag 0x8000 + GROUP,
BASE as that of the lowest port, and for COUNT = 0 a section without lanes (log entry 49). -/
def Sys2Proof.Claims.CollectiveEvents : Prop :=
  ∀ (s : State) (d c id off lo : Nat) (m : Cmd) (a : Int) (b : CollBlock) (run : CollRun) (pl : CollPlaces) (cause : Cause)
    (hb : Option Nat),
    let start := exec (.collStart d c) s
    let admission := exec (.collAdmission d c) s
    let done := exec (.collComplete d c id) s
    let y := s.core d c
    let readable (off n : Nat) : Prop := off + n ≤ 0x400000
      ∧ s.judgeFar d (s.tenantOf d c) (s.agentsOf d c 1) (some (c, m.id)) .read (spadVa d c off) n = .ok
    let field (k n : Nat) : Nat := leSum (fun i => Mem.byte y.spad (off + k + i)) n
    let block := Mem.bytes y.spad off 128
    let ranges := m.ranges ++ s.collRanges d c (2 ^ 63 + lo) (parseBlock block [])
    let first := if b.stepabs then b.stept else (s.port d 0).base + b.stept
    let empty : CollRun :=
      { core := c, cmd := m.id, tag := 0x8000 + b.group, ef := b.ef, rop := b.rop, rm := b.rm, sat := b.sat, locked := s.locked d c,
        first := first, budget := b.budget, stage := pl.stage, stagesz := 0, spk := b.spk, side := [], lanes := [], status := 0,
        lastWrite := 0, spkDone := false, toWrite := [] }
    c < 64 →
    (y.nextColl = some (m, a, none) →
      ((m.isQueued = false ∨ s.mayStart d c 2 = false ∨ s.rangeFree d c m = false) → start = .next s)
      ∧ (m.isQueued = true → s.mayStart d c 2 = true → s.rangeFree d c m = true →
        (s.blockRead d c m a 128 128 = .error (cause, hb) → start = .next (s.failColl d c m cause hb))
        ∧ (a = 2 ^ 63 + (off : Int) → off % 128 ≠ 0 → off + 128 ≤ 0x400000 → start = .next (s.failColl d c m .reservedField none))
        ∧ (a = 2 ^ 63 + (off : Int) → 0x400000 < off + 128 → off < 2 ^ 60 → start = .next (s.failColl d c m .spadBounds none))
        ∧ (a = 2 ^ 63 + (off : Int) → off % 128 = 0 → readable off 128 → field 0x28 8 = 2 ^ 63 + lo → readable lo (4 * field 0x24 2) →
          (s.rangeFree d c { m with ranges := ranges } = false → start = .next s)
          ∧ (s.rangeFree d c { m with ranges := ranges } = true → start = .next (s.putCmd d c 2
              { m with stage := .running (s.now d) (s.now d), ranges := ranges,
                       body := .coll a (some (parseBlock block (Mem.bytes y.spad lo (4 * field 0x24 2)))) false })))))
    ∧ (y.nextColl = some (m, a, some b) →
      ((s.rangeFree d c m = false ∨ s.enginesRun d c 2 = false) → admission = .next s)
      ∧ (s.rangeFree d c m = true → s.enginesRun d c 2 = true →
        (s.enrol d c m b = .error (cause, hb) → admission = .next (s.failColl d c m cause hb))
        ∧ (s.enrol d c m b = .ok run → ∃ t, admission = .next t)
        ∧ (b.fieldsOk d = true → s.collPlaces d c m b = .ok pl → b.count = 0 → 16 ≤ b.budget → (2 ≤ b.alg → b.stagesz = 0) →
            s.now d ≤ first → ∃ t, admission = .next t
            ∧ (t.core d c).cmd 2 m.id = (y.cmd 2 m.id).map (fun _ => { m with body := .coll a (some b) true })
            ∧ (t.die d).colls = (s.die d).colls ++ [empty])))
    ∧ (s.coll d c id = some run → y.cmd 2 id = some m →
      ((run.allDone && run.spkDone) = false → done = .next s)
      ∧ ((run.allDone && run.spkDone) = true → ∃ t, done = .next t ∧ t.coll d c id = none
          ∧ t = (s.dropColl d c id).complete d c 2 { m with status := m.status ||| run.status } []
          ∧ (m.push = none → (t.core d c).cmd 2 id = none
            ∧ (t.strand ⟨d, c, m.strand⟩).status = (s.strand ⟨d, c, m.strand⟩).status ||| (m.status ||| run.status))))

/-- R257, R259, R260: the sections of an admitted collective with elements, on a ring or on both ways of one: a lane sends by the port to the next
member and receives by the one from the previous, hop h from h hop periods after the start on; a piece is as long as its block, or half of it
each way; every member's blocks lie as the operation has them, own contributions being read from SEND and results written to RECV. BUDGET holds
every hop and 16 ticks. On the torus the phases follow each other, in lanes of rows and columns. A flit carries the bytes of its place; what
arrives is combined with the own contribution and rounded at its last member. The model's choices: the tag is 0x8000 + GROUP (log entry
49). -/
def Sys2Proof.Claims.CollectiveLanes : Prop :=
  ∀ (s s1 : State) (d c : Nat) (m : Cmd) (b : CollBlock) (pl : CollPlaces) (run : CollRun) (g row col : Ring) (lane : Lane) (j q : Nat)
    (k : Cable) (bs : List Byte) (es : List PElem) (v : LaneRecv) (own : Piece),
    let sums : Bool := b.opn == 0 || b.opn == 1 || b.opn == 4
    let w := (efOf b.ef).width
    let n := b.nmem
    let e := if b.opn = 0 ∨ b.opn = 1 then b.count / n else b.count
    let f := (if sums then e * 32 else e * w) / 2048
    let unit := if sums then 8 * w else 256
    let both : Nat := if b.alg = 1 then 2 else 1
    let hops := if b.opn = 0 then 2 * (n - 1) else n - 1
    let flit (die port tag idx : Nat) (load : Payload) : Flit :=
      { die := die, port := port, tag := tag, idx := idx % 65536, payload := load, src := d, sent := s.now d, hop := k.hop,
        skew := (s.port d lane.out).skewOut, bad := Config.lineError s.freeCount, tick := 0, idle := false }
    -- The ring of the members, as this one uses it.
    (s.ring none b.members b.rank = some g → b.rank < b.members.length →
      let at_ (i : Nat) : Nat := b.members.getD (i % b.members.length) 0
      g.n = b.members.length ∧ g.r = b.rank
      ∧ (∃ k, s.cable (at_ b.rank) g.out = some k ∧ k.farDie = at_ (b.rank + 1) ∧ s.linkUp (at_ b.rank) g.out = true)
      ∧ (∃ o k, s.cable (at_ (b.rank + b.members.length - 1)) o = some k ∧ k.farDie = at_ b.rank ∧ k.farPort = g.inn)
      ∧ (∀ i, i < b.members.length → ∃ o k, s.cable (at_ i) o = some k ∧ k.farDie = at_ (i + 1) ∧ k.hop ≤ g.hop))
    ∧ (b.fieldsOk d = true → s.collPlaces d c m b = .ok pl → b.count ≠ 0 → b.alg < 2 → s.ring none b.members b.rank = none →
        s.enrol d c m b = .error (.planConflict, none))
    -- What an admitted collective is.
    ∧ (b.fieldsOk d = true → s.collPlaces d c m b = .ok pl → b.count ≠ 0 → s.enrol d c m b = .ok run →
        run.core = c ∧ run.cmd = m.id ∧ run.tag = 0x8000 + b.group ∧ run.budget = b.budget ∧ s.now d ≤ run.first
        ∧ (∃ lanes, s.expand b pl 0 = some lanes ∧ run.lanes = lanes.map (fun l => { l with start := l.start + run.first }))
        ∧ ∀ l ∈ run.lanes, l.start - run.first + l.hops.length * l.period + 16 ≤ b.budget)
    -- The lanes of a collective on a ring.
    ∧ (b.fieldsOk d = true → b.count ≠ 0 → b.alg < 2 → s.ring none b.members b.rank = some g → b.members.length = n →
        s.expand b pl q = some run.lanes → run.lanes.length = both
        ∧ ∀ z l, run.lanes[z]? = some l →
          let r := if z = 0 then g.r else (n - g.r) % n
          let name (j : Nat) : Nat := if z = 0 then j else (n - j) % n
          let lies (p : Piece) (base from_ : Nat) : Prop :=
            ∀ i, i < l.flits → p.flitAt i = base + (from_ + z * (e / 2)) * w / 8 + i * unit
          let block (j : Nat) : Nat := name j * e
          let sends (h : Nat) (first : Piece → Prop) (copied : Option Piece → Prop) : Prop := ∃ x : LaneHop, l.hops[h]? = some x
            ∧ if h = 0 then ∃ p cp, x.send = some (.own p cp) ∧ first p ∧ copied cp else x.send = some .held
          let takes (h : Nat) (own : Option (Piece → Prop)) (fin : Bool) (dst : Option (Piece → Prop)) : Prop :=
            ∃ x v, l.hops[h]? = some x ∧ x.recv = some v ∧ v.fin = fin
              ∧ (match own with
                | some good => ∃ p, v.own = some p ∧ good p
                | none => v.own = none)
              ∧ (match dst with
                | some good => ∃ p, v.dst = [p] ∧ good p
                | none => v.dst = [])
          l.out = (if z = 0 then g.out else g.inn) ∧ l.inn = (if z = 0 then g.inn else g.out) ∧ l.start = q
          ∧ l.flits = f / both ∧ l.period = l.flits + g.hop + 24 ∧ l.hops.length = hops ∧ l.part = sums
          ∧ l.sent = 0 ∧ l.got = []
          ∧ (b.opn = 0 ∨ b.opn = 1 → ∀ h, h < n - 1 →
              sends h (fun p => lies p pl.send (block ((r + n - 1) % n))) (fun cp => cp = none)
              ∧ takes h (some (fun p => lies p pl.send (block ((r + 2 * n - h - 2) % n)))) (h + 2 == n)
                  (if h + 2 = n then some (fun p => lies p pl.recv (if b.opn = 0 then block r else 0)) else none))
          ∧ (b.opn = 0 → ∀ h, h < n - 1 → (∃ x, l.hops[n - 1 + h]? = some x ∧ x.send = some .held)
              ∧ takes (n - 1 + h) none false (some (fun p => lies p pl.recv (block ((r + 2 * n - h - 1) % n)))))
          ∧ (b.opn = 2 → ∀ h, h < n - 1 →
              sends h (fun p => lies p pl.send 0) (fun cp => ∃ p, cp = some p ∧ lies p pl.recv (block r))
              ∧ takes h none false (some (fun p => lies p pl.recv (block ((r + 2 * n - h - 1) % n)))))
          ∧ (b.opn = 3 ∨ b.opn = 4 → ∀ h, h < n - 1 →
              let dist := if b.opn = 3 then (r + n - b.root) % n else (r + 2 * n - b.root - 1) % n
              (h = dist → sends h (fun p => lies p pl.send 0)
                (fun cp => if b.opn = 3 then ∃ p, cp = some p ∧ lies p pl.recv 0 else cp = none))
              ∧ (h ≠ dist → ∃ x, l.hops[h]? = some x ∧ x.send = none)
              ∧ (h + 1 = dist → takes h (if b.opn = 3 then none else some (fun p => lies p pl.send 0)) (b.opn == 4 && dist + 1 == n)
                  (if b.opn = 3 ∨ dist + 1 = n then some (fun p => lies p pl.recv 0) else none))
              ∧ (h + 1 ≠ dist → ∃ x, l.hops[h]? = some x ∧ x.recv = none)))
    -- The phases of the torus, one way.
    ∧ (b.count ≠ 0 → b.alg = 2 → b.opn ≤ 2 → b.rowlen ≠ n → s.expand b pl q = some run.lanes →
        let x := b.rowlen
        let y := n / b.rowlen
        let line (f : Nat → Nat) (len i : Nat) : Option Ring := s.ring none ((List.range len).map (fun z => b.members.getD (f z) 0)) i
        line (fun z => b.rank / x * x + z) x (b.rank % x) = some row → line (fun z => z * x + b.rank % x) y (b.rank / x) = some col →
        let t2 := q + (x - 1) * (y * f + row.hop + 24)
        let t3 := t2 + 2 * (y - 1) * (f + col.hop + 24)
        run.lanes.map (fun l => [l.out, l.inn, l.start, l.flits, l.period, l.hops.length]) =
          if b.opn = 0 then
            [[row.out, row.inn, q, y * f, y * f + row.hop + 24, x - 1], [col.out, col.inn, t2, f, f + col.hop + 24, 2 * (y - 1)],
             [row.out, row.inn, t3, y * f, y * f + row.hop + 24, x - 1]]
          else if b.opn = 1 then
            [[row.out, row.inn, q, y * f, y * f + row.hop + 24, x - 1], [col.out, col.inn, t2, f, f + col.hop + 24, y - 1]]
          else
            [[row.out, row.inn, q, f, f + row.hop + 24, x - 1],
             [col.out, col.inn, q + (x - 1) * (f + row.hop + 24), x * f, x * f + col.hop + 24, y - 1]])
    -- A flit of a lane leaves, and what arrives is combined.
    ∧ (s.cable d lane.out = some k → (k.farDie ≠ d ∨ k.farPort ≠ lane.out) → s.linkUp d lane.out = true → lane.sendOf q = some (.own own none) →
        Tab.find lane.read q = some bs → own.wide = false → ∃ u, s.laneSendOne d run j lane q = u
          ∧ u.flits = s.flits ++ [flit k.farDie k.farPort run.tag q (if lane.part then .part (partsOfBytes run.ef bs) else .raw bs)]
          ∧ (u.port d lane.out).usedAt (s.now d) = (s.port d lane.out).usedAt (s.now d) + 1 ∧ (u.die d).hbm = (s.die d).hbm)
    ∧ (v.own = none → v.fin = false → s.laneTake d run j lane v q (.part es) = .ok (.part es, 0) s)
    ∧ (v.own = some own → own.wide = false → s.laneOwn d run j lane own q = .ok bs s1 →
        let (cs, st) := combineAll run.rop run.ef es (partsOfBytes run.ef bs)
        (v.fin = false → s.laneTake d run j lane v q (.part es) = .ok (.part cs, st) s1)
        ∧ (v.fin = true →
          let (codes, st') := finalAll run.ef run.rm run.sat s1.freeCount 0 cs
          s.laneTake d run j lane v q (.part es) = .ok (.part (codes.map (fun z => (widen (efOf run.ef) z, false, false))), st ||| st')
            { s1 with freeCount := s1.freeCount + 1 }))

/-- Collectives: their start, their admission, the lanes of their sections and their end: Claims.CollectiveEvents, Claims.CollectiveLanes. -/
def Obligations.CollectiveEvents : Prop := Claims.CollectiveEvents ∧ Claims.CollectiveLanes

/-! Link programs. -/

/-- R249, R250, R412, R413: a running engine decodes an instruction of its plan ahead: one whose tick lies before the last one's ends the stream in
PLAN_CONFLICT, one whose tick has passed in TIMING_LATE; else it stands last among the decoded, with the slots or the stretch of ticks that it
claims, and XSTEP begins the next step's ticks. -/
def Sys2Proof.Claims.LinkDecoding : Prop :=
  ∀ (s : State) (d p : Nat) (track part fin last : Bool) (a b e g : LReg) (lit : BitVec 32) (push : LPush) (rop : RedOp) (len : Fin 256),
    s.actor = .link d p → (s.port d p).state = .running → (s.port d p).ended = false →
    let q := s.port d p
    let t := q.decBase + lit.toNat
    let op (i : Instr) : LinkOp := { off := q.pc, tick := t, instr := i }
    let stands (i : Instr) : Port := { q with pc := q.pc + 12, prevTick := t, ops := q.ops ++ [op i] }
    let mine (first flits rate : Nat) (wall : Bool) : Claim :=
      { first := first, flits := flits, rate := rate, wall := wall, tick := t, port := p, off := q.pc, coll := none }
    let w := q.xreg e
    let judged (i : Instr) (good : Prop) : Prop := (t < q.prevTick → exec i s = .next (s.linkFault d p .planConflict q.pc))
      ∧ (q.prevTick ≤ t → t < s.now d → exec i s = .next (s.linkFault d p .timingLate q.pc))
      ∧ (q.prevTick ≤ t → s.now d ≤ t → (∃ u, exec i s = .next u) ∧ good)
    let leaves (i : Instr) (q' : Port) : Prop := ∃ u : State, exec i s = .next u ∧ u.port d p = q'
      ∧ (∀ n, n ≠ p → u.port d n = s.port d n) ∧ (u.die d).cores = (s.die d).cores ∧ (u.die d).hbm = (s.die d).hbm
    let send : Send := { op := op (.xsend track part a b e lit push), addr := q.xreg a, tag := q.xreg b % 65536, flits := w % 2 ^ 17, part := part,
                         ef := w / 2 ^ 24 % 256, read := [], readTo := 0, sent := 0 }
    let relay (i : Instr) (addr : Option Nat) : Recv :=
      { op := op i, tag := q.xreg b % 65536, flits := w % 2 ^ 17, addr := addr, posted := false, deadline := none, got := [], relay := true,
        data := [], own := [], ownTo := 0, sent := 0, status := 0 }
    judged (.xsend track part a b e lit push) (q.claims = [] → countOk w part false = true →
        leaves (.xsend track part a b e lit push) { stands (.xsend track part a b e lit push) with
          sends := q.sends ++ [send], claims := [mine t (w % 2 ^ 17) (portRate p) false] })
    ∧ judged (.xrecv a b e g lit push) (leaves (.xrecv a b e g lit push) (stands (.xrecv a b e g lit push)))
    ∧ judged (.xfwd a b e lit push) (countOk w false false = false ∨ relayTagOk p false (q.xreg b) = false →
        leaves (.xfwd a b e lit push) (stands (.xfwd a b e lit push)))
    ∧ judged (.xred rop fin a b e g lit push) (fin = true → countOk w true true = true → relayTagOk p true (q.xreg b) = true →
        leaves (.xred rop fin a b e g lit push) { stands (.xred rop fin a b e g lit push) with
          recvs := q.recvs ++ [relay (.xred rop fin a b e g lit push) none] })
    ∧ judged (.xguard len lit) (q.claims = [] → leaves (.xguard len lit) { stands (.xguard len lit) with claims := [mine t len.val 1 true] })
    ∧ judged (.xopen e lit) (q.claims = [] → 1 ≤ w → w < 2 ^ 32 →
        leaves (.xopen e lit) { stands (.xopen e lit) with claims := [mine t w 1 true] })
    ∧ judged (.xstep last lit push) (leaves (.xstep last lit push) { stands (.xstep last lit push) with decBase := t, ended := last })

namespace Sys2Proof.Claims

/-- What an instruction of the engine of port p claims when it is decoded (R250, R409, R411, R412): the port whose slots or ticks it takes, the
claim, and the engine's port with the instruction last among the decoded and with the record of its sends or its receive; none for an
instruction that claims nothing. -/
def claimsAt (q : Port) (p : Nat) (i : Instr) : Option (Nat × Claim × Port) :=
  let op (lit : BitVec 32) : LinkOp := { off := q.pc, tick := q.decBase + lit.toNat, instr := i }
  let stands (lit : BitVec 32) : Port := { q with pc := q.pc + 12, prevTick := (op lit).tick, ops := q.ops ++ [op lit] }
  let claim (lit : BitVec 32) (late flits rate : Nat) (wall : Bool) : Claim :=
    { first := (op lit).tick + late, flits := flits, rate := rate, wall := wall, tick := (op lit).tick, port := p, off := q.pc, coll := none }
  let relay (b e : LReg) (lit : BitVec 32) (addr : Option Nat) : Port :=
    { stands lit with recvs := q.recvs ++ [{ op := op lit, tag := q.xreg b % 65536, flits := q.xreg e % 2 ^ 17, addr := addr, posted := false,
                                             deadline := none, got := [], relay := true, data := [], own := [], ownTo := 0, sent := 0,
                                             status := 0 }] }
  let out (b : LReg) : Nat := q.xreg b / 2 ^ 32 % 16
  let rate (o : Nat) : Nat := if o = 8 then 4 else 1
  match i with
  | .xsend _ part a b e lit _ =>
    let w := q.xreg e
    if countOk w part false then
      some (p, claim lit 0 (w % 2 ^ 17) (rate p) false,
        { stands lit with sends := q.sends ++ [{ op := op lit, addr := q.xreg a, tag := q.xreg b % 65536, flits := w % 2 ^ 17, part := part,
                                                 ef := w / 2 ^ 24 % 256, read := [], readTo := 0, sent := 0 }] })
    else none
  | .xfwd a b e lit _ =>
    if countOk (q.xreg e) false false && relayTagOk p false (q.xreg b) then
      some (out b, claim lit 8 (q.xreg e % 2 ^ 17) (rate (out b)) false, relay b e lit (if a = 0 then none else some (q.xreg a)))
    else none
  | .xred _ false _ b e _ lit _ =>
    if countOk (q.xreg e) true false && relayTagOk p false (q.xreg b) then
      some (out b, claim lit 8 (q.xreg e % 2 ^ 17) (rate (out b)) false, relay b e lit none)
    else none
  | .xguard len lit => some (p, claim lit 0 len.val 1 true, stands lit)
  | .xopen e lit => if 1 ≤ q.xreg e ∧ q.xreg e < 2 ^ 32 then some (p, claim lit 0 (q.xreg e) 1 true, stands lit) else none
  | _ => none

/-- A claim meets what the claims of a port hold (R242, R250, R412): flits where no timed flit may stand, or more flits in a tick than the port
sends. -/
def Clashes (o : Nat) (held : List Claim) (c : Claim) : Prop :=
  (∃ e ∈ held, e.meets c = true ∧ e.wall ≠ c.wall)
    ∨ (c.wall = false ∧ ∃ n, c.uses n ≠ 0 ∧ (if o = 8 then 4 else 1) < c.uses n + usesAt held n)

/-- A timed flit that leaves port o of die d now, by a cable (R242 to R245). -/
def flitOn (s : State) (d o : Nat) (k : Cable) (tag idx : Nat) (load : Payload) : Flit :=
  { die := k.farDie, port := k.farPort, tag := tag, idx := idx % 65536, payload := load, src := d, sent := s.now d, hop := k.hop,
    skew := (s.port d o).skewOut, bad := Config.lineError s.freeCount, tick := 0, idle := false }

/-- Elements of a partial flit widened from 64 codes of a format in bytes, an infinity setting its side bit (R135, R409). -/
def Widened (ef : Nat) (bs : List Byte) (es : List PElem) : Prop :=
  es.length = 64 ∧ ∀ j, j < 64 →
    let c := widen (efOf ef) (codeIn (fun x => bs.getD x 0) 0 (efOf ef).width j)
    let inf (w : W32) : Bool := decide (ef ≠ 3 ∧ ef ≠ 4 ∧ c = w)
    es[j]? = some (c, inf 0x7F800000, inf 0xFF800000)

end Sys2Proof.Claims

/-- R241, R249, R250, R411, R412: an instruction that is taken after everything which holds a claim on its port faults with PLAN_CONFLICT if its
flits need a slot that is held, or stand where no timed flit may; else its claim is held too. Of two claims that meet, the one that is
taken later faults, and none of its flits is sent. -/
def Sys2Proof.Claims.SlotCollisions : Prop :=
  ∀ (s : State) (d p o : Nat) (i : Instr) (c e : Claim) (set : Port),
    let q := s.port d p
    let y := s.port d o
    let n := e.port
    s.actor = .link d p → q.state = .running → q.ended = false → claimsAt q p i = some (o, c, set) → q.prevTick ≤ c.tick → s.now d ≤ c.tick →
    ((∀ e ∈ y.claims, e.later c = false) → firstClash (portRate o) [] (takenOrder y.claims) = none →
      (Clashes o y.claims c ∨ y.idleClash c = true →
        ∃ u : State, exec i s = .next (u.linkFault d p .planConflict q.pc) ∧ u.port d p = set)
      ∧ (¬Clashes o y.claims c → y.idleClash c = false → ∃ u : State, exec i s = .next u
          ∧ u.port d p = (if o = p then { set with claims := q.claims ++ [c] } else set)
          ∧ (o ≠ p → u.port d o = { y with claims := y.claims ++ [c] }) ∧ (∀ k, k ≠ p → k ≠ o → u.port d k = s.port d k)
          ∧ (u.die d).cores = (s.die d).cores ∧ (u.die d).hbm = (s.die d).hbm))
    ∧ (o = p → y.claims = [e] → e.later c = true → Clashes o [e] c → e.coll = none → n ≠ p → (s.port d n).state = .running →
        (s.port d n).snapLocked = false → ∃ u : State, exec i s = .next u ∧ (u.port d n).state = .faulted
          ∧ (u.port d n).fault = Cause.planConflict.code + e.off % 65536 * 256 ∧ (u.port d n).sends = [] ∧ (u.port d p).state = .running
          ∧ (u.port d p).claims = [c] ∧ (u.port d p).sends = set.sends)

/-- R222, R251, R406, R413: the XSTEP that ends a step returns what was lent to its port: a home entry is OWNED by its title holder again, its
generation advanced, and the port's share records are gone, an entry without any more being OWNED; its push reaches the channel of the core that
it names. -/
def Sys2Proof.Claims.StepReturns : Prop :=
  ∀ (s : State) (d p i ch slot rank core : Nat) (last : Bool) (lit : BitVec 32) (push : LPush) (r : LReg) (op : LinkOp) (g : Gang),
    let q := s.port d p
    let x := s.die d
    let a := portAgent p
    let b := s.brand d i
    let mine (x : Die) : Nat := (x.shares.filter (fun h => h.agent == a && h.idx == i)).length
    let home : Prop := i < 65536 ∧ b.proxy = false ∧ x.otherPool b.tenant i = false
    s.actor = .taken d p → q.state = .running → q.ops = [op] → op.tick ≤ s.now d → op.instr = .xstep last lit push → q.pushOk push = true →
    (∀ r ∈ q.recvs, r.open_ = false) → q.toWrite = [] → (∀ f ∈ q.landing, f.idle = true ∨ f.tick < q.base) →
    ∃ u : State, exec (.xstep last lit push) s = .next u
      ∧ (home → b.state = .lent → b.cur = a → u.brand d i = { b with state := .owned, cur := b.title, gen := (b.gen + 1) % 2 ^ 32 })
      ∧ (home → b.state = .shared → 0 < mine x → mine x ≤ b.shr → mine (u.die d) = 0
          ∧ (mine x < b.shr → (u.brand d i).state = .shared ∧ (u.brand d i).shr = b.shr - mine x)
          ∧ (mine x = b.shr → agentClass b.title ≠ 7 → (u.brand d i).state = .owned ∧ (u.brand d i).shr = 0))
      ∧ (b.state = .owned ∨ b.state = .lent ∨ b.state = .shared → b.cur ≠ a → mine x = 0 → u.brand d i = b)
      ∧ (∀ c : Chan, push = .to r c → ch = c.val → slot = q.xreg r / 256 % 64 → rank = q.xreg r % 64 → s.gang d slot = some g →
          g.cores[rank]? = some core → s.planTenant d p = some g.tenant → g.phase = .running → (s.core d core).ctx = some (slot, rank) →
          (u.core d core).held = (s.core d core).held ++ [{ ch := ch, agent := a, strand := 0, fresh := true, by_ := .outside }]
          ∧ (u.core d core).strands = (s.core d core).strands ∧ (u.core d core).spad = (s.core d core).spad)

/-- R251, R252, R253, R407, R409 to R413: at its tick the engine takes the instruction that stands first. A malformed register word ends the
stream in RESERVED_FIELD, a range without rights in its cause; XRECV, XFWD and XRED post their receive, XGUARD its guard, XOPEN its window; a
tracked XSEND whose source is not wholly written is late; XSTEP counts the step, unless a receive still awaits flits or a write of one stands by its
stack. In Free mode an instruction whose range a pre-empted context holds up waits (R297). The model's choice: XSTEP judges the open receives of
the plan stream only, not those of sections (log entry 48). -/
def Sys2Proof.Claims.LinkTaking : Prop :=
  ∀ (s : State) (d p : Nat) (track part fin last : Bool) (a b e g : LReg) (lit : BitVec 32) (push : LPush) (rop : RedOp) (len : Fin 256)
    (op : LinkOp) (rest : List LinkOp) (r : Recv) (c : Cause),
    s.actor = .taken d p → (s.port d p).state = .running → (s.port d p).ops = op :: rest → op.tick ≤ s.now d →
    ((s.port d p).snapLocked = false → s.rangesHeld d p op.instr = true → exec op.instr s = .next s) ∧
    (((s.port d p).snapLocked = true ∨ s.rangesHeld d p op.instr = false) →
    let q := s.port d p
    let s1 := s.setPort d p { q with ops := rest }
    let t : State := match rest with
      | n :: _ => if n.tick ≤ s.now d then { s1 with agenda := .take d p :: s1.agenda } else s1
      | [] => s1
    let w := q.xreg e
    let flits := w % 2 ^ 17
    let bytes (part : Bool) : Nat := flits * (if part then 8 * (efOf (w / 2 ^ 24 % 256)).width else 256)
    let faults (i : Instr) (c : Cause) : Prop := exec i s = .next (t.linkFault d p c op.off)
    let legal (part round : Bool) (tagOk : Bool) : Bool := countOk w part round && tagOk && q.pushOk push
    let plain : Bool := q.xreg b < 65536
    let send : Instr := .xsend track part a b e lit push
    let recv : Instr := .xrecv a b e g lit push
    let fwd : Instr := .xfwd a b e lit push
    let red : Instr := .xred rop fin a b e g lit push
    let step : Instr := .xstep last lit push
    let dl := q.xreg g
    let fresh : Recv := { op := op, tag := q.xreg b % 65536, flits := flits, addr := some (q.xreg a), posted := false,
                          deadline := if dl = 0 then none else some (op.tick - lit.toNat + dl), got := [], relay := false, data := [],
                          own := [], ownTo := 0, sent := 0, status := 0 }
    (op.instr = send →
      (legal part false plain = false → faults send .reservedField)
      ∧ (legal part false plain = true → t.linkRight d p .read (q.xreg a) (bytes part) = some c → faults send c)
      ∧ (legal part false plain = true → t.linkRight d p .read (q.xreg a) (bytes part) = none → track = false → exec send s = .next t)
      ∧ (∀ k, legal part false plain = true → t.linkRight d p .read (q.xreg a) (bytes part) = none → track = true →
          vaTranslated (q.xreg a) = true → q.trackers.find? (fun k => k.off == op.off) = some k →
          (k.written.length < k.count → faults send .timingLate) ∧ (k.count ≤ k.written.length → exec send s = .next t)))
    ∧ (op.instr = recv →
      ((legal false false plain = false ∨ (dl ≠ 0 ∧ dl ≤ lit.toNat)) → faults recv .reservedField)
      ∧ (legal false false plain = true → (dl = 0 ∨ lit.toNat < dl) → t.linkRight d p .write (q.xreg a) (256 * flits) = some c → faults recv c)
      ∧ (legal false false plain = true → (dl = 0 ∨ lit.toNat < dl) → t.linkRight d p .write (q.xreg a) (256 * flits) = none →
          exec recv s = .next (t.post d p fresh)))
    ∧ (op.instr = fwd →
      (legal false false (relayTagOk p false (q.xreg b)) = false → faults fwd .reservedField)
      ∧ (legal false false (relayTagOk p false (q.xreg b)) = true → (a = 0 ∨ t.linkRight d p .write (q.xreg a) (256 * flits) = none) →
          q.recvs.find? (fun y => y.op == op) = some r → exec fwd s = .next (t.post d p r)))
    ∧ (op.instr = red →
      (legal true fin (relayTagOk p fin (q.xreg b)) = false → faults red .reservedField)
      ∧ (legal true fin (relayTagOk p fin (q.xreg b)) = true → t.linkRight d p .read (q.xreg a) (bytes true) = none →
          (fin = true → t.linkRight d p .write (q.xreg g) (bytes true) = none) →
          q.recvs.find? (fun y => y.op == op) = some r → exec red s = .next (t.post d p r)))
    ∧ (op.instr = .xguard len lit → exec (.xguard len lit) s
        = .next (t.setPort d p { q with ops := rest, guards := q.guards ++ [(op.tick, len.val)] }))
    ∧ (op.instr = .xopen e lit → (1 ≤ w → w < 2 ^ 32 → exec (.xopen e lit) s
          = .next (t.setPort d p { q with ops := rest, windows := q.windows ++ [(op.tick, w)] }))
        ∧ (w = 0 ∨ 2 ^ 32 ≤ w → faults (.xopen e lit) .reservedField))
    ∧ (op.instr = step →
      (q.pushOk push = false → faults step .reservedField)
      ∧ (q.pushOk push = true → ((∃ r ∈ q.recvs, r.open_ = true) ∨ q.toWrite ≠ []) → faults step .timingLate)
      ∧ (q.pushOk push = true → (∀ r ∈ q.recvs, r.open_ = false) → q.toWrite = [] → (∃ f ∈ q.landing, f.idle = false ∧ q.base ≤ f.tick) →
          faults step .timingUnmatched)
      ∧ (q.pushOk push = true → (∀ r ∈ q.recvs, r.open_ = false) → q.toWrite = [] → (∀ f ∈ q.landing, f.idle = true ∨ f.tick < q.base) →
          ∃ u : State, exec step s = .next u ∧ (u.port d p).base = op.tick ∧ (u.port d p).step = q.step + 1)))

/-- The decode and the taking of link instructions: Claims.LinkDecoding, Claims.SlotCollisions, Claims.StepReturns, Claims.LinkTaking. -/
def Obligations.LinkInstructions : Prop := Claims.LinkDecoding ∧ Claims.SlotCollisions ∧ Claims.StepReturns ∧ Claims.LinkTaking

/-- R252, R253, R409, R410: what a receive makes of its posting and of a flit: posting it takes the flits of its tag that wait and are not too
old; a raw flit with a new index within its count is written at 256 times its index, and the last one retires the receive when every write is
made. A write stands by its stack, and waits for a pre-empted context, in the order of the writes (R196, R297). -/
def Sys2Proof.Claims.Receives : Prop :=
  ∀ (s s1 : State) (d p : Nat) (r : Recv) (f : Flit) (bs : List Byte) (a : Nat),
    let q := s.port d p
    (q.recvs.any (fun y => y.open_ && y.tag == r.tag) = false → ((s.die d).laneFor p r.tag).isNone = true →
      (∀ f ∈ q.landing, f.tag ≠ r.tag ∨ f.tick + 256 < s.now d) →
        (s.post d p r).port d p = { q with recvs := q.recvs.filter (fun y => y.op != r.op) ++ [{ r with posted := true }] })
    ∧ (q.recvs.any (fun y => y.open_ && y.tag == r.tag) = true → s.post d p r = s.linkFault d p .planConflict r.op.off)
    ∧ (∀ x b e g lit push, r.op.instr = .xrecv x b e g lit push → f.payload = .raw bs → r.addr = some a → r.relay = false →
      (r.flits ≤ f.idx ∨ f.idx ∈ r.got → s.acceptFlit d p r f = s.linkFault d p .timingUnmatched r.op.off)
      ∧ (f.idx < r.flits → f.idx ∉ r.got → (s.port d p).recv r.op = some r → s.linkStore d p r.op (a + 256 * f.idx) bs = .ok () s1 →
          (r.got.length + 1 < r.flits ∨ (s1.port d p).writing r.op = true →
            s.acceptFlit d p r f = s1.setPort d p { s1.port d p with
              recvs := (s1.port d p).recvs.map (fun y => if y.op = r.op then { r with got := f.idx :: r.got } else y) })
          ∧ (r.got.length + 1 = r.flits → (s1.port d p).writing r.op = false → ∃ u : State, s.acceptFlit d p r f = u.linkPush d p r.op.off push
            ∧ (u.port d p).recvs = (s1.port d p).recvs.filter (fun y => y.op != r.op) ∧ (u.die d).hbm = (s1.die d).hbm
            ∧ (u.die d).cores = (s1.die d).cores)))
    ∧ (∀ cause, s.linkRight d p .write a bs.length = some cause → s.linkStore d p r.op a bs = .bad cause)
    ∧ (s.linkRight d p .write a bs.length = none → q.toWrite = [] → (s.linkTurn d p [1, a] a bs.length true).1 = true →
        s.linkStore d p r.op a bs = (s.linkTurn d p [1, a] a bs.length true).2.linkWrite d p a bs)
    ∧ (s.linkRight d p .write a bs.length = none → (q.toWrite ≠ [] ∨ (s.linkTurn d p [1, a] a bs.length true).1 = false) →
        ∃ u : State, s.linkStore d p r.op a bs = .ok () u ∧ (u.port d p).toWrite = q.toWrite ++ [{ op := r.op, va := a, data := bs }]
          ∧ (u.die d).hbm = (s.die d).hbm ∧ (u.die d).cores = (s.die d).cores)

/-- R242, R245, R250, R253, R409: flit i of an XSEND leaves at its slot, and not before: at T + i, on the die-to-die link four in a tick. It carries
the tag, its index and its bytes, with PART the 64 elements widened, and goes by the port's cable. The bytes are read 640 ticks before the slot from
HBM and 16 before it from a scratchpad; bytes whose read was never served are late. After the last flit the instruction retires and pushes.
A flit waits for a guard, for a slot that other traffic has, or, in Free mode, for a pre-empted context (R297). -/
def Sys2Proof.Claims.SentFlits : Prop :=
  ∀ (s s1 s2 : State) (d p n : Nat) (op : LinkOp) (x : Send) (bs : List Byte) (k : Cable) (push : LPush) (track part : Bool) (a b e : LReg)
    (lit : BitVec 32) (c : Cause),
    let q := s.port d p
    let now := s.now d
    let rate := if p = 8 then 4 else 1
    let unit := if x.part then 8 * (efOf x.ef).width else 256
    let flits := s.sendFlits d p op (n + 1)
    let slot (i : Nat) : Nat := op.tick + i / rate
    let waits : Prop := op ∈ q.ops ∨ rate ≤ q.usedAt now ∨ q.inGuard now = true
    let held : Prop := Tab.find x.read x.sent = none ∧ q.snapLocked = false ∧ s.linkHeld d p .read (x.addr + x.sent * unit) unit = true
    let next := x.readTo
    let va := x.addr + next * unit
    let ahead := if vaTranslated va then 640 else 16
    let turn := s.linkTurn d p [0, op.off, next] va unit false
    let asked := s.sendReads d p (n + 1) x
    q.sends.find? (fun y => y.op == op) = some x → x.op = op → op.instr = .xsend track part a b e lit push →
    (x.flits ≤ x.sent → flits = (s.setPort d p { q with sends := q.sends.filter (fun y => y.op != op) }).linkPush d p op.off push)
    ∧ (x.sent < x.flits → (now < slot x.sent ∨ waits ∨ held) → flits = s)
    ∧ (x.sent < x.flits → slot x.sent ≤ now → ¬waits → ¬held → s.cable d p = some k → s.linkUp d p = true → (k.farDie ≠ d ∨ k.farPort ≠ p) →
        Tab.find x.read x.sent = some bs → ∃ (u : State) (load : Payload), flits = u.sendFlits d p op n
          ∧ (x.part = false → load = .raw bs) ∧ (x.part = true → ∃ es, load = .part es ∧ Widened x.ef bs es)
          ∧ u.flits = s.flits ++ [flitOn s d p k x.tag x.sent load]
          ∧ u.port d p = { q with sends := q.sends.map (fun y => if y.op = op then { x with sent := x.sent + 1, read := Tab.erase x.read x.sent } else y),
                                  used := (now, q.usedAt now + 1) }
          ∧ (u.die d).hbm = (s.die d).hbm ∧ (u.die d).cores = (s.die d).cores)
    ∧ (Tab.find x.read x.sent = none →
        (x.readTo ≤ x.sent → s.sendOne d p x = s.linkFault d p .timingLate op.off)
        ∧ (x.sent < x.readTo → s.linkRead d p (x.addr + x.sent * unit) unit = .bad c → s.sendOne d p x = s.linkFault d p c op.off))
    ∧ ((x.flits ≤ next ∨ now + ahead < slot next) → asked = (x, s))
    ∧ (next < x.flits → slot next ≤ now + ahead →
        (turn.1 = false → asked = (x, turn.2))
        ∧ (turn = (true, s1) → s1.linkRead d p va unit = .ok bs s2 →
            asked = s2.sendReads d p n { x with readTo := next + 1, read := Tab.set x.read next bs })
        ∧ (turn = (true, s1) → s1.linkRead d p va unit = .bad c → asked = s1.sendReads d p n { x with readTo := next + 1 }))

/-- R260, R411: flit i of an XFWD or an XRED goes on at T + 8 + i, on the die-to-die link four in a tick, and not before: XFWD sends it as it
came, on OPORT with OTAG; XRED sends the partial combined with the own contribution, or with FINAL rounds it once and writes it. After the last
one the instruction completes: status bits reach strand 0 of the core that the push names. A flit that has not come by T + i is late. A relay
keeps what comes, a partial for XRED; XFWD writes a raw flit where it names a place. Combine is as R260 fixes it per element. -/
def Sys2Proof.Claims.RelaySteps : Prop :=
  ∀ (s s1 s2 : State) (d p n i : Nat) (op : LinkOp) (r : Recv) (f : Flit) (load : Payload) (es mine : List PElem) (bs : List Byte) (k : Cable)
    (push : LPush) (rop : RedOp) (fin : Bool) (a b e g : LReg) (lit : BitVec 32) (x y : PElem) (ef : Nat),
    let q := s.port d p
    let now := s.now d
    let fwd : Prop := op.instr = .xfwd a b e lit push
    let red : Prop := op.instr = .xred rop fin a b e g lit push
    let form := q.relayForm op.instr
    let goes := s.relayFlits d p form op (n + 1)
    let o := q.xreg b / 2 ^ 32 % 16
    let otag := q.xreg b / 65536 % 65536
    let w := q.xreg e
    let code := w / 2 ^ 24 % 256
    let unit := 8 * (efOf code).width
    let num := match rop with
      | .sum => 0
      | .max => 1
      | .min => 2
    let sends := fwd ∨ (red ∧ fin = false)
    let slot := op.tick + 8 + (if sends ∧ o = 8 then r.sent / 4 else r.sent)
    let waits : Prop := (s.port d o).noSlot o now = true
    let held : Prop := red ∧ Tab.find r.own r.sent = none ∧ q.snapLocked = false
      ∧ s.linkHeld d p .read (q.xreg a + r.sent * unit) unit = true
    let on (r : Recv) : List Recv := q.recvs.map (fun y => if y.op = op then r else y)
    let ready : Prop := r.posted = true ∧ r.sent < r.flits ∧ slot ≤ now ∧ ¬held ∧ Tab.find r.data r.sent = some load
    let leaves (load : Payload) (st : Status) : Prop := ∃ u : State, goes = u.relayFlits d p form op n
      ∧ u.flits = s.flits ++ [flitOn s d o k otag r.sent load] ∧ (u.port d p).recvs = on { r with sent := r.sent + 1, status := r.status ||| st }
      ∧ (u.port d o).used = (now, (s.port d o).usedAt now + 1) ∧ (u.die d).hbm = (s.die d).hbm ∧ (u.die d).cores = (s.die d).cores
    let kept := { r with got := f.idx :: r.got, data := Tab.set r.data f.idx f.payload }
    q.recv op = some r → r.op = op → r.relay = true → (fwd ∨ red) →
    (r.posted = false → goes = s)
    ∧ (r.posted = true → r.sent < r.flits → (now < slot ∨ held ∨ (sends ∧ waits)) → goes = s)
    ∧ (ready → s.cable d o = some k → s.linkUp d o = true → (k.farDie ≠ d ∨ (k.farPort ≠ o ∧ k.farPort ≠ p)) → o ≠ p → ¬waits →
        (fwd → leaves load 0)
        ∧ (red → fin = false → load = .part es → Tab.find r.own r.sent = some bs →
            leaves (.part (combineAll num code es (partsOfBytes code bs)).1) (combineAll num code es (partsOfBytes code bs)).2))
    ∧ (ready → red → fin = true → load = .part es → Tab.find r.own r.sent = some bs →
        let combined := combineAll num code es (partsOfBytes code bs)
        let rounded := finalAll code (w / 2 ^ 32 % 8) (w / 2 ^ 35 % 2 == 1) s.freeCount 0 combined.1
        { s with freeCount := s.freeCount + 1 }.linkStore d p op (q.xreg g + r.sent * unit) (codeBytes code rounded.1) = .ok () s1 →
        ∃ u : State, goes = u.relayFlits d p form op n ∧ u.flits = s1.flits ∧ (u.die d).hbm = (s1.die d).hbm ∧ (u.die d).cores = (s1.die d).cores
          ∧ (u.port d p).recvs = (s1.port d p).recvs.map (fun y => if y.op = op then
              { r with sent := r.sent + 1, status := r.status ||| (combined.2 ||| rounded.2) } else y))
    ∧ (r.posted = true → r.sent < r.flits → slot ≤ now → ¬held → ¬(sends ∧ waits) → Tab.find r.data r.sent = none →
        goes = (s.linkFault d p .timingLate op.off).relayFlits d p form op n)
    ∧ (r.posted = true → r.flits ≤ r.sent → (q.writing op = true → goes = s)
        ∧ (q.writing op = false → goes = ((s.setPort d p { q with recvs := q.recvs.filter (fun y => y.op != op) }).linkStatus d p r.status
            push).linkPush d p op.off push))
    ∧ (q.lateRecv now r = true ↔ r.posted = true ∧ r.got.length < r.flits ∧ ∃ i, i < r.flits ∧ op.tick + i ≤ now ∧ i ∉ r.got)
    ∧ (f.idx < r.flits → f.idx ∉ r.got →
        (fwd ∧ r.addr = none ∨ (∃ es, f.payload = .part es) →
          ∃ u : State, s.acceptFlit d p r f = u ∧ u.port d p = { q with recvs := on kept } ∧ u.flits = s.flits ∧ (u.die d).hbm = (s.die d).hbm)
        ∧ (∀ at_, fwd → f.payload = .raw bs → r.addr = some at_ → s.linkStore d p op (at_ + 256 * f.idx) bs = .ok () s2 →
          ∃ u : State, s.acceptFlit d p r f = u ∧ (u.die d).hbm = (s2.die d).hbm
            ∧ (u.port d p).recvs = (s2.port d p).recvs.map (fun y => if y.op = op then kept else y))
        ∧ (red → f.payload = .raw bs → s.acceptFlit d p r f = s.linkFault d p .timingUnmatched op.off))
    -- Combine and the final rounding, element by element.
    ∧ (es.length = mine.length → (combineAll n ef es mine).1.length = es.length
        ∧ ∀ (j : Nat) (c z : PElem), es[j]? = some c → mine[j]? = some z → (combineAll n ef es mine).1[j]? = some (combine n ef c z).1)
    ∧ (let both := (combine n ef x y).1
       let float : Bool := !intEf ef
       let plus := x.2.1 || y.2.1
       let minus := x.2.2 || y.2.2
       (float = false → combine n ef x y = ((if n = 1 then vmax (partTy ef) x.1 y.1 else if n = 2 then vmin (partTy ef) x.1 y.1 else x.1 + y.1,
          false, false), 0))
       ∧ (float = true → both.2 = (plus, minus)
          ∧ ((f32v x.1).isNan = true ∨ (f32v y.1).isNan = true ∨ (plus = true ∧ minus = true) → both.1 = 0x7FC00000)
          ∧ ((f32v x.1).isNan = false → (f32v y.1).isNan = false → (plus && minus) = false →
              both.1 = if n = 1 then vmax (partTy ef) x.1 y.1 else if n = 2 then vmin (partTy ef) x.1 y.1
                else if plus then 0x7F800000 else if minus then 0xFF800000 else (sumF .near false 0 (f32v x.1) (f32v y.1)).1)))
    ∧ (∀ rm sat draw, (finalAll ef rm sat draw 0 es).1.length = es.length ∧ ∀ c : PElem, es[i]? = some c →
        (finalAll ef rm sat draw 0 es).1[i]? =
          some (roundTo (efOf ef) (rmOf rm) sat (Config.linkBits draw i).toNat (tyValue (partTy ef) c.1)).1)

/-- R247, R248, R249: the plan tenant's host arms a port's program, which is FAULTED at once when PMODE has a reserved bit or START has passed,
and disarms it; while it is ARMED or RUNNING a write of 1 changes nothing; at START the armed engine runs its plan from 0x140. -/
def Sys2Proof.Claims.EngineStarts : Prop :=
  ∀ (s : State) (d p t : Nat),
    let q := s.port d p
    let arm := exec (.linkArm d p t) s
    let disarm := exec (.linkDisarm d p t) s
    let start := exec (.linkEngineStart d p) s
    let armed (u : State) : Prop := (u.port d p).snapStart = q.start ∧ (u.port d p).snapRegs = q.regs ∧ (u.port d p).snapPlan = q.plan
      ∧ (u.port d p).snapLocked = decide (q.pmode % 2 = 1) ∧ (u.port d p).landing = [] ∧ (u.port d p).trackers = []
    (s.planTenant d p ≠ some t → arm = .next (s.answer d (.rdmaError t)) ∧ disarm = .next (s.answer d (.rdmaError t)))
    ∧ (s.planTenant d p = some t → q.state ≠ .armed → q.state ≠ .running → ∃ u : State, arm = .next u ∧ armed u
        ∧ (2 ≤ q.pmode → (u.port d p).state = .faulted ∧ (u.port d p).fault = 0x03)
        ∧ (q.pmode < 2 → q.start < s.now d → (u.port d p).state = .faulted ∧ (u.port d p).fault = 0x28)
        ∧ (q.pmode < 2 → s.now d ≤ q.start → (u.port d p).state = .armed))
    ∧ (s.planTenant d p = some t → (q.state = .armed ∨ q.state = .running) → arm = .next (s.answer d (.rdmaOk t)))
    ∧ (s.planTenant d p = some t → q.state = .armed → ∃ u : State, disarm = .next u ∧ u.port d p = { q with state := .idle })
    ∧ (s.planTenant d p = some t → q.state ≠ .armed → disarm = .next (s.answer d (.rdmaOk t)))
    ∧ (q.state = .armed → q.snapStart ≤ s.now d → ∃ u : State, start = .next u ∧ (u.port d p).state = .running
        ∧ (u.port d p).base = q.snapStart ∧ (u.port d p).pc = 0x140 ∧ (u.port d p).step = 0 ∧ (u.port d p).snapPlan = q.snapPlan)
    ∧ ((q.state ≠ .armed ∨ s.now d < q.snapStart) → start = .next s)

/-- R241, R243, R245, R246, R248, R252, R254, R255, R410: the events of a port: a flit is delivered at its tick to its receive, else to its section, else it
lands, one whose CRC fails is counted when it arrives and discarded; one unclaimed for 256 ticks, a late receive and an overdue guard end the plan
stream; a port that does not run ends an idle guard 16 ticks into each 32,768. An open message at its goal is served or reaches what
asked for it, one whose way is broken ends its command. An engine that faults stops with its cause and its offset in FAULT. The model's
choices: an idle guard sets LASTG, and FAULT names the decode offset for an expired flit and an overdue guard (log entry 45); how a stack serves an
open message (log entry 54). -/
def Sys2Proof.Claims.LinkEvents : Prop :=
  ∀ (s u : State) (d p n off : Nat) (f : Flit) (r : Recv) (o : OpenMsg) (b : OpenBody) (c : Cause),
    let q := s.port d p
    let now := s.now d
    let deliver := exec (.flitDelivery d p) s
    let erased : State := { s with flits := s.flits.erase f }
    let flit : Flit := { f with tick := now }
    let due : Int := (f.sent : Int) + f.hop + ((s.now d : Int) - (s.now f.src : Int) - f.skew)
    let waiting : Prop := ∃ e ∈ q.landing, e.idle = false ∧ e.tick + 256 ≤ now
    let arrival := exec (.openFlitArrival n) s
    let overdue := max q.lastg q.snapStart + 65536
    let stands := s.openTurn o
    let serving := (stands.2.endOpen n).serveOpen o.tr.toDie o
    let back : Transit := { fromDie := o.tr.toDie, toDie := o.tr.fromDie, at_ := o.tr.toDie, due := u.now o.tr.toDie, via := none,
                            agent := o.tr.agent, gone := 0, spent := false }
    (s.flits.find? (fun f => f.die == d && f.port == p) = some f →
      ((now : Int) < due → deliver = .next s)
      ∧ (due ≤ now → q.failed = true → deliver = .next erased)
      ∧ (due ≤ now → q.failed = false → f.bad = true → deliver = .next erased)
      ∧ (due ≤ now → q.failed = false → f.bad = false →
          (q.recvs.find? (fun r => r.open_ && r.tag == f.tag) = some r → deliver = .next (erased.acceptFlit d p r flit))
          ∧ (∀ run j l, (∀ r ∈ q.recvs, r.open_ = true → r.tag ≠ f.tag) → (s.die d).laneFor p f.tag = some (run, j, l) →
            deliver = .next (erased.laneAccept d run j l flit))
          ∧ ((∀ r ∈ q.recvs, r.open_ = true → r.tag ≠ f.tag) → (s.die d).laneFor p f.tag = none →
            q.landing.length < 256 → (∀ e ∈ q.landing, e.tag = f.tag → e.idx ≠ f.idx) →
            deliver = .next (erased.setPort d p { q with landing := q.landing ++ [{ flit with idle := !(s.die d).streamRuns p }] }))))
    ∧ (let q' := (s.lineArrives d p).port d p
       q'.crcFails = q.crcFails + (q.line.filter (fun e => decide (e.1 ≤ now) && e.2)).length ∧ q'.line = q.line.filter (fun e => now < e.1))
    ∧ (q.state = .running → (waiting → exec (.landingBufferExpiry d p) s = .next (s.linkFault d p .timingUnmatched q.pc))
      ∧ (¬waiting → exec (.landingBufferExpiry d p) s = .next s))
    ∧ (q.recvs.find? (fun r => q.lateRecv now r) = some r → exec (.receiveDeadline d p) s = .next (s.linkFault d p .timingLate r.op.off))
    ∧ (q.recvs.find? (fun r => q.lateRecv now r) = none → exec (.receiveDeadline d p) s = .next s)
    ∧ (q.state = .running → q.inGuard now = false → exec (.guardOverdue d p) s
        = .next (if overdue ≤ now then s.linkFault d p .timingLate q.pc else s))
    ∧ (q.state ≠ .running → s.linkUp d p = true →
      (now % 32768 = 16 → q.idleFrom + 16 ≤ now → exec (.idleGuard d p) s = .next ((s.setPort d p { q with lastg := now }).recentre d p))
      ∧ (now % 32768 ≠ 16 ∨ now < q.idleFrom + 16 → exec (.idleGuard d p) s = .next s))
    ∧ (s.opens[n]? = some o →
      (s.hop o.tr = .stay → arrival = .next s)
      ∧ (s.hop o.tr = .lost → arrival = .next ((s.endOpen n).openEnd
          { o with body := .fault .unowned 0 false, tr := { o.tr with fromDie := o.home, toDie := o.home } }))
      ∧ (s.hop o.tr = .here → o.body.isAnswer = true → arrival = .next ((s.endOpen n).openEnd o))
      ∧ (s.hop o.tr = .here → o.body.isAnswer = false → stands.1 = false → arrival = .next stands.2)
      ∧ (s.hop o.tr = .here → o.body.isAnswer = false → stands.1 = true → serving = none → arrival = .next stands.2)
      ∧ (s.hop o.tr = .here → o.body.isAnswer = false → stands.1 = true → serving = some (b, u) →
          arrival = .next { u with opens := u.opens ++ [{ o with tr := back, body := b }] }))
    ∧ (o.tr.spent = false →
      (s.now o.tr.at_ < o.tr.due → (∀ k, o.tr.via = some k → (s.port o.tr.at_ k).failed = false) → s.hop o.tr = .stay)
      ∧ (s.now o.tr.at_ < o.tr.due → (∃ k, o.tr.via = some k ∧ (s.port o.tr.at_ k).failed = true) → s.hop o.tr = .lost)
      ∧ (o.tr.due ≤ s.now o.tr.at_ → o.tr.at_ = o.tr.toDie → s.hop o.tr = .here)
      ∧ (∀ k, o.tr.due ≤ s.now o.tr.at_ → o.tr.at_ ≠ o.tr.toDie → s.route o.tr.at_ o.tr.toDie = some k →
          s.hop o.tr = if s.linkUp o.tr.at_ k then .stay else .lost)
      ∧ (o.tr.due ≤ s.now o.tr.at_ → o.tr.at_ ≠ o.tr.toDie → s.route o.tr.at_ o.tr.toDie = none → s.hop o.tr = .lost))
    ∧ (q.state = .running → ((s.linkFault d p c off).port d p).state = .faulted ∧ ((s.linkFault d p c off).port d p).ops = []
        ∧ ((s.linkFault d p c off).port d p).fault = c.code + off % 65536 * 256)
    ∧ (q.works = false → s.linkFault d p c off = s)

/-- Engines, receives and what a link delivers: Claims.Receives, Claims.SentFlits, Claims.RelaySteps, Claims.EngineStarts, Claims.LinkEvents. -/
def Obligations.LinkEngine : Prop := Claims.Receives ∧ Claims.SentFlits ∧ Claims.RelaySteps ∧ Claims.EngineStarts ∧ Claims.LinkEvents

/-! The pod, the board and the host. -/

/-- R9, R186, R238, R239, R240, R241, R244, R263: from the four stamps of an exchange with its parent a die computes the delay and its offset, and an
offset of more than 4 ticks is a time fault, logged, with an abort under Locked operation; a slew adds or withholds one tick and not
another in 4,096; before any launch a configuration forms the pod, with every member's count at 0 and its ports at a read delay of 32. -/
def Sys2Proof.Claims.PodTime : Prop :=
  ∀ (s : State) (d p : Nat) (t1 t2 t3 t4 : Int) (cfg : PodCfg),
    let x := s.die d
    let half := (t2 - t1) - (t4 - t3)
    let e := (s.port d p).exch
    let stamped : Prop := e.t1.map Int.ofNat = some t1 ∧ e.t2.map Int.ofNat = some t2 ∧ e.t3.map Int.ofNat = some t3 ∧ e.t4.map Int.ofNat = some t4
    let cleared := s.setPort d p { s.port d p with exch := Exchange.none }
    let measured := cleared.modDie d (fun x => { x with delay := (t2 - t1) + (t4 - t3), slewLeft := half })
    let exchange := exec (.timeExchange d t1 t2 t3 t4) s
    let slew := exec (.slew d) s
    let formation := exec (.podFormation cfg) s
    (Tab.find s.pod.parents d = some p → stamped →
      (-8 ≤ half → half ≤ 8 → exchange = .next measured)
      ∧ (half < -8 ∨ 8 < half → x.lockedOp = false → exchange = .next (measured.errRecord d 0 0x60 0 0xFF p 0))
      ∧ (half < -8 ∨ 8 < half → x.lockedOp = true →
          exchange = .next ((measured.errRecord d 2 0x60 0 0xFF p 0).originate d .timeFault 0 [])))
    ∧ (Tab.find s.pod.parents d = none → exchange = .next s)
    ∧ (Tab.find s.pod.parents d = some p → ¬stamped → exchange = .next s)
    ∧ (2 ≤ x.slewLeft → x.slewNext ≤ x.tick → x.withhold = false → ∃ u : State, slew = .next u ∧ u.now d = s.now d + 1
        ∧ (u.die d).slewLeft = x.slewLeft - 2 ∧ (u.die d).slewNext = s.now d + 1 + 4096 ∧ (u.die d).events = [] ∧ (u.die d).ports = x.ports
        ∧ (u.die d).cores = x.cores)
    ∧ (x.slewLeft ≤ -2 → x.slewNext ≤ x.tick → x.withhold = false → ∃ u : State, slew = .next u ∧ u.now d = s.now d
        ∧ (u.die d).withhold = true ∧ (u.die d).slewLeft = x.slewLeft + 2 ∧ (u.die d).slewNext = s.now d + 4096
        ∧ (u.die d).ports = x.ports ∧ (u.die d).cores = x.cores)
    ∧ ((-2 < x.slewLeft ∧ x.slewLeft < 2) ∨ x.tick < x.slewNext ∨ x.withhold = true → slew = .next s)
    ∧ (s.launched = false → podOk cfg = true → (∀ e ∈ s.dies, e.2.idle = true) → ∃ u : State, formation = .next u ∧ u.pod = cfg
        ∧ u.formed = true ∧ u.flits = [] ∧ u.opens = [] ∧ u.brandMsgs = []
        ∧ ∀ m ∈ cfg.members, u.now m = 0 ∧ (u.die m).sideBase = Tab.get cfg.sideTables m 0
          ∧ ∀ q, (u.port m q).occ = 32 ∧ (u.port m q).failed = false ∧ (u.port m q).plan = (s.port m q).plan)
    ∧ (s.launched = true ∨ podOk cfg = false ∨ (∃ e ∈ s.dies, e.2.idle = false) → formation = .next s)

/-- R243, R244, R263, R264, R265: a port that fails is failed, a record is written, and under Locked operation an abort originates; the pod
configuration restores it with a read delay of 32, and its far end receives symbols again; it receives none itself while the far end is failed,
dead or in reset. An abort that reaches a die is met once: one it has met changes nothing, a new one
is known from then on. -/
def Sys2Proof.Claims.PortEvents : Prop :=
  ∀ (s : State) (d p : Nat) (k : Cable) (a : AbortId) (tick : Nat) (before after : List (Nat × Nat × AbortId)),
    let q := s.port d p
    let failure := exec (.portFailure d p) s
    let restore := exec (.portRestore d p) s
    let abort := exec (.abortFlit d p) s
    let erased := s.modDie d (fun x => { x with abortIn := before ++ after })
    (s.cable d p = none → failure = .next s ∧ restore = .next s)
    ∧ (s.cable d p = some k → q.failed = true → failure = .next s)
    ∧ (s.cable d p = some k → q.failed = false → ∃ u : State, failure = .next u ∧ (u.port d p).failed = true
        ∧ (∃ r ∈ (u.die d).errlog, r.cause = 0x61 ∧ r.port = p ∧ r.sev = if (s.die d).lockedOp then 2 else 1)
        ∧ ((s.die d).lockedOp = true → ∃ e ∈ (u.die d).abortIn, e.1 = selfPort ∧ e.2.2.die = d ∧ e.2.2.cause = .portFailed))
    ∧ (s.cable d p = some k → q.failed = true → ∃ u : State, restore = .next u ∧ (u.port d p).failed = false ∧ (u.port d p).occ = 32
        ∧ (u.port d p).crcFails = 0 ∧ (u.port d p).plan = q.plan ∧ (u.port d p).regs = q.regs
        ∧ (u.port k.farDie k.farPort).silent = none
        ∧ ((k.farDie, k.farPort) ≠ (d, p) → (u.port d p).silent = if (s.port k.farDie k.farPort).failed = true ∨ (s.die k.farDie).dead = true
            ∨ (s.die k.farDie).inReset = true then some (s.now d) else none))
    ∧ (q.failed = false → restore = .next s)
    ∧ ((∀ e ∈ (s.die d).abortIn, e.1 = p → s.now d < e.2.1) → abort = .next s)
    ∧ ((s.die d).abortIn = before ++ (p, tick, a) :: after → (∀ e ∈ before, e.1 = p → s.now d < e.2.1) → tick ≤ s.now d →
      ((∃ b ∈ (s.die d).aborts, b.same a = true) → abort = .next erased)
      ∧ ((∀ b ∈ (s.die d).aborts, b.same a = false) → ∃ u, abort = .next u ∧ a ∈ (u.die d).aborts
          ∧ ∀ n, (u.port d n).state ≠ .running))

/-- Pod time, ports and their failure: Claims.PodTime, Claims.PortEvents. -/
def Obligations.TimeAndPorts : Prop := Claims.PodTime ∧ Claims.PortEvents

/-- R5, R27, R55, R56, R307: a die in reset starts with firmware that verifies and is not older than its fuses, and else logs the failure; a reset
keeps its count, its memory arrays and its fuses and drops everything else; an island set takes the lowest clock step demanded, 1.0 GHz
under a Locked gang, and halts for 500 ticks when it changes; a protection demand then aborts. The model's choices: the numbers of the islands, and
that a throttle halts issue alone (log entry 56); what a reset keeps beside the memory arrays (log entry 26). -/
def Sys2Proof.Claims.BoardEvents : Prop :=
  ∀ (s : State) (d island eighths : Nat) (mgmt engine : FwImage),
    let x := s.die d
    let good : Prop := FwImage.verifies mgmt = true ∧ FwImage.verifies engine = true ∧ x.fused.toNat ≤ mgmt.version ∧ x.fused.toNat ≤ engine.version
    let boot := exec (.firmwareBoot d mgmt engine) s
    let throttle := exec (.throttleStep d island eighths) s
    let set := x.islandSet island
    let demanded (j : Nat) : Nat := if j = island then eighths else Tab.get x.demand j 8
    let locked : Prop := ∃ g ∈ x.gangs, g.2.locked = true ∧ ((∃ j ∈ set, 16 ≤ j) ∨ ∃ j ∈ g.2.islands, j ∈ set)
    (x.inReset = false → boot = .next s)
    ∧ (x.inReset = true → good → ∃ u : State, boot = .next u ∧ (u.die d).inReset = false
        ∧ (u.die d).fwVersion = BitVec.ofNat 64 (min mgmt.version engine.version)
        ∧ (u.die d).fwDigests = [sha256 mgmt.body, sha256 engine.body] ∧ (u.die d).hbm = x.hbm)
    ∧ (x.inReset = true → ¬good → boot = .next (s.errRecord d 3 0x62 0 0xFF 0xFF 0))
    ∧ (∃ u : State, exec (.dieReset d false) s = .next u ∧ u.now d = s.now d ∧ (u.die d).hbm = x.hbm ∧ (u.die d).sideBase = x.sideBase
        ∧ (u.die d).fused = x.fused ∧ (u.die d).inReset = true ∧ (u.die d).cores = [] ∧ (u.die d).gangs = [] ∧ (u.die d).tenants = []
        ∧ (u.die d).sched = [] ∧ (u.die d).brands = [])
    ∧ (∃ u : State, exec (.dieReset d true) s = .next u ∧ (u.die d).dead = true ∧ (u.die d).cores = x.cores ∧ (u.die d).hbm = x.hbm)
    ∧ ((eighths < 4 ∨ 8 < eighths ∨ 32 ≤ island) → throttle = .next s)
    ∧ (4 ≤ eighths → eighths ≤ 8 → island < 32 → island ∈ set ∧ ∃ (u : State) (c : Nat), throttle = .next u
        ∧ (∀ j ∈ set, Tab.get (u.die d).islands j 8 = c) ∧ (∀ j, j ∉ set → Tab.get (u.die d).islands j 8 = Tab.get x.islands j 8)
        ∧ (locked → c = 8)
        ∧ (¬locked → c ≤ 8 ∧ (∀ j ∈ set, c ≤ demanded j) ∧ (c = 8 ∨ ∃ j ∈ set, c = demanded j))
        ∧ ((∀ j ∈ set, Tab.get x.islands j 8 = c) → (u.die d).islandHalt = x.islandHalt)
        ∧ ((∃ j ∈ set, Tab.get x.islands j 8 ≠ c) → ∀ j ∈ set, Tab.get (u.die d).islandHalt j 0 = s.now d + 500))
    ∧ (island < 32 → (∃ g ∈ x.gangs, g.2.locked = true) → exec (.thermalProtection d island) s = .next (s.originate d .timingLate 0 []))
    ∧ ((∀ g ∈ x.gangs, g.2.locked = false) → exec (.thermalProtection d island) s = .next s)

/-- R178, R179, R247, R254, R270, R301, R302: an RDMA request of a tenant's queue pair is performed and answered in the memory of its die, in its schedule
partition, in the plan area it owns and, to be read, in a slot of its own; for the memory of another die it leaves as open traffic; it is
refused with nothing written where its rights do not admit it, and waits for a pre-empted context. Immediate data are handed over when
their write is performed, at once to a Free-mode gang and at the step end to a Locked-mode one. An access to the memory of the die waits for its
stack. The model's choices: a request is performed as a whole (log entry 47), under the id of its Ethernet port and as the plan's windows let
that in (log entry 54). -/
def Sys2Proof.Claims.HostTraffic : Prop :=
  ∀ (s : State) (d port t off q : Nat) (addr : Word) (data bs : List Byte) (len : Nat) (imm : W32) (g : Gang) (x : Die) (te : Tenant),
    let write := exec (.rdmaWrite d port t addr data) s
    let read := exec (.rdmaRead d port t addr len) s
    let both := exec (.writeWithImmediate d port t addr data imm) s
    let refused : Host.Outcome State Fault Refusal := .next (s.answer d (.rdmaError t))
    let i : Intake := { tenant := t, port := port, imm := imm }
    let va := addr.toNat
    let n := data.length
    let paired : Prop := s.pairAt d port t = true ∧ va < 2 ^ 60
    let writes : Prop := paired ∧ n ≠ 0
    let reads : Prop := paired ∧ len ≠ 0
    let written (u : State) : Prop := write = .next (u.answer d (.rdmaOk t)) ∧ both = .next ((u.answer d (.rdmaOk t)).intake d t port imm)
    let sent (by_ : Option W32) (body : OpenBody) : Host.Outcome State Fault Refusal := .next { s with opens := s.opens ++
      [{ tr := s.transit d (vaDie va) (etherAgent port), by_ := .ether port by_, core := noCore, cmd := 0, tenant := t, locked := false, body := body }] }
    let loan := s.gang d (imm.toNat / 2 ^ 22 % 64)
    (¬writes → write = refused ∧ both = refused)
    ∧ (¬reads → read = refused)
    ∧ (writes → hostRange d va n = .memory →
      let right := s.judge d t [etherAgent port] none .write va n
      let stands := s.hostTurn d port t va n true
      (right = .ok → vaDie va = d → stands.1 = true → (stands.2.die d).write .walker t false va data = .ok () x → written (stands.2.setDie d x))
      ∧ (right = .ok → vaDie va = d → stands.1 = false → write = .next stands.2 ∧ both = .next stands.2)
      ∧ (right = .ok → vaDie va ≠ d → s.reaches d (vaDie va) = true →
          write = sent none (.write va data 0) ∧ both = sent (some imm) (.write va data 0))
      ∧ (right = .ok → vaDie va ≠ d → s.reaches d (vaDie va) = false → write = refused ∧ both = refused)
      ∧ (∀ cause v, right = .bad cause v → write = refused ∧ both = refused)
      ∧ (right = .hold → write = .next s ∧ both = .next s))
    ∧ (writes → hostRange d va n = .table off → s.tenant d t = some te →
      (inPartition te.cfg off n = true → written ((entriesOf off n).foldl (fun s e => s.writeEntry d t off data e) s))
      ∧ (inPartition te.cfg off n = false → write = refused ∧ both = refused))
    ∧ (writes → hostRange d va n = .link q off →
      (s.planTenant d q = some t → off + n ≤ 0x8000 → written (s.writeLink d q off data))
      ∧ (s.planTenant d q ≠ some t ∨ 0x8000 < off + n → write = refused ∧ both = refused))
    ∧ (writes → hostRange d va n = .slot ∨ hostRange d va n = .none → write = refused ∧ both = refused)
    ∧ (reads → hostRange d va len = .memory →
      let right := s.judge d t [etherAgent port] none .read va len
      let stands := s.hostTurn d port t va len false
      (right = .ok → vaDie va = d → stands.1 = true → (stands.2.die d).read .walker t false va len = .ok bs x →
          read = .next ((stands.2.setDie d x).answer d (.rdmaData t bs)))
      ∧ (right = .ok → vaDie va = d → stands.1 = false → read = .next stands.2)
      ∧ (right = .ok → vaDie va ≠ d → s.reaches d (vaDie va) = true → read = sent none (.read va len va))
      ∧ (∀ cause v, right = .bad cause v → read = refused)
      ∧ (right = .hold → read = .next s))
    ∧ (reads → hostRange d va len = .slot → vaDie va = d → (s.die d).read .walker t false va len = .ok bs x →
        read = .next (s.answer d (.rdmaData t bs)))
    ∧ (reads → hostRange d va len = .slot → vaDie va ≠ d → s.reaches d (vaDie va) = true → read = sent none (.read va len va))
    ∧ (reads → hostRange d va len = .landing q off → s.planTenant d q = some t →
        read = .next (s.answer d (.rdmaData t (slice (s.port d q).landingBytes off len))))
    ∧ ((loan = some g → g.locked = true → s.intake d t port imm = s.modDie d (fun x => { x with intakes := x.intakes ++ [i] }))
      ∧ (loan = some g → g.locked = false → s.intake d t port imm = s.handIntake d i)
      ∧ (loan = none → s.intake d t port imm = s.handIntake d i))

/-- R264, R299, R306: a tenant is configured when its configuration is well formed and cuts nothing off, and a new table range makes the lower half
active; one without a live gang is removed, with its armed entries EMPTY; a refused change leaves the tenant as it was, with an error record. The
model's choices (log entry 23): which changes are refused beside the fields that are not well formed (a range that another tenant holds, one that
cuts off what is in use), and the record, SEV 0 with a free CAUSE. -/
def Obligations.Tenancy : Prop :=
  ∀ (s : State) (d t : Nat) (cfg : TenantCfg) (te : Tenant),
    let x := s.die d
    let configure := exec (.tenantConfigure d t cfg) s
    let remove := exec (.tenantRemove d t) s
    let refused : Host.Outcome State Fault Refusal := .next ((s.errRecord d 0 Config.refusedCause 0 t 0xFF 0).answer d .refused)
    let cuts := x.cutsOff t te cfg
    (x.configOk t cfg = false → configure = refused)
    ∧ (x.configOk t cfg = true → s.tenant d t = none → ∃ u : State, configure = .next u ∧ u.tenant d t = some (newTenant cfg)
        ∧ ∀ n, cfg.slotFirst ≤ n → n < cfg.slotFirst + cfg.slotCount → ((u.die d).slot n).bound = false)
    ∧ (x.configOk t cfg = true → s.tenant d t = some te → cuts = true → configure = refused)
    ∧ (x.configOk t cfg = true → s.tenant d t = some te → cuts = false → ∃ (u : State) (te' : Tenant), configure = .next u
        ∧ u.tenant d t = some te' ∧ te'.cfg = cfg ∧ te'.wslots = te.wslots ∧ te'.seq = te.seq
        ∧ ((te.cfg.schedFirst, te.cfg.schedSize) ≠ (cfg.schedFirst, cfg.schedSize) → te'.lowerActive = true ∧ te'.recovery = none)
        ∧ ((te.cfg.schedFirst, te.cfg.schedSize) = (cfg.schedFirst, cfg.schedSize) → te'.lowerActive = te.lowerActive ∧ te'.recovery = te.recovery))
    ∧ (s.tenant d t = none → remove = refused)
    ∧ (s.tenant d t = some te → (∃ g ∈ x.gangs, g.2.tenant = t) → remove = refused)
    ∧ (s.tenant d t = some te → (∀ g ∈ x.gangs, g.2.tenant ≠ t) → ∃ u : State, remove = .next u ∧ u.tenant d t = none
        ∧ ∀ e, (u.sched d e).state = if hasEntry te.cfg e = true ∧ (s.sched d e).state = .armed then .empty else (s.sched d e).state)

/-- R105, R306, R307, R308, R309: the management sideband: a report is signed over its nonce of 32 bytes; an injection needs the tenant's INJECT and
writes a record with its kind, core and operands, and a wrong residue is one that the next check finds; the log and the telemetry are answered.
The model's choice: when a FLIP and a RESID are taken (log entry 25). -/
def Sys2Proof.Claims.Management : Prop :=
  ∀ (s : State) (d t c k r n first count byte bit slot rank : Nat) (nonce : List Byte) (te : Tenant) (g : Gang) (kind : InjectKind),
    let inject (kind : InjectKind) := exec (.errorInjection d t c kind) s
    let report := Config.reportLayout (s.reportParts d nonce)
    let refused : Host.Outcome State Fault Refusal := .next (s.answer d .refused)
    let q : Reg := Fin.ofNat 32 r
    let logged (u : State) (kind : Nat) (operands : List Nat) : Prop := ∃ e ∈ (u.die d).errlog, e.sev = 0 ∧ e.cause = 0x63 ∧ e.tenant = t
      ∧ e.detail = Config.injectionDetail kind c operands
    (nonce.length = 32 → exec (.attestation d nonce) s = .next (s.answer d (.report report (Config.identitySign d (sha256 report)))))
    ∧ (nonce.length ≠ 32 → exec (.attestation d nonce) s = refused)
    ∧ (s.tenant d t = none → inject kind = refused)
    ∧ (s.tenant d t = some te → te.cfg.inject = false → inject kind = refused)
    ∧ (s.tenant d t = some te → te.cfg.inject = true →
      (bit < 8 → c < 64 → inject (.flip byte bit) = .next (s.modDie d (fun x =>
          { x with injections := x.injections ++ [{ tenant := t, core := c, byte := byte, bit := bit }] })))
      ∧ (s.ctx d c = some (slot, rank, g) → g.tenant = t →
        (k < 4 → r < 32 → ∃ u : State, inject (.resid k r) = .next u ∧ logged u 1 [k, r]
          ∧ (u.strand ⟨d, c, k⟩).reg q = (s.strand ⟨d, c, k⟩).reg q
          ∧ (q ≠ 0 → ((s.strand ⟨d, c, k⟩).sreg q).ok = true → ((u.strand ⟨d, c, k⟩).sreg q).ok = false))
        ∧ (1 ≤ n → n ≤ 65535 → ∃ u : State, inject (.stall n) = .next u ∧ logged u 2 [n] ∧ s.cyc d c + n ≤ (u.core d c).issueFrom
          ∧ (u.core d c).strands = (s.core d c).strands))
      ∧ ((s.ctx d c = none ∨ (s.ctx d c = some (slot, rank, g) ∧ g.tenant ≠ t)) → inject (.resid k r) = refused ∧ inject (.stall n) = refused))
    ∧ exec (.errorLogRead d first count) s = .next (s.answer d (.log (((s.die d).errlog.reverse.drop first).take count)))
    ∧ (∃ (u : State) (vals : List (Nat × Word × Word × Nat)), exec (.telemetryRead d) s = .next u
        ∧ (u.die d).replies = .telemetry vals :: (s.die d).replies ∧ vals.length = 32
        ∧ ∀ i < 32, ∃ v w, vals[i]? = some (i, v, w, 125 * Tab.get (s.die d).islands i 8))

/-- The board, the host and management: Claims.BoardEvents, Claims.HostTraffic, Claims.Management. -/
def Obligations.BoardAndHost : Prop := Claims.BoardEvents ∧ Claims.HostTraffic ∧ Claims.Management

/-- R7, R60, R74, R75, R89, R287: words that are no instruction trap with ILLEGAL_OP or ILLEGAL_LEN, a fetch that finds no code with FETCH_INVALID and
the address; at the handler itself that fails the context. A plan stream whose words are no link instruction ends with its cause. -/
def Sys2Proof.Claims.IllegalWords : Prop :=
  ∀ (s : State) (p : At) (d port w0 w1 w2 a : Nat) (e : DecodeFault),
    let z := s.strand p
    let found := (s.core p.d p.c).fetch z.fetchAt
    let q := s.port d port
    (s.actor = .strand p.d p.c p.k → s.canIssue p = true →
      (found = .words w0 w1 w2 → HasHandler s p →
        (decodeStrand w0 w1 w2 = .error .illegalOp → ∃ t, exec .illegalOp s = .next t ∧ Handles s p 0x01 0 z.pc.toNat t)
        ∧ (decodeStrand w0 w1 w2 = .error .illegalLen → ∃ t, exec .illegalOp s = .next t ∧ Handles s p 0x02 0 z.pc.toNat t))
      ∧ (found = .invalid a → HasHandler s p → (z.far.isSome = true ∨ z.pc ≠ z.trapvec) →
          ∃ t, exec .fetchInvalid s = .next t ∧ Handles s p 0x06 (BitVec.ofNat 64 a) z.pc.toNat t)
      ∧ (found = .invalid a → z.far = none → z.pc = z.trapvec →
          exec .fetchInvalid s = .next (s.declareFailed p.d p.c p.k z.pc.toNat .fetchInvalid)))
    ∧ (s.actor = .link d port → q.state = .running → q.linkWord = .error e →
        exec .illegalOp s = .next (if e = .reservedField then s else
          s.linkFault d port (match e with | .illegalLen => .illegalLen | _ => .illegalOp) q.pc))

/-- R7, R60, R66, R75, R249: the step at words that are no instruction. A strand whose turn comes at words with a reserved field that is not
zero traps with RESERVED_FIELD, %trappc the address of the first word; at other words that are none it meets ILLEGAL_OP or
ILLEGAL_LEN, at a free page FETCH_INVALID; at a page that is filling it waits. A plan stream with such a reserved field ends with that
cause. -/
def Sys2Proof.Claims.RefusedWords : Prop :=
  ∀ (s : State) (rest : List Move) (d c k w0 w1 w2 a port : Nat) (e : DecodeFault),
    let p : At := ⟨d, c, k⟩
    let z := s.strand p
    let t : State := { s.modStrand p (fun z => { z with turn := s.now d + 1 }) with agenda := rest, actor := .strand d c k }
    let found := (s.core d c).fetch z.fetchAt
    let q := s.port d port
    ((s.agenda = .strand d c k :: rest ∨ s.agenda = .early d c k :: rest) → z.turn ≠ s.now d + 1 → s.canIssue p = true →
      (z.popWait = none ∨ z.granted = true) → (s.core d c).keptRecords.any (fun r => r.strand == k) = false →
      (found = .words w0 w1 w2 → decodeStrand w0 w1 w2 = .error .reservedField → HasHandler s p →
        ∃ u, step s = .next u ∧ Handles s p 0x03 0 z.pc.toNat u)
      ∧ (found = .words w0 w1 w2 → decodeStrand w0 w1 w2 = .error e → e ≠ .reservedField → step s = exec .illegalOp t)
      ∧ (found = .invalid a → step s = exec .fetchInvalid t)
      ∧ (found = .hold → step s = .next (t.stall p none)))
    ∧ (s.agenda = .link d port :: rest → q.state = .running → q.ended = false → q.linkWord = .error e →
        step s = if e = .reservedField then .next ({ s with agenda := rest, actor := .link d port }.linkFault d port .reservedField q.pc)
          else exec .illegalOp { s with agenda := rest, actor := .link d port })

/-- Words that are no instruction, as the decoder and the step meet them: Claims.IllegalWords, Claims.RefusedWords. -/
def Obligations.IllegalWords : Prop := Claims.IllegalWords ∧ Claims.RefusedWords

/-- R292: a context that is declared failed ends its whole gang: the gang is gone, its entry is FAILED, its cores hold no context and no strand of
theirs runs; in Locked mode an abort originates. The model's choice: the strand and the pc that a failure names where no strand raised it
(log entry 33). -/
def Sys2Proof.Claims.FailedGangs : Prop :=
  ∀ (s : State) (d c k pc slot rank : Nat) (g : Gang) (cause : Cause), s.ctx d c = some (slot, rank, g) →
    let t := s.declareFailed d c k pc cause
    t.gang d slot = none ∧ (t.sched d g.entry).state = .failed
    ∧ (g.locked = true → ∃ e ∈ (t.die d).abortIn, e.2.2.cause = cause)
    ∧ (∀ n ∈ g.cores, (∃ r, (s.core d n).ctx = some (slot, r)) → (t.core d n).ctx = none ∧ ∀ j, (t.strand ⟨d, n, j⟩).running = false)

/-- Exit, retirement and failure: Claims.StrandExit, Claims.Retirement, Claims.FailedGangs. -/
def Obligations.ExitAndRetirement : Prop := Claims.StrandExit ∧ Claims.Retirement ∧ Claims.FailedGangs

/-- R30, R40, R42, R106, R201, R228, R248, R267: what reset leaves in every die, core, strand, port and slot, where the spec gives a
value (what it gives none for is log entries 2 and 3): no entry armed, no gang live, every brand FREE, every program IDLE with its read
delay at 32, every channel empty, every special register at the value of its row. -/
def Obligations.ResetValues : Prop :=
  ∀ d c k n : Nat,
    let z := State.reset.strand ⟨d, c, k⟩
    let q := State.reset.port d n
    let b := State.reset.brand d n
    let e := State.reset.sched d n
    let v := (State.reset.die d).slot n
    (z.flags = 0 ∧ z.cnt = 0 ∧ z.status = 0 ∧ z.vrot = 0 ∧ z.prot = 0 ∧ z.vbase = BitVec.ofNat 6 (16 + 12 * k) ∧ z.vsize = 12
      ∧ z.pbase = BitVec.ofNat 6 (8 + 8 * k) ∧ z.trapvec = 0 ∧ z.trapcause = 0 ∧ z.trappc = 0 ∧ z.trapinfo = 0 ∧ z.trapsave = 0
      ∧ z.steptick = 0)
    ∧ (q.start = 0 ∧ q.state = .idle ∧ q.occ = 32 ∧ q.base = 0 ∧ q.pc = 0 ∧ q.step = 0 ∧ q.lastg = 0 ∧ q.fault = 0 ∧ q.pmode = 0)
    ∧ (b.state = .free ∧ b.gen = 0 ∧ b.hdie = 0 ∧ b.lsize = 0 ∧ b.title = 0 ∧ b.cur = 0 ∧ b.shr = 0)
    ∧ (e.state = .empty ∧ e.cause = 0 ∧ e.slot = 0)
    ∧ (v.bound = false ∧ v.tenant = 0 ∧ v.plen = 0 ∧ v.mask = 0 ∧ v.key = 0 ∧ v.step = 0)
    ∧ (State.reset.core d c).sparks = [] ∧ State.reset.gang d n = none ∧ State.reset.tenant d n = none ∧ State.reset.now d = 0
    ∧ z.running = false ∧ (State.reset.core d c).page n = .free

/-- The words that the spec writes out for an instruction of each family decode to that instruction (the examples of R313, R405, R351,
R348, R379, R382, R400, R356, R334, R204's BXFER, R54, R341, R412 and R414, and R281's program). -/
def Obligations.DecodedWords : Prop :=
  decodeStrand 0x0000C009 0x00000003 0 = .ok (.addi 12 0 3)
  ∧ decodeStrand 0x039AC028 0 0 = .ok (.xor 12 13 14)
  ∧ decodeStrand 0x001AC051 0x00000108 0 = .ok (.ext false 12 13 8 4)
  ∧ decodeStrand 0x18180119 0x000FFFF8 0 = .ok (.loop true true 12 (BitVec.ofInt 20 (-8)))
  ∧ decodeStrand 0x1804C181 0x00000010 0 = .ok (.ld .w64 12 2 16)
  ∧ decodeStrand 0x28000190 0 0 = .ok (.spush 5)
  ∧ decodeStrand 0x01492201 0x00000029 0
      = .ok (.vadd .f32 ⟨.reg 18, .reg 4, true, ⟨9, false⟩⟩ 5 ⟨.near, false, 0⟩)
  ∧ decodeStrand 0x11489249 0 0 = .ok (.vcmp .f32 .lt 9 (.reg 4) 5 false ⟨0, false⟩)
  ∧ decodeStrand 0x0519229E 0 0x01000000 = .ok (.vrag 1 false 18 12 20 0 ⟨0, false⟩ .none)
  ∧ decodeStrand 0x02D49400 0 0 = .ok (.plog .and 9 10 11)
  ∧ decodeStrand 0x00180496 0x004C8000 0 = .ok (.mstrm 12 0x4C 128 0 .none)
  ∧ decodeStrand 0x0359450A 0 0x02003DCB = .ok (.cpycs false true 20 12 13 14 15 0 (.push 3))
  ∧ decodeStrand 0xA39AC590 0 0 = .ok (.bxfer 12 13 14 (some 2))
  ∧ decodeStrand 0x080A0601 0x000FFFF0 0 = .ok (.bar true 5 (BitVec.ofInt 20 (-16)))
  ∧ decodeStrand 0x039AC612 8 0x00100000 = .ok (.atom .add .i32 12 13 14 8 .none)
  ∧ decodeStrand 0x00000681 5 0 = .ok (.trap 5)
  ∧ decodeLink 0x00000712 0x7D0 0x10000000 = .ok (.xguard 16 2000)
  ∧ decodeLink 0x0000871A 0x2EE0 0x0000000A = .ok (.xstep false 12000 (.to 8 2))
  ∧ decodeLogit 0x40200041 = .ok (.lset 1 (BitVec.ofNat 23 0x201000))
  ∧ decodeLogit 0x00000407 = .ok (.ltopk 2)

/-- A step runs the decoded instruction: a strand whose turn comes fetches the words at its program counter and runs exec of what they
decode to (R60, R75, R290), its cycle marked as taken, unless it waits for a pop that is not granted; before a granted pop the pushes
that have reached the channel are applied (R228). A link engine decodes and takes likewise (R249), the sampler's run does for its
program (R271); an event befalls the machine; and an empty agenda is filled with the next tick's moves (the agenda is the model's own,
log entry 1). -/
def Obligations.StepRunsDecoded : Prop :=
  ∀ (s : State) (rest : List Move) (i : Instr),
    (∀ (d c k w0 w1 w2 : Nat),
      let p : At := ⟨d, c, k⟩
      let z := s.strand p
      let t : State := { s.modStrand p (fun z => { z with turn := s.now d + 1 }) with agenda := rest, actor := .strand d c k }
      (s.agenda = .strand d c k :: rest ∨ (s.agenda = .early d c k :: rest ∧ i.unit ≠ .vector)
        ∨ (s.agenda = .sync d c k :: rest ∧ i.unit = .sync ∧ z.granted = false)) →
      z.turn ≠ s.now d + 1 → s.canIssue p = true → (z.popWait = none ∨ z.granted = true) →
      (s.core d c).keptRecords.any (fun r => r.strand == k) = false →
      (s.core d c).fetch z.fetchAt = .words w0 w1 w2 → decodeStrand w0 w1 w2 = .ok i →
      step s = exec i t)
    ∧ (∀ d c k : Nat,
      let p : At := ⟨d, c, k⟩
      let applied := { s with agenda := rest }.each (s.firstPushes p) (fun s ch => s.applyPushes d c ch ((s.core d c).pushOrder ch))
      s.agenda = .sync d c k :: rest → s.nextInstr p = some i → i.unit = .sync →
      (s.core d c).keptRecords.any (fun r => r.strand == k) = false →
      step s = step { applied with agenda := .strand d c k :: applied.agenda })
    ∧ (∀ d p : Nat, s.agenda = .link d p :: rest → (s.port d p).state = .running → (s.port d p).ended = false →
        (s.port d p).linkWord = .ok i → step s = exec i { s with agenda := rest, actor := .link d p })
    ∧ (∀ (d p : Nat) (op : LinkOp) (ops : List LinkOp), s.agenda = .take d p :: rest → (s.port d p).ops = op :: ops →
        step s = exec op.instr { s with agenda := rest, actor := .taken d p })
    ∧ (∀ (d : Nat) (r : LogitRun), s.agenda = .logit d :: rest → (s.die d).run = some r →
        decodeLogit (r.prog.getD r.pc 0) = .ok i → step s = exec i { s with agenda := rest, actor := .logit d })
    ∧ (s.agenda = .event i :: rest → step s = exec i { s with agenda := rest, actor := .none })
    ∧ (s.agenda = [] → step s = .next { s with agenda := s.tickPlan })

namespace Sys2Proof.Claims

/-- The memory whose words an instruction stands in (R102, R103, R247): a strand's, a link engine's plan stream, a logit program. -/
inductive Stream where
  | strand | link | logit | event
  deriving DecidableEq, Repr

/-- The stream of an instruction. -/
def streamOf : Instr → Stream
  | .xsend .. | .xrecv .. | .xfwd .. | .xred .. | .xguard .. | .xopen .. | .xstep .. => .link
  | i => if (toRaw i).isSome then .strand else if (toLogit i).isSome then .logit else .event

/-- What the decoder of a stream reads from words. -/
def decodedIn (st : Stream) (ws : List Nat) : Option Instr :=
  match st with
  | .strand => (decodeStrand (ws.getD 0 0) (ws.getD 1 0) (ws.getD 2 0)).toOption
  | .link => (decodeLink (ws.getD 0 0) (ws.getD 1 0) (ws.getD 2 0)).toOption
  | .logit => (decodeLogit (ws.getD 0 0)).toOption
  | .event => none

end Sys2Proof.Claims

/-- Decode and encode agree (R59 to R65, R75): the words of every well-formed instruction of a stream, whatever words come after them,
decode to that instruction, with every operand at every value. -/
def Obligations.DecodeOfEncode : Prop :=
  ∀ (i : Instr) (after : List Nat), wellFormed i = true → streamOf i ≠ .event →
    decodedIn (streamOf i) (encode i ++ after) = some i

/-- Each word has one meaning (R75): words that a stream's decoder reads as an instruction are that instruction's own words, and the
instruction is well-formed and of that stream. -/
def Obligations.EncodeOfDecode : Prop :=
  ∀ (st : Stream) (w0 w1 w2 : Nat) (i : Instr), w0 < 2 ^ 32 → w1 < 2 ^ 32 → w2 < 2 ^ 32 → decodedIn st [w0, w1, w2] = some i →
    wellFormed i = true ∧ streamOf i = st ∧ encode i = [w0, w1, w2].take (encode i).length

/-- Every memory stays in its canonical form, whatever step is taken: scratchpads, instruction memories, HBM, side tables, plan areas,
saved contexts (log entry 3). -/
def Obligations.CanonicalMemory : Prop := ∀ s t : State, s.memWf = true → step s = .next t → t.memWf = true

/-- The memories of the machine after reset are canonical. -/
def Obligations.CanonicalAtReset : Prop := State.reset.memWf = true
end

