-- ==== Sys2Proof/Laws/Table.lean ====
section
/-!
SUPPORT. Laws of the sparse tables: what a table reads after a write, in every table, canonical or not.
-/
namespace Sys2Proof.Machine

/-- A key reads the value written last. -/
@[simp] theorem Tab.get_set_same {α : Type} (t : Tab α) (k : Nat) (v w : α) : Tab.get (Tab.set t k v) k w = v := by
  induction t with
  | nil => simp [Tab.set, Tab.get]
  | cons e r ih =>
    obtain ⟨i, x⟩ := e
    by_cases h : i = k
    · simp [Tab.set, Tab.get, h]
    · by_cases h' : k < i <;> simp [Tab.set, Tab.get, h, h', ih]

/-- Other keys read as before. -/
theorem Tab.get_set_other {α : Type} (t : Tab α) {j k : Nat} (v w : α) (hjk : j ≠ k) :
    Tab.get (Tab.set t k v) j w = Tab.get t j w := by
  have hkj : ¬ k = j := fun h => hjk h.symm
  induction t with
  | nil => simp [Tab.set, Tab.get, hkj]
  | cons e r ih =>
    obtain ⟨i, x⟩ := e
    by_cases h : i = k
    · subst h; simp [Tab.set, Tab.get, hkj]
    · by_cases h' : k < i <;> simp [Tab.set, Tab.get, h, h', hkj, ih]

/-- A read after a write, in one equation. -/
theorem Tab.get_set {α : Type} (t : Tab α) (j k : Nat) (v w : α) :
    Tab.get (Tab.set t k v) j w = if j = k then v else Tab.get t j w := by
  by_cases h : j = k
  · subst h; simp
  · simp [Tab.get_set_other t v w h, h]

/-- The later of two writes to a key stands alone. -/
@[simp] theorem Tab.set_set {α : Type} (t : Tab α) (k : Nat) (v w : α) : Tab.set (Tab.set t k v) k w = Tab.set t k w := by
  induction t with
  | nil => simp [Tab.set]
  | cons e r ih =>
    obtain ⟨i, x⟩ := e
    by_cases h : i = k
    · simp [Tab.set, h]
    · by_cases h' : k < i <;> simp [Tab.set, h, h', ih]

/-- A listed value after a write to its key. -/
@[simp] theorem Tab.find_set_same {α : Type} (t : Tab α) (k : Nat) (v : α) : Tab.find (Tab.set t k v) k = some v := by
  induction t with
  | nil => simp [Tab.set, Tab.find]
  | cons e r ih =>
    obtain ⟨i, x⟩ := e
    by_cases h : i = k
    · simp [Tab.set, Tab.find, h]
    · by_cases h' : k < i <;> simp [Tab.set, Tab.find, h, h', ih]

/-- Other keys list what they listed. -/
theorem Tab.find_set_other {α : Type} (t : Tab α) {j k : Nat} (v : α) (hjk : j ≠ k) :
    Tab.find (Tab.set t k v) j = Tab.find t j := by
  have hkj : ¬ k = j := fun h => hjk h.symm
  induction t with
  | nil => simp [Tab.set, Tab.find, hkj]
  | cons e r ih =>
    obtain ⟨i, x⟩ := e
    by_cases h : i = k
    · subst h; simp [Tab.set, Tab.find, hkj]
    · by_cases h' : k < i <;> simp [Tab.set, Tab.find, h, h', hkj, ih]

/-- A listed value is the value read. -/
theorem Tab.get_of_find {α : Type} {t : Tab α} {k : Nat} {v : α} (w : α) (h : Tab.find t k = some v) : Tab.get t k w = v := by
  induction t with
  | nil => simp [Tab.find] at h
  | cons e r ih =>
    obtain ⟨i, x⟩ := e
    by_cases hi : i = k
    · simp_all [Tab.find, Tab.get]
    · simp [Tab.find, hi] at h; simp [Tab.get, hi, ih h]

/-- An empty table reads the value that its reader names. -/
@[simp] theorem Tab.get_nil {α : Type} (k : Nat) (w : α) : Tab.get ([] : Tab α) k w = w := rfl
/-- An empty table lists nothing. -/
@[simp] theorem Tab.find_nil {α : Type} (k : Nat) : Tab.find ([] : Tab α) k = none := rfl

/-- Inserting adds the element and moves nothing away. -/
theorem insertBy_perm {α : Type} (le : α → α → Bool) (a : α) (l : List α) : (insertBy le a l).Perm (a :: l) := by
  induction l with
  | nil => simp [insertBy]
  | cons b r ih =>
    simp only [insertBy]
    split
    · exact .refl _
    · exact (ih.cons b).trans (.swap a b r)

/-- Sorting rearranges. -/
theorem sortBy_perm {α : Type} (le : α → α → Bool) (l : List α) : (sortBy le l).Perm l := by
  induction l with
  | nil => exact .refl _
  | cons a r ih => exact (insertBy_perm le a _).trans (ih.cons a)

/-- Inserting keeps a list in order. -/
theorem insertBy_sorted {α : Type} {le : α → α → Bool} (tr : ∀ a b c, le a b = true → le b c = true → le a c = true)
    (tot : ∀ a b, le a b = true ∨ le b a = true) (a : α) {l : List α} (h : l.Pairwise (fun x y => le x y = true)) :
    (insertBy le a l).Pairwise (fun x y => le x y = true) := by
  induction l with
  | nil => simp [insertBy]
  | cons b r ih =>
    obtain ⟨hb, hr⟩ := List.pairwise_cons.1 h
    simp only [insertBy]
    split
    next hab => exact List.pairwise_cons.2 ⟨fun x hx => (List.mem_cons.1 hx).elim (fun e => e ▸ hab) (fun m => tr _ _ _ hab (hb x m)), h⟩
    next hab =>
      refine List.pairwise_cons.2 ⟨fun x hx => ?_, ih hr⟩
      rcases List.mem_cons.1 ((insertBy_perm le a r).mem_iff.1 hx) with e | m
      · exact e ▸ (tot a b).resolve_left hab
      · exact hb x m

/-- A sorted list is in order. -/
theorem sortBy_sorted {α : Type} {le : α → α → Bool} (tr : ∀ a b c, le a b = true → le b c = true → le a c = true)
    (tot : ∀ a b, le a b = true ∨ le b a = true) (l : List α) : (sortBy le l).Pairwise (fun x y => le x y = true) := by
  induction l with
  | nil => exact .nil
  | cons a r ih => exact insertBy_sorted tr tot a ih

end Sys2Proof.Machine
end

