-- ==== Sys2Proof/Laws/State.lean ====
section
/-!
SUPPORT. Laws of the state's parts: for each named update, what each field reads after it, so that no proof unfolds a record update.
-/
namespace Sys2Proof.Machine

/-! Dies, cores, strands: a part reads what was written last; other parts read as before. -/

@[simp] theorem State.die_setDie (s : State) (d : Nat) (x : Die) : (s.setDie d x).die d = x := by
  simp [State.die, State.setDie]
theorem State.die_setDie_other (s : State) {e d : Nat} (x : Die) (h : e ≠ d) : (s.setDie d x).die e = s.die e := by
  simp [State.die, State.setDie, Tab.get_set_other _ _ _ h]
theorem State.die_setDie_if (s : State) (e d : Nat) (x : Die) : (s.setDie d x).die e = if e = d then x else s.die e := by
  simp [State.die, State.setDie, Tab.get_set]
@[simp] theorem State.setDie_setDie (s : State) (d : Nat) (x y : Die) : (s.setDie d x).setDie d y = s.setDie d y := by
  simp [State.setDie]
@[simp] theorem State.die_modDie (s : State) (d : Nat) (f : Die → Die) : (s.modDie d f).die d = f (s.die d) := by
  simp [State.modDie]
theorem State.die_modDie_other (s : State) {e d : Nat} (f : Die → Die) (h : e ≠ d) : (s.modDie d f).die e = s.die e := by
  simp [State.modDie, State.die_setDie_other _ _ h]
@[simp] theorem State.modDie_modDie (s : State) (d : Nat) (f g : Die → Die) :
    (s.modDie d f).modDie d g = s.modDie d (fun x => g (f x)) := by
  simp [State.modDie]
@[simp] theorem Die.core_setCore (x : Die) (c : Nat) (y : Core) : (x.setCore c y).core c = y := by
  simp [Die.core, Die.setCore]
theorem Die.core_setCore_other (x : Die) {e c : Nat} (y : Core) (h : e ≠ c) : (x.setCore c y).core e = x.core e := by
  simp [Die.core, Die.setCore, Tab.get_set_other _ _ _ h]
@[simp] theorem Die.setCore_setCore (x : Die) (c : Nat) (y z : Core) : (x.setCore c y).setCore c z = x.setCore c z := by
  simp [Die.setCore]
@[simp] theorem State.die_setCore (s : State) (d c : Nat) (y : Core) : (s.setCore d c y).die d = (s.die d).setCore c y := by
  simp [State.setCore]
theorem State.die_setCore_other (s : State) {e d : Nat} (c : Nat) (y : Core) (h : e ≠ d) : (s.setCore d c y).die e = s.die e := by
  simp [State.setCore, State.die_setDie_other _ _ h]
@[simp] theorem State.core_setCore (s : State) (d c : Nat) (y : Core) : (s.setCore d c y).core d c = y := by
  simp [State.core]
theorem State.core_setCore_other (s : State) {d c e f : Nat} (y : Core) (h : (e, f) ≠ (d, c)) :
    (s.setCore d c y).core e f = s.core e f := by
  by_cases hd : e = d
  · subst hd
    have hc : f ≠ c := fun hc => h (by rw [hc])
    simp [State.core, Die.core_setCore_other _ _ hc]
  · simp [State.core, State.die_setCore_other _ _ _ hd]
@[simp] theorem State.setCore_setCore (s : State) (d c : Nat) (y z : Core) : (s.setCore d c y).setCore d c z = s.setCore d c z := by
  simp [State.setCore]
@[simp] theorem State.core_modCore (s : State) (d c : Nat) (f : Core → Core) : (s.modCore d c f).core d c = f (s.core d c) := by
  simp [State.modCore]
@[simp] theorem State.modCore_modCore (s : State) (d c : Nat) (f g : Core → Core) :
    (s.modCore d c f).modCore d c g = s.modCore d c (fun y => g (f y)) := by
  simp [State.modCore]
@[simp] theorem Core.strand_setStrand (y : Core) (k : Nat) (z : Strand) : (y.setStrand k z).strand k = z := by
  simp [Core.strand, Core.setStrand]
theorem Core.strand_setStrand_other (y : Core) {j k : Nat} (z : Strand) (h : j ≠ k) :
    (y.setStrand k z).strand j = y.strand j := by
  simp [Core.strand, Core.setStrand, Tab.get_set_other _ _ _ h]
@[simp] theorem Core.setStrand_setStrand (y : Core) (k : Nat) (z w : Strand) :
    (y.setStrand k z).setStrand k w = y.setStrand k w := by
  simp [Core.setStrand]
@[simp] theorem State.core_setStrand (s : State) (p : At) (z : Strand) :
    (s.setStrand p z).core p.d p.c = (s.core p.d p.c).setStrand p.k z := by
  simp [State.setStrand]
@[simp] theorem State.strand_setStrand (s : State) (p : At) (z : Strand) : (s.setStrand p z).strand p = z := by
  simp [State.strand]
@[simp] theorem State.setStrand_setStrand (s : State) (p : At) (z w : Strand) :
    (s.setStrand p z).setStrand p w = s.setStrand p w := by
  simp [State.setStrand]
@[simp] theorem State.core_modStrand (s : State) (p : At) (f : Strand → Strand) :
    (s.modStrand p f).core p.d p.c = (s.core p.d p.c).setStrand p.k (f (s.strand p)) := by
  simp [State.modStrand]
@[simp] theorem State.strand_modStrand (s : State) (p : At) (f : Strand → Strand) : (s.modStrand p f).strand p = f (s.strand p) := by
  simp [State.modStrand]
@[simp] theorem State.modStrand_modStrand (s : State) (p : At) (f g : Strand → Strand) :
    (s.modStrand p f).modStrand p g = s.modStrand p (fun z => g (f z)) := by
  simp [State.modStrand]
@[simp] theorem State.now_setCore (s : State) (e d c : Nat) (y : Core) : (s.setCore d c y).now e = s.now e := by
  by_cases h : e = d
  · subst h; simp [State.now, Die.setCore]
  · simp [State.now, State.die_setCore_other _ _ _ h]
@[simp] theorem State.cyc_setCore (s : State) (e f d c : Nat) (y : Core) : (s.setCore d c y).cyc e f = s.cyc e f := by
  by_cases h : e = d
  · subst h; simp [State.cyc, Die.cycle, Die.setCore]
  · simp [State.cyc, State.die_setCore_other _ _ _ h]
@[simp] theorem State.cyc_modCore (s : State) (e g d c : Nat) (f : Core → Core) : (s.modCore d c f).cyc e g = s.cyc e g := by
  simp [State.modCore]
@[simp] theorem State.cyc_modStrand (s : State) (e g : Nat) (p : At) (f : Strand → Strand) : (s.modStrand p f).cyc e g = s.cyc e g := by
  simp [State.modStrand, State.setStrand]
@[simp] theorem State.now_modCore (s : State) (e d c : Nat) (f : Core → Core) : (s.modCore d c f).now e = s.now e := by
  simp [State.modCore]
@[simp] theorem State.now_modStrand (s : State) (e : Nat) (p : At) (f : Strand → Strand) : (s.modStrand p f).now e = s.now e := by
  simp [State.modStrand, State.setStrand]

/-! What no change of a die touches. -/

@[simp] theorem State.setDie_pod (s : State) (d : Nat) (x : Die) : (s.setDie d x).pod = s.pod := rfl
@[simp] theorem State.setDie_formed (s : State) (d : Nat) (x : Die) : (s.setDie d x).formed = s.formed := rfl
@[simp] theorem State.setDie_launched (s : State) (d : Nat) (x : Die) : (s.setDie d x).launched = s.launched := rfl
@[simp] theorem State.setDie_flits (s : State) (d : Nat) (x : Die) : (s.setDie d x).flits = s.flits := rfl
@[simp] theorem State.setDie_opens (s : State) (d : Nat) (x : Die) : (s.setDie d x).opens = s.opens := rfl
@[simp] theorem State.setDie_brandMsgs (s : State) (d : Nat) (x : Die) : (s.setDie d x).brandMsgs = s.brandMsgs := rfl
@[simp] theorem State.setDie_agenda (s : State) (d : Nat) (x : Die) : (s.setDie d x).agenda = s.agenda := rfl
@[simp] theorem State.setDie_actor (s : State) (d : Nat) (x : Die) : (s.setDie d x).actor = s.actor := rfl
@[simp] theorem State.setDie_freeCount (s : State) (d : Nat) (x : Die) : (s.setDie d x).freeCount = s.freeCount := rfl
@[simp] theorem State.setDie_steps (s : State) (d : Nat) (x : Die) : (s.setDie d x).steps = s.steps := rfl
@[simp] theorem State.modDie_pod (s : State) (d : Nat) (f : Die → Die) : (s.modDie d f).pod = s.pod := rfl
@[simp] theorem State.modDie_formed (s : State) (d : Nat) (f : Die → Die) : (s.modDie d f).formed = s.formed := rfl
@[simp] theorem State.modDie_launched (s : State) (d : Nat) (f : Die → Die) : (s.modDie d f).launched = s.launched := rfl
@[simp] theorem State.modDie_flits (s : State) (d : Nat) (f : Die → Die) : (s.modDie d f).flits = s.flits := rfl
@[simp] theorem State.modDie_opens (s : State) (d : Nat) (f : Die → Die) : (s.modDie d f).opens = s.opens := rfl
@[simp] theorem State.modDie_brandMsgs (s : State) (d : Nat) (f : Die → Die) : (s.modDie d f).brandMsgs = s.brandMsgs := rfl
@[simp] theorem State.modDie_agenda (s : State) (d : Nat) (f : Die → Die) : (s.modDie d f).agenda = s.agenda := rfl
@[simp] theorem State.modDie_actor (s : State) (d : Nat) (f : Die → Die) : (s.modDie d f).actor = s.actor := rfl
@[simp] theorem State.modDie_freeCount (s : State) (d : Nat) (f : Die → Die) : (s.modDie d f).freeCount = s.freeCount := rfl
@[simp] theorem State.modDie_steps (s : State) (d : Nat) (f : Die → Die) : (s.modDie d f).steps = s.steps := rfl
@[simp] theorem State.setCore_pod (s : State) (d c : Nat) (y : Core) : (s.setCore d c y).pod = s.pod := rfl
@[simp] theorem State.setCore_formed (s : State) (d c : Nat) (y : Core) : (s.setCore d c y).formed = s.formed := rfl
@[simp] theorem State.setCore_launched (s : State) (d c : Nat) (y : Core) : (s.setCore d c y).launched = s.launched := rfl
@[simp] theorem State.setCore_flits (s : State) (d c : Nat) (y : Core) : (s.setCore d c y).flits = s.flits := rfl
@[simp] theorem State.setCore_opens (s : State) (d c : Nat) (y : Core) : (s.setCore d c y).opens = s.opens := rfl
@[simp] theorem State.setCore_brandMsgs (s : State) (d c : Nat) (y : Core) : (s.setCore d c y).brandMsgs = s.brandMsgs := rfl
@[simp] theorem State.setCore_agenda (s : State) (d c : Nat) (y : Core) : (s.setCore d c y).agenda = s.agenda := rfl
@[simp] theorem State.setCore_actor (s : State) (d c : Nat) (y : Core) : (s.setCore d c y).actor = s.actor := rfl
@[simp] theorem State.setCore_freeCount (s : State) (d c : Nat) (y : Core) : (s.setCore d c y).freeCount = s.freeCount := rfl
@[simp] theorem State.setCore_steps (s : State) (d c : Nat) (y : Core) : (s.setCore d c y).steps = s.steps := rfl
@[simp] theorem State.modCore_pod (s : State) (d c : Nat) (f : Core → Core) : (s.modCore d c f).pod = s.pod := rfl
@[simp] theorem State.modCore_formed (s : State) (d c : Nat) (f : Core → Core) : (s.modCore d c f).formed = s.formed := rfl
@[simp] theorem State.modCore_launched (s : State) (d c : Nat) (f : Core → Core) : (s.modCore d c f).launched = s.launched := rfl
@[simp] theorem State.modCore_flits (s : State) (d c : Nat) (f : Core → Core) : (s.modCore d c f).flits = s.flits := rfl
@[simp] theorem State.modCore_opens (s : State) (d c : Nat) (f : Core → Core) : (s.modCore d c f).opens = s.opens := rfl
@[simp] theorem State.modCore_brandMsgs (s : State) (d c : Nat) (f : Core → Core) : (s.modCore d c f).brandMsgs = s.brandMsgs := rfl
@[simp] theorem State.modCore_agenda (s : State) (d c : Nat) (f : Core → Core) : (s.modCore d c f).agenda = s.agenda := rfl
@[simp] theorem State.modCore_actor (s : State) (d c : Nat) (f : Core → Core) : (s.modCore d c f).actor = s.actor := rfl
@[simp] theorem State.modCore_freeCount (s : State) (d c : Nat) (f : Core → Core) : (s.modCore d c f).freeCount = s.freeCount := rfl
@[simp] theorem State.modCore_steps (s : State) (d c : Nat) (f : Core → Core) : (s.modCore d c f).steps = s.steps := rfl
@[simp] theorem State.setStrand_pod (s : State) (p : At) (z : Strand) : (s.setStrand p z).pod = s.pod := rfl
@[simp] theorem State.setStrand_formed (s : State) (p : At) (z : Strand) : (s.setStrand p z).formed = s.formed := rfl
@[simp] theorem State.setStrand_launched (s : State) (p : At) (z : Strand) : (s.setStrand p z).launched = s.launched := rfl
@[simp] theorem State.setStrand_flits (s : State) (p : At) (z : Strand) : (s.setStrand p z).flits = s.flits := rfl
@[simp] theorem State.setStrand_opens (s : State) (p : At) (z : Strand) : (s.setStrand p z).opens = s.opens := rfl
@[simp] theorem State.setStrand_brandMsgs (s : State) (p : At) (z : Strand) : (s.setStrand p z).brandMsgs = s.brandMsgs := rfl
@[simp] theorem State.setStrand_agenda (s : State) (p : At) (z : Strand) : (s.setStrand p z).agenda = s.agenda := rfl
@[simp] theorem State.setStrand_actor (s : State) (p : At) (z : Strand) : (s.setStrand p z).actor = s.actor := rfl
@[simp] theorem State.setStrand_freeCount (s : State) (p : At) (z : Strand) : (s.setStrand p z).freeCount = s.freeCount := rfl
@[simp] theorem State.setStrand_steps (s : State) (p : At) (z : Strand) : (s.setStrand p z).steps = s.steps := rfl
@[simp] theorem State.modStrand_pod (s : State) (p : At) (f : Strand → Strand) : (s.modStrand p f).pod = s.pod := rfl
@[simp] theorem State.modStrand_formed (s : State) (p : At) (f : Strand → Strand) : (s.modStrand p f).formed = s.formed := rfl
@[simp] theorem State.modStrand_launched (s : State) (p : At) (f : Strand → Strand) : (s.modStrand p f).launched = s.launched := rfl
@[simp] theorem State.modStrand_flits (s : State) (p : At) (f : Strand → Strand) : (s.modStrand p f).flits = s.flits := rfl
@[simp] theorem State.modStrand_opens (s : State) (p : At) (f : Strand → Strand) : (s.modStrand p f).opens = s.opens := rfl
@[simp] theorem State.modStrand_brandMsgs (s : State) (p : At) (f : Strand → Strand) : (s.modStrand p f).brandMsgs = s.brandMsgs := rfl
@[simp] theorem State.modStrand_agenda (s : State) (p : At) (f : Strand → Strand) : (s.modStrand p f).agenda = s.agenda := rfl
@[simp] theorem State.modStrand_actor (s : State) (p : At) (f : Strand → Strand) : (s.modStrand p f).actor = s.actor := rfl
@[simp] theorem State.modStrand_freeCount (s : State) (p : At) (f : Strand → Strand) : (s.modStrand p f).freeCount = s.freeCount := rfl
@[simp] theorem State.modStrand_steps (s : State) (p : At) (f : Strand → Strand) : (s.modStrand p f).steps = s.steps := rfl
@[simp] theorem State.setGang_pod (s : State) (d n : Nat) (g : Gang) : (s.setGang d n g).pod = s.pod := rfl
@[simp] theorem State.setGang_formed (s : State) (d n : Nat) (g : Gang) : (s.setGang d n g).formed = s.formed := rfl
@[simp] theorem State.setGang_launched (s : State) (d n : Nat) (g : Gang) : (s.setGang d n g).launched = s.launched := rfl
@[simp] theorem State.setGang_flits (s : State) (d n : Nat) (g : Gang) : (s.setGang d n g).flits = s.flits := rfl
@[simp] theorem State.setGang_opens (s : State) (d n : Nat) (g : Gang) : (s.setGang d n g).opens = s.opens := rfl
@[simp] theorem State.setGang_brandMsgs (s : State) (d n : Nat) (g : Gang) : (s.setGang d n g).brandMsgs = s.brandMsgs := rfl
@[simp] theorem State.setGang_agenda (s : State) (d n : Nat) (g : Gang) : (s.setGang d n g).agenda = s.agenda := rfl
@[simp] theorem State.setGang_actor (s : State) (d n : Nat) (g : Gang) : (s.setGang d n g).actor = s.actor := rfl
@[simp] theorem State.setGang_freeCount (s : State) (d n : Nat) (g : Gang) : (s.setGang d n g).freeCount = s.freeCount := rfl
@[simp] theorem State.setGang_steps (s : State) (d n : Nat) (g : Gang) : (s.setGang d n g).steps = s.steps := rfl
@[simp] theorem State.setTenant_pod (s : State) (d n : Nat) (x : Tenant) : (s.setTenant d n x).pod = s.pod := rfl
@[simp] theorem State.setTenant_formed (s : State) (d n : Nat) (x : Tenant) : (s.setTenant d n x).formed = s.formed := rfl
@[simp] theorem State.setTenant_launched (s : State) (d n : Nat) (x : Tenant) : (s.setTenant d n x).launched = s.launched := rfl
@[simp] theorem State.setTenant_flits (s : State) (d n : Nat) (x : Tenant) : (s.setTenant d n x).flits = s.flits := rfl
@[simp] theorem State.setTenant_opens (s : State) (d n : Nat) (x : Tenant) : (s.setTenant d n x).opens = s.opens := rfl
@[simp] theorem State.setTenant_brandMsgs (s : State) (d n : Nat) (x : Tenant) : (s.setTenant d n x).brandMsgs = s.brandMsgs := rfl
@[simp] theorem State.setTenant_agenda (s : State) (d n : Nat) (x : Tenant) : (s.setTenant d n x).agenda = s.agenda := rfl
@[simp] theorem State.setTenant_actor (s : State) (d n : Nat) (x : Tenant) : (s.setTenant d n x).actor = s.actor := rfl
@[simp] theorem State.setTenant_freeCount (s : State) (d n : Nat) (x : Tenant) : (s.setTenant d n x).freeCount = s.freeCount := rfl
@[simp] theorem State.setTenant_steps (s : State) (d n : Nat) (x : Tenant) : (s.setTenant d n x).steps = s.steps := rfl
@[simp] theorem State.setPort_pod (s : State) (d n : Nat) (x : Port) : (s.setPort d n x).pod = s.pod := rfl
@[simp] theorem State.setPort_formed (s : State) (d n : Nat) (x : Port) : (s.setPort d n x).formed = s.formed := rfl
@[simp] theorem State.setPort_launched (s : State) (d n : Nat) (x : Port) : (s.setPort d n x).launched = s.launched := rfl
@[simp] theorem State.setPort_flits (s : State) (d n : Nat) (x : Port) : (s.setPort d n x).flits = s.flits := rfl
@[simp] theorem State.setPort_opens (s : State) (d n : Nat) (x : Port) : (s.setPort d n x).opens = s.opens := rfl
@[simp] theorem State.setPort_brandMsgs (s : State) (d n : Nat) (x : Port) : (s.setPort d n x).brandMsgs = s.brandMsgs := rfl
@[simp] theorem State.setPort_agenda (s : State) (d n : Nat) (x : Port) : (s.setPort d n x).agenda = s.agenda := rfl
@[simp] theorem State.setPort_actor (s : State) (d n : Nat) (x : Port) : (s.setPort d n x).actor = s.actor := rfl
@[simp] theorem State.setPort_freeCount (s : State) (d n : Nat) (x : Port) : (s.setPort d n x).freeCount = s.freeCount := rfl
@[simp] theorem State.setPort_steps (s : State) (d n : Nat) (x : Port) : (s.setPort d n x).steps = s.steps := rfl
@[simp] theorem State.setBrand_pod (s : State) (d n : Nat) (b : Brand) : (s.setBrand d n b).pod = s.pod := rfl
@[simp] theorem State.setBrand_formed (s : State) (d n : Nat) (b : Brand) : (s.setBrand d n b).formed = s.formed := rfl
@[simp] theorem State.setBrand_launched (s : State) (d n : Nat) (b : Brand) : (s.setBrand d n b).launched = s.launched := rfl
@[simp] theorem State.setBrand_flits (s : State) (d n : Nat) (b : Brand) : (s.setBrand d n b).flits = s.flits := rfl
@[simp] theorem State.setBrand_opens (s : State) (d n : Nat) (b : Brand) : (s.setBrand d n b).opens = s.opens := rfl
@[simp] theorem State.setBrand_brandMsgs (s : State) (d n : Nat) (b : Brand) : (s.setBrand d n b).brandMsgs = s.brandMsgs := rfl
@[simp] theorem State.setBrand_agenda (s : State) (d n : Nat) (b : Brand) : (s.setBrand d n b).agenda = s.agenda := rfl
@[simp] theorem State.setBrand_actor (s : State) (d n : Nat) (b : Brand) : (s.setBrand d n b).actor = s.actor := rfl
@[simp] theorem State.setBrand_freeCount (s : State) (d n : Nat) (b : Brand) : (s.setBrand d n b).freeCount = s.freeCount := rfl
@[simp] theorem State.setBrand_steps (s : State) (d n : Nat) (b : Brand) : (s.setBrand d n b).steps = s.steps := rfl
@[simp] theorem State.setSched_pod (s : State) (d n : Nat) (x : SchedEntry) : (s.setSched d n x).pod = s.pod := rfl
@[simp] theorem State.setSched_formed (s : State) (d n : Nat) (x : SchedEntry) : (s.setSched d n x).formed = s.formed := rfl
@[simp] theorem State.setSched_launched (s : State) (d n : Nat) (x : SchedEntry) : (s.setSched d n x).launched = s.launched := rfl
@[simp] theorem State.setSched_flits (s : State) (d n : Nat) (x : SchedEntry) : (s.setSched d n x).flits = s.flits := rfl
@[simp] theorem State.setSched_opens (s : State) (d n : Nat) (x : SchedEntry) : (s.setSched d n x).opens = s.opens := rfl
@[simp] theorem State.setSched_brandMsgs (s : State) (d n : Nat) (x : SchedEntry) : (s.setSched d n x).brandMsgs = s.brandMsgs := rfl
@[simp] theorem State.setSched_agenda (s : State) (d n : Nat) (x : SchedEntry) : (s.setSched d n x).agenda = s.agenda := rfl
@[simp] theorem State.setSched_actor (s : State) (d n : Nat) (x : SchedEntry) : (s.setSched d n x).actor = s.actor := rfl
@[simp] theorem State.setSched_freeCount (s : State) (d n : Nat) (x : SchedEntry) : (s.setSched d n x).freeCount = s.freeCount := rfl
@[simp] theorem State.setSched_steps (s : State) (d n : Nat) (x : SchedEntry) : (s.setSched d n x).steps = s.steps := rfl
@[simp] theorem State.setClamp_pod (s : State) (d n : Nat) (x : Clamp) : (s.setClamp d n x).pod = s.pod := rfl
@[simp] theorem State.setClamp_formed (s : State) (d n : Nat) (x : Clamp) : (s.setClamp d n x).formed = s.formed := rfl
@[simp] theorem State.setClamp_launched (s : State) (d n : Nat) (x : Clamp) : (s.setClamp d n x).launched = s.launched := rfl
@[simp] theorem State.setClamp_flits (s : State) (d n : Nat) (x : Clamp) : (s.setClamp d n x).flits = s.flits := rfl
@[simp] theorem State.setClamp_opens (s : State) (d n : Nat) (x : Clamp) : (s.setClamp d n x).opens = s.opens := rfl
@[simp] theorem State.setClamp_brandMsgs (s : State) (d n : Nat) (x : Clamp) : (s.setClamp d n x).brandMsgs = s.brandMsgs := rfl
@[simp] theorem State.setClamp_agenda (s : State) (d n : Nat) (x : Clamp) : (s.setClamp d n x).agenda = s.agenda := rfl
@[simp] theorem State.setClamp_actor (s : State) (d n : Nat) (x : Clamp) : (s.setClamp d n x).actor = s.actor := rfl
@[simp] theorem State.setClamp_freeCount (s : State) (d n : Nat) (x : Clamp) : (s.setClamp d n x).freeCount = s.freeCount := rfl
@[simp] theorem State.setClamp_steps (s : State) (d n : Nat) (x : Clamp) : (s.setClamp d n x).steps = s.steps := rfl
@[simp] theorem State.setReg_pod (s : State) (p : At) (r : Reg) (v : Word) : (s.setReg p r v).pod = s.pod := rfl
@[simp] theorem State.setReg_formed (s : State) (p : At) (r : Reg) (v : Word) : (s.setReg p r v).formed = s.formed := rfl
@[simp] theorem State.setReg_launched (s : State) (p : At) (r : Reg) (v : Word) : (s.setReg p r v).launched = s.launched := rfl
@[simp] theorem State.setReg_flits (s : State) (p : At) (r : Reg) (v : Word) : (s.setReg p r v).flits = s.flits := rfl
@[simp] theorem State.setReg_opens (s : State) (p : At) (r : Reg) (v : Word) : (s.setReg p r v).opens = s.opens := rfl
@[simp] theorem State.setReg_brandMsgs (s : State) (p : At) (r : Reg) (v : Word) : (s.setReg p r v).brandMsgs = s.brandMsgs := rfl
@[simp] theorem State.setReg_agenda (s : State) (p : At) (r : Reg) (v : Word) : (s.setReg p r v).agenda = s.agenda := rfl
@[simp] theorem State.setReg_actor (s : State) (p : At) (r : Reg) (v : Word) : (s.setReg p r v).actor = s.actor := rfl
@[simp] theorem State.setReg_freeCount (s : State) (p : At) (r : Reg) (v : Word) : (s.setReg p r v).freeCount = s.freeCount := rfl
@[simp] theorem State.setReg_steps (s : State) (p : At) (r : Reg) (v : Word) : (s.setReg p r v).steps = s.steps := rfl
@[simp] theorem State.orStatus_pod (s : State) (p : At) (v : Status) : (s.orStatus p v).pod = s.pod := rfl
@[simp] theorem State.orStatus_formed (s : State) (p : At) (v : Status) : (s.orStatus p v).formed = s.formed := rfl
@[simp] theorem State.orStatus_launched (s : State) (p : At) (v : Status) : (s.orStatus p v).launched = s.launched := rfl
@[simp] theorem State.orStatus_flits (s : State) (p : At) (v : Status) : (s.orStatus p v).flits = s.flits := rfl
@[simp] theorem State.orStatus_opens (s : State) (p : At) (v : Status) : (s.orStatus p v).opens = s.opens := rfl
@[simp] theorem State.orStatus_brandMsgs (s : State) (p : At) (v : Status) : (s.orStatus p v).brandMsgs = s.brandMsgs := rfl
@[simp] theorem State.orStatus_agenda (s : State) (p : At) (v : Status) : (s.orStatus p v).agenda = s.agenda := rfl
@[simp] theorem State.orStatus_actor (s : State) (p : At) (v : Status) : (s.orStatus p v).actor = s.actor := rfl
@[simp] theorem State.orStatus_freeCount (s : State) (p : At) (v : Status) : (s.orStatus p v).freeCount = s.freeCount := rfl
@[simp] theorem State.orStatus_steps (s : State) (p : At) (v : Status) : (s.orStatus p v).steps = s.steps := rfl
@[simp] theorem State.drawn_dies (s : State) : (s.drawn).dies = s.dies := rfl
@[simp] theorem State.drawn_pod (s : State) : (s.drawn).pod = s.pod := rfl
@[simp] theorem State.drawn_formed (s : State) : (s.drawn).formed = s.formed := rfl
@[simp] theorem State.drawn_launched (s : State) : (s.drawn).launched = s.launched := rfl
@[simp] theorem State.drawn_flits (s : State) : (s.drawn).flits = s.flits := rfl
@[simp] theorem State.drawn_opens (s : State) : (s.drawn).opens = s.opens := rfl
@[simp] theorem State.drawn_brandMsgs (s : State) : (s.drawn).brandMsgs = s.brandMsgs := rfl
@[simp] theorem State.drawn_agenda (s : State) : (s.drawn).agenda = s.agenda := rfl
@[simp] theorem State.drawn_actor (s : State) : (s.drawn).actor = s.actor := rfl
@[simp] theorem State.drawn_steps (s : State) : (s.drawn).steps = s.steps := rfl

/-! Dies: what a change of a core or of a brand entry leaves. -/

@[simp] theorem Die.setCore_tick (x : Die) (c : Nat) (y : Core) : (x.setCore c y).tick = x.tick := rfl
@[simp] theorem Die.setCore_delay (x : Die) (c : Nat) (y : Core) : (x.setCore c y).delay = x.delay := rfl
@[simp] theorem Die.setCore_slewLeft (x : Die) (c : Nat) (y : Core) : (x.setCore c y).slewLeft = x.slewLeft := rfl
@[simp] theorem Die.setCore_slewNext (x : Die) (c : Nat) (y : Core) : (x.setCore c y).slewNext = x.slewNext := rfl
@[simp] theorem Die.setCore_withhold (x : Die) (c : Nat) (y : Core) : (x.setCore c y).withhold = x.withhold := rfl
@[simp] theorem Die.setCore_clamps (x : Die) (c : Nat) (y : Core) : (x.setCore c y).clamps = x.clamps := rfl
@[simp] theorem Die.setCore_hbm (x : Die) (c : Nat) (y : Core) : (x.setCore c y).hbm = x.hbm := rfl
@[simp] theorem Die.setCore_sideBase (x : Die) (c : Nat) (y : Core) : (x.setCore c y).sideBase = x.sideBase := rfl
@[simp] theorem Die.setCore_stackBusy (x : Die) (c : Nat) (y : Core) : (x.setCore c y).stackBusy = x.stackBusy := rfl
@[simp] theorem Die.setCore_asks (x : Die) (c : Nat) (y : Core) : (x.setCore c y).asks = x.asks := rfl
@[simp] theorem Die.setCore_brands (x : Die) (c : Nat) (y : Core) : (x.setCore c y).brands = x.brands := rfl
@[simp] theorem Die.setCore_shares (x : Die) (c : Nat) (y : Core) : (x.setCore c y).shares = x.shares := rfl
@[simp] theorem Die.setCore_pledged (x : Die) (c : Nat) (y : Core) : (x.setCore c y).pledged = x.pledged := rfl
@[simp] theorem Die.setCore_sched (x : Die) (c : Nat) (y : Core) : (x.setCore c y).sched = x.sched := rfl
@[simp] theorem Die.setCore_gangs (x : Die) (c : Nat) (y : Core) : (x.setCore c y).gangs = x.gangs := rfl
@[simp] theorem Die.setCore_tenants (x : Die) (c : Nat) (y : Core) : (x.setCore c y).tenants = x.tenants := rfl
@[simp] theorem Die.setCore_ports (x : Die) (c : Nat) (y : Core) : (x.setCore c y).ports = x.ports := rfl
@[simp] theorem Die.setCore_slots (x : Die) (c : Nat) (y : Core) : (x.setCore c y).slots = x.slots := rfl
@[simp] theorem Die.setCore_job (x : Die) (c : Nat) (y : Core) : (x.setCore c y).job = x.job := rfl
@[simp] theorem Die.setCore_run (x : Die) (c : Nat) (y : Core) : (x.setCore c y).run = x.run := rfl
@[simp] theorem Die.setCore_fetches (x : Die) (c : Nat) (y : Core) : (x.setCore c y).fetches = x.fetches := rfl
@[simp] theorem Die.setCore_fetchNext (x : Die) (c : Nat) (y : Core) : (x.setCore c y).fetchNext = x.fetchNext := rfl
@[simp] theorem Die.setCore_rsvs (x : Die) (c : Nat) (y : Core) : (x.setCore c y).rsvs = x.rsvs := rfl
@[simp] theorem Die.setCore_memTlb (x : Die) (c : Nat) (y : Core) : (x.setCore c y).memTlb = x.memTlb := rfl
@[simp] theorem Die.setCore_tlbis (x : Die) (c : Nat) (y : Core) : (x.setCore c y).tlbis = x.tlbis := rfl
@[simp] theorem Die.setCore_events (x : Die) (c : Nat) (y : Core) : (x.setCore c y).events = x.events := rfl
@[simp] theorem Die.setCore_errlog (x : Die) (c : Nat) (y : Core) : (x.setCore c y).errlog = x.errlog := rfl
@[simp] theorem Die.setCore_errSeq (x : Die) (c : Nat) (y : Core) : (x.setCore c y).errSeq = x.errSeq := rfl
@[simp] theorem Die.setCore_aborts (x : Die) (c : Nat) (y : Core) : (x.setCore c y).aborts = x.aborts := rfl
@[simp] theorem Die.setCore_abortIn (x : Die) (c : Nat) (y : Core) : (x.setCore c y).abortIn = x.abortIn := rfl
@[simp] theorem Die.setCore_abortBy (x : Die) (c : Nat) (y : Core) : (x.setCore c y).abortBy = x.abortBy := rfl
@[simp] theorem Die.setCore_injections (x : Die) (c : Nat) (y : Core) : (x.setCore c y).injections = x.injections := rfl
@[simp] theorem Die.setCore_islands (x : Die) (c : Nat) (y : Core) : (x.setCore c y).islands = x.islands := rfl
@[simp] theorem Die.setCore_demand (x : Die) (c : Nat) (y : Core) : (x.setCore c y).demand = x.demand := rfl
@[simp] theorem Die.setCore_islandHalt (x : Die) (c : Nat) (y : Core) : (x.setCore c y).islandHalt = x.islandHalt := rfl
@[simp] theorem Die.setCore_lag (x : Die) (c : Nat) (y : Core) : (x.setCore c y).lag = x.lag := rfl
@[simp] theorem Die.setCore_stepEnd (x : Die) (c : Nat) (y : Core) : (x.setCore c y).stepEnd = x.stepEnd := rfl
@[simp] theorem Die.setCore_intakes (x : Die) (c : Nat) (y : Core) : (x.setCore c y).intakes = x.intakes := rfl
@[simp] theorem Die.setCore_kept (x : Die) (c : Nat) (y : Core) : (x.setCore c y).kept = x.kept := rfl
@[simp] theorem Die.setCore_batches (x : Die) (c : Nat) (y : Core) : (x.setCore c y).batches = x.batches := rfl
@[simp] theorem Die.setCore_colls (x : Die) (c : Nat) (y : Core) : (x.setCore c y).colls = x.colls := rfl
@[simp] theorem Die.setCore_replies (x : Die) (c : Nat) (y : Core) : (x.setCore c y).replies = x.replies := rfl
@[simp] theorem Die.setCore_inReset (x : Die) (c : Nat) (y : Core) : (x.setCore c y).inReset = x.inReset := rfl
@[simp] theorem Die.setCore_dead (x : Die) (c : Nat) (y : Core) : (x.setCore c y).dead = x.dead := rfl
@[simp] theorem Die.setCore_fwVersion (x : Die) (c : Nat) (y : Core) : (x.setCore c y).fwVersion = x.fwVersion := rfl
@[simp] theorem Die.setCore_fwDigests (x : Die) (c : Nat) (y : Core) : (x.setCore c y).fwDigests = x.fwDigests := rfl
@[simp] theorem Die.setCore_fused (x : Die) (c : Nat) (y : Core) : (x.setCore c y).fused = x.fused := rfl
@[simp] theorem Die.setBrand_tick (x : Die) (i : Nat) (b : Brand) : (x.setBrand i b).tick = x.tick := rfl
@[simp] theorem Die.setBrand_delay (x : Die) (i : Nat) (b : Brand) : (x.setBrand i b).delay = x.delay := rfl
@[simp] theorem Die.setBrand_slewLeft (x : Die) (i : Nat) (b : Brand) : (x.setBrand i b).slewLeft = x.slewLeft := rfl
@[simp] theorem Die.setBrand_slewNext (x : Die) (i : Nat) (b : Brand) : (x.setBrand i b).slewNext = x.slewNext := rfl
@[simp] theorem Die.setBrand_withhold (x : Die) (i : Nat) (b : Brand) : (x.setBrand i b).withhold = x.withhold := rfl
@[simp] theorem Die.setBrand_cores (x : Die) (i : Nat) (b : Brand) : (x.setBrand i b).cores = x.cores := rfl
@[simp] theorem Die.setBrand_clamps (x : Die) (i : Nat) (b : Brand) : (x.setBrand i b).clamps = x.clamps := rfl
@[simp] theorem Die.setBrand_hbm (x : Die) (i : Nat) (b : Brand) : (x.setBrand i b).hbm = x.hbm := rfl
@[simp] theorem Die.setBrand_sideBase (x : Die) (i : Nat) (b : Brand) : (x.setBrand i b).sideBase = x.sideBase := rfl
@[simp] theorem Die.setBrand_stackBusy (x : Die) (i : Nat) (b : Brand) : (x.setBrand i b).stackBusy = x.stackBusy := rfl
@[simp] theorem Die.setBrand_asks (x : Die) (i : Nat) (b : Brand) : (x.setBrand i b).asks = x.asks := rfl
@[simp] theorem Die.setBrand_shares (x : Die) (i : Nat) (b : Brand) : (x.setBrand i b).shares = x.shares := rfl
@[simp] theorem Die.setBrand_pledged (x : Die) (i : Nat) (b : Brand) : (x.setBrand i b).pledged = x.pledged := rfl
@[simp] theorem Die.setBrand_sched (x : Die) (i : Nat) (b : Brand) : (x.setBrand i b).sched = x.sched := rfl
@[simp] theorem Die.setBrand_gangs (x : Die) (i : Nat) (b : Brand) : (x.setBrand i b).gangs = x.gangs := rfl
@[simp] theorem Die.setBrand_tenants (x : Die) (i : Nat) (b : Brand) : (x.setBrand i b).tenants = x.tenants := rfl
@[simp] theorem Die.setBrand_ports (x : Die) (i : Nat) (b : Brand) : (x.setBrand i b).ports = x.ports := rfl
@[simp] theorem Die.setBrand_slots (x : Die) (i : Nat) (b : Brand) : (x.setBrand i b).slots = x.slots := rfl
@[simp] theorem Die.setBrand_job (x : Die) (i : Nat) (b : Brand) : (x.setBrand i b).job = x.job := rfl
@[simp] theorem Die.setBrand_run (x : Die) (i : Nat) (b : Brand) : (x.setBrand i b).run = x.run := rfl
@[simp] theorem Die.setBrand_fetches (x : Die) (i : Nat) (b : Brand) : (x.setBrand i b).fetches = x.fetches := rfl
@[simp] theorem Die.setBrand_fetchNext (x : Die) (i : Nat) (b : Brand) : (x.setBrand i b).fetchNext = x.fetchNext := rfl
@[simp] theorem Die.setBrand_rsvs (x : Die) (i : Nat) (b : Brand) : (x.setBrand i b).rsvs = x.rsvs := rfl
@[simp] theorem Die.setBrand_memTlb (x : Die) (i : Nat) (b : Brand) : (x.setBrand i b).memTlb = x.memTlb := rfl
@[simp] theorem Die.setBrand_tlbis (x : Die) (i : Nat) (b : Brand) : (x.setBrand i b).tlbis = x.tlbis := rfl
@[simp] theorem Die.setBrand_events (x : Die) (i : Nat) (b : Brand) : (x.setBrand i b).events = x.events := rfl
@[simp] theorem Die.setBrand_errlog (x : Die) (i : Nat) (b : Brand) : (x.setBrand i b).errlog = x.errlog := rfl
@[simp] theorem Die.setBrand_errSeq (x : Die) (i : Nat) (b : Brand) : (x.setBrand i b).errSeq = x.errSeq := rfl
@[simp] theorem Die.setBrand_aborts (x : Die) (i : Nat) (b : Brand) : (x.setBrand i b).aborts = x.aborts := rfl
@[simp] theorem Die.setBrand_abortIn (x : Die) (i : Nat) (b : Brand) : (x.setBrand i b).abortIn = x.abortIn := rfl
@[simp] theorem Die.setBrand_abortBy (x : Die) (i : Nat) (b : Brand) : (x.setBrand i b).abortBy = x.abortBy := rfl
@[simp] theorem Die.setBrand_injections (x : Die) (i : Nat) (b : Brand) : (x.setBrand i b).injections = x.injections := rfl
@[simp] theorem Die.setBrand_islands (x : Die) (i : Nat) (b : Brand) : (x.setBrand i b).islands = x.islands := rfl
@[simp] theorem Die.setBrand_demand (x : Die) (i : Nat) (b : Brand) : (x.setBrand i b).demand = x.demand := rfl
@[simp] theorem Die.setBrand_islandHalt (x : Die) (i : Nat) (b : Brand) : (x.setBrand i b).islandHalt = x.islandHalt := rfl
@[simp] theorem Die.setBrand_lag (x : Die) (i : Nat) (b : Brand) : (x.setBrand i b).lag = x.lag := rfl
@[simp] theorem Die.setBrand_stepEnd (x : Die) (i : Nat) (b : Brand) : (x.setBrand i b).stepEnd = x.stepEnd := rfl
@[simp] theorem Die.setBrand_intakes (x : Die) (i : Nat) (b : Brand) : (x.setBrand i b).intakes = x.intakes := rfl
@[simp] theorem Die.setBrand_kept (x : Die) (i : Nat) (b : Brand) : (x.setBrand i b).kept = x.kept := rfl
@[simp] theorem Die.setBrand_batches (x : Die) (i : Nat) (b : Brand) : (x.setBrand i b).batches = x.batches := rfl
@[simp] theorem Die.setBrand_colls (x : Die) (i : Nat) (b : Brand) : (x.setBrand i b).colls = x.colls := rfl
@[simp] theorem Die.setBrand_replies (x : Die) (i : Nat) (b : Brand) : (x.setBrand i b).replies = x.replies := rfl
@[simp] theorem Die.setBrand_inReset (x : Die) (i : Nat) (b : Brand) : (x.setBrand i b).inReset = x.inReset := rfl
@[simp] theorem Die.setBrand_dead (x : Die) (i : Nat) (b : Brand) : (x.setBrand i b).dead = x.dead := rfl
@[simp] theorem Die.setBrand_fwVersion (x : Die) (i : Nat) (b : Brand) : (x.setBrand i b).fwVersion = x.fwVersion := rfl
@[simp] theorem Die.setBrand_fwDigests (x : Die) (i : Nat) (b : Brand) : (x.setBrand i b).fwDigests = x.fwDigests := rfl
@[simp] theorem Die.setBrand_fused (x : Die) (i : Nat) (b : Brand) : (x.setBrand i b).fused = x.fused := rfl
@[simp] theorem Die.brand_setBrand (x : Die) (i : Nat) (b : Brand) : (x.setBrand i b).brand i = b := by
  simp [Die.brand, Die.setBrand]
@[simp] theorem Die.brand_setCore (x : Die) (c i : Nat) (y : Core) : (x.setCore c y).brand i = x.brand i := rfl
@[simp] theorem Die.clamp_setCore (x : Die) (c i : Nat) (y : Core) : (x.setCore c y).clamp i = x.clamp i := rfl
@[simp] theorem State.gang_setGang (s : State) (d n : Nat) (g : Gang) : (s.setGang d n g).gang d n = some g := by
  simp [State.gang, State.setGang]
@[simp] theorem State.tenant_setTenant (s : State) (d n : Nat) (x : Tenant) : (s.setTenant d n x).tenant d n = some x := by
  simp [State.tenant, State.setTenant]
@[simp] theorem State.port_setPort (s : State) (d n : Nat) (x : Port) : (s.setPort d n x).port d n = x := by
  simp [State.port, State.setPort]
@[simp] theorem State.sched_setSched (s : State) (d n : Nat) (x : SchedEntry) : (s.setSched d n x).sched d n = x := by
  simp [State.sched, State.setSched]
@[simp] theorem State.brand_setBrand (s : State) (d n : Nat) (b : Brand) : (s.setBrand d n b).brand d n = b := by
  simp [State.brand, State.setBrand]
@[simp] theorem State.clamp_setClamp (s : State) (d n : Nat) (x : Clamp) : (s.setClamp d n x).clamp d n = x := by
  simp [State.clamp, State.setClamp, Die.clamp]

/-! Cores: what a change of a strand, of a vector, of a channel or of the scratchpad leaves. -/

@[simp] theorem Core.setStrand_spad (y : Core) (k : Nat) (z : Strand) : (y.setStrand k z).spad = y.spad := rfl
@[simp] theorem Core.setStrand_imem (y : Core) (k : Nat) (z : Strand) : (y.setStrand k z).imem = y.imem := rfl
@[simp] theorem Core.setStrand_pages (y : Core) (k : Nat) (z : Strand) : (y.setStrand k z).pages = y.pages := rfl
@[simp] theorem Core.setStrand_vregs (y : Core) (k : Nat) (z : Strand) : (y.setStrand k z).vregs = y.vregs := rfl
@[simp] theorem Core.setStrand_preds (y : Core) (k : Nat) (z : Strand) : (y.setStrand k z).preds = y.preds := rfl
@[simp] theorem Core.setStrand_opq (y : Core) (k : Nat) (z : Strand) : (y.setStrand k z).opq = y.opq := rfl
@[simp] theorem Core.setStrand_stq (y : Core) (k : Nat) (z : Strand) : (y.setStrand k z).stq = y.stq := rfl
@[simp] theorem Core.setStrand_sparks (y : Core) (k : Nat) (z : Strand) : (y.setStrand k z).sparks = y.sparks := rfl
@[simp] theorem Core.setStrand_held (y : Core) (k : Nat) (z : Strand) : (y.setStrand k z).held = y.held := rfl
@[simp] theorem Core.setStrand_fmtq (y : Core) (k : Nat) (z : Strand) : (y.setStrand k z).fmtq = y.fmtq := rfl
@[simp] theorem Core.setStrand_copyQ (y : Core) (k : Nat) (z : Strand) : (y.setStrand k z).copyQ = y.copyQ := rfl
@[simp] theorem Core.setStrand_matrixQ (y : Core) (k : Nat) (z : Strand) : (y.setStrand k z).matrixQ = y.matrixQ := rfl
@[simp] theorem Core.setStrand_collQ (y : Core) (k : Nat) (z : Strand) : (y.setStrand k z).collQ = y.collQ := rfl
@[simp] theorem Core.setStrand_samplerQ (y : Core) (k : Nat) (z : Strand) : (y.setStrand k z).samplerQ = y.samplerQ := rfl
@[simp] theorem Core.setStrand_brandQ (y : Core) (k : Nat) (z : Strand) : (y.setStrand k z).brandQ = y.brandQ := rfl
@[simp] theorem Core.setStrand_drainQ (y : Core) (k : Nat) (z : Strand) : (y.setStrand k z).drainQ = y.drainQ := rfl
@[simp] theorem Core.setStrand_otherQ (y : Core) (k : Nat) (z : Strand) : (y.setStrand k z).otherQ = y.otherQ := rfl
@[simp] theorem Core.setStrand_nextCmd (y : Core) (k : Nat) (z : Strand) : (y.setStrand k z).nextCmd = y.nextCmd := rfl
@[simp] theorem Core.setStrand_crcR (y : Core) (k : Nat) (z : Strand) : (y.setStrand k z).crcR = y.crcR := rfl
@[simp] theorem Core.setStrand_crcW (y : Core) (k : Nat) (z : Strand) : (y.setStrand k z).crcW = y.crcW := rfl
@[simp] theorem Core.setStrand_crcValid (y : Core) (k : Nat) (z : Strand) : (y.setStrand k z).crcValid = y.crcValid := rfl
@[simp] theorem Core.setStrand_acc (y : Core) (k : Nat) (z : Strand) : (y.setStrand k z).acc = y.acc := rfl
@[simp] theorem Core.setStrand_mism (y : Core) (k : Nat) (z : Strand) : (y.setStrand k z).mism = y.mism := rfl
@[simp] theorem Core.setStrand_voids (y : Core) (k : Nat) (z : Strand) : (y.setStrand k z).voids = y.voids := rfl
@[simp] theorem Core.setStrand_firstRow (y : Core) (k : Nat) (z : Strand) : (y.setStrand k z).firstRow = y.firstRow := rfl
@[simp] theorem Core.setStrand_leaseReq (y : Core) (k : Nat) (z : Strand) : (y.setStrand k z).leaseReq = y.leaseReq := rfl
@[simp] theorem Core.setStrand_records (y : Core) (k : Nat) (z : Strand) : (y.setStrand k z).records = y.records := rfl
@[simp] theorem Core.setStrand_tlb (y : Core) (k : Nat) (z : Strand) : (y.setStrand k z).tlb = y.tlb := rfl
@[simp] theorem Core.setStrand_window (y : Core) (k : Nat) (z : Strand) : (y.setStrand k z).window = y.window := rfl
@[simp] theorem Core.setStrand_lookups (y : Core) (k : Nat) (z : Strand) : (y.setStrand k z).lookups = y.lookups := rfl
@[simp] theorem Core.setStrand_nrecvs (y : Core) (k : Nat) (z : Strand) : (y.setStrand k z).nrecvs = y.nrecvs := rfl
@[simp] theorem Core.setStrand_arriving (y : Core) (k : Nat) (z : Strand) : (y.setStrand k z).arriving = y.arriving := rfl
@[simp] theorem Core.setStrand_vstores (y : Core) (k : Nat) (z : Strand) : (y.setStrand k z).vstores = y.vstores := rfl
@[simp] theorem Core.setStrand_lastVec (y : Core) (k : Nat) (z : Strand) : (y.setStrand k z).lastVec = y.lastVec := rfl
@[simp] theorem Core.setStrand_vfree (y : Core) (k : Nat) (z : Strand) : (y.setStrand k z).vfree = y.vfree := rfl
@[simp] theorem Core.setStrand_unitAt (y : Core) (k : Nat) (z : Strand) : (y.setStrand k z).unitAt = y.unitAt := rfl
@[simp] theorem Core.setStrand_vready (y : Core) (k : Nat) (z : Strand) : (y.setStrand k z).vready = y.vready := rfl
@[simp] theorem Core.setStrand_pready (y : Core) (k : Nat) (z : Strand) : (y.setStrand k z).pready = y.pready := rfl
@[simp] theorem Core.setStrand_popAt (y : Core) (k : Nat) (z : Strand) : (y.setStrand k z).popAt = y.popAt := rfl
@[simp] theorem Core.setStrand_retiring (y : Core) (k : Nat) (z : Strand) : (y.setStrand k z).retiring = y.retiring := rfl
@[simp] theorem Core.setStrand_issueFrom (y : Core) (k : Nat) (z : Strand) : (y.setStrand k z).issueFrom = y.issueFrom := rfl
@[simp] theorem Core.setStrand_cbarDone (y : Core) (k : Nat) (z : Strand) : (y.setStrand k z).cbarDone = y.cbarDone := rfl
@[simp] theorem Core.setStrand_ctx (y : Core) (k : Nat) (z : Strand) : (y.setStrand k z).ctx = y.ctx := rfl
@[simp] theorem Core.setStrand_was (y : Core) (k : Nat) (z : Strand) : (y.setStrand k z).was = y.was := rfl
@[simp] theorem Core.setStrand_retired (y : Core) (k : Nat) (z : Strand) : (y.setStrand k z).retired = y.retired := rfl
@[simp] theorem Core.setVreg_spad (y : Core) (n : Nat) (v : List W32) : (y.setVreg n v).spad = y.spad := rfl
@[simp] theorem Core.setVreg_imem (y : Core) (n : Nat) (v : List W32) : (y.setVreg n v).imem = y.imem := rfl
@[simp] theorem Core.setVreg_pages (y : Core) (n : Nat) (v : List W32) : (y.setVreg n v).pages = y.pages := rfl
@[simp] theorem Core.setVreg_preds (y : Core) (n : Nat) (v : List W32) : (y.setVreg n v).preds = y.preds := rfl
@[simp] theorem Core.setVreg_strands (y : Core) (n : Nat) (v : List W32) : (y.setVreg n v).strands = y.strands := rfl
@[simp] theorem Core.setVreg_opq (y : Core) (n : Nat) (v : List W32) : (y.setVreg n v).opq = y.opq := rfl
@[simp] theorem Core.setVreg_stq (y : Core) (n : Nat) (v : List W32) : (y.setVreg n v).stq = y.stq := rfl
@[simp] theorem Core.setVreg_sparks (y : Core) (n : Nat) (v : List W32) : (y.setVreg n v).sparks = y.sparks := rfl
@[simp] theorem Core.setVreg_held (y : Core) (n : Nat) (v : List W32) : (y.setVreg n v).held = y.held := rfl
@[simp] theorem Core.setVreg_fmtq (y : Core) (n : Nat) (v : List W32) : (y.setVreg n v).fmtq = y.fmtq := rfl
@[simp] theorem Core.setVreg_copyQ (y : Core) (n : Nat) (v : List W32) : (y.setVreg n v).copyQ = y.copyQ := rfl
@[simp] theorem Core.setVreg_matrixQ (y : Core) (n : Nat) (v : List W32) : (y.setVreg n v).matrixQ = y.matrixQ := rfl
@[simp] theorem Core.setVreg_collQ (y : Core) (n : Nat) (v : List W32) : (y.setVreg n v).collQ = y.collQ := rfl
@[simp] theorem Core.setVreg_samplerQ (y : Core) (n : Nat) (v : List W32) : (y.setVreg n v).samplerQ = y.samplerQ := rfl
@[simp] theorem Core.setVreg_brandQ (y : Core) (n : Nat) (v : List W32) : (y.setVreg n v).brandQ = y.brandQ := rfl
@[simp] theorem Core.setVreg_drainQ (y : Core) (n : Nat) (v : List W32) : (y.setVreg n v).drainQ = y.drainQ := rfl
@[simp] theorem Core.setVreg_otherQ (y : Core) (n : Nat) (v : List W32) : (y.setVreg n v).otherQ = y.otherQ := rfl
@[simp] theorem Core.setVreg_nextCmd (y : Core) (n : Nat) (v : List W32) : (y.setVreg n v).nextCmd = y.nextCmd := rfl
@[simp] theorem Core.setVreg_crcR (y : Core) (n : Nat) (v : List W32) : (y.setVreg n v).crcR = y.crcR := rfl
@[simp] theorem Core.setVreg_crcW (y : Core) (n : Nat) (v : List W32) : (y.setVreg n v).crcW = y.crcW := rfl
@[simp] theorem Core.setVreg_crcValid (y : Core) (n : Nat) (v : List W32) : (y.setVreg n v).crcValid = y.crcValid := rfl
@[simp] theorem Core.setVreg_acc (y : Core) (n : Nat) (v : List W32) : (y.setVreg n v).acc = y.acc := rfl
@[simp] theorem Core.setVreg_mism (y : Core) (n : Nat) (v : List W32) : (y.setVreg n v).mism = y.mism := rfl
@[simp] theorem Core.setVreg_voids (y : Core) (n : Nat) (v : List W32) : (y.setVreg n v).voids = y.voids := rfl
@[simp] theorem Core.setVreg_firstRow (y : Core) (n : Nat) (v : List W32) : (y.setVreg n v).firstRow = y.firstRow := rfl
@[simp] theorem Core.setVreg_leaseReq (y : Core) (n : Nat) (v : List W32) : (y.setVreg n v).leaseReq = y.leaseReq := rfl
@[simp] theorem Core.setVreg_records (y : Core) (n : Nat) (v : List W32) : (y.setVreg n v).records = y.records := rfl
@[simp] theorem Core.setVreg_tlb (y : Core) (n : Nat) (v : List W32) : (y.setVreg n v).tlb = y.tlb := rfl
@[simp] theorem Core.setVreg_window (y : Core) (n : Nat) (v : List W32) : (y.setVreg n v).window = y.window := rfl
@[simp] theorem Core.setVreg_lookups (y : Core) (n : Nat) (v : List W32) : (y.setVreg n v).lookups = y.lookups := rfl
@[simp] theorem Core.setVreg_nrecvs (y : Core) (n : Nat) (v : List W32) : (y.setVreg n v).nrecvs = y.nrecvs := rfl
@[simp] theorem Core.setVreg_arriving (y : Core) (n : Nat) (v : List W32) : (y.setVreg n v).arriving = y.arriving := rfl
@[simp] theorem Core.setVreg_vstores (y : Core) (n : Nat) (v : List W32) : (y.setVreg n v).vstores = y.vstores := rfl
@[simp] theorem Core.setVreg_lastVec (y : Core) (n : Nat) (v : List W32) : (y.setVreg n v).lastVec = y.lastVec := rfl
@[simp] theorem Core.setVreg_vfree (y : Core) (n : Nat) (v : List W32) : (y.setVreg n v).vfree = y.vfree := rfl
@[simp] theorem Core.setVreg_unitAt (y : Core) (n : Nat) (v : List W32) : (y.setVreg n v).unitAt = y.unitAt := rfl
@[simp] theorem Core.setVreg_vready (y : Core) (n : Nat) (v : List W32) : (y.setVreg n v).vready = y.vready := rfl
@[simp] theorem Core.setVreg_pready (y : Core) (n : Nat) (v : List W32) : (y.setVreg n v).pready = y.pready := rfl
@[simp] theorem Core.setVreg_popAt (y : Core) (n : Nat) (v : List W32) : (y.setVreg n v).popAt = y.popAt := rfl
@[simp] theorem Core.setVreg_retiring (y : Core) (n : Nat) (v : List W32) : (y.setVreg n v).retiring = y.retiring := rfl
@[simp] theorem Core.setVreg_issueFrom (y : Core) (n : Nat) (v : List W32) : (y.setVreg n v).issueFrom = y.issueFrom := rfl
@[simp] theorem Core.setVreg_cbarDone (y : Core) (n : Nat) (v : List W32) : (y.setVreg n v).cbarDone = y.cbarDone := rfl
@[simp] theorem Core.setVreg_ctx (y : Core) (n : Nat) (v : List W32) : (y.setVreg n v).ctx = y.ctx := rfl
@[simp] theorem Core.setVreg_was (y : Core) (n : Nat) (v : List W32) : (y.setVreg n v).was = y.was := rfl
@[simp] theorem Core.setVreg_retired (y : Core) (n : Nat) (v : List W32) : (y.setVreg n v).retired = y.retired := rfl
@[simp] theorem Core.setSpark_spad (y : Core) (ch n : Nat) : (y.setSpark ch n).spad = y.spad := rfl
@[simp] theorem Core.setSpark_imem (y : Core) (ch n : Nat) : (y.setSpark ch n).imem = y.imem := rfl
@[simp] theorem Core.setSpark_pages (y : Core) (ch n : Nat) : (y.setSpark ch n).pages = y.pages := rfl
@[simp] theorem Core.setSpark_vregs (y : Core) (ch n : Nat) : (y.setSpark ch n).vregs = y.vregs := rfl
@[simp] theorem Core.setSpark_preds (y : Core) (ch n : Nat) : (y.setSpark ch n).preds = y.preds := rfl
@[simp] theorem Core.setSpark_strands (y : Core) (ch n : Nat) : (y.setSpark ch n).strands = y.strands := rfl
@[simp] theorem Core.setSpark_opq (y : Core) (ch n : Nat) : (y.setSpark ch n).opq = y.opq := rfl
@[simp] theorem Core.setSpark_stq (y : Core) (ch n : Nat) : (y.setSpark ch n).stq = y.stq := rfl
@[simp] theorem Core.setSpark_held (y : Core) (ch n : Nat) : (y.setSpark ch n).held = y.held := rfl
@[simp] theorem Core.setSpark_fmtq (y : Core) (ch n : Nat) : (y.setSpark ch n).fmtq = y.fmtq := rfl
@[simp] theorem Core.setSpark_copyQ (y : Core) (ch n : Nat) : (y.setSpark ch n).copyQ = y.copyQ := rfl
@[simp] theorem Core.setSpark_matrixQ (y : Core) (ch n : Nat) : (y.setSpark ch n).matrixQ = y.matrixQ := rfl
@[simp] theorem Core.setSpark_collQ (y : Core) (ch n : Nat) : (y.setSpark ch n).collQ = y.collQ := rfl
@[simp] theorem Core.setSpark_samplerQ (y : Core) (ch n : Nat) : (y.setSpark ch n).samplerQ = y.samplerQ := rfl
@[simp] theorem Core.setSpark_brandQ (y : Core) (ch n : Nat) : (y.setSpark ch n).brandQ = y.brandQ := rfl
@[simp] theorem Core.setSpark_drainQ (y : Core) (ch n : Nat) : (y.setSpark ch n).drainQ = y.drainQ := rfl
@[simp] theorem Core.setSpark_otherQ (y : Core) (ch n : Nat) : (y.setSpark ch n).otherQ = y.otherQ := rfl
@[simp] theorem Core.setSpark_nextCmd (y : Core) (ch n : Nat) : (y.setSpark ch n).nextCmd = y.nextCmd := rfl
@[simp] theorem Core.setSpark_crcR (y : Core) (ch n : Nat) : (y.setSpark ch n).crcR = y.crcR := rfl
@[simp] theorem Core.setSpark_crcW (y : Core) (ch n : Nat) : (y.setSpark ch n).crcW = y.crcW := rfl
@[simp] theorem Core.setSpark_crcValid (y : Core) (ch n : Nat) : (y.setSpark ch n).crcValid = y.crcValid := rfl
@[simp] theorem Core.setSpark_acc (y : Core) (ch n : Nat) : (y.setSpark ch n).acc = y.acc := rfl
@[simp] theorem Core.setSpark_mism (y : Core) (ch n : Nat) : (y.setSpark ch n).mism = y.mism := rfl
@[simp] theorem Core.setSpark_voids (y : Core) (ch n : Nat) : (y.setSpark ch n).voids = y.voids := rfl
@[simp] theorem Core.setSpark_firstRow (y : Core) (ch n : Nat) : (y.setSpark ch n).firstRow = y.firstRow := rfl
@[simp] theorem Core.setSpark_leaseReq (y : Core) (ch n : Nat) : (y.setSpark ch n).leaseReq = y.leaseReq := rfl
@[simp] theorem Core.setSpark_records (y : Core) (ch n : Nat) : (y.setSpark ch n).records = y.records := rfl
@[simp] theorem Core.setSpark_tlb (y : Core) (ch n : Nat) : (y.setSpark ch n).tlb = y.tlb := rfl
@[simp] theorem Core.setSpark_window (y : Core) (ch n : Nat) : (y.setSpark ch n).window = y.window := rfl
@[simp] theorem Core.setSpark_lookups (y : Core) (ch n : Nat) : (y.setSpark ch n).lookups = y.lookups := rfl
@[simp] theorem Core.setSpark_nrecvs (y : Core) (ch n : Nat) : (y.setSpark ch n).nrecvs = y.nrecvs := rfl
@[simp] theorem Core.setSpark_arriving (y : Core) (ch n : Nat) : (y.setSpark ch n).arriving = y.arriving := rfl
@[simp] theorem Core.setSpark_vstores (y : Core) (ch n : Nat) : (y.setSpark ch n).vstores = y.vstores := rfl
@[simp] theorem Core.setSpark_lastVec (y : Core) (ch n : Nat) : (y.setSpark ch n).lastVec = y.lastVec := rfl
@[simp] theorem Core.setSpark_vfree (y : Core) (ch n : Nat) : (y.setSpark ch n).vfree = y.vfree := rfl
@[simp] theorem Core.setSpark_unitAt (y : Core) (ch n : Nat) : (y.setSpark ch n).unitAt = y.unitAt := rfl
@[simp] theorem Core.setSpark_vready (y : Core) (ch n : Nat) : (y.setSpark ch n).vready = y.vready := rfl
@[simp] theorem Core.setSpark_pready (y : Core) (ch n : Nat) : (y.setSpark ch n).pready = y.pready := rfl
@[simp] theorem Core.setSpark_popAt (y : Core) (ch n : Nat) : (y.setSpark ch n).popAt = y.popAt := rfl
@[simp] theorem Core.setSpark_retiring (y : Core) (ch n : Nat) : (y.setSpark ch n).retiring = y.retiring := rfl
@[simp] theorem Core.setSpark_issueFrom (y : Core) (ch n : Nat) : (y.setSpark ch n).issueFrom = y.issueFrom := rfl
@[simp] theorem Core.setSpark_cbarDone (y : Core) (ch n : Nat) : (y.setSpark ch n).cbarDone = y.cbarDone := rfl
@[simp] theorem Core.setSpark_ctx (y : Core) (ch n : Nat) : (y.setSpark ch n).ctx = y.ctx := rfl
@[simp] theorem Core.setSpark_was (y : Core) (ch n : Nat) : (y.setSpark ch n).was = y.was := rfl
@[simp] theorem Core.setSpark_retired (y : Core) (ch n : Nat) : (y.setSpark ch n).retired = y.retired := rfl
@[simp] theorem Core.setPred_spad (y : Core) (n : Nat) (v : BitVec 1024) : (y.setPred n v).spad = y.spad := by unfold Core.setPred; split <;> rfl
@[simp] theorem Core.setPred_imem (y : Core) (n : Nat) (v : BitVec 1024) : (y.setPred n v).imem = y.imem := by unfold Core.setPred; split <;> rfl
@[simp] theorem Core.setPred_pages (y : Core) (n : Nat) (v : BitVec 1024) : (y.setPred n v).pages = y.pages := by unfold Core.setPred; split <;> rfl
@[simp] theorem Core.setPred_vregs (y : Core) (n : Nat) (v : BitVec 1024) : (y.setPred n v).vregs = y.vregs := by unfold Core.setPred; split <;> rfl
@[simp] theorem Core.setPred_strands (y : Core) (n : Nat) (v : BitVec 1024) : (y.setPred n v).strands = y.strands := by unfold Core.setPred; split <;> rfl
@[simp] theorem Core.setPred_opq (y : Core) (n : Nat) (v : BitVec 1024) : (y.setPred n v).opq = y.opq := by unfold Core.setPred; split <;> rfl
@[simp] theorem Core.setPred_stq (y : Core) (n : Nat) (v : BitVec 1024) : (y.setPred n v).stq = y.stq := by unfold Core.setPred; split <;> rfl
@[simp] theorem Core.setPred_sparks (y : Core) (n : Nat) (v : BitVec 1024) : (y.setPred n v).sparks = y.sparks := by unfold Core.setPred; split <;> rfl
@[simp] theorem Core.setPred_held (y : Core) (n : Nat) (v : BitVec 1024) : (y.setPred n v).held = y.held := by unfold Core.setPred; split <;> rfl
@[simp] theorem Core.setPred_fmtq (y : Core) (n : Nat) (v : BitVec 1024) : (y.setPred n v).fmtq = y.fmtq := by unfold Core.setPred; split <;> rfl
@[simp] theorem Core.setPred_copyQ (y : Core) (n : Nat) (v : BitVec 1024) : (y.setPred n v).copyQ = y.copyQ := by unfold Core.setPred; split <;> rfl
@[simp] theorem Core.setPred_matrixQ (y : Core) (n : Nat) (v : BitVec 1024) : (y.setPred n v).matrixQ = y.matrixQ := by unfold Core.setPred; split <;> rfl
@[simp] theorem Core.setPred_collQ (y : Core) (n : Nat) (v : BitVec 1024) : (y.setPred n v).collQ = y.collQ := by unfold Core.setPred; split <;> rfl
@[simp] theorem Core.setPred_samplerQ (y : Core) (n : Nat) (v : BitVec 1024) : (y.setPred n v).samplerQ = y.samplerQ := by unfold Core.setPred; split <;> rfl
@[simp] theorem Core.setPred_brandQ (y : Core) (n : Nat) (v : BitVec 1024) : (y.setPred n v).brandQ = y.brandQ := by unfold Core.setPred; split <;> rfl
@[simp] theorem Core.setPred_drainQ (y : Core) (n : Nat) (v : BitVec 1024) : (y.setPred n v).drainQ = y.drainQ := by unfold Core.setPred; split <;> rfl
@[simp] theorem Core.setPred_otherQ (y : Core) (n : Nat) (v : BitVec 1024) : (y.setPred n v).otherQ = y.otherQ := by unfold Core.setPred; split <;> rfl
@[simp] theorem Core.setPred_nextCmd (y : Core) (n : Nat) (v : BitVec 1024) : (y.setPred n v).nextCmd = y.nextCmd := by unfold Core.setPred; split <;> rfl
@[simp] theorem Core.setPred_crcR (y : Core) (n : Nat) (v : BitVec 1024) : (y.setPred n v).crcR = y.crcR := by unfold Core.setPred; split <;> rfl
@[simp] theorem Core.setPred_crcW (y : Core) (n : Nat) (v : BitVec 1024) : (y.setPred n v).crcW = y.crcW := by unfold Core.setPred; split <;> rfl
@[simp] theorem Core.setPred_crcValid (y : Core) (n : Nat) (v : BitVec 1024) : (y.setPred n v).crcValid = y.crcValid := by unfold Core.setPred; split <;> rfl
@[simp] theorem Core.setPred_acc (y : Core) (n : Nat) (v : BitVec 1024) : (y.setPred n v).acc = y.acc := by unfold Core.setPred; split <;> rfl
@[simp] theorem Core.setPred_mism (y : Core) (n : Nat) (v : BitVec 1024) : (y.setPred n v).mism = y.mism := by unfold Core.setPred; split <;> rfl
@[simp] theorem Core.setPred_voids (y : Core) (n : Nat) (v : BitVec 1024) : (y.setPred n v).voids = y.voids := by unfold Core.setPred; split <;> rfl
@[simp] theorem Core.setPred_firstRow (y : Core) (n : Nat) (v : BitVec 1024) : (y.setPred n v).firstRow = y.firstRow := by unfold Core.setPred; split <;> rfl
@[simp] theorem Core.setPred_leaseReq (y : Core) (n : Nat) (v : BitVec 1024) : (y.setPred n v).leaseReq = y.leaseReq := by unfold Core.setPred; split <;> rfl
@[simp] theorem Core.setPred_records (y : Core) (n : Nat) (v : BitVec 1024) : (y.setPred n v).records = y.records := by unfold Core.setPred; split <;> rfl
@[simp] theorem Core.setPred_tlb (y : Core) (n : Nat) (v : BitVec 1024) : (y.setPred n v).tlb = y.tlb := by unfold Core.setPred; split <;> rfl
@[simp] theorem Core.setPred_window (y : Core) (n : Nat) (v : BitVec 1024) : (y.setPred n v).window = y.window := by unfold Core.setPred; split <;> rfl
@[simp] theorem Core.setPred_lookups (y : Core) (n : Nat) (v : BitVec 1024) : (y.setPred n v).lookups = y.lookups := by unfold Core.setPred; split <;> rfl
@[simp] theorem Core.setPred_nrecvs (y : Core) (n : Nat) (v : BitVec 1024) : (y.setPred n v).nrecvs = y.nrecvs := by unfold Core.setPred; split <;> rfl
@[simp] theorem Core.setPred_arriving (y : Core) (n : Nat) (v : BitVec 1024) : (y.setPred n v).arriving = y.arriving := by unfold Core.setPred; split <;> rfl
@[simp] theorem Core.setPred_vstores (y : Core) (n : Nat) (v : BitVec 1024) : (y.setPred n v).vstores = y.vstores := by unfold Core.setPred; split <;> rfl
@[simp] theorem Core.setPred_lastVec (y : Core) (n : Nat) (v : BitVec 1024) : (y.setPred n v).lastVec = y.lastVec := by unfold Core.setPred; split <;> rfl
@[simp] theorem Core.setPred_vfree (y : Core) (n : Nat) (v : BitVec 1024) : (y.setPred n v).vfree = y.vfree := by unfold Core.setPred; split <;> rfl
@[simp] theorem Core.setPred_unitAt (y : Core) (n : Nat) (v : BitVec 1024) : (y.setPred n v).unitAt = y.unitAt := by unfold Core.setPred; split <;> rfl
@[simp] theorem Core.setPred_vready (y : Core) (n : Nat) (v : BitVec 1024) : (y.setPred n v).vready = y.vready := by unfold Core.setPred; split <;> rfl
@[simp] theorem Core.setPred_pready (y : Core) (n : Nat) (v : BitVec 1024) : (y.setPred n v).pready = y.pready := by unfold Core.setPred; split <;> rfl
@[simp] theorem Core.setPred_popAt (y : Core) (n : Nat) (v : BitVec 1024) : (y.setPred n v).popAt = y.popAt := by unfold Core.setPred; split <;> rfl
@[simp] theorem Core.setPred_retiring (y : Core) (n : Nat) (v : BitVec 1024) : (y.setPred n v).retiring = y.retiring := by unfold Core.setPred; split <;> rfl
@[simp] theorem Core.setPred_issueFrom (y : Core) (n : Nat) (v : BitVec 1024) : (y.setPred n v).issueFrom = y.issueFrom := by unfold Core.setPred; split <;> rfl
@[simp] theorem Core.setPred_cbarDone (y : Core) (n : Nat) (v : BitVec 1024) : (y.setPred n v).cbarDone = y.cbarDone := by unfold Core.setPred; split <;> rfl
@[simp] theorem Core.setPred_ctx (y : Core) (n : Nat) (v : BitVec 1024) : (y.setPred n v).ctx = y.ctx := by unfold Core.setPred; split <;> rfl
@[simp] theorem Core.setPred_was (y : Core) (n : Nat) (v : BitVec 1024) : (y.setPred n v).was = y.was := by unfold Core.setPred; split <;> rfl
@[simp] theorem Core.setPred_retired (y : Core) (n : Nat) (v : BitVec 1024) : (y.setPred n v).retired = y.retired := by unfold Core.setPred; split <;> rfl
@[simp] theorem Core.vreg_setVreg (y : Core) (n : Nat) (v : List W32) : (y.setVreg n v).vreg n = v := by
  simp [Core.vreg, Core.setVreg]
theorem Core.vreg_setVreg_other (y : Core) {m n : Nat} (v : List W32) (h : m ≠ n) : (y.setVreg n v).vreg m = y.vreg m := by
  simp [Core.vreg, Core.setVreg, Tab.get_set_other _ _ _ h]
theorem Core.pred_setPred (y : Core) (n : Nat) (v : BitVec 1024) (h : n ≠ 0) : (y.setPred n v).pred n = v := by
  simp [Core.pred, Core.setPred, h]
@[simp] theorem Core.spark_setSpark (y : Core) (ch n : Nat) : (y.setSpark ch n).spark ch = n := by
  simp [Core.spark, Core.setSpark]
@[simp] theorem Core.strand_setVreg (y : Core) (n k : Nat) (v : List W32) : (y.setVreg n v).strand k = y.strand k := rfl
@[simp] theorem Core.strand_setSpark (y : Core) (ch n k : Nat) : (y.setSpark ch n).strand k = y.strand k := rfl

/-! Strands. -/

@[simp] theorem Strand.setSReg_pc (z : Strand) (r : Reg) (v : SReg) : (z.setSReg r v).pc = z.pc := by unfold Strand.setSReg; split <;> rfl
@[simp] theorem Strand.setSReg_far (z : Strand) (r : Reg) (v : SReg) : (z.setSReg r v).far = z.far := by unfold Strand.setSReg; split <;> rfl
@[simp] theorem Strand.setSReg_args (z : Strand) (r : Reg) (v : SReg) : (z.setSReg r v).args = z.args := by unfold Strand.setSReg; split <;> rfl
@[simp] theorem Strand.setSReg_importTab (z : Strand) (r : Reg) (v : SReg) : (z.setSReg r v).importTab = z.importTab := by unfold Strand.setSReg; split <;> rfl
@[simp] theorem Strand.setSReg_flags (z : Strand) (r : Reg) (v : SReg) : (z.setSReg r v).flags = z.flags := by unfold Strand.setSReg; split <;> rfl
@[simp] theorem Strand.setSReg_cnt (z : Strand) (r : Reg) (v : SReg) : (z.setSReg r v).cnt = z.cnt := by unfold Strand.setSReg; split <;> rfl
@[simp] theorem Strand.setSReg_status (z : Strand) (r : Reg) (v : SReg) : (z.setSReg r v).status = z.status := by unfold Strand.setSReg; split <;> rfl
@[simp] theorem Strand.setSReg_vrot (z : Strand) (r : Reg) (v : SReg) : (z.setSReg r v).vrot = z.vrot := by unfold Strand.setSReg; split <;> rfl
@[simp] theorem Strand.setSReg_prot (z : Strand) (r : Reg) (v : SReg) : (z.setSReg r v).prot = z.prot := by unfold Strand.setSReg; split <;> rfl
@[simp] theorem Strand.setSReg_vbase (z : Strand) (r : Reg) (v : SReg) : (z.setSReg r v).vbase = z.vbase := by unfold Strand.setSReg; split <;> rfl
@[simp] theorem Strand.setSReg_vsize (z : Strand) (r : Reg) (v : SReg) : (z.setSReg r v).vsize = z.vsize := by unfold Strand.setSReg; split <;> rfl
@[simp] theorem Strand.setSReg_pbase (z : Strand) (r : Reg) (v : SReg) : (z.setSReg r v).pbase = z.pbase := by unfold Strand.setSReg; split <;> rfl
@[simp] theorem Strand.setSReg_trapvec (z : Strand) (r : Reg) (v : SReg) : (z.setSReg r v).trapvec = z.trapvec := by unfold Strand.setSReg; split <;> rfl
@[simp] theorem Strand.setSReg_trapcause (z : Strand) (r : Reg) (v : SReg) : (z.setSReg r v).trapcause = z.trapcause := by unfold Strand.setSReg; split <;> rfl
@[simp] theorem Strand.setSReg_trappc (z : Strand) (r : Reg) (v : SReg) : (z.setSReg r v).trappc = z.trappc := by unfold Strand.setSReg; split <;> rfl
@[simp] theorem Strand.setSReg_trapinfo (z : Strand) (r : Reg) (v : SReg) : (z.setSReg r v).trapinfo = z.trapinfo := by unfold Strand.setSReg; split <;> rfl
@[simp] theorem Strand.setSReg_trapsave (z : Strand) (r : Reg) (v : SReg) : (z.setSReg r v).trapsave = z.trapsave := by unfold Strand.setSReg; split <;> rfl
@[simp] theorem Strand.setSReg_steptick (z : Strand) (r : Reg) (v : SReg) : (z.setSReg r v).steptick = z.steptick := by unfold Strand.setSReg; split <;> rfl
@[simp] theorem Strand.setSReg_segCount (z : Strand) (r : Reg) (v : SReg) : (z.setSReg r v).segCount = z.segCount := by unfold Strand.setSReg; split <;> rfl
@[simp] theorem Strand.setSReg_segStart (z : Strand) (r : Reg) (v : SReg) : (z.setSReg r v).segStart = z.segStart := by unfold Strand.setSReg; split <;> rfl
@[simp] theorem Strand.setSReg_sig (z : Strand) (r : Reg) (v : SReg) : (z.setSReg r v).sig = z.sig := by unfold Strand.setSReg; split <;> rfl
@[simp] theorem Strand.setSReg_void (z : Strand) (r : Reg) (v : SReg) : (z.setSReg r v).void = z.void := by unfold Strand.setSReg; split <;> rfl
@[simp] theorem Strand.setSReg_vflags (z : Strand) (r : Reg) (v : SReg) : (z.setSReg r v).vflags = z.vflags := by unfold Strand.setSReg; split <;> rfl
@[simp] theorem Strand.setSReg_fwd (z : Strand) (r : Reg) (v : SReg) : (z.setSReg r v).fwd = z.fwd := by unfold Strand.setSReg; split <;> rfl
@[simp] theorem Strand.setSReg_wait (z : Strand) (r : Reg) (v : SReg) : (z.setSReg r v).wait = z.wait := by unfold Strand.setSReg; split <;> rfl
@[simp] theorem Strand.setSReg_stalled (z : Strand) (r : Reg) (v : SReg) : (z.setSReg r v).stalled = z.stalled := by unfold Strand.setSReg; split <;> rfl
@[simp] theorem Strand.setSReg_popWait (z : Strand) (r : Reg) (v : SReg) : (z.setSReg r v).popWait = z.popWait := by unfold Strand.setSReg; split <;> rfl
@[simp] theorem Strand.setSReg_granted (z : Strand) (r : Reg) (v : SReg) : (z.setSReg r v).granted = z.granted := by unfold Strand.setSReg; split <;> rfl
@[simp] theorem Strand.setSReg_await (z : Strand) (r : Reg) (v : SReg) : (z.setSReg r v).await = z.await := by unfold Strand.setSReg; split <;> rfl
@[simp] theorem Strand.setSReg_awaitFlags (z : Strand) (r : Reg) (v : SReg) : (z.setSReg r v).awaitFlags = z.awaitFlags := by unfold Strand.setSReg; split <;> rfl
@[simp] theorem Strand.setSReg_atomCount (z : Strand) (r : Reg) (v : SReg) : (z.setSReg r v).atomCount = z.atomCount := by unfold Strand.setSReg; split <;> rfl
@[simp] theorem Strand.setSReg_arrivedAtomic (z : Strand) (r : Reg) (v : SReg) : (z.setSReg r v).arrivedAtomic = z.arrivedAtomic := by unfold Strand.setSReg; split <;> rfl
@[simp] theorem Strand.setSReg_delays (z : Strand) (r : Reg) (v : SReg) : (z.setSReg r v).delays = z.delays := by unfold Strand.setSReg; split <;> rfl
@[simp] theorem Strand.setSReg_turn (z : Strand) (r : Reg) (v : SReg) : (z.setSReg r v).turn = z.turn := by unfold Strand.setSReg; split <;> rfl
@[simp] theorem Strand.setSReg_exited (z : Strand) (r : Reg) (v : SReg) : (z.setSReg r v).exited = z.exited := by unfold Strand.setSReg; split <;> rfl
@[simp] theorem Strand.setSReg_running (z : Strand) (r : Reg) (v : SReg) : (z.setSReg r v).running = z.running := by unfold Strand.setSReg; split <;> rfl
@[simp] theorem Strand.setReg_pc (z : Strand) (r : Reg) (v : Word) : (z.setReg r v).pc = z.pc := by simp [Strand.setReg]
@[simp] theorem Strand.setReg_far (z : Strand) (r : Reg) (v : Word) : (z.setReg r v).far = z.far := by simp [Strand.setReg]
@[simp] theorem Strand.setReg_args (z : Strand) (r : Reg) (v : Word) : (z.setReg r v).args = z.args := by simp [Strand.setReg]
@[simp] theorem Strand.setReg_importTab (z : Strand) (r : Reg) (v : Word) : (z.setReg r v).importTab = z.importTab := by simp [Strand.setReg]
@[simp] theorem Strand.setReg_flags (z : Strand) (r : Reg) (v : Word) : (z.setReg r v).flags = z.flags := by simp [Strand.setReg]
@[simp] theorem Strand.setReg_cnt (z : Strand) (r : Reg) (v : Word) : (z.setReg r v).cnt = z.cnt := by simp [Strand.setReg]
@[simp] theorem Strand.setReg_status (z : Strand) (r : Reg) (v : Word) : (z.setReg r v).status = z.status := by simp [Strand.setReg]
@[simp] theorem Strand.setReg_vrot (z : Strand) (r : Reg) (v : Word) : (z.setReg r v).vrot = z.vrot := by simp [Strand.setReg]
@[simp] theorem Strand.setReg_prot (z : Strand) (r : Reg) (v : Word) : (z.setReg r v).prot = z.prot := by simp [Strand.setReg]
@[simp] theorem Strand.setReg_vbase (z : Strand) (r : Reg) (v : Word) : (z.setReg r v).vbase = z.vbase := by simp [Strand.setReg]
@[simp] theorem Strand.setReg_vsize (z : Strand) (r : Reg) (v : Word) : (z.setReg r v).vsize = z.vsize := by simp [Strand.setReg]
@[simp] theorem Strand.setReg_pbase (z : Strand) (r : Reg) (v : Word) : (z.setReg r v).pbase = z.pbase := by simp [Strand.setReg]
@[simp] theorem Strand.setReg_trapvec (z : Strand) (r : Reg) (v : Word) : (z.setReg r v).trapvec = z.trapvec := by simp [Strand.setReg]
@[simp] theorem Strand.setReg_trapcause (z : Strand) (r : Reg) (v : Word) : (z.setReg r v).trapcause = z.trapcause := by simp [Strand.setReg]
@[simp] theorem Strand.setReg_trappc (z : Strand) (r : Reg) (v : Word) : (z.setReg r v).trappc = z.trappc := by simp [Strand.setReg]
@[simp] theorem Strand.setReg_trapinfo (z : Strand) (r : Reg) (v : Word) : (z.setReg r v).trapinfo = z.trapinfo := by simp [Strand.setReg]
@[simp] theorem Strand.setReg_trapsave (z : Strand) (r : Reg) (v : Word) : (z.setReg r v).trapsave = z.trapsave := by simp [Strand.setReg]
@[simp] theorem Strand.setReg_steptick (z : Strand) (r : Reg) (v : Word) : (z.setReg r v).steptick = z.steptick := by simp [Strand.setReg]
@[simp] theorem Strand.setReg_segCount (z : Strand) (r : Reg) (v : Word) : (z.setReg r v).segCount = z.segCount := by simp [Strand.setReg]
@[simp] theorem Strand.setReg_segStart (z : Strand) (r : Reg) (v : Word) : (z.setReg r v).segStart = z.segStart := by simp [Strand.setReg]
@[simp] theorem Strand.setReg_sig (z : Strand) (r : Reg) (v : Word) : (z.setReg r v).sig = z.sig := by simp [Strand.setReg]
@[simp] theorem Strand.setReg_void (z : Strand) (r : Reg) (v : Word) : (z.setReg r v).void = z.void := by simp [Strand.setReg]
@[simp] theorem Strand.setReg_vflags (z : Strand) (r : Reg) (v : Word) : (z.setReg r v).vflags = z.vflags := by simp [Strand.setReg]
@[simp] theorem Strand.setReg_fwd (z : Strand) (r : Reg) (v : Word) : (z.setReg r v).fwd = z.fwd := by simp [Strand.setReg]
@[simp] theorem Strand.setReg_wait (z : Strand) (r : Reg) (v : Word) : (z.setReg r v).wait = z.wait := by simp [Strand.setReg]
@[simp] theorem Strand.setReg_stalled (z : Strand) (r : Reg) (v : Word) : (z.setReg r v).stalled = z.stalled := by simp [Strand.setReg]
@[simp] theorem Strand.setReg_popWait (z : Strand) (r : Reg) (v : Word) : (z.setReg r v).popWait = z.popWait := by simp [Strand.setReg]
@[simp] theorem Strand.setReg_granted (z : Strand) (r : Reg) (v : Word) : (z.setReg r v).granted = z.granted := by simp [Strand.setReg]
@[simp] theorem Strand.setReg_await (z : Strand) (r : Reg) (v : Word) : (z.setReg r v).await = z.await := by simp [Strand.setReg]
@[simp] theorem Strand.setReg_awaitFlags (z : Strand) (r : Reg) (v : Word) : (z.setReg r v).awaitFlags = z.awaitFlags := by simp [Strand.setReg]
@[simp] theorem Strand.setReg_atomCount (z : Strand) (r : Reg) (v : Word) : (z.setReg r v).atomCount = z.atomCount := by simp [Strand.setReg]
@[simp] theorem Strand.setReg_arrivedAtomic (z : Strand) (r : Reg) (v : Word) : (z.setReg r v).arrivedAtomic = z.arrivedAtomic := by simp [Strand.setReg]
@[simp] theorem Strand.setReg_delays (z : Strand) (r : Reg) (v : Word) : (z.setReg r v).delays = z.delays := by simp [Strand.setReg]
@[simp] theorem Strand.setReg_turn (z : Strand) (r : Reg) (v : Word) : (z.setReg r v).turn = z.turn := by simp [Strand.setReg]
@[simp] theorem Strand.setReg_exited (z : Strand) (r : Reg) (v : Word) : (z.setReg r v).exited = z.exited := by simp [Strand.setReg]
@[simp] theorem Strand.setReg_running (z : Strand) (r : Reg) (v : Word) : (z.setReg r v).running = z.running := by simp [Strand.setReg]
@[simp] theorem Strand.goto_regs (z : Strand) (t : Int) : (z.goto t).regs = z.regs := rfl
@[simp] theorem Strand.goto_args (z : Strand) (t : Int) : (z.goto t).args = z.args := rfl
@[simp] theorem Strand.goto_importTab (z : Strand) (t : Int) : (z.goto t).importTab = z.importTab := rfl
@[simp] theorem Strand.goto_flags (z : Strand) (t : Int) : (z.goto t).flags = z.flags := rfl
@[simp] theorem Strand.goto_cnt (z : Strand) (t : Int) : (z.goto t).cnt = z.cnt := rfl
@[simp] theorem Strand.goto_status (z : Strand) (t : Int) : (z.goto t).status = z.status := rfl
@[simp] theorem Strand.goto_vrot (z : Strand) (t : Int) : (z.goto t).vrot = z.vrot := rfl
@[simp] theorem Strand.goto_prot (z : Strand) (t : Int) : (z.goto t).prot = z.prot := rfl
@[simp] theorem Strand.goto_vbase (z : Strand) (t : Int) : (z.goto t).vbase = z.vbase := rfl
@[simp] theorem Strand.goto_vsize (z : Strand) (t : Int) : (z.goto t).vsize = z.vsize := rfl
@[simp] theorem Strand.goto_pbase (z : Strand) (t : Int) : (z.goto t).pbase = z.pbase := rfl
@[simp] theorem Strand.goto_trapvec (z : Strand) (t : Int) : (z.goto t).trapvec = z.trapvec := rfl
@[simp] theorem Strand.goto_trapcause (z : Strand) (t : Int) : (z.goto t).trapcause = z.trapcause := rfl
@[simp] theorem Strand.goto_trappc (z : Strand) (t : Int) : (z.goto t).trappc = z.trappc := rfl
@[simp] theorem Strand.goto_trapinfo (z : Strand) (t : Int) : (z.goto t).trapinfo = z.trapinfo := rfl
@[simp] theorem Strand.goto_trapsave (z : Strand) (t : Int) : (z.goto t).trapsave = z.trapsave := rfl
@[simp] theorem Strand.goto_steptick (z : Strand) (t : Int) : (z.goto t).steptick = z.steptick := rfl
@[simp] theorem Strand.goto_segCount (z : Strand) (t : Int) : (z.goto t).segCount = z.segCount := rfl
@[simp] theorem Strand.goto_segStart (z : Strand) (t : Int) : (z.goto t).segStart = z.segStart := rfl
@[simp] theorem Strand.goto_sig (z : Strand) (t : Int) : (z.goto t).sig = z.sig := rfl
@[simp] theorem Strand.goto_void (z : Strand) (t : Int) : (z.goto t).void = z.void := rfl
@[simp] theorem Strand.goto_vflags (z : Strand) (t : Int) : (z.goto t).vflags = z.vflags := rfl
@[simp] theorem Strand.goto_fwd (z : Strand) (t : Int) : (z.goto t).fwd = z.fwd := rfl
@[simp] theorem Strand.goto_wait (z : Strand) (t : Int) : (z.goto t).wait = z.wait := rfl
@[simp] theorem Strand.goto_stalled (z : Strand) (t : Int) : (z.goto t).stalled = z.stalled := rfl
@[simp] theorem Strand.goto_popWait (z : Strand) (t : Int) : (z.goto t).popWait = z.popWait := rfl
@[simp] theorem Strand.goto_granted (z : Strand) (t : Int) : (z.goto t).granted = z.granted := rfl
@[simp] theorem Strand.goto_await (z : Strand) (t : Int) : (z.goto t).await = z.await := rfl
@[simp] theorem Strand.goto_awaitFlags (z : Strand) (t : Int) : (z.goto t).awaitFlags = z.awaitFlags := rfl
@[simp] theorem Strand.goto_atomCount (z : Strand) (t : Int) : (z.goto t).atomCount = z.atomCount := rfl
@[simp] theorem Strand.goto_arrivedAtomic (z : Strand) (t : Int) : (z.goto t).arrivedAtomic = z.arrivedAtomic := rfl
@[simp] theorem Strand.goto_delays (z : Strand) (t : Int) : (z.goto t).delays = z.delays := rfl
@[simp] theorem Strand.goto_turn (z : Strand) (t : Int) : (z.goto t).turn = z.turn := rfl
@[simp] theorem Strand.goto_exited (z : Strand) (t : Int) : (z.goto t).exited = z.exited := rfl
@[simp] theorem Strand.goto_running (z : Strand) (t : Int) : (z.goto t).running = z.running := rfl
@[simp] theorem Strand.count_regs (z : Strand) (i : Instr) (now : Nat) : (z.count i now).regs = z.regs := rfl
@[simp] theorem Strand.count_pc (z : Strand) (i : Instr) (now : Nat) : (z.count i now).pc = z.pc := rfl
@[simp] theorem Strand.count_far (z : Strand) (i : Instr) (now : Nat) : (z.count i now).far = z.far := rfl
@[simp] theorem Strand.count_args (z : Strand) (i : Instr) (now : Nat) : (z.count i now).args = z.args := rfl
@[simp] theorem Strand.count_importTab (z : Strand) (i : Instr) (now : Nat) : (z.count i now).importTab = z.importTab := rfl
@[simp] theorem Strand.count_flags (z : Strand) (i : Instr) (now : Nat) : (z.count i now).flags = z.flags := rfl
@[simp] theorem Strand.count_cnt (z : Strand) (i : Instr) (now : Nat) : (z.count i now).cnt = z.cnt := rfl
@[simp] theorem Strand.count_status (z : Strand) (i : Instr) (now : Nat) : (z.count i now).status = z.status := rfl
@[simp] theorem Strand.count_vrot (z : Strand) (i : Instr) (now : Nat) : (z.count i now).vrot = z.vrot := rfl
@[simp] theorem Strand.count_prot (z : Strand) (i : Instr) (now : Nat) : (z.count i now).prot = z.prot := rfl
@[simp] theorem Strand.count_vbase (z : Strand) (i : Instr) (now : Nat) : (z.count i now).vbase = z.vbase := rfl
@[simp] theorem Strand.count_vsize (z : Strand) (i : Instr) (now : Nat) : (z.count i now).vsize = z.vsize := rfl
@[simp] theorem Strand.count_pbase (z : Strand) (i : Instr) (now : Nat) : (z.count i now).pbase = z.pbase := rfl
@[simp] theorem Strand.count_trapvec (z : Strand) (i : Instr) (now : Nat) : (z.count i now).trapvec = z.trapvec := rfl
@[simp] theorem Strand.count_trapcause (z : Strand) (i : Instr) (now : Nat) : (z.count i now).trapcause = z.trapcause := rfl
@[simp] theorem Strand.count_trappc (z : Strand) (i : Instr) (now : Nat) : (z.count i now).trappc = z.trappc := rfl
@[simp] theorem Strand.count_trapinfo (z : Strand) (i : Instr) (now : Nat) : (z.count i now).trapinfo = z.trapinfo := rfl
@[simp] theorem Strand.count_trapsave (z : Strand) (i : Instr) (now : Nat) : (z.count i now).trapsave = z.trapsave := rfl
@[simp] theorem Strand.count_steptick (z : Strand) (i : Instr) (now : Nat) : (z.count i now).steptick = z.steptick := rfl
@[simp] theorem Strand.count_void (z : Strand) (i : Instr) (now : Nat) : (z.count i now).void = z.void := rfl
@[simp] theorem Strand.count_vflags (z : Strand) (i : Instr) (now : Nat) : (z.count i now).vflags = z.vflags := rfl
@[simp] theorem Strand.count_fwd (z : Strand) (i : Instr) (now : Nat) : (z.count i now).fwd = z.fwd := rfl
@[simp] theorem Strand.count_wait (z : Strand) (i : Instr) (now : Nat) : (z.count i now).wait = z.wait := rfl
@[simp] theorem Strand.count_stalled (z : Strand) (i : Instr) (now : Nat) : (z.count i now).stalled = z.stalled := rfl
@[simp] theorem Strand.count_popWait (z : Strand) (i : Instr) (now : Nat) : (z.count i now).popWait = z.popWait := rfl
@[simp] theorem Strand.count_granted (z : Strand) (i : Instr) (now : Nat) : (z.count i now).granted = z.granted := rfl
@[simp] theorem Strand.count_await (z : Strand) (i : Instr) (now : Nat) : (z.count i now).await = z.await := rfl
@[simp] theorem Strand.count_awaitFlags (z : Strand) (i : Instr) (now : Nat) : (z.count i now).awaitFlags = z.awaitFlags := rfl
@[simp] theorem Strand.count_atomCount (z : Strand) (i : Instr) (now : Nat) : (z.count i now).atomCount = z.atomCount := rfl
@[simp] theorem Strand.count_arrivedAtomic (z : Strand) (i : Instr) (now : Nat) : (z.count i now).arrivedAtomic = z.arrivedAtomic := rfl
@[simp] theorem Strand.count_delays (z : Strand) (i : Instr) (now : Nat) : (z.count i now).delays = z.delays := rfl
@[simp] theorem Strand.count_turn (z : Strand) (i : Instr) (now : Nat) : (z.count i now).turn = z.turn := rfl
@[simp] theorem Strand.count_exited (z : Strand) (i : Instr) (now : Nat) : (z.count i now).exited = z.exited := rfl
@[simp] theorem Strand.count_running (z : Strand) (i : Instr) (now : Nat) : (z.count i now).running = z.running := rfl
@[simp] theorem Strand.countIssue_regs (z : Strand) : (z.countIssue).regs = z.regs := rfl
@[simp] theorem Strand.countIssue_pc (z : Strand) : (z.countIssue).pc = z.pc := rfl
@[simp] theorem Strand.countIssue_far (z : Strand) : (z.countIssue).far = z.far := rfl
@[simp] theorem Strand.countIssue_args (z : Strand) : (z.countIssue).args = z.args := rfl
@[simp] theorem Strand.countIssue_importTab (z : Strand) : (z.countIssue).importTab = z.importTab := rfl
@[simp] theorem Strand.countIssue_flags (z : Strand) : (z.countIssue).flags = z.flags := rfl
@[simp] theorem Strand.countIssue_cnt (z : Strand) : (z.countIssue).cnt = z.cnt := rfl
@[simp] theorem Strand.countIssue_status (z : Strand) : (z.countIssue).status = z.status := rfl
@[simp] theorem Strand.countIssue_vrot (z : Strand) : (z.countIssue).vrot = z.vrot := rfl
@[simp] theorem Strand.countIssue_prot (z : Strand) : (z.countIssue).prot = z.prot := rfl
@[simp] theorem Strand.countIssue_vbase (z : Strand) : (z.countIssue).vbase = z.vbase := rfl
@[simp] theorem Strand.countIssue_vsize (z : Strand) : (z.countIssue).vsize = z.vsize := rfl
@[simp] theorem Strand.countIssue_pbase (z : Strand) : (z.countIssue).pbase = z.pbase := rfl
@[simp] theorem Strand.countIssue_trapvec (z : Strand) : (z.countIssue).trapvec = z.trapvec := rfl
@[simp] theorem Strand.countIssue_trapcause (z : Strand) : (z.countIssue).trapcause = z.trapcause := rfl
@[simp] theorem Strand.countIssue_trappc (z : Strand) : (z.countIssue).trappc = z.trappc := rfl
@[simp] theorem Strand.countIssue_trapinfo (z : Strand) : (z.countIssue).trapinfo = z.trapinfo := rfl
@[simp] theorem Strand.countIssue_trapsave (z : Strand) : (z.countIssue).trapsave = z.trapsave := rfl
@[simp] theorem Strand.countIssue_steptick (z : Strand) : (z.countIssue).steptick = z.steptick := rfl
@[simp] theorem Strand.countIssue_segCount (z : Strand) : (z.countIssue).segCount = z.segCount := rfl
@[simp] theorem Strand.countIssue_segStart (z : Strand) : (z.countIssue).segStart = z.segStart := rfl
@[simp] theorem Strand.countIssue_sig (z : Strand) : (z.countIssue).sig = z.sig := rfl
@[simp] theorem Strand.countIssue_void (z : Strand) : (z.countIssue).void = z.void := rfl
@[simp] theorem Strand.countIssue_fwd (z : Strand) : (z.countIssue).fwd = z.fwd := rfl
@[simp] theorem Strand.countIssue_wait (z : Strand) : (z.countIssue).wait = z.wait := rfl
@[simp] theorem Strand.countIssue_stalled (z : Strand) : (z.countIssue).stalled = z.stalled := rfl
@[simp] theorem Strand.countIssue_popWait (z : Strand) : (z.countIssue).popWait = z.popWait := rfl
@[simp] theorem Strand.countIssue_granted (z : Strand) : (z.countIssue).granted = z.granted := rfl
@[simp] theorem Strand.countIssue_await (z : Strand) : (z.countIssue).await = z.await := rfl
@[simp] theorem Strand.countIssue_awaitFlags (z : Strand) : (z.countIssue).awaitFlags = z.awaitFlags := rfl
@[simp] theorem Strand.countIssue_atomCount (z : Strand) : (z.countIssue).atomCount = z.atomCount := rfl
@[simp] theorem Strand.countIssue_arrivedAtomic (z : Strand) : (z.countIssue).arrivedAtomic = z.arrivedAtomic := rfl
@[simp] theorem Strand.countIssue_delays (z : Strand) : (z.countIssue).delays = z.delays := rfl
@[simp] theorem Strand.countIssue_turn (z : Strand) : (z.countIssue).turn = z.turn := rfl
@[simp] theorem Strand.countIssue_exited (z : Strand) : (z.countIssue).exited = z.exited := rfl
@[simp] theorem Strand.countIssue_running (z : Strand) : (z.countIssue).running = z.running := rfl
@[simp] theorem Strand.land_regs (z : Strand) (f : PendFlag) : (z.land f).regs = z.regs := rfl
@[simp] theorem Strand.land_pc (z : Strand) (f : PendFlag) : (z.land f).pc = z.pc := rfl
@[simp] theorem Strand.land_far (z : Strand) (f : PendFlag) : (z.land f).far = z.far := rfl
@[simp] theorem Strand.land_args (z : Strand) (f : PendFlag) : (z.land f).args = z.args := rfl
@[simp] theorem Strand.land_importTab (z : Strand) (f : PendFlag) : (z.land f).importTab = z.importTab := rfl
@[simp] theorem Strand.land_status (z : Strand) (f : PendFlag) : (z.land f).status = z.status := rfl
@[simp] theorem Strand.land_vrot (z : Strand) (f : PendFlag) : (z.land f).vrot = z.vrot := rfl
@[simp] theorem Strand.land_prot (z : Strand) (f : PendFlag) : (z.land f).prot = z.prot := rfl
@[simp] theorem Strand.land_vbase (z : Strand) (f : PendFlag) : (z.land f).vbase = z.vbase := rfl
@[simp] theorem Strand.land_vsize (z : Strand) (f : PendFlag) : (z.land f).vsize = z.vsize := rfl
@[simp] theorem Strand.land_pbase (z : Strand) (f : PendFlag) : (z.land f).pbase = z.pbase := rfl
@[simp] theorem Strand.land_trapvec (z : Strand) (f : PendFlag) : (z.land f).trapvec = z.trapvec := rfl
@[simp] theorem Strand.land_trapcause (z : Strand) (f : PendFlag) : (z.land f).trapcause = z.trapcause := rfl
@[simp] theorem Strand.land_trappc (z : Strand) (f : PendFlag) : (z.land f).trappc = z.trappc := rfl
@[simp] theorem Strand.land_trapinfo (z : Strand) (f : PendFlag) : (z.land f).trapinfo = z.trapinfo := rfl
@[simp] theorem Strand.land_trapsave (z : Strand) (f : PendFlag) : (z.land f).trapsave = z.trapsave := rfl
@[simp] theorem Strand.land_steptick (z : Strand) (f : PendFlag) : (z.land f).steptick = z.steptick := rfl
@[simp] theorem Strand.land_segCount (z : Strand) (f : PendFlag) : (z.land f).segCount = z.segCount := rfl
@[simp] theorem Strand.land_segStart (z : Strand) (f : PendFlag) : (z.land f).segStart = z.segStart := rfl
@[simp] theorem Strand.land_sig (z : Strand) (f : PendFlag) : (z.land f).sig = z.sig := rfl
@[simp] theorem Strand.land_void (z : Strand) (f : PendFlag) : (z.land f).void = z.void := rfl
@[simp] theorem Strand.land_vflags (z : Strand) (f : PendFlag) : (z.land f).vflags = z.vflags := rfl
@[simp] theorem Strand.land_fwd (z : Strand) (f : PendFlag) : (z.land f).fwd = z.fwd := rfl
@[simp] theorem Strand.land_wait (z : Strand) (f : PendFlag) : (z.land f).wait = z.wait := rfl
@[simp] theorem Strand.land_stalled (z : Strand) (f : PendFlag) : (z.land f).stalled = z.stalled := rfl
@[simp] theorem Strand.land_popWait (z : Strand) (f : PendFlag) : (z.land f).popWait = z.popWait := rfl
@[simp] theorem Strand.land_granted (z : Strand) (f : PendFlag) : (z.land f).granted = z.granted := rfl
@[simp] theorem Strand.land_await (z : Strand) (f : PendFlag) : (z.land f).await = z.await := rfl
@[simp] theorem Strand.land_awaitFlags (z : Strand) (f : PendFlag) : (z.land f).awaitFlags = z.awaitFlags := rfl
@[simp] theorem Strand.land_atomCount (z : Strand) (f : PendFlag) : (z.land f).atomCount = z.atomCount := rfl
@[simp] theorem Strand.land_arrivedAtomic (z : Strand) (f : PendFlag) : (z.land f).arrivedAtomic = z.arrivedAtomic := rfl
@[simp] theorem Strand.land_delays (z : Strand) (f : PendFlag) : (z.land f).delays = z.delays := rfl
@[simp] theorem Strand.land_turn (z : Strand) (f : PendFlag) : (z.land f).turn = z.turn := rfl
@[simp] theorem Strand.land_exited (z : Strand) (f : PendFlag) : (z.land f).exited = z.exited := rfl
@[simp] theorem Strand.land_running (z : Strand) (f : PendFlag) : (z.land f).running = z.running := rfl
@[simp] theorem Strand.returnFromTrap_regs (z : Strand) : (z.returnFromTrap).regs = z.regs := rfl
@[simp] theorem Strand.returnFromTrap_args (z : Strand) : (z.returnFromTrap).args = z.args := rfl
@[simp] theorem Strand.returnFromTrap_importTab (z : Strand) : (z.returnFromTrap).importTab = z.importTab := rfl
@[simp] theorem Strand.returnFromTrap_flags (z : Strand) : (z.returnFromTrap).flags = z.flags := rfl
@[simp] theorem Strand.returnFromTrap_cnt (z : Strand) : (z.returnFromTrap).cnt = z.cnt := rfl
@[simp] theorem Strand.returnFromTrap_status (z : Strand) : (z.returnFromTrap).status = z.status := rfl
@[simp] theorem Strand.returnFromTrap_vrot (z : Strand) : (z.returnFromTrap).vrot = z.vrot := rfl
@[simp] theorem Strand.returnFromTrap_prot (z : Strand) : (z.returnFromTrap).prot = z.prot := rfl
@[simp] theorem Strand.returnFromTrap_vbase (z : Strand) : (z.returnFromTrap).vbase = z.vbase := rfl
@[simp] theorem Strand.returnFromTrap_vsize (z : Strand) : (z.returnFromTrap).vsize = z.vsize := rfl
@[simp] theorem Strand.returnFromTrap_pbase (z : Strand) : (z.returnFromTrap).pbase = z.pbase := rfl
@[simp] theorem Strand.returnFromTrap_trapvec (z : Strand) : (z.returnFromTrap).trapvec = z.trapvec := rfl
@[simp] theorem Strand.returnFromTrap_trapcause (z : Strand) : (z.returnFromTrap).trapcause = z.trapcause := rfl
@[simp] theorem Strand.returnFromTrap_trappc (z : Strand) : (z.returnFromTrap).trappc = z.trappc := rfl
@[simp] theorem Strand.returnFromTrap_trapinfo (z : Strand) : (z.returnFromTrap).trapinfo = z.trapinfo := rfl
@[simp] theorem Strand.returnFromTrap_trapsave (z : Strand) : (z.returnFromTrap).trapsave = z.trapsave := rfl
@[simp] theorem Strand.returnFromTrap_steptick (z : Strand) : (z.returnFromTrap).steptick = z.steptick := rfl
@[simp] theorem Strand.returnFromTrap_segCount (z : Strand) : (z.returnFromTrap).segCount = z.segCount := rfl
@[simp] theorem Strand.returnFromTrap_segStart (z : Strand) : (z.returnFromTrap).segStart = z.segStart := rfl
@[simp] theorem Strand.returnFromTrap_sig (z : Strand) : (z.returnFromTrap).sig = z.sig := rfl
@[simp] theorem Strand.returnFromTrap_void (z : Strand) : (z.returnFromTrap).void = z.void := rfl
@[simp] theorem Strand.returnFromTrap_vflags (z : Strand) : (z.returnFromTrap).vflags = z.vflags := rfl
@[simp] theorem Strand.returnFromTrap_fwd (z : Strand) : (z.returnFromTrap).fwd = z.fwd := rfl
@[simp] theorem Strand.returnFromTrap_wait (z : Strand) : (z.returnFromTrap).wait = z.wait := rfl
@[simp] theorem Strand.returnFromTrap_stalled (z : Strand) : (z.returnFromTrap).stalled = z.stalled := rfl
@[simp] theorem Strand.returnFromTrap_popWait (z : Strand) : (z.returnFromTrap).popWait = z.popWait := rfl
@[simp] theorem Strand.returnFromTrap_granted (z : Strand) : (z.returnFromTrap).granted = z.granted := rfl
@[simp] theorem Strand.returnFromTrap_await (z : Strand) : (z.returnFromTrap).await = z.await := rfl
@[simp] theorem Strand.returnFromTrap_awaitFlags (z : Strand) : (z.returnFromTrap).awaitFlags = z.awaitFlags := rfl
@[simp] theorem Strand.returnFromTrap_atomCount (z : Strand) : (z.returnFromTrap).atomCount = z.atomCount := rfl
@[simp] theorem Strand.returnFromTrap_arrivedAtomic (z : Strand) : (z.returnFromTrap).arrivedAtomic = z.arrivedAtomic := rfl
@[simp] theorem Strand.returnFromTrap_delays (z : Strand) : (z.returnFromTrap).delays = z.delays := rfl
@[simp] theorem Strand.returnFromTrap_turn (z : Strand) : (z.returnFromTrap).turn = z.turn := rfl
@[simp] theorem Strand.returnFromTrap_exited (z : Strand) : (z.returnFromTrap).exited = z.exited := rfl
@[simp] theorem Strand.returnFromTrap_running (z : Strand) : (z.returnFromTrap).running = z.running := rfl
@[simp] theorem Strand.advance_regs (z : Strand) (t : Int) (w : Wait) : (z.advance t w).regs = z.regs := rfl
@[simp] theorem Strand.advance_args (z : Strand) (t : Int) (w : Wait) : (z.advance t w).args = z.args := rfl
@[simp] theorem Strand.advance_importTab (z : Strand) (t : Int) (w : Wait) : (z.advance t w).importTab = z.importTab := rfl
@[simp] theorem Strand.advance_flags (z : Strand) (t : Int) (w : Wait) : (z.advance t w).flags = z.flags := rfl
@[simp] theorem Strand.advance_cnt (z : Strand) (t : Int) (w : Wait) : (z.advance t w).cnt = z.cnt := rfl
@[simp] theorem Strand.advance_status (z : Strand) (t : Int) (w : Wait) : (z.advance t w).status = z.status := rfl
@[simp] theorem Strand.advance_vrot (z : Strand) (t : Int) (w : Wait) : (z.advance t w).vrot = z.vrot := rfl
@[simp] theorem Strand.advance_prot (z : Strand) (t : Int) (w : Wait) : (z.advance t w).prot = z.prot := rfl
@[simp] theorem Strand.advance_vbase (z : Strand) (t : Int) (w : Wait) : (z.advance t w).vbase = z.vbase := rfl
@[simp] theorem Strand.advance_vsize (z : Strand) (t : Int) (w : Wait) : (z.advance t w).vsize = z.vsize := rfl
@[simp] theorem Strand.advance_pbase (z : Strand) (t : Int) (w : Wait) : (z.advance t w).pbase = z.pbase := rfl
@[simp] theorem Strand.advance_trapvec (z : Strand) (t : Int) (w : Wait) : (z.advance t w).trapvec = z.trapvec := rfl
@[simp] theorem Strand.advance_trapcause (z : Strand) (t : Int) (w : Wait) : (z.advance t w).trapcause = z.trapcause := rfl
@[simp] theorem Strand.advance_trappc (z : Strand) (t : Int) (w : Wait) : (z.advance t w).trappc = z.trappc := rfl
@[simp] theorem Strand.advance_trapinfo (z : Strand) (t : Int) (w : Wait) : (z.advance t w).trapinfo = z.trapinfo := rfl
@[simp] theorem Strand.advance_trapsave (z : Strand) (t : Int) (w : Wait) : (z.advance t w).trapsave = z.trapsave := rfl
@[simp] theorem Strand.advance_steptick (z : Strand) (t : Int) (w : Wait) : (z.advance t w).steptick = z.steptick := rfl
@[simp] theorem Strand.advance_segCount (z : Strand) (t : Int) (w : Wait) : (z.advance t w).segCount = z.segCount := rfl
@[simp] theorem Strand.advance_segStart (z : Strand) (t : Int) (w : Wait) : (z.advance t w).segStart = z.segStart := rfl
@[simp] theorem Strand.advance_sig (z : Strand) (t : Int) (w : Wait) : (z.advance t w).sig = z.sig := rfl
@[simp] theorem Strand.advance_void (z : Strand) (t : Int) (w : Wait) : (z.advance t w).void = z.void := rfl
@[simp] theorem Strand.advance_fwd (z : Strand) (t : Int) (w : Wait) : (z.advance t w).fwd = z.fwd := rfl
@[simp] theorem Strand.advance_await (z : Strand) (t : Int) (w : Wait) : (z.advance t w).await = z.await := rfl
@[simp] theorem Strand.advance_awaitFlags (z : Strand) (t : Int) (w : Wait) : (z.advance t w).awaitFlags = z.awaitFlags := rfl
@[simp] theorem Strand.advance_atomCount (z : Strand) (t : Int) (w : Wait) : (z.advance t w).atomCount = z.atomCount := rfl
@[simp] theorem Strand.advance_arrivedAtomic (z : Strand) (t : Int) (w : Wait) : (z.advance t w).arrivedAtomic = z.arrivedAtomic := rfl
@[simp] theorem Strand.advance_delays (z : Strand) (t : Int) (w : Wait) : (z.advance t w).delays = z.delays := rfl
@[simp] theorem Strand.advance_turn (z : Strand) (t : Int) (w : Wait) : (z.advance t w).turn = z.turn := rfl
@[simp] theorem Strand.advance_exited (z : Strand) (t : Int) (w : Wait) : (z.advance t w).exited = z.exited := rfl
@[simp] theorem Strand.advance_running (z : Strand) (t : Int) (w : Wait) : (z.advance t w).running = z.running := rfl
@[simp] theorem Strand.goto_pc (z : Strand) (t : Int) : (z.goto t).pc = BitVec.ofInt 18 t := rfl
@[simp] theorem Strand.advance_pc (z : Strand) (t : Int) (w : Wait) : (z.advance t w).pc = BitVec.ofInt 18 t := rfl
@[simp] theorem Strand.advance_wait (z : Strand) (t : Int) (w : Wait) : (z.advance t w).wait = w := rfl
/-- A scalar register after a write: the value, the zero of s0, or the old value (R104). -/
theorem Strand.sreg_setSReg (z : Strand) (q r : Reg) (v : SReg) :
    (z.setSReg r v).sreg q = if q = 0 then SReg.zero else if q = r then v else z.sreg q := by
  by_cases hq : q = 0
  · simp [Strand.sreg, hq]
  · by_cases hr : r = 0
    · subst hr; simp [Strand.setSReg, hq]
    · by_cases hqr : q = r
      · subst hqr; simp [Strand.sreg, Strand.setSReg, hq]
      · have : q.val ≠ r.val := fun h => hqr (Fin.ext h)
        simp [Strand.sreg, Strand.setSReg, hq, hr, hqr, Tab.get_set_other _ _ _ this]
/-- The value of a scalar register after a write (R104). -/
theorem Strand.reg_setReg (z : Strand) (q r : Reg) (v : Word) :
    (z.setReg r v).reg q = if q = 0 then 0 else if q = r then v else z.reg q := by
  simp only [Strand.reg, Strand.setReg, Strand.sreg_setSReg]
  split
  · rfl
  · split <;> rfl
@[simp] theorem Strand.reg_zero (z : Strand) : z.reg 0 = 0 := by simp [Strand.reg, Strand.sreg, SReg.zero]
/-- Landing a list of VFLAGs changes the two VFLAG fields alone. -/
theorem Strand.foldl_land_keeps {α : Type} (g : Strand → α) (hg : ∀ z f, g (Strand.land z f) = g z) (l : List PendFlag) (z : Strand) :
    g (l.foldl Strand.land z) = g z := by
  induction l generalizing z with
  | nil => rfl
  | cons f l ih => simp [ih, hg]
@[simp] theorem Strand.landDue_regs (z : Strand) : z.landDue.regs = z.regs := by
  unfold Strand.landDue; exact Strand.foldl_land_keeps (fun z => z.regs) (fun _ _ => rfl) _ _
@[simp] theorem Strand.landAll_regs (z : Strand) : z.landAll.regs = z.regs := by
  unfold Strand.landAll; exact Strand.foldl_land_keeps (fun z => z.regs) (fun _ _ => rfl) _ _
@[simp] theorem Strand.landDue_pc (z : Strand) : z.landDue.pc = z.pc := by
  unfold Strand.landDue; exact Strand.foldl_land_keeps (fun z => z.pc) (fun _ _ => rfl) _ _
@[simp] theorem Strand.landAll_pc (z : Strand) : z.landAll.pc = z.pc := by
  unfold Strand.landAll; exact Strand.foldl_land_keeps (fun z => z.pc) (fun _ _ => rfl) _ _
@[simp] theorem Strand.landDue_far (z : Strand) : z.landDue.far = z.far := by
  unfold Strand.landDue; exact Strand.foldl_land_keeps (fun z => z.far) (fun _ _ => rfl) _ _
@[simp] theorem Strand.landAll_far (z : Strand) : z.landAll.far = z.far := by
  unfold Strand.landAll; exact Strand.foldl_land_keeps (fun z => z.far) (fun _ _ => rfl) _ _
@[simp] theorem Strand.landDue_args (z : Strand) : z.landDue.args = z.args := by
  unfold Strand.landDue; exact Strand.foldl_land_keeps (fun z => z.args) (fun _ _ => rfl) _ _
@[simp] theorem Strand.landAll_args (z : Strand) : z.landAll.args = z.args := by
  unfold Strand.landAll; exact Strand.foldl_land_keeps (fun z => z.args) (fun _ _ => rfl) _ _
@[simp] theorem Strand.landDue_importTab (z : Strand) : z.landDue.importTab = z.importTab := by
  unfold Strand.landDue; exact Strand.foldl_land_keeps (fun z => z.importTab) (fun _ _ => rfl) _ _
@[simp] theorem Strand.landAll_importTab (z : Strand) : z.landAll.importTab = z.importTab := by
  unfold Strand.landAll; exact Strand.foldl_land_keeps (fun z => z.importTab) (fun _ _ => rfl) _ _
@[simp] theorem Strand.landDue_status (z : Strand) : z.landDue.status = z.status := by
  unfold Strand.landDue; exact Strand.foldl_land_keeps (fun z => z.status) (fun _ _ => rfl) _ _
@[simp] theorem Strand.landAll_status (z : Strand) : z.landAll.status = z.status := by
  unfold Strand.landAll; exact Strand.foldl_land_keeps (fun z => z.status) (fun _ _ => rfl) _ _
@[simp] theorem Strand.landDue_vrot (z : Strand) : z.landDue.vrot = z.vrot := by
  unfold Strand.landDue; exact Strand.foldl_land_keeps (fun z => z.vrot) (fun _ _ => rfl) _ _
@[simp] theorem Strand.landAll_vrot (z : Strand) : z.landAll.vrot = z.vrot := by
  unfold Strand.landAll; exact Strand.foldl_land_keeps (fun z => z.vrot) (fun _ _ => rfl) _ _
@[simp] theorem Strand.landDue_prot (z : Strand) : z.landDue.prot = z.prot := by
  unfold Strand.landDue; exact Strand.foldl_land_keeps (fun z => z.prot) (fun _ _ => rfl) _ _
@[simp] theorem Strand.landAll_prot (z : Strand) : z.landAll.prot = z.prot := by
  unfold Strand.landAll; exact Strand.foldl_land_keeps (fun z => z.prot) (fun _ _ => rfl) _ _
@[simp] theorem Strand.landDue_vbase (z : Strand) : z.landDue.vbase = z.vbase := by
  unfold Strand.landDue; exact Strand.foldl_land_keeps (fun z => z.vbase) (fun _ _ => rfl) _ _
@[simp] theorem Strand.landAll_vbase (z : Strand) : z.landAll.vbase = z.vbase := by
  unfold Strand.landAll; exact Strand.foldl_land_keeps (fun z => z.vbase) (fun _ _ => rfl) _ _
@[simp] theorem Strand.landDue_vsize (z : Strand) : z.landDue.vsize = z.vsize := by
  unfold Strand.landDue; exact Strand.foldl_land_keeps (fun z => z.vsize) (fun _ _ => rfl) _ _
@[simp] theorem Strand.landAll_vsize (z : Strand) : z.landAll.vsize = z.vsize := by
  unfold Strand.landAll; exact Strand.foldl_land_keeps (fun z => z.vsize) (fun _ _ => rfl) _ _
@[simp] theorem Strand.landDue_pbase (z : Strand) : z.landDue.pbase = z.pbase := by
  unfold Strand.landDue; exact Strand.foldl_land_keeps (fun z => z.pbase) (fun _ _ => rfl) _ _
@[simp] theorem Strand.landAll_pbase (z : Strand) : z.landAll.pbase = z.pbase := by
  unfold Strand.landAll; exact Strand.foldl_land_keeps (fun z => z.pbase) (fun _ _ => rfl) _ _
@[simp] theorem Strand.landDue_trapvec (z : Strand) : z.landDue.trapvec = z.trapvec := by
  unfold Strand.landDue; exact Strand.foldl_land_keeps (fun z => z.trapvec) (fun _ _ => rfl) _ _
@[simp] theorem Strand.landAll_trapvec (z : Strand) : z.landAll.trapvec = z.trapvec := by
  unfold Strand.landAll; exact Strand.foldl_land_keeps (fun z => z.trapvec) (fun _ _ => rfl) _ _
@[simp] theorem Strand.landDue_trapcause (z : Strand) : z.landDue.trapcause = z.trapcause := by
  unfold Strand.landDue; exact Strand.foldl_land_keeps (fun z => z.trapcause) (fun _ _ => rfl) _ _
@[simp] theorem Strand.landAll_trapcause (z : Strand) : z.landAll.trapcause = z.trapcause := by
  unfold Strand.landAll; exact Strand.foldl_land_keeps (fun z => z.trapcause) (fun _ _ => rfl) _ _
@[simp] theorem Strand.landDue_trappc (z : Strand) : z.landDue.trappc = z.trappc := by
  unfold Strand.landDue; exact Strand.foldl_land_keeps (fun z => z.trappc) (fun _ _ => rfl) _ _
@[simp] theorem Strand.landAll_trappc (z : Strand) : z.landAll.trappc = z.trappc := by
  unfold Strand.landAll; exact Strand.foldl_land_keeps (fun z => z.trappc) (fun _ _ => rfl) _ _
@[simp] theorem Strand.landDue_trapinfo (z : Strand) : z.landDue.trapinfo = z.trapinfo := by
  unfold Strand.landDue; exact Strand.foldl_land_keeps (fun z => z.trapinfo) (fun _ _ => rfl) _ _
@[simp] theorem Strand.landAll_trapinfo (z : Strand) : z.landAll.trapinfo = z.trapinfo := by
  unfold Strand.landAll; exact Strand.foldl_land_keeps (fun z => z.trapinfo) (fun _ _ => rfl) _ _
@[simp] theorem Strand.landDue_trapsave (z : Strand) : z.landDue.trapsave = z.trapsave := by
  unfold Strand.landDue; exact Strand.foldl_land_keeps (fun z => z.trapsave) (fun _ _ => rfl) _ _
@[simp] theorem Strand.landAll_trapsave (z : Strand) : z.landAll.trapsave = z.trapsave := by
  unfold Strand.landAll; exact Strand.foldl_land_keeps (fun z => z.trapsave) (fun _ _ => rfl) _ _
@[simp] theorem Strand.landDue_steptick (z : Strand) : z.landDue.steptick = z.steptick := by
  unfold Strand.landDue; exact Strand.foldl_land_keeps (fun z => z.steptick) (fun _ _ => rfl) _ _
@[simp] theorem Strand.landAll_steptick (z : Strand) : z.landAll.steptick = z.steptick := by
  unfold Strand.landAll; exact Strand.foldl_land_keeps (fun z => z.steptick) (fun _ _ => rfl) _ _
@[simp] theorem Strand.landDue_segCount (z : Strand) : z.landDue.segCount = z.segCount := by
  unfold Strand.landDue; exact Strand.foldl_land_keeps (fun z => z.segCount) (fun _ _ => rfl) _ _
@[simp] theorem Strand.landAll_segCount (z : Strand) : z.landAll.segCount = z.segCount := by
  unfold Strand.landAll; exact Strand.foldl_land_keeps (fun z => z.segCount) (fun _ _ => rfl) _ _
@[simp] theorem Strand.landDue_segStart (z : Strand) : z.landDue.segStart = z.segStart := by
  unfold Strand.landDue; exact Strand.foldl_land_keeps (fun z => z.segStart) (fun _ _ => rfl) _ _
@[simp] theorem Strand.landAll_segStart (z : Strand) : z.landAll.segStart = z.segStart := by
  unfold Strand.landAll; exact Strand.foldl_land_keeps (fun z => z.segStart) (fun _ _ => rfl) _ _
@[simp] theorem Strand.landDue_sig (z : Strand) : z.landDue.sig = z.sig := by
  unfold Strand.landDue; exact Strand.foldl_land_keeps (fun z => z.sig) (fun _ _ => rfl) _ _
@[simp] theorem Strand.landAll_sig (z : Strand) : z.landAll.sig = z.sig := by
  unfold Strand.landAll; exact Strand.foldl_land_keeps (fun z => z.sig) (fun _ _ => rfl) _ _
@[simp] theorem Strand.landDue_void (z : Strand) : z.landDue.void = z.void := by
  unfold Strand.landDue; exact Strand.foldl_land_keeps (fun z => z.void) (fun _ _ => rfl) _ _
@[simp] theorem Strand.landAll_void (z : Strand) : z.landAll.void = z.void := by
  unfold Strand.landAll; exact Strand.foldl_land_keeps (fun z => z.void) (fun _ _ => rfl) _ _
@[simp] theorem Strand.landDue_fwd (z : Strand) : z.landDue.fwd = z.fwd := by
  unfold Strand.landDue; exact Strand.foldl_land_keeps (fun z => z.fwd) (fun _ _ => rfl) _ _
@[simp] theorem Strand.landAll_fwd (z : Strand) : z.landAll.fwd = z.fwd := by
  unfold Strand.landAll; exact Strand.foldl_land_keeps (fun z => z.fwd) (fun _ _ => rfl) _ _
@[simp] theorem Strand.landDue_wait (z : Strand) : z.landDue.wait = z.wait := by
  unfold Strand.landDue; exact Strand.foldl_land_keeps (fun z => z.wait) (fun _ _ => rfl) _ _
@[simp] theorem Strand.landAll_wait (z : Strand) : z.landAll.wait = z.wait := by
  unfold Strand.landAll; exact Strand.foldl_land_keeps (fun z => z.wait) (fun _ _ => rfl) _ _
@[simp] theorem Strand.landDue_stalled (z : Strand) : z.landDue.stalled = z.stalled := by
  unfold Strand.landDue; exact Strand.foldl_land_keeps (fun z => z.stalled) (fun _ _ => rfl) _ _
@[simp] theorem Strand.landAll_stalled (z : Strand) : z.landAll.stalled = z.stalled := by
  unfold Strand.landAll; exact Strand.foldl_land_keeps (fun z => z.stalled) (fun _ _ => rfl) _ _
@[simp] theorem Strand.landDue_popWait (z : Strand) : z.landDue.popWait = z.popWait := by
  unfold Strand.landDue; exact Strand.foldl_land_keeps (fun z => z.popWait) (fun _ _ => rfl) _ _
@[simp] theorem Strand.landAll_popWait (z : Strand) : z.landAll.popWait = z.popWait := by
  unfold Strand.landAll; exact Strand.foldl_land_keeps (fun z => z.popWait) (fun _ _ => rfl) _ _
@[simp] theorem Strand.landDue_granted (z : Strand) : z.landDue.granted = z.granted := by
  unfold Strand.landDue; exact Strand.foldl_land_keeps (fun z => z.granted) (fun _ _ => rfl) _ _
@[simp] theorem Strand.landAll_granted (z : Strand) : z.landAll.granted = z.granted := by
  unfold Strand.landAll; exact Strand.foldl_land_keeps (fun z => z.granted) (fun _ _ => rfl) _ _
@[simp] theorem Strand.landDue_await (z : Strand) : z.landDue.await = z.await := by
  unfold Strand.landDue; exact Strand.foldl_land_keeps (fun z => z.await) (fun _ _ => rfl) _ _
@[simp] theorem Strand.landAll_await (z : Strand) : z.landAll.await = z.await := by
  unfold Strand.landAll; exact Strand.foldl_land_keeps (fun z => z.await) (fun _ _ => rfl) _ _
@[simp] theorem Strand.landDue_awaitFlags (z : Strand) : z.landDue.awaitFlags = z.awaitFlags := by
  unfold Strand.landDue; exact Strand.foldl_land_keeps (fun z => z.awaitFlags) (fun _ _ => rfl) _ _
@[simp] theorem Strand.landAll_awaitFlags (z : Strand) : z.landAll.awaitFlags = z.awaitFlags := by
  unfold Strand.landAll; exact Strand.foldl_land_keeps (fun z => z.awaitFlags) (fun _ _ => rfl) _ _
@[simp] theorem Strand.landDue_atomCount (z : Strand) : z.landDue.atomCount = z.atomCount := by
  unfold Strand.landDue; exact Strand.foldl_land_keeps (fun z => z.atomCount) (fun _ _ => rfl) _ _
@[simp] theorem Strand.landAll_atomCount (z : Strand) : z.landAll.atomCount = z.atomCount := by
  unfold Strand.landAll; exact Strand.foldl_land_keeps (fun z => z.atomCount) (fun _ _ => rfl) _ _
@[simp] theorem Strand.landDue_arrivedAtomic (z : Strand) : z.landDue.arrivedAtomic = z.arrivedAtomic := by
  unfold Strand.landDue; exact Strand.foldl_land_keeps (fun z => z.arrivedAtomic) (fun _ _ => rfl) _ _
@[simp] theorem Strand.landAll_arrivedAtomic (z : Strand) : z.landAll.arrivedAtomic = z.arrivedAtomic := by
  unfold Strand.landAll; exact Strand.foldl_land_keeps (fun z => z.arrivedAtomic) (fun _ _ => rfl) _ _
@[simp] theorem Strand.landDue_delays (z : Strand) : z.landDue.delays = z.delays := by
  unfold Strand.landDue; exact Strand.foldl_land_keeps (fun z => z.delays) (fun _ _ => rfl) _ _
@[simp] theorem Strand.landAll_delays (z : Strand) : z.landAll.delays = z.delays := by
  unfold Strand.landAll; exact Strand.foldl_land_keeps (fun z => z.delays) (fun _ _ => rfl) _ _
@[simp] theorem Strand.landDue_turn (z : Strand) : z.landDue.turn = z.turn := by
  unfold Strand.landDue; exact Strand.foldl_land_keeps (fun z => z.turn) (fun _ _ => rfl) _ _
@[simp] theorem Strand.landAll_turn (z : Strand) : z.landAll.turn = z.turn := by
  unfold Strand.landAll; exact Strand.foldl_land_keeps (fun z => z.turn) (fun _ _ => rfl) _ _
@[simp] theorem Strand.landDue_exited (z : Strand) : z.landDue.exited = z.exited := by
  unfold Strand.landDue; exact Strand.foldl_land_keeps (fun z => z.exited) (fun _ _ => rfl) _ _
@[simp] theorem Strand.landAll_exited (z : Strand) : z.landAll.exited = z.exited := by
  unfold Strand.landAll; exact Strand.foldl_land_keeps (fun z => z.exited) (fun _ _ => rfl) _ _
@[simp] theorem Strand.landDue_running (z : Strand) : z.landDue.running = z.running := by
  unfold Strand.landDue; exact Strand.foldl_land_keeps (fun z => z.running) (fun _ _ => rfl) _ _
@[simp] theorem Strand.landAll_running (z : Strand) : z.landAll.running = z.running := by
  unfold Strand.landAll; exact Strand.foldl_land_keeps (fun z => z.running) (fun _ _ => rfl) _ _
@[simp] theorem Strand.sreg_landDue (z : Strand) (r : Reg) : z.landDue.sreg r = z.sreg r := by simp [Strand.sreg]
@[simp] theorem Strand.reg_landDue (z : Strand) (r : Reg) : z.landDue.reg r = z.reg r := by simp [Strand.reg]

end Sys2Proof.Machine
end

