-- ==== Sys2Proof/Laws/Issue.lean ====
section
/-!
SUPPORT. Laws of issue, retirement and traps: what each shared operation of Machine/Ops can do, said once.
-/
namespace Sys2Proof.Machine

/-- A search of the brand window changes the window of its core alone. -/
theorem State.looked_core (s : State) (p : At) (i : Instr) (d c : Nat) :
    ∃ w l, (s.looked p i).core d c = { s.core d c with window := w, lookups := l } := by
  unfold State.looked State.windowed State.seek
  split
  · exact ⟨_, _, rfl⟩
  · unfold Core.seek
    split
    · simp only [Option.map_some, Option.getD_some]
      by_cases h : (d, c) = (p.d, p.c)
      · obtain ⟨h1, h2⟩ := Prod.mk.injEq .. ▸ h
        subst h1; subst h2; rw [State.core_setCore]; exact ⟨_, _, rfl⟩
      · rw [State.core_setCore_other _ _ h]; exact ⟨_, _, rfl⟩
    · exact ⟨_, _, rfl⟩

@[simp] theorem State.looked_strand (s : State) (p : At) (i : Instr) (q : At) : (s.looked p i).strand q = s.strand q := by
  obtain ⟨w, l, h⟩ := s.looked_core p i q.d q.c
  unfold State.strand; rw [h]; rfl

/-- Taking a pop leaves every strand. -/
@[simp] theorem State.atPop_strand (s : State) (p : At) (sp : Spark) (q : At) : (s.atPop p sp).strand q = s.strand q := by
  unfold State.atPop State.takePop
  split
  · split
    · by_cases h : (q.d, q.c) = (p.d, p.c)
      · obtain ⟨h1, h2⟩ := Prod.mk.injEq .. ▸ h
        unfold State.strand; rw [h1, h2, State.core_modCore]; rfl
      · unfold State.strand State.modCore; rw [State.core_setCore_other _ _ h]
    · rfl
  · rfl

/-- An instruction that nothing holds acts in the opened state, and what it does is finished. -/
theorem issue_ready {s : State} {p : At} {i : Instr} {f : Form} {body : At → State → Act} (h : Ready s p i f)
    (hs : (body p (s.opened p i f.sp)).stays = false) :
    issue i f s body
      = .next (((s.looked p i).modStrand p Strand.landDue).finish p i f (s.bankLines p i) (body p (s.opened p i f.sp))) := by
  obtain ⟨d, c, k⟩ := p
  have hact : ((s.looked ⟨d, c, k⟩ i).atPop ⟨d, c, k⟩ f.sp).actOf ⟨d, c, k⟩ f body
      = body ⟨d, c, k⟩ (s.opened ⟨d, c, k⟩ i f.sp) := by
    simp [State.actOf, State.opened, h.residues, h.lows]
  have h1 := h.may; have h2 := h.names; have h3 := h.free; have h4 := h.flagsFree
  have h5 := h.operands; have h6 := h.unit; have h7 := h.pop; have h8 := h.released
  have h9 : (s.windowed ⟨d, c, k⟩ i).isNone = false := by have := h.window; rwa [← Option.not_isSome, Bool.not_eq_false']
  have hl : (s.windowed ⟨d, c, k⟩ i).getD s = s.looked ⟨d, c, k⟩ i := rfl
  simp only [issue, h.acts, h1, h2, h3, h4, h5, h6, h7, hl, hact, hs, h9]
  cases hr : (f.release || (f.pushes && (pushCh f.sp).isSome))
  · simp
  · rw [hr] at h8; simp only [Bool.true_and] at h8
    simp [h8]

/-- A strand that cannot act leaves the state as it is. -/
theorem issue_idle {s : State} {d c k : Nat} {i : Instr} {f : Form} {body : At → State → Act} (ha : s.actor = .strand d c k)
    (h : s.canIssue ⟨d, c, k⟩ = false) : issue i f s body = .next s := by
  simp [issue, ha, h]

/-- An instruction of a strand needs a strand that acts. -/
theorem issue_noActor {s : State} {i : Instr} {f : Form} {body : At → State → Act} (ha : ∀ d c k, s.actor ≠ .strand d c k) :
    issue i f s body = .fault .noActor := by
  unfold issue
  split
  · rename_i d c k h; exact absurd h (ha d c k)
  · rfl

/-- An instruction that acts and completes ends in the state its retirement leaves. -/
theorem issue_done {s : State} {p : At} {i : Instr} {f : Form} {body : At → State → Act} {t : State} {next : Int}
    (h : Ready s p i f) (hb : body p (s.opened p i f.sp) = .done t next) :
    issue i f s body = .next (t.retire p i (s.bankLines p i) next .none
      (if f.pushes then pushCh f.sp else none)) := by
  rw [issue_ready h (by rw [hb]; rfl), hb]; rfl

/-- The place of a strand is its three coordinates. -/
theorem State.setStrand_core (s : State) (p : At) (z : Strand) :
    s.setStrand p z = s.setCore p.d p.c ((s.core p.d p.c).setStrand p.k z) := rfl

/-- Taking the unit changes its times alone. -/
theorem Core.occupy_forget (y : Core) (z : Strand) (k now l : Nat) (i : Instr) :
    (y.occupy z k now l i).forget k = y.forget k := by
  unfold Core.occupy; split <;> rfl

@[simp] theorem Core.occupy_strands (y : Core) (z : Strand) (k now l : Nat) (i : Instr) :
    (y.occupy z k now l i).strands = y.strands := by
  unfold Core.occupy; split <;> rfl
@[simp] theorem Core.occupy_retiring (y : Core) (z : Strand) (k now l : Nat) (i : Instr) :
    (y.occupy z k now l i).retiring = y.retiring := by
  unfold Core.occupy; split <;> rfl
@[simp] theorem Core.occupy_spad (y : Core) (z : Strand) (k now l : Nat) (i : Instr) :
    (y.occupy z k now l i).spad = y.spad := by
  unfold Core.occupy; split <;> rfl
@[simp] theorem Core.occupy_strand (y : Core) (z : Strand) (k now l j : Nat) (i : Instr) :
    (y.occupy z k now l i).strand j = y.strand j := by simp [Core.strand]

@[simp] theorem Strand.delay_forget (z : Strand) (now : Nat) (i : Instr) : (z.delay now i).forget = z.forget := by
  unfold Strand.delay; split <;> rfl

/-- Retirement as one change of the core. -/
theorem State.retire_none (s : State) (p : At) (i : Instr) (l : Nat) (next : Int) (w : Wait) :
    s.retire p i l next w none
      = s.setCore p.d p.c (((s.core p.d p.c).occupy (s.strand p) p.k (s.cyc p.d p.c) l i).setStrand p.k
          ((((s.strand p).count i (s.now p.d)).delay (s.cyc p.d p.c) i).advance next w)) := rfl

/-- Retirement with a push on its way. -/
theorem State.retire_push (s : State) (p : At) (i : Instr) (l : Nat) (next : Int) (w : Wait) (n : Nat) :
    s.retire p i l next w (some n) = (s.retire p i l next w none).modCore p.d p.c (fun y =>
      { y with retiring := y.retiring ++ [((s.core p.d p.c).effectsBy (s.cyc p.d p.c + i.vecDelay l) i, n, p.k)] }) := by
  simp [State.modCore, State.retire]

/-- A strand after retirement, but for what every issue advances. -/
theorem Strand.retired_forget (z : Strand) (i : Instr) (now cyc : Nat) (next : Int) (h : z.wait = .none) :
    (((z.count i now).delay cyc i).advance next .none).forget = z.countIssue.forget := by
  have : ∀ x : Strand, x.wait = .none → (x.advance next .none).forget = x.countIssue.forget := by
    intro x hx; cases x; subst hx; rfl
  rw [this _ (by unfold Strand.delay; split <;> simp [h])]
  unfold Strand.delay; split <;> rfl

/-- A core but for what an issue advances, after a change of the strand. -/
theorem Core.forget_setStrand (y : Core) (k : Nat) (z : Strand) :
    (y.setStrand k z).forget k = { y.setStrand k z.forget with vfree := 0, lastVec := 0, unitAt := [], vready := [], pready := [] } := by
  simp [Core.forget]

/-- What retirement leaves: base, but for what every issue advances. -/
theorem retires_retire (base : State) (p : At) (i : Instr) (l : Nat) (next : Int) (h : (base.strand p).wait = .none) :
    Retires p i next base (base.retire p i l next .none none) where
  rest := by
    rw [State.retire_none]
    simp only [State.forget, State.modCore, State.core_setCore, State.setCore_setCore, State.modStrand, State.setStrand]
    rw [Core.forget_setStrand, Core.forget_setStrand, Strand.retired_forget _ _ _ _ _ h]
    congr 1
    unfold Core.occupy; split <;> rfl
  pc := by simp [State.retire_none, State.strand]
  count := by
    simp only [State.retire_none, State.strand, State.core_setCore, Core.strand_setStrand, Strand.advance_segCount]
    unfold Strand.delay; split <;> rfl
  sig := by
    simp only [State.retire_none, State.strand, State.core_setCore, Core.strand_setStrand, Strand.advance_sig]
    unfold Strand.delay; split <;> rfl

/-- What retirement leaves when a push is on its way. -/
theorem retires_retire_push (base : State) (p : At) (i : Instr) (l : Nat) (next : Int) (sp : Spark) (h : (base.strand p).wait = .none) :
    Retires p i next (base.owing p i sp l) (base.retire p i l next .none (pushCh sp)) := by
  unfold State.owing
  cases hsp : pushCh sp with
  | none => exact retires_retire base p i l next h
  | some n =>
    have r := retires_retire base p i l next h
    rw [State.retire_push]
    refine ⟨?_, ?_, ?_, ?_⟩
    · have hr := r.rest
      simp only [State.forget, State.modCore, State.core_setCore, State.setCore_setCore, State.modStrand, State.setStrand] at hr ⊢
      rw [State.retire_none] at hr ⊢
      simp only [State.core_setCore, State.setCore_setCore] at hr ⊢
      have hc := congrArg (fun t => t.core p.d p.c) hr
      simp only [State.core_setCore] at hc
      have key : ∀ (y : Core), Core.forget { y with retiring := y.retiring ++ [((base.core p.d p.c).effectsBy (base.cyc p.d p.c + i.vecDelay l) i, n, p.k)] } p.k
          = { y.forget p.k with retiring := y.retiring ++ [((base.core p.d p.c).effectsBy (base.cyc p.d p.c + i.vecDelay l) i, n, p.k)] } := fun y => rfl
      rw [key, hc]
      congr 1
      simp [Core.forget, Core.setStrand, State.strand, Core.strand]
    · simpa [State.strand, State.modCore, Core.strand] using r.pc
    · simpa [State.strand, State.modCore, Core.strand] using r.count
    · simpa [State.strand, State.modCore, Core.strand] using r.sig

/-- A strand that may act waits for nothing. -/
theorem Ready.waits {s : State} {p : At} {i : Instr} {f : Form} (h : Ready s p i f) : (s.strand p).wait = .none := by
  have := h.may
  simp only [State.canIssue, Bool.and_eq_true, beq_iff_eq] at this
  exact this.1.1.1.1.1.1.2

/-- Neither the search of the window, nor the pop, nor the VFLAG results that land make it wait. -/
theorem Ready.opened_wait {s : State} {p : At} {i : Instr} {f : Form} (h : Ready s p i f) : ((s.opened p i f.sp).strand p).wait = .none := by
  simp [State.opened, h.waits]

/-- An instruction that acts and completes without a push on retire. -/
theorem issue_retires {s : State} {p : At} {i : Instr} {f : Form} {body : At → State → Act} {t : State} {next : Int}
    (h : Ready s p i f) (hb : body p (s.opened p i f.sp) = .done t next) (hw : (t.strand p).wait = .none)
    (hp : (if f.pushes then pushCh f.sp else none) = none) :
    ∃ u, issue i f s body = .next u ∧ Retires p i next t u := by
  refine ⟨_, issue_done h hb, ?_⟩
  rw [hp]; exact retires_retire t p i _ next hw

/-- An instruction that acts and completes, with its push on retire on its way. -/
theorem issue_retires_push {s : State} {p : At} {i : Instr} {f : Form} {body : At → State → Act} {t : State} {next : Int}
    (h : Ready s p i f) (hb : body p (s.opened p i f.sp) = .done t next) (hw : (t.strand p).wait = .none) (hp : f.pushes = true) :
    ∃ u, issue i f s body = .next u ∧ Retires p i next (t.owing p i f.sp (s.bankLines p i)) u := by
  refine ⟨_, issue_done h hb, ?_⟩
  rw [hp]; exact retires_retire_push t p i _ next f.sp hw

end Sys2Proof.Machine
end

