-- ==== Sys2Proof/Laws/Frame.lean ====
section
/-!
SUPPORT. Laws of Retires: what it says of the registers, and how an instruction that writes one register of its strand completes.
-/
namespace Sys2Proof.Machine

/-- What every issue advances leaves a core's strand as it was but for the notes that forget drops. -/
theorem State.strand_forget (s : State) (p : At) : (s.forget p).strand p = (s.strand p).forget := by
  simp [State.forget, State.strand, State.modCore, Core.forget, Core.setStrand, Core.strand]

/-- A change of the strand that forget does not see commutes with it. -/
theorem State.forget_modStrand (s : State) (p : At) (f : Strand → Strand) (hf : ∀ z, (f z).forget = f z.forget) :
    (s.modStrand p f).forget p = (s.forget p).modStrand p f := by
  simp only [State.forget, State.modCore, State.modStrand, State.setStrand, State.core_setCore, State.setCore_setCore, State.strand]
  congr 1
  rw [Core.forget_setStrand]
  simp [Core.forget, Core.setStrand, Core.strand, hf]

theorem Strand.setSReg_forget (z : Strand) (d : Reg) (v : SReg) : (z.setSReg d v).forget = z.forget.setSReg d v := by
  unfold Strand.setSReg; split <;> rfl

theorem Strand.setReg_forget (z : Strand) (d : Reg) (v : Word) : (z.setReg d v).forget = z.forget.setReg d v :=
  Strand.setSReg_forget z d _

/-- The strand's registers after retirement are base's. -/
theorem Retires.regs {p : At} {i : Instr} {next : Int} {base t : State} (h : Retires p i next base t) :
    (t.strand p).regs = (base.strand p).regs := by
  have := congrArg (fun u => (u.strand p).regs) h.rest
  simp only [State.strand_forget] at this
  simpa [State.modStrand, Strand.forget, Strand.countIssue] using this

theorem Retires.sreg {p : At} {i : Instr} {next : Int} {base t : State} (h : Retires p i next base t) (r : Reg) :
    (t.strand p).sreg r = (base.strand p).sreg r := by
  unfold Strand.sreg; rw [h.regs]

theorem Strand.setReg_setSReg (z : Strand) (d : Reg) (x : SReg) (w : Word) : (z.setSReg d x).setReg d w = z.setReg d w := by
  simp only [Strand.setReg, Strand.setSReg]
  split <;> simp

/-- A change of the registers alone does not see the count of an issue. -/
theorem Strand.setReg_countIssue (z : Strand) (d : Reg) (w : Word) : (z.setReg d w).countIssue = z.countIssue.setReg d w := by
  simp only [Strand.setReg, Strand.setSReg, Strand.countIssue]
  split <;> rfl

/-- Retirement, seen apart from one register. -/
theorem Retires.but {p : At} {i : Instr} {next : Int} {base t : State} (h : Retires p i next base t) (d : Reg) (w : Word) :
    Retires p i next (base.setReg p d w) (t.setReg p d w) where
  rest := by
    unfold State.setReg
    rw [State.forget_modStrand _ _ _ (fun z => Strand.setReg_forget z d w), h.rest,
      ← State.forget_modStrand _ _ _ (fun z => Strand.setReg_forget z d w), State.modStrand_modStrand, State.modStrand_modStrand]
    simp only [Strand.setReg_countIssue]
  pc := by rw [← h.pc]; simp only [State.setReg, Strand.setReg, Strand.setSReg, State.modStrand]; split <;> simp [State.strand]
  count := by
    have e : ∀ u : State, ((u.setReg p d w).strand p).segCount = (u.strand p).segCount := by
      intro u; simp only [State.setReg, Strand.setReg, Strand.setSReg, State.modStrand]; split <;> simp [State.strand]
    rw [e, e, h.count]
  sig := by
    have e : ∀ u : State, ((u.setReg p d w).strand p).sig = (u.strand p).sig := by
      intro u; simp only [State.setReg, Strand.setReg, Strand.setSReg, State.modStrand]; split <;> simp [State.strand]
    rw [e, e, h.sig]

theorem State.setReg_modStrand_setSReg (s : State) (p : At) (d : Reg) (x : SReg) (w : Word) :
    (s.modStrand p (fun z => z.setSReg d x)).setReg p d w = s.setReg p d w := by
  unfold State.setReg
  rw [State.modStrand_modStrand]
  simp only [Strand.setReg_setSReg]

/-! What a strand is when it acts: its due VFLAG results landed, it is as it was. -/

theorem State.acting_strand (s : State) (p : At) (i : Instr) : (s.acting p i).strand p = (s.strand p).landDue := by
  simp [State.acting, State.opened]

theorem State.acting_sreg (s : State) (p : At) (i : Instr) (r : Reg) : ((s.acting p i).strand p).sreg r = (s.strand p).sreg r := by
  simp [State.acting_strand]

theorem State.acting_reg (s : State) (p : At) (i : Instr) (r : Reg) : (s.acting p i).reg p r = s.reg p r := by
  simp only [State.reg, Strand.reg, State.acting_sreg]

theorem State.acting_pc (s : State) (p : At) (i : Instr) : ((s.acting p i).strand p).pc = (s.strand p).pc := by
  simp [State.acting_strand]

theorem State.acting_seq (s : State) (p : At) (i : Instr) : (s.acting p i).seq p i = (s.strand p).after i := by
  simp only [State.seq, Strand.after, State.acting_pc]

/-- An instruction that writes one register of its strand. -/
theorem issue_writes {s : State} {p : At} {i : Instr} {d : Reg} {next : Int} {x : SReg} {body : At → State → Act} (h : Issues s p i)
    (he : exec i s = issue i (formOf i) s body)
    (hb : body p (s.acting p i) = .done ((s.acting p i).modStrand p (fun z => z.setSReg d x)) next)
    (hp : (if (formOf i).pushes then pushCh (formOf i).sp else none) = none) :
    ∃ t, exec i s = .next t ∧ t.reg p d = (if d = 0 then 0 else x.val) ∧ (t.strand p).sreg d = (if d = 0 then SReg.zero else x)
      ∧ Retires p i next ((s.acting p i).setReg p d 0) (t.setReg p d 0) := by
  have hw : ((State.modStrand (s.acting p i) p (fun z => z.setSReg d x)).strand p).wait = .none := by
    have := Ready.opened_wait h
    simp only [State.acting, State.modStrand, State.strand_setStrand] at this ⊢
    unfold Strand.setSReg; split <;> simpa using this
  obtain ⟨t, ht, hr⟩ := issue_retires h hb hw hp
  have hs : (t.strand p).sreg d = if d = 0 then SReg.zero else x := by
    rw [hr.sreg]; simp [State.modStrand, Strand.sreg_setSReg]
  refine ⟨t, he.trans ht, ?_, hs, ?_⟩
  · simp only [State.reg, Strand.reg, hs]; split <;> rfl
  · rw [← State.setReg_modStrand_setSReg _ p d x 0]; exact hr.but d 0

/-- An instruction that faults before it issues. -/
theorem issue_trap {s : State} {p : At} {i : Instr} {f : Form} {body : At → State → Act} {c : Cause} {info : Word} {hb : Option Nat}
    (h : Ready s p i f) (he : body p (s.opened p i f.sp) = .trap c info hb) :
    issue i f s body = .next ((((s.looked p i).modStrand p Strand.landDue).handBack p.d hb).takeTrap p c info (s.strand p).pc) := by
  rw [issue_ready h (by rw [he]; rfl), he]; simp [State.finish]

/-- An instruction that fails its context. -/
theorem issue_fail {s : State} {p : At} {i : Instr} {f : Form} {body : At → State → Act} {c : Cause}
    (h : Ready s p i f) (he : body p (s.opened p i f.sp) = .fail c) :
    issue i f s body = .next ((s.unissued p i).declareFailed p.d p.c p.k (s.strand p).pc.toNat c) := by
  rw [issue_ready h (by rw [he]; rfl), he]; simp [State.finish, State.unissued]

/-- An instruction that cannot issue yet leaves its strand before it. -/
theorem issue_stay {s : State} {p : At} {i : Instr} {f : Form} {body : At → State → Act} (h : Ready s p i f)
    (he : body p (s.opened p i f.sp) = .stay) : issue i f s body = .next (s.stall p none) := by
  obtain ⟨d, c, k⟩ := p
  have hact : ((s.looked ⟨d, c, k⟩ i).atPop ⟨d, c, k⟩ f.sp).actOf ⟨d, c, k⟩ f body
      = body ⟨d, c, k⟩ (s.opened ⟨d, c, k⟩ i f.sp) := by
    simp [State.actOf, State.opened, h.residues, h.lows]
  have h1 := h.may; have h2 := h.names; have h3 := h.free; have h4 := h.flagsFree
  have h5 := h.operands; have h6 := h.unit
  have hl : (s.windowed ⟨d, c, k⟩ i).getD s = s.looked ⟨d, c, k⟩ i := rfl
  simp only [issue, h.acts, h1, h2, h3, h4, h5, h6, hl, hact, he]
  rfl

/-- What an instruction that waits after it has issued leaves, but for the wait. -/
theorem retires_wait (base : State) (p : At) (i : Instr) (l : Nat) (next : Int) (w : Wait) (h : (base.strand p).wait = .none) :
    ((base.retire p i l next w none).strand p).wait = w ∧
    Retires p i next base ((base.retire p i l next w none).modStrand p (fun z => { z with wait := .none })) := by
  have e : (base.retire p i l next w none).modStrand p (fun z => { z with wait := .none }) = base.retire p i l next .none none := by
    simp only [State.retire_none, State.modStrand, State.setStrand, State.strand, State.core_setCore, Core.strand_setStrand,
      State.setCore_setCore, Core.setStrand_setStrand]
    rfl
  refine ⟨?_, ?_⟩
  · simp [State.retire_none, State.strand]
  · rw [e]; exact retires_retire base p i l next h

/-- An instruction that issues and then waits. -/
theorem issue_waits {s : State} {p : At} {i : Instr} {f : Form} {body : At → State → Act} {t : State} {next : Int} {w : Wait}
    (h : Ready s p i f) (hb : body p (s.opened p i f.sp) = .wait t next w) (hw : (t.strand p).wait = .none)
    (hp : (if f.pushes then pushCh f.sp else none) = none) :
    ∃ u, issue i f s body = .next u ∧ (u.strand p).wait = w
      ∧ Retires p i next t (u.modStrand p (fun z => { z with wait := .none })) := by
  refine ⟨t.retire p i (s.bankLines p i) next w none, ?_, retires_wait t p i _ next w hw⟩
  rw [issue_ready h (by rw [hb]; rfl), hb]
  show Host.Outcome.next (State.retire t p i _ next w (if f.pushes then pushCh f.sp else none)) = _
  rw [hp]

/-! Taking a trap (R287). -/

theorem Core.unwait_strand_other (y : Core) {j k : Nat} (h : j ≠ k) : (y.unwait k).strand j = y.strand j := by
  unfold Core.unwait
  rw [Core.strand_setStrand_other _ _ h]
  rfl

theorem Core.unwait_strand (y : Core) (k : Nat) :
    (y.unwait k).strand k = { y.strand k with popWait := none, granted := false, stalled := false } := by
  simp [Core.unwait]

theorem Core.unwait_spad (y : Core) (k : Nat) : (y.unwait k).spad = y.spad := rfl

theorem Core.unwait_pages (y : Core) (k : Nat) : (y.unwait k).pages = y.pages := rfl

/-- The state in which a strand's trap is decided. -/
def State.trapped (s : State) (p : At) (cause : Cause) (info : Word) (ret : BitVec 18) : State :=
  (s.modCore p.d p.c (fun y => y.unwait p.k)).modStrand p (fun z =>
    { z.landAll with trapcause := BitVec.ofNat 8 cause.code, trapinfo := info, trappc := ret, void := true })

/-- A trap in two parts. -/
theorem State.takeTrap_eq (s : State) (p : At) (cause : Cause) (info : Word) (ret : BitVec 18) :
    s.takeTrap p cause info ret
      = if ((s.trapped p cause info ret).strand p).trapvec = 0
          ∨ ((s.trapped p cause info ret).core p.d p.c).page (((s.trapped p cause info ret).strand p).trapvec.toNat / 4096) = .free then
          (s.trapped p cause info ret).declareFailed p.d p.c p.k ret.toNat cause
        else (s.trapped p cause info ret).modStrand p (fun z => { z with pc := z.trapvec, far := none }) := rfl

/-- With a handler, control goes to it. -/
theorem State.takeTrap_handler (s : State) (p : At) (cause : Cause) (info : Word) (ret : BitVec 18) (h : (s.strand p).trapvec ≠ 0)
    (hp : (s.core p.d p.c).page ((s.strand p).trapvec.toNat / 4096) ≠ .free) :
    s.takeTrap p cause info ret = (s.trapped p cause info ret).modStrand p (fun z => { z with pc := (s.strand p).trapvec, far := none }) := by
  have hl : ∀ (l : List PendFlag) (w : Strand), (l.foldl Strand.land w).trapvec = w.trapvec := by
    intro l; induction l with
    | nil => intro w; rfl
    | cons f l ih => intro w; rw [List.foldl_cons, ih]; rfl
  have hv : ((s.trapped p cause info ret).strand p).trapvec = (s.strand p).trapvec := by
    simp [State.trapped, State.strand, Core.unwait_strand, Strand.landAll, hl]
  have hg : (s.trapped p cause info ret).core p.d p.c = (((s.core p.d p.c).unwait p.k).setStrand p.k ((s.trapped p cause info ret).strand p)) := by
    simp [State.trapped, State.modStrand, State.setStrand, State.strand]
  rw [State.takeTrap_eq, if_neg]
  · simp only [State.modStrand]; rw [← hv]
  · rw [not_or]
    refine ⟨by rw [hv]; exact h, ?_⟩
    rw [hv, hg]
    simpa [Core.page, Core.setStrand, Core.unwait_pages] using hp

/-- What a trap leaves in its strand before control goes on. -/
theorem State.trapped_strand (s : State) (p : At) (cause : Cause) (info : Word) (ret : BitVec 18) :
    ∃ fl cn, (s.trapped p cause info ret).strand p = { s.strand p with popWait := none, granted := false, stalled := false, vflags := [], flags := fl, cnt := cn, trapcause := BitVec.ofNat 8 cause.code, trapinfo := info, trappc := ret, void := true } := by
  have hl : ∀ (l : List PendFlag) (w : Strand), ∃ fl cn, l.foldl Strand.land w = { w with flags := fl, cnt := cn } := by
    intro l; induction l with
    | nil => intro w; exact ⟨_, _, rfl⟩
    | cons f l ih => intro w; obtain ⟨a, b, h⟩ := ih (Strand.land w f); exact ⟨a, b, by rw [List.foldl_cons, h]; rfl⟩
  simp only [State.trapped, State.strand_modStrand, Strand.landAll]
  have e : (s.modCore p.d p.c (fun y => y.unwait p.k)).strand p = { s.strand p with popWait := none, granted := false, stalled := false } := by
    simp [State.strand, Core.unwait_strand]
  rw [e]
  obtain ⟨a, b, h⟩ := hl (s.strand p).vflags { s.strand p with popWait := none, granted := false, stalled := false, vflags := [] }
  refine ⟨a, b, ?_⟩
  dsimp only at h ⊢
  rw [h]

/-- A change of a core that touches one strand alone leaves every other strand. -/
theorem State.strand_other_modCore (s : State) (p q : At) (f : Core → Core) (h : q ≠ p) (hf : ∀ y, ∀ j ≠ p.k, (f y).strand j = y.strand j) :
    (s.modCore p.d p.c f).strand q = s.strand q := by
  unfold State.strand
  by_cases hc : (q.d, q.c) = (p.d, p.c)
  · obtain ⟨h1, h2⟩ := Prod.mk.injEq .. ▸ hc
    rw [h1, h2, State.core_modCore, hf]
    intro hk; exact h (by cases p; cases q; simp_all)
  · rw [State.modCore, State.core_setCore_other _ _ hc]

/-- The search of the window and the pop leave the scratchpads and the pages. -/
theorem State.looked_atPop_core (s : State) (p : At) (i : Instr) (sp : Spark) (d c : Nat) :
    (((s.looked p i).atPop p sp).core d c).spad = (s.core d c).spad ∧ (((s.looked p i).atPop p sp).core d c).pages = (s.core d c).pages := by
  obtain ⟨w, l, h⟩ := s.looked_core p i d c
  unfold State.atPop State.takePop
  split
  · split
    · by_cases hc : (d, c) = (p.d, p.c)
      · obtain ⟨h1, h2⟩ := Prod.mk.injEq .. ▸ hc
        subst h1; subst h2; rw [State.core_modCore, h]; exact ⟨rfl, rfl⟩
      · rw [State.modCore, State.core_setCore_other _ _ hc, h]; exact ⟨rfl, rfl⟩
    · rw [h]; exact ⟨rfl, rfl⟩
  · rw [h]; exact ⟨rfl, rfl⟩

/-- A strand that acts has the handler that it had. -/
theorem State.acting_trapvec (s : State) (p : At) (i : Instr) : ((s.acting p i).strand p).trapvec = (s.strand p).trapvec := by
  simp [State.acting_strand]

/-- Nothing but the acting strand, a channel and the brand window is touched before an instruction acts. -/
theorem State.acting_others (s : State) (p : At) (i : Instr) : (∀ q, q ≠ p → (s.acting p i).strand q = s.strand q) ∧ (∀ d c, ((s.acting p i).core d c).spad = (s.core d c).spad) ∧ (∀ d c n, ((s.acting p i).core d c).page n = (s.core d c).page n) := by
  have hm : ∀ u : State, u.modStrand p Strand.landDue = u.modCore p.d p.c (fun y => y.setStrand p.k (y.strand p.k).landDue) := fun u => rfl
  have hk : ∀ d c, ((s.acting p i).core d c).spad = (s.core d c).spad ∧ ((s.acting p i).core d c).pages = (s.core d c).pages := by
    intro d c
    rw [← (s.looked_atPop_core p i (formOf i).sp d c).1, ← (s.looked_atPop_core p i (formOf i).sp d c).2, State.acting, State.opened, hm]
    by_cases hc : (d, c) = (p.d, p.c)
    · obtain ⟨h1, h2⟩ := Prod.mk.injEq .. ▸ hc
      subst h1; subst h2; rw [State.core_modCore]; exact ⟨rfl, rfl⟩
    · rw [State.modCore, State.core_setCore_other _ _ hc]; exact ⟨rfl, rfl⟩
  refine ⟨fun q hq => ?_, fun d c => (hk d c).1, fun d c n => ?_⟩
  · rw [State.acting, State.opened, hm, State.strand_other_modCore _ p q _ hq (fun y j hj => by rw [Core.strand_setStrand_other _ _ hj])]
    simp
  · unfold Core.page; rw [(hk d c).2]

/-- A strand that acts waits for nothing. -/
theorem State.acting_wait {s : State} {p : At} {i : Instr} (h : Issues s p i) : ((s.acting p i).strand p).wait = .none := Ready.opened_wait h

end Sys2Proof.Machine
end

