-- ==== Sys2Proof/Laws/Memory.lean ====
section
/-!
SUPPORT. Laws of byte memories: what a byte reads after a write, and that a write keeps the canonical form.
-/
namespace Sys2Proof.Machine

/-- A byte of cells laid from a. -/
theorem Mem.byte_cells (a : Nat) (bs : List Byte) (n : Nat) :
    Mem.byte (Mem.cells a bs) n = if a ≤ n then bs.getD (n - a) Mem.blank else Mem.blank := by
  induction bs generalizing a with
  | nil => simp [Mem.cells, Mem.byte]
  | cons b bs ih =>
    by_cases hb : b = Mem.blank
    · simp only [Mem.cells, hb, if_true, ih]
      by_cases h : a ≤ n
      · by_cases h' : a = n
        · subst h'; have : ¬ a + 1 ≤ a := by omega
          simp [this]
        · have : a + 1 ≤ n := by omega
          obtain ⟨m, hm⟩ : ∃ m, n - a = m + 1 := ⟨n - a - 1, by omega⟩
          have : n - (a + 1) = m := by omega
          simp_all
      · have : ¬ a + 1 ≤ n := by omega
        simp [h, this]
    · simp only [Mem.cells, hb, if_false, Mem.byte, ih]
      by_cases h' : a = n
      · subst h'; simp
      · by_cases h : a ≤ n
        · have h1 : a + 1 ≤ n := by omega
          obtain ⟨m, hm⟩ : ∃ m, n - a = m + 1 := ⟨n - a - 1, by omega⟩
          have h2 : n - (a + 1) = m := by omega
          simp [h', h, h1, hm, h2]
        · have : ¬ a + 1 ≤ n := by omega
          simp [h', h, this]

/-- A byte of a memory without the cells that fail a test of their addresses. -/
theorem Mem.byte_filter (m : Mem) (q : Nat → Bool) (n : Nat) :
    Mem.byte (m.filter (fun c => q c.1)) n = if q n then Mem.byte m n else Mem.blank := by
  induction m with
  | nil => simp [Mem.byte]
  | cons e r ih =>
    obtain ⟨k, b⟩ := e
    by_cases hq : q k
    · simp only [List.filter_cons, hq, if_true, Mem.byte, ih]
      by_cases h : k = n
      · subst h; simp [hq]
      · simp [h]
    · simp only [List.filter_cons, hq, Mem.byte]
      by_cases h : k = n
      · subst h; simp [hq, ih]
      · simp [h, ih]

/-- Does a memory list an address? -/
def Mem.lists (m : Mem) (n : Nat) : Bool := m.any (fun c => c.1 == n)

/-- A byte of two memories laid one after the other. -/
theorem Mem.byte_append (m m' : Mem) (n : Nat) :
    Mem.byte (m ++ m') n = if Mem.lists m n then Mem.byte m n else Mem.byte m' n := by
  induction m with
  | nil => simp [Mem.lists]
  | cons e r ih =>
    obtain ⟨k, b⟩ := e
    by_cases h : k = n
    · simp [Mem.byte, Mem.lists, h]
    · have : Mem.lists ((k, b) :: r) n = Mem.lists r n := by simp [Mem.lists, h]
      simp [Mem.byte, h, ih, this]

/-- Which addresses a filtered memory lists. -/
theorem Mem.lists_filter (m : Mem) (q : Nat → Bool) (n : Nat) :
    Mem.lists (m.filter (fun c => q c.1)) n = (q n && Mem.lists m n) := by
  induction m with
  | nil => simp [Mem.lists]
  | cons e r ih =>
    obtain ⟨k, b⟩ := e
    simp only [Mem.lists] at ih ⊢
    by_cases hq : q k
    · by_cases h : k = n
      · subst h; simp [hq]
      · have hb : (k == n) = false := beq_eq_false_iff_ne.mpr h
        simp only [List.filter_cons, hq, if_true, List.any_cons, hb, Bool.false_or, ih]
    · by_cases h : k = n
      · subst h; simp [hq, ih]
      · have hb : (k == n) = false := beq_eq_false_iff_ne.mpr h
        simp only [List.filter_cons, hq, if_false, List.any_cons, hb, Bool.false_or, ih, Bool.false_eq_true]

/-- Cells laid from a list no address outside their range. -/
theorem Mem.lists_cells (a : Nat) (bs : List Byte) (n : Nat) (h : Mem.lists (Mem.cells a bs) n = true) :
    a ≤ n ∧ n < a + bs.length := by
  induction bs generalizing a with
  | nil => simp [Mem.cells, Mem.lists] at h
  | cons b bs ih =>
    by_cases hb : b = Mem.blank
    · simp only [Mem.cells, hb, if_true] at h
      have := ih (a + 1) h
      simp only [List.length_cons]; omega
    · simp only [Mem.cells, hb, if_false] at h
      by_cases ha : a = n
      · subst ha; simp
      · have h' : Mem.lists (Mem.cells (a + 1) bs) n = true := by simpa [Mem.lists, ha] using h
        have := ih (a + 1) h'
        simp only [List.length_cons]; omega

/-- An address that is not listed reads blank. -/
theorem Mem.byte_unlisted (m : Mem) (n : Nat) (h : Mem.lists m n = false) : Mem.byte m n = Mem.blank := by
  induction m with
  | nil => rfl
  | cons e r ih =>
    obtain ⟨k, b⟩ := e
    have h1 : (k == n) = false ∧ Mem.lists r n = false := by simpa [Mem.lists] using h
    simp only [beq_eq_false_iff_ne, ne_eq] at h1
    simp [Mem.byte, h1.1, ih h1.2]

/-- A read after a write: the bytes written inside their range, the old byte outside it. -/
theorem Mem.byte_write (m : Mem) (a : Nat) (bs : List Byte) (n : Nat) :
    Mem.byte (Mem.write m a bs) n = if a ≤ n ∧ n < a + bs.length then bs.getD (n - a) Mem.blank else Mem.byte m n := by
  have hlo := Mem.byte_filter m (fun i => decide (i < a)) n
  have hhi := Mem.byte_filter m (fun i => decide (a + bs.length ≤ i)) n
  have llo := Mem.lists_filter m (fun i => decide (i < a)) n
  simp only [Mem.write, List.append_assoc, Mem.byte_append]
  by_cases h1 : a ≤ n
  · have : ¬ n < a := by omega
    simp only [llo, this, decide_false, Bool.false_and]
    by_cases h2 : n < a + bs.length
    · have : ¬ a + bs.length ≤ n := by omega
      simp only [h1, h2, and_self, if_true, Mem.byte_cells, hhi, this, decide_false]
      by_cases hl : Mem.lists (Mem.cells a bs) n
      · simp [hl]
      · have hb := Mem.byte_unlisted _ _ (by simpa using hl)
        simp only [Mem.byte_cells, h1, if_true] at hb
        simpa [hl] using hb.symm
    · have hl : Mem.lists (Mem.cells a bs) n = false := by
        cases hc : Mem.lists (Mem.cells a bs) n with
        | false => rfl
        | true => exact absurd (Mem.lists_cells _ _ _ hc).2 h2
      have : a + bs.length ≤ n := by omega
      simp [h1, h2, hl, hhi, this]
  · have hlt : n < a := by omega
    have hc : Mem.lists (Mem.cells a bs) n = false := by
      cases hc : Mem.lists (Mem.cells a bs) n with
      | false => rfl
      | true => exact absurd (Mem.lists_cells _ _ _ hc).1 h1
    have : ¬ a + bs.length ≤ n := by omega
    simp only [llo, hlt, decide_true, Bool.true_and, h1, false_and, if_false, hlo, hhi, hc, this, decide_false]
    by_cases hm : Mem.lists m n
    · simp [hm]
    · simp [hm, Mem.byte_unlisted m n (by simpa using hm)]

/-- The canonical form from an address holds from every lower one. -/
theorem Mem.wfFrom_mono {m : Mem} {lo lo' : Nat} (hle : lo ≤ lo') (h : Mem.wfFrom lo' m = true) : Mem.wfFrom lo m = true := by
  cases m with
  | nil => rfl
  | cons e r =>
    obtain ⟨k, b⟩ := e
    simp only [Mem.wfFrom, Bool.and_eq_true, decide_eq_true_eq] at h ⊢
    exact ⟨⟨by omega, h.1.2⟩, h.2⟩

/-- A canonical memory stays canonical when cells are left out. -/
theorem Mem.wfFrom_filter (q : Host.Cell → Bool) {m : Mem} {lo : Nat} (h : Mem.wfFrom lo m = true) :
    Mem.wfFrom lo (m.filter q) = true := by
  induction m generalizing lo with
  | nil => rfl
  | cons e r ih =>
    obtain ⟨k, b⟩ := e
    simp only [Mem.wfFrom, Bool.and_eq_true, decide_eq_true_eq] at h
    by_cases hq : q (k, b)
    · simp only [List.filter_cons, hq, if_true, Mem.wfFrom, Bool.and_eq_true, decide_eq_true_eq]
      exact ⟨h.1, ih h.2⟩
    · simp only [List.filter_cons, hq]
      exact Mem.wfFrom_mono (by omega) (ih h.2)

/-- Two canonical memories laid one after the other, the first below the second. -/
theorem Mem.wfFrom_append {m m' : Mem} {lo hi : Nat} (h : Mem.wfFrom lo m = true) (h' : Mem.wfFrom hi m' = true)
    (hm : ∀ c ∈ m, c.1 < hi) (hlo : lo ≤ hi) : Mem.wfFrom lo (m ++ m') = true := by
  induction m generalizing lo with
  | nil => simpa using Mem.wfFrom_mono hlo h'
  | cons e r ih =>
    obtain ⟨k, b⟩ := e
    simp only [Mem.wfFrom, Bool.and_eq_true, decide_eq_true_eq] at h
    simp only [List.cons_append, Mem.wfFrom, Bool.and_eq_true, decide_eq_true_eq]
    have hk : k < hi := hm (k, b) (by simp)
    exact ⟨h.1, ih h.2 (fun c hc => hm c (by simp [hc])) (by omega)⟩

/-- The cells of bytes are canonical. -/
theorem Mem.wfFrom_cells (a : Nat) (bs : List Byte) : Mem.wfFrom a (Mem.cells a bs) = true := by
  induction bs generalizing a with
  | nil => rfl
  | cons b bs ih =>
    by_cases hb : b = Mem.blank
    · simpa [Mem.cells, hb] using Mem.wfFrom_mono (by omega) (ih (a + 1))
    · simp [Mem.cells, hb, Mem.wfFrom, ih]

/-- Cells above an address are canonical from it. -/
theorem Mem.wfFrom_above {m : Mem} {lo : Nat} (hi : Nat) (h : Mem.wfFrom lo m = true) :
    Mem.wfFrom hi (m.filter (fun c => decide (hi ≤ c.1))) = true := by
  induction m generalizing lo with
  | nil => rfl
  | cons e r ih =>
    obtain ⟨k, b⟩ := e
    simp only [Mem.wfFrom, Bool.and_eq_true, decide_eq_true_eq] at h
    by_cases hk : hi ≤ k
    · simp only [List.filter_cons, hk, decide_true, if_true, Mem.wfFrom, Bool.and_eq_true]
      exact ⟨⟨trivial, h.1.2⟩, Mem.wfFrom_filter _ h.2⟩
    · simpa [List.filter_cons, hk] using ih h.2

/-- A write keeps the canonical form. -/
theorem Mem.wf_write {m : Mem} (h : Mem.wf m = true) (a : Nat) (bs : List Byte) : Mem.wf (Mem.write m a bs) = true := by
  have h1 : Mem.wfFrom 0 (m.filter (fun c => decide (c.1 < a))) = true := Mem.wfFrom_filter _ h
  have h2 := Mem.wfFrom_cells a bs
  have h3 := Mem.wfFrom_above (a + bs.length) h
  have h12 : Mem.wfFrom 0 (m.filter (fun c => decide (c.1 < a)) ++ Mem.cells a bs) = true :=
    Mem.wfFrom_append h1 h2 (by intro c hc; simpa using (List.mem_filter.mp hc).2) (Nat.zero_le _)
  refine Mem.wfFrom_append h12 h3 ?_ (Nat.zero_le _)
  intro c hc
  rcases List.mem_append.mp hc with h | h
  · have : c.1 < a := by simpa using (List.mem_filter.mp h).2
    omega
  · have : Mem.lists (Mem.cells a bs) c.1 = true := by
      simp only [Mem.lists, List.any_eq_true]; exact ⟨c, h, by simp⟩
    exact (Mem.lists_cells _ _ _ this).2

/-- n bytes read after a write outside them are the old ones. -/
theorem Mem.byte_write_outside (m : Mem) (a : Nat) (bs : List Byte) (n : Nat) (h : n < a ∨ a + bs.length ≤ n) :
    Mem.byte (Mem.write m a bs) n = Mem.byte m n := by
  rw [Mem.byte_write, if_neg]
  omega

/-- A range of bytes, byte by byte. -/
theorem Mem.getD_bytes (m : Mem) (a n i : Nat) (h : i < n) : (Mem.bytes m a n).getD i Mem.blank = Mem.byte m (a + i) := by
  have hf := Mem.byte_filter m (fun c => decide (a ≤ c) && decide (c < a + n)) (a + i)
  have h1 : a ≤ a + i := by omega
  have h2 : a + i < a + n := by omega
  simp only [h1, h2, decide_true, Bool.and_self, if_true] at hf
  simp [Mem.bytes, h, hf]

end Sys2Proof.Machine
end

