-- ==== Sys2Proof/Laws/PerInstr.lean ====
section
/-!
SUPPORT. Laws of encodings, one instruction at a time: the fields of an instruction are laid out in the format of its opcode (R65), so
that they can be read back from its words, and each of its words is one of 32 bits (R59).
-/
namespace Sys2Proof.Laws.Fields

/-- Fields stand in the format that their opcode has at their length (R65, R93, R94). -/
def placed : Raw → Bool
  | .r _ => true
  | .i h _ _ _ => !layoutV h.op.val
  | .v h _ _ _ _ _ _ _ _ => layoutV h.op.val
  | .x _ _ _ _ _ _ _ _ _ _ => true

/-- The fields of the instruction are in their place, and its words are words. -/
def Statement (i : Instr) : Prop := (∀ r, toRaw i = some r → placed r = true) ∧ ∀ w ∈ encode i, w < 2 ^ 32

theorem head_lt (h : Head) (l : Nat) (hl : l < 4) : h.toWord l < 2 ^ 32 := by
  obtain ⟨f, b, a, d, op⟩ := h
  have := f.isLt; have := b.isLt; have := a.isLt; have := d.isLt; have := op.isLt
  simp only [Head.toWord]; omega

theorem bit_lt (b : Bool) : bitNat b < 2 := by cases b <;> decide

/-- Words of fields are words of 32 bits. -/
theorem toWords_lt (r : Raw) : ∀ w ∈ r.toWords, w < 2 ^ 32 := by
  intro w hw
  cases r with
  | r h =>
    simp only [Raw.toWords, List.mem_singleton] at hw
    exact hw ▸ head_lt h 0 (by decide)
  | i h top c imm =>
    have := top.isLt; have := c.isLt; have := imm.isLt
    simp only [Raw.toWords, List.mem_cons, List.not_mem_nil, or_false] at hw
    rcases hw with rfl | rfl
    · exact head_lt h 1 (by decide)
    · omega
  | v h imm c ty qd qa zm pn p =>
    have := imm.isLt; have := c.isLt; have := ty.isLt; have := p.isLt
    have := bit_lt qd; have := bit_lt qa; have := bit_lt zm; have := bit_lt pn
    simp only [Raw.toWords, List.mem_cons, List.not_mem_nil, or_false] at hw
    rcases hw with rfl | rfl
    · exact head_lt h 1 (by decide)
    · omega
  | x h lit x8 ty pn p g e sop sch =>
    have := lit.isLt; have := x8.isLt; have := ty.isLt; have := p.isLt; have := g.isLt; have := e.isLt
    have := sop.isLt; have := sch.isLt; have := bit_lt pn
    simp only [Raw.toWords, List.mem_cons, List.not_mem_nil, or_false] at hw
    rcases hw with rfl | rfl | rfl
    · exact head_lt h 2 (by decide)
    · omega
    · omega

theorem of_raw {i : Instr} {r : Raw} (h : toRaw i = some r) (hp : placed r = true) : Statement i := by
  refine ⟨fun r' h' => ?_, fun w hw => ?_⟩
  · rw [h] at h'; injection h' with e; exact e ▸ hp
  · simp only [encode, h] at hw; exact toWords_lt r w hw

theorem of_logit {i : Instr} {w : Nat} (h : toRaw i = none) (h' : toLogit i = some w) (hw : w < 2 ^ 32) : Statement i := by
  refine ⟨fun r hr => (by rw [h] at hr; cases hr), fun v hv => ?_⟩
  simp only [encode, h, h', List.mem_singleton] at hv
  exact hv ▸ hw

theorem of_event {i : Instr} (h : toRaw i = none) (h' : toLogit i = none) : Statement i := by
  refine ⟨fun r hr => (by rw [h] at hr; cases hr), fun w hw => ?_⟩
  simp only [encode, h, h'] at hw; cases hw

theorem add (d a b : Reg) : Statement (.add d a b) := of_raw rfl rfl
theorem addi (d a : Reg) (imm : BitVec 20) : Statement (.addi d a imm) := of_raw rfl rfl
theorem sub (d a b : Reg) : Statement (.sub d a b) := of_raw rfl rfl
theorem mul (d a b : Reg) : Statement (.mul d a b) := of_raw rfl rfl
theorem mulh (u : Bool) (d a b : Reg) : Statement (.mulh u d a b) := of_raw rfl rfl
theorem div (u : Bool) (d a b : Reg) : Statement (.div u d a b) := of_raw rfl rfl
theorem rem (u : Bool) (d a b : Reg) : Statement (.rem u d a b) := of_raw rfl rfl
theorem and (d a b : Reg) : Statement (.and d a b) := of_raw rfl rfl
theorem or (d a b : Reg) : Statement (.or d a b) := of_raw rfl rfl
theorem xor (d a b : Reg) : Statement (.xor d a b) := of_raw rfl rfl
theorem andn (d a b : Reg) : Statement (.andn d a b) := of_raw rfl rfl
theorem shlReg (d a b : Reg) : Statement (.shlReg d a b) := of_raw rfl rfl
theorem shlImm (d a : Reg) (n : Fin 64) : Statement (.shlImm d a n) := of_raw rfl rfl
theorem shrReg (d a b : Reg) : Statement (.shrReg d a b) := of_raw rfl rfl
theorem shrImm (d a : Reg) (n : Fin 64) : Statement (.shrImm d a n) := of_raw rfl rfl
theorem shaReg (d a b : Reg) : Statement (.shaReg d a b) := of_raw rfl rfl
theorem shaImm (d a : Reg) (n : Fin 64) : Statement (.shaImm d a n) := of_raw rfl rfl
theorem rotReg (d a b : Reg) : Statement (.rotReg d a b) := of_raw rfl rfl
theorem rotImm (d a : Reg) (n : Fin 64) : Statement (.rotImm d a n) := of_raw rfl rfl
theorem min (u : Bool) (d a b : Reg) : Statement (.min u d a b) := of_raw rfl rfl
theorem max (u : Bool) (d a b : Reg) : Statement (.max u d a b) := of_raw rfl rfl
theorem clz (d a : Reg) : Statement (.clz d a) := of_raw rfl rfl
theorem popc (d a : Reg) : Statement (.popc d a) := of_raw rfl rfl
theorem ext (sx : Bool) (d a : Reg) (pos : Fin 64) (len : Fin 128) : Statement (.ext sx d a pos len) := of_raw rfl rfl
theorem ins (d a : Reg) (pos : Fin 64) (len : Fin 128) : Statement (.ins d a pos len) := of_raw rfl rfl
theorem sel (cc : Cond) (d a b : Reg) : Statement (.sel cc d a b) := of_raw rfl rfl
theorem cmpReg (a b : Reg) : Statement (.cmpReg a b) := of_raw rfl rfl
theorem cmpImm (a : Reg) (imm : BitVec 20) : Statement (.cmpImm a imm) := of_raw rfl rfl
theorem setc (cc : Cond) (d : Reg) : Statement (.setc cc d) := of_raw rfl rfl
theorem li (form : LiForm) (d : Reg) (lit : BitVec 32) : Statement (.li form d lit) := of_raw rfl rfl
theorem mov (d a : Reg) : Statement (.mov d a) := of_raw rfl rfl
theorem adr (d : Reg) (lit : BitVec 32) : Statement (.adr d lit) := of_raw rfl rfl
theorem b (imm : BitVec 20) : Statement (.b imm) := of_raw rfl rfl
theorem bLong (lit : BitVec 32) : Statement (.bLong lit) := of_raw rfl rfl
theorem bc (cc : Cond) (imm : BitVec 20) : Statement (.bc cc imm) := of_raw rfl rfl
theorem brz (nz : Bool) (a : Reg) (imm : BitVec 20) : Statement (.brz nz a imm) := of_raw rfl rfl
theorem call (imm : BitVec 20) : Statement (.call imm) := of_raw rfl rfl
theorem callLong (lit : BitVec 32) : Statement (.callLong lit) := of_raw rfl rfl
theorem callxReg (a : Reg) : Statement (.callxReg a) := of_raw rfl rfl
theorem callxImm (imm : BitVec 20) : Statement (.callxImm imm) := of_raw rfl rfl
theorem jx (d a : Reg) : Statement (.jx d a) := of_raw rfl rfl
theorem loop (rv rp : Bool) (a : Reg) (imm : BitVec 20) : Statement (.loop rv rp a imm) := of_raw rfl rfl
theorem exit : Statement .exit := of_raw rfl rfl
theorem ld (sz : LdSize) (d a : Reg) (imm : BitVec 20) : Statement (.ld sz d a imm) := of_raw rfl rfl
theorem st (sz : StSize) (a b : Reg) (imm : BitVec 20) : Statement (.st sz a b imm) := of_raw rfl rfl
theorem rds (d : Reg) (n : RdReg) : Statement (.rds d n) := of_raw rfl rfl
theorem wrs (n : WrReg) (a : Reg) : Statement (.wrs n a) := of_raw rfl rfl
theorem wrsImfree (a : Reg) : Statement (.wrsImfree a) := of_raw rfl rfl
theorem wrsWindow (n : WinReg) (a : Reg) : Statement (.wrsWindow n a) := of_raw rfl rfl
theorem wrsPbase (a : Reg) : Statement (.wrsPbase a) := of_raw rfl rfl
theorem spush (ch : Chan) : Statement (.spush ch) := of_raw rfl rfl
theorem spop (ch : Chan) : Statement (.spop ch) := of_raw rfl rfl
theorem qfence (mask : Fin 128) : Statement (.qfence mask) := of_raw rfl rfl
theorem nsend (a b : Reg) (len : BitVec 32) (sp : Spark) : Statement (.nsend a b len sp) := of_raw rfl rfl
theorem nrecv (a b : Reg) (len : BitVec 32) (sp : Spark) : Statement (.nrecv a b len sp) := of_raw rfl rfl
theorem vadd (ty : VTy) (o : VOp) (b : VReg) (r : Rnd) : Statement (.vadd ty o b r) := of_raw rfl rfl
theorem vsub (ty : VTy) (o : VOp) (b : VReg) (r : Rnd) : Statement (.vsub ty o b r) := of_raw rfl rfl
theorem vmul (ty : VTy) (o : VOp) (b : VReg) (r : Rnd) : Statement (.vmul ty o b r) := of_raw rfl rfl
theorem vfma (ty : VTy) (o : VOp) (b : VReg) (r : Rnd) : Statement (.vfma ty o b r) := of_raw rfl rfl
theorem vfnma (ty : VTy) (o : VOp) (b : VReg) (r : Rnd) : Statement (.vfnma ty o b r) := of_raw rfl rfl
theorem vmin (ty : VTy) (o : VOp) (b : VReg) : Statement (.vmin ty o b) := of_raw rfl rfl
theorem vmax (ty : VTy) (o : VOp) (b : VReg) : Statement (.vmax ty o b) := of_raw rfl rfl
theorem vabs (ty : VTy) (o : VOp) : Statement (.vabs ty o) := of_raw rfl rfl
theorem vneg (ty : VTy) (o : VOp) : Statement (.vneg ty o) := of_raw rfl rfl
theorem vrcps (o : VOp) : Statement (.vrcps o) := of_raw rfl rfl
theorem vrsqs (o : VOp) : Statement (.vrsqs o) := of_raw rfl rfl
theorem vexp2 (o : VOp) : Statement (.vexp2 o) := of_raw rfl rfl
theorem vlog2 (o : VOp) : Statement (.vlog2 o) := of_raw rfl rfl
theorem vand (o : VOp) (b : VReg) : Statement (.vand o b) := of_raw rfl rfl
theorem vor (o : VOp) (b : VReg) : Statement (.vor o b) := of_raw rfl rfl
theorem vxor (o : VOp) (b : VReg) : Statement (.vxor o b) := of_raw rfl rfl
theorem vshl (ty : VTy) (o : VOp) (n : VShAmt) : Statement (.vshl ty o n) := by cases n <;> exact of_raw rfl rfl
theorem vshr (ty : VTy) (o : VOp) (n : VShAmt) : Statement (.vshr ty o n) := by cases n <;> exact of_raw rfl rfl
theorem vcmp (ty : VTy) (cc : VCond) (pd : PReg) (a : VSrc) (b : VReg) (zm : Bool) (pred : PredOp) : Statement (.vcmp ty cc pd a b zm pred) := of_raw rfl rfl
theorem vsel (o : VOp) (b : VReg) (pc : PReg) : Statement (.vsel o b pc) := of_raw rfl rfl
theorem vmov (o : VOp) : Statement (.vmov o) := of_raw rfl rfl
theorem vbcs (d : VDest) (a : Reg) (zm : Bool) (pred : PredOp) : Statement (.vbcs d a zm pred) := of_raw rfl rfl
theorem viota (ty : VTy) (m : IotaMode) (d : VDest) (a : Reg) (step : BitVec 15) (zm : Bool) (pred : PredOp) : Statement (.viota ty m d a step zm pred) := of_raw rfl rfl
theorem vcvt (ef : EF) (ty : VTy) (o : VOp) (r : Rnd) : Statement (.vcvt ef ty o r) := of_raw rfl rfl
theorem vquant (ef : EF) (a : Reg) (b : VReg) (e : Reg) (t : Fin 8) (rm : RMode) (sat : Bool) (sp : Spark) : Statement (.vquant ef a b e t rm sat sp) := of_raw rfl rfl
theorem vdeq (ef : EF) (z : Bool) (d : VReg) (a : Reg) (lit : BitVec 32) (pred : PredOp) (sp : Spark) : Statement (.vdeq ef z d a lit pred sp) := of_raw rfl rfl
theorem vrotr (o : VOp) (c : Reg) (imm : BitVec 15) : Statement (.vrotr o c imm) := of_raw rfl rfl
theorem vrotc (o : VOp) (c : Reg) (imm : BitVec 15) : Statement (.vrotc o c imm) := of_raw rfl rfl
theorem vbcr (o : VOp) (c : Reg) (imm : BitVec 15) : Statement (.vbcr o c imm) := of_raw rfl rfl
theorem vbcc (o : VOp) (c : Reg) (imm : BitVec 15) : Statement (.vbcc o c imm) := of_raw rfl rfl
theorem vredr (ty : VTy) (op : RedOp) (o : VOp) : Statement (.vredr ty op o) := of_raw rfl rfl
theorem vredc (ty : VTy) (op : RedOp) (o : VOp) : Statement (.vredc ty op o) := of_raw rfl rfl
theorem vsegr (ty : VTy) (op : RedOp) (o : VOp) (pb : PReg) : Statement (.vsegr ty op o pb) := of_raw rfl rfl
theorem vflag (pa : PReg) (pred : PredOp) : Statement (.vflag pa pred) := of_raw rfl rfl
theorem vld (ef : EF) (z : Bool) (d : VReg) (a e : Reg) (lit : BitVec 32) (pred : PredOp) (sp : Spark) : Statement (.vld ef z d a e lit pred sp) := of_raw rfl rfl
theorem vst (ef : EF) (ty : VTy) (a : Reg) (b : VReg) (e : Reg) (lit : BitVec 32) (pred : PredOp) (sp : Spark) : Statement (.vst ef ty a b e lit pred sp) := of_raw rfl rfl
theorem vldq (ef : EF) (q : Fin 4) (a e : Reg) (lit : BitVec 32) (sp : Spark) : Statement (.vldq ef q a e lit sp) := of_raw rfl rfl
theorem vstq (ef : EF) (ty : VTy) (a : Reg) (w : Fin 2) (e : Reg) (lit : BitVec 32) (sp : Spark) : Statement (.vstq ef ty a w e lit sp) := of_raw rfl rfl
theorem vgath (ef : EF) (z : Bool) (part : Fin 4) (d : VReg) (a : Reg) (b : VReg) (lit : BitVec 32) (pred : PredOp) (sp : Spark) : Statement (.vgath ef z part d a b lit pred sp) := of_raw rfl rfl
theorem vscat (ef : EF) (ty : VTy) (part : Fin 4) (a : Reg) (b e : VReg) (lit : BitVec 32) (pred : PredOp) (sp : Spark) : Statement (.vscat ef ty part a b e lit pred sp) := of_raw rfl rfl
theorem vrag (ef : EF) (z : Bool) (d : VReg) (a : Reg) (b : VReg) (lit : BitVec 32) (pred : PredOp) (sp : Spark) : Statement (.vrag ef z d a b lit pred sp) := of_raw rfl rfl
theorem vrng (u01 z : Bool) (d : VReg) (a : Reg) (pred : PredOp) (sp : Spark) : Statement (.vrng u01 z d a pred sp) := of_raw rfl rfl
theorem plog (op : PLogOp) (d a b : PReg) : Statement (.plog op d a b) := of_raw rfl rfl
theorem pset (m : PSetMode) (d : PReg) (c : Reg) (imm : BitVec 15) (zm : Bool) (pred : PredOp) : Statement (.pset m d c imm zm pred) := of_raw rfl rfl
theorem mlease : Statement .mlease := of_raw rfl rfl
theorem mfree : Statement .mfree := of_raw rfl rfl
theorem mfmt (a : Reg) : Statement (.mfmt a) := of_raw rfl rfl
theorem mldw (a : Reg) (lit : BitVec 32) (sp : Spark) : Statement (.mldw a lit sp) := of_raw rfl rfl
theorem mswap : Statement .mswap := of_raw rfl rfl
theorem mstrm (a : Reg) (stride : Fin 65536) (m : Fin 256) (row0 : Fin 128) (sp : Spark) : Statement (.mstrm a stride m row0 sp) := of_raw rfl rfl
theorem mdrain (opt : DrainOpt) (a b e g : Reg) (stride : Fin 65536) (m : Fin 256) (row0 : Fin 128) (sp : Spark) : Statement (.mdrain opt a b e g stride m row0 sp) := of_raw rfl rfl
theorem mchk (clr : Bool) (d : Reg) : Statement (.mchk clr d) := of_raw rfl rfl
theorem cpy (a b e : Reg) (lit : BitVec 32) (sp : Spark) : Statement (.cpy a b e lit sp) := of_raw rfl rfl
theorem cpys (a b e g : Reg) (sp : Spark) : Statement (.cpys a b e g sp) := of_raw rfl rfl
theorem cpycs (first last : Bool) (d a b e g : Reg) (lit : BitVec 32) (sp : Spark) : Statement (.cpycs first last d a b e g lit sp) := of_raw rfl rfl
theorem coll (a : Reg) (lit : BitVec 32) (sp : Spark) : Statement (.coll a lit sp) := of_raw rfl rfl
theorem cwait (q : QName) (a : Reg) : Statement (.cwait q a) := of_raw rfl rfl
theorem smpl (a b e g : Reg) (n : Fin 4096) (sp : Spark) : Statement (.smpl a b e g n sp) := of_raw rfl rfl
theorem sbind (sel : BindSel) (a : Reg) (slot : Fin 2048) (sp : Spark) : Statement (.sbind sel a slot sp) := of_raw rfl rfl
theorem bclaim (d a : Reg) (lsize : Fin 64) (sp : Spark) : Statement (.bclaim d a lsize sp) := of_raw rfl rfl
theorem bfree (d a : Reg) (push : Option Chan) : Statement (.bfree d a push) := of_raw rfl rfl
theorem blend (d a b : Reg) (push : Option Chan) : Statement (.blend d a b push) := of_raw rfl rfl
theorem bret (d a : Reg) (push : Option Chan) : Statement (.bret d a push) := of_raw rfl rfl
theorem bxfer (d a b : Reg) (push : Option Chan) : Statement (.bxfer d a b push) := of_raw rfl rfl
theorem bsplit (d a : Reg) (push : Option Chan) : Statement (.bsplit d a push) := of_raw rfl rfl
theorem bjoin (d a b : Reg) (push : Option Chan) : Statement (.bjoin d a b push) := of_raw rfl rfl
theorem bshare (d a b : Reg) (push : Option Chan) : Statement (.bshare d a b push) := of_raw rfl rfl
theorem bshareAtomic (d a : Reg) (push : Option Chan) : Statement (.bshareAtomic d a push) := of_raw rfl rfl
theorem bunsh (d a : Reg) (push : Option Chan) : Statement (.bunsh d a push) := of_raw rfl rfl
theorem bquery (d a : Reg) (push : Option Chan) : Statement (.bquery d a push) := of_raw rfl rfl
theorem slotrd (d c : Reg) (slot : Fin 64) (push : Option Chan) : Statement (.slotrd d c slot push) := of_raw rfl rfl
theorem slotsw (a : Reg) (slot : Fin 64) (push : Option Chan) : Statement (.slotsw a slot push) := of_raw rfl rfl
theorem bar (stp : Bool) (a : Reg) (imm : BitVec 20) : Statement (.bar stp a imm) := of_raw rfl rfl
theorem cbar : Statement .cbar := of_raw rfl rfl
theorem waittReg (a : Reg) : Statement (.waittReg a) := of_raw rfl rfl
theorem waittImm (a : Reg) (imm : BitVec 20) : Statement (.waittImm a imm) := of_raw rfl rfl
theorem segend (nosig : Bool) (a : Reg) (lit : BitVec 32) : Statement (.segend nosig a lit) := of_raw rfl rfl
theorem atom (op : AtomOp) (ty : VTy) (d a b : Reg) (lit : BitVec 32) (sp : Spark) : Statement (.atom op ty d a b lit sp) := of_raw rfl rfl
theorem afence : Statement .afence := of_raw rfl rfl
theorem rsv (dom : RsvDom) (a b e g : Reg) (sp : Spark) : Statement (.rsv dom a b e g sp) := of_raw rfl rfl
theorem place (d a b : Reg) : Statement (.place d a b) := of_raw rfl rfl
theorem trap (imm : BitVec 20) : Statement (.trap imm) := of_raw rfl rfl
theorem eret : Statement .eret := of_raw rfl rfl
theorem sysc (imm : BitVec 20) : Statement (.sysc imm) := of_raw rfl rfl
theorem tlbiq (all : Bool) (a b : Reg) (sp : Spark) : Statement (.tlbiq all a b sp) := of_raw rfl rfl
theorem capr (d a : Reg) (imm : BitVec 20) : Statement (.capr d a imm) := of_raw rfl rfl
theorem xsend (track part : Bool) (a b e : LReg) (lit : BitVec 32) (push : LPush) : Statement (.xsend track part a b e lit push) := of_raw rfl rfl
theorem xrecv (a b e g : LReg) (lit : BitVec 32) (push : LPush) : Statement (.xrecv a b e g lit push) := of_raw rfl rfl
theorem xfwd (a b e : LReg) (lit : BitVec 32) (push : LPush) : Statement (.xfwd a b e lit push) := of_raw rfl rfl
theorem xred (op : RedOp) (fin : Bool) (a b e g : LReg) (lit : BitVec 32) (push : LPush) : Statement (.xred op fin a b e g lit push) := of_raw rfl rfl
theorem xguard (len : Fin 256) (lit : BitVec 32) : Statement (.xguard len lit) := of_raw rfl rfl
theorem xopen (e : LReg) (lit : BitVec 32) : Statement (.xopen e lit) := of_raw rfl rfl
theorem xstep (last : Bool) (lit : BitVec 32) (push : LPush) : Statement (.xstep last lit push) := of_raw rfl rfl
theorem lset (k : Fin 8) (f : BitVec 23) : Statement (.lset k f) := of_logit rfl rfl (by omega)
theorem ltemp (k : Fin 8) : Statement (.ltemp k) := of_logit rfl rfl (by omega)
theorem lbias : Statement .lbias := of_logit rfl rfl (by decide)
theorem lpen (k : Fin 8) : Statement (.lpen k) := of_logit rfl rfl (by omega)
theorem lmask (inv : Bool) : Statement (.lmask inv) := of_logit rfl rfl (by cases inv <;> decide)
theorem lcap (k : Fin 8) : Statement (.lcap k) := of_logit rfl rfl (by omega)
theorem ltopk (n : BitVec 23) : Statement (.ltopk n) := of_logit rfl rfl (by omega)
theorem ltopp (k : Fin 8) : Statement (.ltopp k) := of_logit rfl rfl (by omega)
theorem lminp (k : Fin 8) : Statement (.lminp k) := of_logit rfl rfl (by omega)
theorem lsoft : Statement .lsoft := of_logit rfl rfl (by decide)
theorem ldraw : Statement .ldraw := of_logit rfl rfl (by decide)
theorem ldrawGreedy : Statement .ldrawGreedy := of_logit rfl rfl (by decide)
theorem lcnt : Statement .lcnt := of_logit rfl rfl (by decide)
theorem lstop : Statement .lstop := of_logit rfl rfl (by decide)
theorem entryArm (d e t : Nat) (ctl : Word) : Statement (.entryArm d e t ctl) := of_event rfl rfl
theorem entryDisarm (d e t : Nat) (ctl : Word) : Statement (.entryDisarm d e t ctl) := of_event rfl rfl
theorem entryDue (d e : Nat) : Statement (.entryDue d e) := of_event rfl rfl
theorem launchStart (d e : Nat) : Statement (.launchStart d e) := of_event rfl rfl
theorem loadResume (d e : Nat) : Statement (.loadResume d e) := of_event rfl rfl
theorem loadComplete (d e : Nat) : Statement (.loadComplete d e) := of_event rfl rfl
theorem launchFirstIssue (d slot : Nat) : Statement (.launchFirstIssue d slot) := of_event rfl rfl
theorem loadLate (d e : Nat) : Statement (.loadLate d e) := of_event rfl rfl
theorem coreRetire (d c : Nat) : Statement (.coreRetire d c) := of_event rfl rfl
theorem barRelease (d slot : Nat) : Statement (.barRelease d slot) := of_event rfl rfl
theorem barDeadline (d slot : Nat) : Statement (.barDeadline d slot) := of_event rfl rfl
theorem cbarRelease (d c : Nat) : Statement (.cbarRelease d c) := of_event rfl rfl
theorem steptickDeadline (d c k : Nat) : Statement (.steptickDeadline d c k) := of_event rfl rfl
theorem waittTarget (d c k : Nat) : Statement (.waittTarget d c k) := of_event rfl rfl
theorem vflagLand (d c k : Nat) : Statement (.vflagLand d c k) := of_event rfl rfl
theorem operandQueueFill (d c q : Nat) : Statement (.operandQueueFill d c q) := of_event rfl rfl
theorem sparkPopGrant (d c ch : Nat) : Statement (.sparkPopGrant d c ch) := of_event rfl rfl
theorem heldPushRetry (d c ch : Nat) : Statement (.heldPushRetry d c ch) := of_event rfl rfl
theorem engineFault (d c k : Nat) : Statement (.engineFault d c k) := of_event rfl rfl
theorem preemptHalt (d slot : Nat) : Statement (.preemptHalt d slot) := of_event rfl rfl
theorem contextSave (d slot : Nat) : Statement (.contextSave d slot) := of_event rfl rfl
theorem saveComplete (d slot : Nat) : Statement (.saveComplete d slot) := of_event rfl rfl
theorem resume (d slot : Nat) : Statement (.resume d slot) := of_event rfl rfl
theorem leaseGrant (d m : Nat) : Statement (.leaseGrant d m) := of_event rfl rfl
theorem tenureEnd (d m : Nat) : Statement (.tenureEnd d m) := of_event rfl rfl
theorem arrayCommandStart (d c : Nat) : Statement (.arrayCommandStart d c) := of_event rfl rfl
theorem arrayCommandComplete (d c id : Nat) : Statement (.arrayCommandComplete d c id) := of_event rfl rfl
theorem fetchStageComplete (d c : Nat) : Statement (.fetchStageComplete d c) := of_event rfl rfl
theorem copyStart (d c : Nat) : Statement (.copyStart d c) := of_event rfl rfl
theorem copyChunk (d c : Nat) : Statement (.copyChunk d c) := of_event rfl rfl
theorem copyRetry (d c : Nat) : Statement (.copyRetry d c) := of_event rfl rfl
theorem copyComplete (d c : Nat) : Statement (.copyComplete d c) := of_event rfl rfl
theorem tlbiqComplete (d c id : Nat) : Statement (.tlbiqComplete d c id) := of_event rfl rfl
theorem tlbiWatchdog (d c id : Nat) : Statement (.tlbiWatchdog d c id) := of_event rfl rfl
theorem brandChange (d c : Nat) : Statement (.brandChange d c) := of_event rfl rfl
theorem brandMessage (n : Nat) : Statement (.brandMessage n) := of_event rfl rfl
theorem brandReply (n : Nat) : Statement (.brandReply n) := of_event rfl rfl
theorem atomicIntervalClose (d slot : Nat) : Statement (.atomicIntervalClose d slot) := of_event rfl rfl
theorem atomicBatch (d n : Nat) : Statement (.atomicBatch d n) := of_event rfl rfl
theorem sbindExecute (d : Nat) : Statement (.sbindExecute d) := of_event rfl rfl
theorem sbindComplete (d : Nat) : Statement (.sbindComplete d) := of_event rfl rfl
theorem smplStart (d : Nat) : Statement (.smplStart d) := of_event rfl rfl
theorem sequenceRun (d : Nat) : Statement (.sequenceRun d) := of_event rfl rfl
theorem smplComplete (d : Nat) : Statement (.smplComplete d) := of_event rfl rfl
theorem neighbourArrival (d c : Nat) : Statement (.neighbourArrival d c) := of_event rfl rfl
theorem collStart (d c : Nat) : Statement (.collStart d c) := of_event rfl rfl
theorem collAdmission (d c : Nat) : Statement (.collAdmission d c) := of_event rfl rfl
theorem collComplete (d c id : Nat) : Statement (.collComplete d c id) := of_event rfl rfl
theorem linkArm (d p t : Nat) : Statement (.linkArm d p t) := of_event rfl rfl
theorem linkDisarm (d p t : Nat) : Statement (.linkDisarm d p t) := of_event rfl rfl
theorem linkEngineStart (d p : Nat) : Statement (.linkEngineStart d p) := of_event rfl rfl
theorem flitDelivery (d p : Nat) : Statement (.flitDelivery d p) := of_event rfl rfl
theorem landingBufferExpiry (d p : Nat) : Statement (.landingBufferExpiry d p) := of_event rfl rfl
theorem receiveDeadline (d p : Nat) : Statement (.receiveDeadline d p) := of_event rfl rfl
theorem guardOverdue (d p : Nat) : Statement (.guardOverdue d p) := of_event rfl rfl
theorem openFlitArrival (n : Nat) : Statement (.openFlitArrival n) := of_event rfl rfl
theorem idleGuard (d p : Nat) : Statement (.idleGuard d p) := of_event rfl rfl
theorem timeExchange (d : Nat) (t1 t2 t3 t4 : Int) : Statement (.timeExchange d t1 t2 t3 t4) := of_event rfl rfl
theorem slew (d : Nat) : Statement (.slew d) := of_event rfl rfl
theorem podFormation (cfg : PodCfg) : Statement (.podFormation cfg) := of_event rfl rfl
theorem portFailure (d p : Nat) : Statement (.portFailure d p) := of_event rfl rfl
theorem abortFlit (d p : Nat) : Statement (.abortFlit d p) := of_event rfl rfl
theorem writeWithImmediate (d port t : Nat) (addr : Word) (data : List (BitVec 8)) (imm : W32) : Statement (.writeWithImmediate d port t addr data imm) := of_event rfl rfl
theorem rdmaWrite (d port t : Nat) (addr : Word) (data : List (BitVec 8)) : Statement (.rdmaWrite d port t addr data) := of_event rfl rfl
theorem rdmaRead (d port t : Nat) (addr : Word) (len : Nat) : Statement (.rdmaRead d port t addr len) := of_event rfl rfl
theorem tenantConfigure (d t : Nat) (cfg : TenantCfg) : Statement (.tenantConfigure d t cfg) := of_event rfl rfl
theorem tenantRemove (d t : Nat) : Statement (.tenantRemove d t) := of_event rfl rfl
theorem attestation (d : Nat) (nonce : List (BitVec 8)) : Statement (.attestation d nonce) := of_event rfl rfl
theorem errorInjection (d t c : Nat) (kind : InjectKind) : Statement (.errorInjection d t c kind) := of_event rfl rfl
theorem errorLogRead (d first count : Nat) : Statement (.errorLogRead d first count) := of_event rfl rfl
theorem telemetryRead (d : Nat) : Statement (.telemetryRead d) := of_event rfl rfl
theorem firmwareBoot (d : Nat) (mgmt engine : FwImage) : Statement (.firmwareBoot d mgmt engine) := of_event rfl rfl
theorem throttleStep (d island eighths : Nat) : Statement (.throttleStep d island eighths) := of_event rfl rfl
theorem thermalProtection (d island : Nat) : Statement (.thermalProtection d island) := of_event rfl rfl
theorem dieReset (d : Nat) (failed : Bool) : Statement (.dieReset d failed) := of_event rfl rfl
theorem illegalOp : Statement .illegalOp := of_event rfl rfl
theorem fetchInvalid : Statement .fetchInvalid := of_event rfl rfl
theorem portRestore (d p : Nat) : Statement (.portRestore d p) := of_event rfl rfl

end Sys2Proof.Laws.Fields
end

