-- ==== Sys2Proof/Tests/Slice0.lean ====
section
/-!
SUPPORT. Tests: the words of every instruction, the checks of WellFormed, a witness of the hypotheses of each statement, and single
steps whose results the spec states.
-/
namespace Sys2Proof.Tests

-- Each theorem is elaborated before the next, which bounds the memory that the kernel evaluations take together.
set_option Elab.async false
open Sys2Proof.Machine Sys2Proof.Claims

/-- Scalar words of the spec (R311, R313, R314, R326, R338, R340, R350, R352, R357, R359, R361, R362, R405, R54). CMP sA, sB is composed
from the fields of R326. -/
theorem test_decode_scalar : ([((0x031AD004, 0, 0), .add 13 13 12),
    ((0x0000C009, 0x00000003, 0), .addi 12 0 3),
    ((0x039AC00C, 0, 0), .sub 12 13 14),
    ((0x039AC010, 0, 0), .mul 12 13 14),
    ((0x0B9AC014, 0, 0), .mulh true 12 13 14),
    ((0x039AC018, 0, 0), .div false 12 13 14),
    ((0x0B9AC018, 0, 0), .div true 12 13 14),
    ((0x039AC01C, 0, 0), .rem false 12 13 14),
    ((0x039AC020, 0, 0), .and 12 13 14),
    ((0x039AC024, 0, 0), .or 12 13 14),
    ((0x039AC028, 0, 0), .xor 12 13 14),
    ((0x039AC02C, 0, 0), .andn 12 13 14),
    ((0x039AC030, 0, 0), .shlReg 12 13 14),
    ((0x001AE031, 0x00000002, 0), .shlImm 14 13 2),
    ((0x039AC034, 0, 0), .shrReg 12 13 14),
    ((0x001AC035, 0x00000004, 0), .shrImm 12 13 4),
    ((0x039AC038, 0, 0), .shaReg 12 13 14),
    ((0x001AC039, 0x0000003F, 0), .shaImm 12 13 63),
    ((0x039AC03C, 0, 0), .rotReg 12 13 14),
    ((0x001AC03D, 0x00000008, 0), .rotImm 12 13 8),
    ((0x039AC040, 0, 0), .min false 12 13 14),
    ((0x0B9AC044, 0, 0), .max true 12 13 14),
    ((0x001AC048, 0, 0), .clz 12 13),
    ((0x001AC04C, 0, 0), .popc 12 13),
    ((0x081AC051, 0x00000108, 0), .ext true 12 13 8 4),
    ((0x001AC055, 0x00000210, 0), .ins 12 13 16 8),
    ((0x0B9AC058, 0, 0), .sel .ne 12 13 14),
    ((0x039A005C, 0, 0), .cmpReg 13 14),
    ((0x0018005D, 0x000FFFFF, 0), .cmpImm 12 0xFFFFF#20),
    ((0x1000C060, 0, 0), .setc .lt 12),
    ((0x0000C066, 0x12345678, 0), .li .sx 12 0x12345678),
    ((0x1000C066, 0x80000000, 0), .li .hi 12 0x80000000),
    ((0x001AC068, 0, 0), .mov 12 13),
    ((0x0000C06E, 0x00000240, 0), .adr 12 0x240),
    ((0x039AC61C, 0, 0), .place 12 13 14)] : List ((Nat × Nat × Nat) × Instr)).all
    (fun e => (decodeStrand e.1.1 e.1.2.1 e.1.2.2).toOption == some e.2) = true := by decide

/-- Control and system words (R319, R321, R324, R342, R351, R51, R375, R339, R325). B, B.long and CALL take their base words from R319. -/
theorem test_decode_control : ([((0x00000101, 0x000FFFF8, 0), .b 0xFFFF8#20),
    ((0x00000102, 0x00000100, 0), .bLong 0x100),
    ((0x08000105, 0x000FFFF8, 0), .bc .ne 0xFFFF8#20),
    ((0x08180109, 0x000FFFF8, 0), .brz true 12 0xFFFF8#20),
    ((0x0000010D, 0x00000010, 0), .call 16),
    ((0x0000010E, 0x0001FF00, 0), .callLong 0x1FF00),
    ((0x001A0110, 0, 0), .callxReg 13),
    ((0x00000111, 0x00000007, 0), .callxImm 7),
    ((0x00181114, 0, 0), .jx 1 12),
    ((0x18180119, 0x000FFFF8, 0), .loop true true 12 0xFFFF8#20),
    ((0x0000011C, 0, 0), .exit),
    ((0x00000681, 0x00000005, 0), .trap 5),
    ((0x00000684, 0, 0), .eret),
    ((0x00000689, 0x00000001, 0), .sysc 1),
    ((0x0000C691, 0x00000003, 0), .capr 12 0 3)] : List ((Nat × Nat × Nat) × Instr)).all
    (fun e => (decodeStrand e.1.1 e.1.2.1 e.1.2.2).toOption == some e.2) = true := by decide

/-- Port and special-register words (R348, R374, R368, R404, R372, R367, R363). The numbers of %imfree, %vsize and %pbase are those of R106. -/
theorem test_decode_port : ([((0x1804C181, 0x00000010, 0), .ld .w64 12 2 16),
    ((0x03580185, 0x00000000, 0), .st .b8 12 13 0),
    ((0x1B040185, 0x00000010, 0), .st .w64 2 12 16),
    ((0x00014189, 0x00000042, 0), .rds 20 .trappc),
    ((0x0018018D, 0x00000040, 0), .wrs .trapvec 12),
    ((0x0018018D, 0x00000061, 0), .wrsImfree 12),
    ((0x0018018D, 0x00000033, 0), .wrsWindow .vsize 12),
    ((0x0018018D, 0x00000034, 0), .wrsPbase 12),
    ((0x28000190, 0, 0), .spush 5),
    ((0x28000194, 0, 0), .spop 5),
    ((0x00000199, 0x0000007F, 0), .qfence 127),
    ((0x03DC019E, 0x00000200, 0), .nsend 14 15 512 .none),
    ((0x035801A2, 0x00000200, 0x00000009), .nrecv 12 13 512 (.push 1))] : List ((Nat × Nat × Nat) × Instr)).all
    (fun e => (decodeStrand e.1.1 e.1.2.1 e.1.2.2).toOption == some e.2) = true := by decide

/-- Vector and predicate words (R380 to R383, R386 to R392, R394, R365, R366). -/
theorem test_decode_vector : ([((0x01492201, 0x00000029, 0), .vadd .f32 ⟨.reg 18, .reg 4, true, ⟨9, false⟩⟩ 5 ⟨.near, false, 0⟩),
    ((0x01492205, 0x00000100, 0), .vsub .i32 ⟨.reg 18, .reg 4, false, ⟨0, false⟩⟩ 5 ⟨.near, false, 0⟩),
    ((0x01492209, 0, 0), .vmul .f32 ⟨.reg 18, .reg 4, false, ⟨0, false⟩⟩ 5 ⟨.near, false, 0⟩),
    ((0x0149220D, 0x000AC000, 0), .vfma .f32 ⟨.reg 18, .reg 4, false, ⟨0, false⟩⟩ 5 ⟨.stoch, false, 12⟩),
    ((0x01492211, 0, 0), .vfnma .f32 ⟨.reg 18, .reg 4, false, ⟨0, false⟩⟩ 5 ⟨.near, false, 0⟩),
    ((0x01492215, 0, 0), .vmin .f32 ⟨.reg 18, .reg 4, false, ⟨0, false⟩⟩ 5),
    ((0x01492219, 0, 0), .vmax .f32 ⟨.reg 18, .reg 4, false, ⟨0, false⟩⟩ 5),
    ((0x0009221D, 0, 0), .vabs .f32 ⟨.reg 18, .reg 4, false, ⟨0, false⟩⟩),
    ((0x00092221, 0, 0), .vneg .f32 ⟨.reg 18, .reg 4, false, ⟨0, false⟩⟩),
    ((0x00092225, 0, 0), .vrcps ⟨.reg 18, .reg 4, false, ⟨0, false⟩⟩),
    ((0x00092229, 0, 0), .vrsqs ⟨.reg 18, .reg 4, false, ⟨0, false⟩⟩),
    ((0x0009222D, 0, 0), .vexp2 ⟨.reg 18, .reg 4, false, ⟨0, false⟩⟩),
    ((0x00092231, 0, 0), .vlog2 ⟨.reg 18, .reg 4, false, ⟨0, false⟩⟩),
    ((0x01492235, 0, 0), .vand ⟨.reg 18, .reg 4, false, ⟨0, false⟩⟩ 5),
    ((0x01492239, 0, 0), .vor ⟨.reg 18, .reg 4, false, ⟨0, false⟩⟩ 5),
    ((0x0149223D, 0, 0), .vxor ⟨.reg 18, .reg 4, false, ⟨0, false⟩⟩ 5),
    ((0x08092241, 0x00060100, 0), .vshl .i32 ⟨.reg 18, .reg 4, false, ⟨0, false⟩⟩ (.imm 3)),
    ((0x01492245, 0x00000200, 0), .vshr .n32 ⟨.reg 18, .reg 4, false, ⟨0, false⟩⟩ (.reg 5)),
    ((0x11489249, 0, 0), .vcmp .f32 .lt 9 (.reg 4) 5 false ⟨0, false⟩),
    ((0x0149224D, 0x0000A000, 0), .vsel ⟨.reg 18, .reg 4, false, ⟨0, false⟩⟩ 5 10),
    ((0x00032251, 0x00000040, 0), .vmov ⟨.reg 18, .queue 1, false, ⟨0, false⟩⟩),
    ((0x00192255, 0, 0), .vbcs (.reg 18) 12 false ⟨0, false⟩),
    ((0x00192259, 0x00020100, 0), .viota .i32 .elem (.reg 18) 12 1 false ⟨0, false⟩),
    ((0x0009425D, 0x0A02C000, 0), .vcvt 1 .f32 ⟨.reg 20, .reg 4, false, ⟨0, false⟩⟩ ⟨.stoch, false, 12⟩),
    ((0x00092269, 0x00020000, 0), .vrotr ⟨.reg 18, .reg 4, false, ⟨0, false⟩⟩ 0 1),
    ((0x0009226D, 0x00020000, 0), .vrotc ⟨.reg 18, .reg 4, false, ⟨0, false⟩⟩ 0 1),
    ((0x00092271, 0x000A0000, 0), .vbcr ⟨.reg 18, .reg 4, false, ⟨0, false⟩⟩ 0 5),
    ((0x00092275, 0x00060000, 0), .vbcc ⟨.reg 18, .reg 4, false, ⟨0, false⟩⟩ 0 3),
    ((0x08092279, 0, 0), .vredr .f32 .max ⟨.reg 18, .reg 4, false, ⟨0, false⟩⟩),
    ((0x0009227D, 0, 0), .vredc .f32 .sum ⟨.reg 18, .reg 4, false, ⟨0, false⟩⟩),
    ((0x028922A1, 0, 0), .vsegr .f32 .sum ⟨.reg 18, .reg 4, false, ⟨0, false⟩⟩ 10),
    ((0x00140281, 0x00000009, 0), .vflag 10 ⟨9, false⟩),
    ((0x12D49400, 0, 0), .plog .xor 9 10 11),
    ((0x00009405, 0x02580000, 0), .pset .lt 9 0 300 false ⟨0, false⟩)] : List ((Nat × Nat × Nat) × Instr)).all
    (fun e => (decodeStrand e.1.1 e.1.2.1 e.1.2.2).toOption == some e.2) = true := by decide

/-- Vector memory words (R384, R397, R399 to R402). -/
theorem test_decode_vector_memory : ([((0x04980262, 0x00000001, 0x90000000), .vquant 144 12 18 0 1 .near false .none),
    ((0x00194266, 0x00000000, 0x90000000), .vdeq 144 false 20 12 0 ⟨0, false⟩ .none),
    ((0x00192286, 0, 0x01000000), .vld 1 false 18 12 0 0 ⟨0, false⟩ .none),
    ((0x0498028A, 0, 0x01000000), .vst 1 .f32 12 18 0 0 ⟨0, false⟩ .none),
    ((0x0018128E, 0, 0), .vldq 0 1 12 0 0 .none),
    ((0x00180292, 0, 0x01000000), .vstq 1 .f32 12 0 0 0 .none),
    ((0x05192296, 0, 0), .vgath 0 false 0 18 12 20 0 ⟨0, false⟩ .none),
    ((0x0518029A, 0, 0x000002A0), .vscat 0 .f32 0 12 20 21 0 ⟨0, false⟩ .none),
    ((0x0519229E, 0, 0x01000000), .vrag 1 false 18 12 20 0 ⟨0, false⟩ .none),
    ((0x001922A6, 0, 0x01000000), .vrng true false 18 12 ⟨0, false⟩ .none)] : List ((Nat × Nat × Nat) × Instr)).all
    (fun e => (decodeStrand e.1.1 e.1.2.1 e.1.2.2).toOption == some e.2) = true := by decide

/-- Words of the engine port (R158, R161, R163, R166, R169, R172, R331, R327, R335, R276, R274, R323, R219, R371, R376). -/
theorem test_decode_engine : ([((0x00000480, 0, 0), .mlease),
    ((0x00000484, 0, 0), .mfree),
    ((0x00180488, 0, 0), .mfmt 12),
    ((0x0018048E, 0, 0x0000000B), .mldw 12 0 (.push 3)),
    ((0x00000490, 0, 0), .mswap),
    ((0x00180496, 0x004C8000, 0), .mstrm 12 0x4C 128 0 .none),
    ((0x001C049A, 0x00100400, 0x070041E0), .mdrain ⟨true, true, true, false, false⟩ 14 0 15 16 16 4 0 .none),
    ((0x0800C49C, 0, 0), .mchk true 12),
    ((0x03580502, 0x00001000, 0x000001C9), .cpy 12 13 14 4096 (.push 1)),
    ((0x03580506, 0, 0x00003DC0), .cpys 12 13 14 15 .none),
    ((0x0359450A, 0, 0x02003DCB), .cpycs false true 20 12 13 14 15 0 (.push 3)),
    ((0x0018050E, 0, 0x0000000A), .coll 12 0 (.push 2)),
    ((0x18000510, 0, 0), .cwait .sampler 0),
    ((0x03580516, 0x00000002, 0x00003DCC), .smpl 12 13 14 15 2 (.push 4)),
    ((0x0018051A, 0x00000011, 0x0F000000), .sbind (.parts true true true true) 12 17 .none),
    ((0x001AC582, 0x00000010, 0), .bclaim 12 13 16 .none),
    ((0x001AC584, 0, 0), .bfree 12 13 none),
    ((0x039AC588, 0, 0), .blend 12 13 14 none),
    ((0x001AC58C, 0, 0), .bret 12 13 none),
    ((0xA39AC590, 0, 0), .bxfer 12 13 14 (some 2)),
    ((0x001AC594, 0, 0), .bsplit 12 13 none),
    ((0x039AC598, 0, 0), .bjoin 12 13 14 none),
    ((0x039AC59C, 0, 0), .bshare 12 13 14 none),
    ((0x081AC59C, 0, 0), .bshareAtomic 12 13 none),
    ((0x001AC5A0, 0, 0), .bunsh 12 13 none),
    ((0x001AC5A4, 0, 0), .bquery 12 13 none),
    ((0x0000C5A9, 0x00D00005, 0), .slotrd 12 13 5 none),
    ((0x001805AD, 0x00000005, 0), .slotsw 12 5 none),
    ((0x0358061A, 0, 0x03003DC0), .rsv .d3 12 13 14 15 .none),
    ((0x0358068E, 0, 0x0000000D), .tlbiq false 12 13 (.push 5))] : List ((Nat × Nat × Nat) × Instr)).all
    (fun e => (decodeStrand e.1.1 e.1.2.1 e.1.2.2).toOption == some e.2) = true := by decide

/-- Words of the sync unit (R41, R45, R50, R315, R316, R403). -/
theorem test_decode_sync : ([((0x080A0601, 0x000FFFF0, 0), .bar true 5 0xFFFF0#20),
    ((0x00000604, 0, 0), .cbar),
    ((0x00180608, 0, 0), .waittReg 12),
    ((0x00000609, 0x00000FA0, 0), .waittImm 0 4000),
    ((0x001C060E, 0x12345678, 0), .segend false 14 0x12345678),
    ((0x039AC612, 0x00000008, 0x00100000), .atom .add .i32 12 13 14 8 .none),
    ((0x00000614, 0, 0), .afence)] : List ((Nat × Nat × Nat) × Instr)).all
    (fun e => (decodeStrand e.1.1 e.1.2.1 e.1.2.2).toOption == some e.2) = true := by decide

/-- Link words (R408, and the pod program). The XRED word is composed from the fields of R408. -/
theorem test_decode_link : ([((0x00820702, 0x00000064, 0x00000060), .xsend false false 1 2 3 100 .none),
    ((0x00888706, 0x00000032, 0x00001469), .xrecv 4 2 3 5 50 (.to 8 1)),
    ((0x010A070A, 0x00000344, 0x00000060), .xfwd 5 4 3 836 .none),
    ((0x2082070E, 0x00000064, 0x00001060), .xred .sum true 1 2 3 4 100 .none),
    ((0x00000712, 0x000007D0, 0x10000000), .xguard 16 2000),
    ((0x00000716, 0x000007D0, 0x000000A0), .xopen 5 2000),
    ((0x0000871A, 0x00002EE0, 0x0000000A), .xstep false 12000 (.to 8 2))] : List ((Nat × Nat × Nat) × Instr)).all
    (fun e => (decodeLink e.1.1 e.1.2.1 e.1.2.2).toOption == some e.2) = true := by decide

/-- Logit words (R343). -/
theorem test_decode_logit : ([((0x40200041, 0, 0), .lset 1 0x201000),
    ((0x00000002, 0, 0), .ltemp 0),
    ((0x00000003, 0, 0), .lbias),
    ((0x00000044, 0, 0), .lpen 1),
    ((0x00000205, 0, 0), .lmask true),
    ((0x00000106, 0, 0), .lcap 4),
    ((0x00000407, 0, 0), .ltopk 2),
    ((0x000000C8, 0, 0), .ltopp 3),
    ((0x00000089, 0, 0), .lminp 2),
    ((0x0000000A, 0, 0), .lsoft),
    ((0x0000000B, 0, 0), .ldraw),
    ((0x0000020B, 0, 0), .ldrawGreedy),
    ((0x0000000C, 0, 0), .lcnt),
    ((0x0000000D, 0, 0), .lstop)] : List ((Nat × Nat × Nat) × Instr)).all
    (fun e => (decodeLogit e.1.1).toOption == some e.2) = true := by decide

/-! The checks of WellFormed: one ill-formed term for each, which the check refuses, and for some of them the word that holds it. -/

/-- Bit fields of length 0, of length 65, and past bit 63 (R340). -/
theorem test_ill_fields : ([.ext false 12 13 8 0, .ext true 12 13 0 65, .ins 12 13 60 5, .ins 12 13 0 0] : List Instr).all
    (fun i => !wellFormed i) = true := by decide

/-- Literals that are no multiple of 4 (R74), and LOOP on s0 (R351). -/
theorem test_ill_control : ([.bLong 0x102, .callLong 0x1, .loop false false 0 4] : List Instr).all (fun i => !wellFormed i) = true := by
  decide

/-- Lengths of neighbour transfers: 0, no multiple of 256, above 65,536 (R363). -/
theorem test_ill_neighbour : ([.nsend 14 15 0 .none, .nsend 14 15 300 .none, .nrecv 14 15 65792 .none] : List Instr).all
    (fun i => !wellFormed i) = true := by decide

/-- Vector fields: the reserved predicate, a draw base without mode 5, rounding of integers, a queued result of an FMA, types that an
instruction does not take, ZM of a reduction (R68, R378, R380, R386, R388, R382, R389, R392). -/
theorem test_ill_vector :
    ([.vadd .f32 ⟨.reg 18, .reg 4, false, ⟨0, true⟩⟩ 5 ⟨.near, false, 0⟩,
      .vsub .f32 ⟨.reg 18, .reg 4, false, ⟨0, false⟩⟩ 5 ⟨.near, false, 12⟩,
      .vmul .i32 ⟨.reg 18, .reg 4, false, ⟨0, false⟩⟩ 5 ⟨.zero, false, 0⟩,
      .vmul .n32 ⟨.reg 18, .reg 4, false, ⟨0, false⟩⟩ 5 ⟨.near, true, 0⟩,
      .vfma .f32 ⟨.queue 0, .reg 4, false, ⟨0, false⟩⟩ 5 ⟨.near, false, 0⟩,
      .vfnma .f32 ⟨.queue 1, .reg 4, false, ⟨0, false⟩⟩ 5 ⟨.near, false, 0⟩,
      .vabs .n32 ⟨.reg 18, .reg 4, false, ⟨0, false⟩⟩, .vneg .n32 ⟨.reg 18, .reg 4, false, ⟨0, false⟩⟩,
      .vshl .f32 ⟨.reg 18, .reg 4, false, ⟨0, false⟩⟩ (.imm 3), .vshr .f32 ⟨.reg 18, .reg 4, false, ⟨0, false⟩⟩ (.reg 5),
      .vcmp .i32 .uo 9 (.reg 4) 5 false ⟨0, false⟩, .viota .f32 .elem (.reg 18) 12 1 false ⟨0, false⟩,
      .vredr .f32 .sum ⟨.reg 18, .reg 4, true, ⟨0, false⟩⟩, .vredc .f32 .sum ⟨.reg 18, .reg 4, true, ⟨0, false⟩⟩,
      .vsegr .f32 .sum ⟨.reg 18, .reg 4, true, ⟨0, false⟩⟩ 10, .vflag 10 ⟨0, true⟩, .pset .lt 9 0 300 false ⟨0, true⟩] :
      List Instr).all (fun i => !wellFormed i) = true := by decide

/-- Element formats: a reserved code, a reserved small-float code, a format that a gather does not take, one that is no small float
where a record needs one, a draw base without mode 5 (R71, R131, R399, R384, R401). -/
theorem test_ill_formats :
    ([.vld 10 false 18 12 0 0 ⟨0, false⟩ .none, .vcvt 0x80 .f32 ⟨.reg 20, .reg 4, false, ⟨0, false⟩⟩ ⟨.near, false, 0⟩,
      .vst 0xE4 .f32 12 18 0 0 ⟨0, false⟩ .none, .vldq 0x7F 0 12 0 0 .none, .vstq 10 .f32 12 0 0 0 .none,
      .vgath 9 false 0 18 12 20 0 ⟨0, false⟩ .none, .vscat 9 .f32 0 12 20 21 0 ⟨0, false⟩ .none,
      .vrag 0xA4 false 18 12 20 0 ⟨0, false⟩ .none, .vdeq 1 false 20 12 0 ⟨0, false⟩ .none, .vquant 1 12 18 0 1 .near false .none,
      .vquant 0x90 12 18 3 1 .near false .none] : List Instr).all (fun i => !wellFormed i) = true := by decide

/-- Engine commands: no rows, rows past 127, a bias or draw base that no option uses, CSC without REQ, a D without LAST, no count, too
many rows, a binding of nothing, region sizes, operands of TLBIQ.all (R166, R169, R331, R276, R274, R205, R376). -/
theorem test_ill_engine :
    ([.mstrm 12 0 0 0 .none, .mstrm 12 0 100 29 .none, .mdrain ⟨false, false, false, false, false⟩ 14 0 15 0 0 4 0 .none,
      .mdrain ⟨false, false, false, false, false⟩ 14 0 0 16 0 4 0 .none, .mdrain ⟨false, false, false, false, true⟩ 14 0 0 0 0 4 0 .none,
      .cpycs true false 20 12 13 14 15 0 .none, .smpl 12 13 14 15 0 .none, .smpl 12 13 14 15 2049 .none,
      .sbind (.parts false false false false) 12 17 .none, .bclaim 12 13 7 .none, .bclaim 12 13 41 .none, .tlbiq true 12 0 .none,
      .atom .and .f32 12 13 14 8 .none, .atom .xor .f32 12 13 14 8 .none] : List Instr).all (fun i => !wellFormed i) = true := by decide

/-- Link and logit words: a result register without FINAL, a guard below 16 ticks, penalties past k5, LTOPK of 0 and above 2^20 (R408,
R412, R343). -/
theorem test_ill_link : ([.xred .sum false 1 2 3 4 100 .none, .xguard 15 2000, .lpen 6, .ltopk 0, .ltopk 1048577] : List Instr).all
    (fun i => !wellFormed i) = true := by decide

/-- Words whose fields are reserved or not zero raise RESERVED_FIELD; a reserved opcode, a length that an opcode does not have, and a
link instruction in a strand's stream raise ILLEGAL_OP; length 0b11 raises ILLEGAL_LEN (R74, R75, R89). -/
theorem test_refused_words :
    ([(0x139AC018, 0), (0x039AC05C, 0), (0x00000102, 2), (0x0000C051, 0x00001040), (0x00000682, 0)] : List (Nat × Nat)).map
      (fun e => match decodeStrand e.1 e.2 0 with
        | .error f => decide (f = .reservedField)
        | .ok _ => false) = [true, true, true, true, false]
    ∧ ([0x00000070, 0x00000702, 0x00000005] : List Nat).map (fun w => match decodeStrand w 0 0 with
        | .error f => decide (f = .illegalOp)
        | .ok _ => false) = [true, true, true]
    ∧ (match decodeStrand 0x00000007 0 0 with
        | .error f => decide (f = .illegalLen)
        | .ok _ => false) = true := by decide

/-! Witnesses: concrete states and operands that meet the hypotheses of each statement, clause by clause. -/

/-- Nothing holds the instruction i of the strand at p, as a computation. -/
def readyB (s : State) (p : At) (i : Instr) : Bool :=
  let f := formOf i
  decide (s.actor = .strand p.d p.c p.k) && s.canIssue p && f.names.all (s.strand p).vnameOk
    && !(f.uses.any (fun r => (s.strand p).await.any (fun a => a.1 == r.val))) && !(f.flags && (s.strand p).awaitFlags.isSome)
    && (s.core p.d p.c).operandsReady (s.strand p) (s.cyc p.d p.c) (s.readForm p i) && (s.core p.d p.c).unitFree (s.cyc p.d p.c) i
    && !(s.popMissing p f.sp) && f.checked.all (fun r => (s.strand p).sreg r |>.ok)
    && f.lowChecked.all (fun r => (s.strand p).sreg r |>.lowOk)
    && !((f.release || (f.pushes && (pushCh f.sp).isSome)) && (s.core p.d p.c).releaseWaits p.k i) && (s.windowed p i).isSome

theorem ready_of_readyB {s : State} {p : At} {i : Instr} (h : readyB s p i = true) : Issues s p i := by
  simp only [readyB, Bool.and_eq_true, decide_eq_true_eq, Bool.not_eq_true'] at h
  obtain ⟨⟨⟨⟨⟨⟨⟨⟨⟨⟨⟨h1, h2⟩, h3⟩, h4⟩, h5⟩, h6⟩, h7⟩, h8⟩, h9⟩, h10⟩, h11⟩, h12⟩ := h
  exact ⟨h1, h2, h3, h4, h5, h6, h7, h8, h9, h10, h11, h12⟩

/-- The same for a list of instructions. -/
theorem issues_of_list {s : State} {p : At} {l : List Instr} (h : l.all (readyB s p) = true) : ∀ i ∈ l, Issues s p i :=
  fun i hi => ready_of_readyB (List.all_eq_true.mp h i hi)

/-- The place of the probe's strand. -/
def p0 : At := ⟨0, 0, 0⟩

/-- A die on which a gang of one core runs in Free mode and its strand 0 acts; its brand window holds the home entry. -/
def probe : State := { (State.reset.withStrandWord [0]).modCore 0 0 (fun y => { y with window := [0] }) with agenda := [], actor := .strand 0 0 0 }

/-- The probe with registers set and its strand and its core changed. -/
def probeOf (regs : List (Nat × Word)) (f : Strand → Strand) (g : Core → Core) : State :=
  (regs.foldl (fun s e => s.setReg p0 (Fin.ofNat 32 e.1) e.2) probe).modCore 0 0 g |>.modStrand p0 f

/-- The probe with a trap handler in its code page. -/
def handlerProbe (regs : List (Nat × Word)) : State := probeOf regs (fun z => { z with trapvec := 0x100 }) id

/-- The probe with its gang changed. -/
def gangProbe (s : State) (f : Gang → Gang) : State := s.setGang 0 0 (f probeGang)

/-- The scalar instructions that the statements on them name (SumAndConjunctions, ProductsAndRemainders, ExclusiveOr, LesserAndGreater,
ShiftsFieldsAndQuotient, ComparisonAndLiterals, Residues): each issues in the probe. -/
theorem witness_scalar : ∀ i ∈ ([.add 12 13 14, .and 12 13 14, .andn 0 13 14, .clz 12 13, .mul 12 13 14, .mulh true 12 13 14,
    .mulh false 0 13 14, .or 12 13 14, .popc 12 13, .rem true 12 13 14, .rem false 12 13 14, .sub 12 13 14, .div true 12 13 14,
    .div false 12 13 14, .xor 12 13 14, .min true 12 13 14, .min false 12 13 14, .max true 12 13 14, .max false 12 13 14,
    .shlReg 12 13 14, .shrReg 12 13 14, .shaReg 12 13 14, .rotReg 12 13 14, .shlImm 12 13 63, .shrImm 12 13 63, .shaImm 12 13 63,
    .rotImm 12 13 63, .ext true 12 13 63 1, .ext false 12 13 0 64, .ins 12 13 63 1, .ins 12 13 0 64, .addi 12 13 1, .adr 12 1,
    .li .sx 12 1, .li .zx 12 1, .li .hi 12 1, .mov 12 13, .sel .eq 12 13 14, .setc .eq 12, .place 12 13 14, .cmpReg 13 14, .cmpImm 13 1,
    .loop true true 12 1, .loop false false 12 1] : List Instr), Issues probe p0 i := issues_of_list (by decide)

/-- Operands of the identity of DIV and REM, with a divisor that is not 0: 7 and -2 (R360). -/
theorem witness_ProductsAndRemainders : ((-2 : Int) ≠ 0)
    ∧ ∀ i ∈ ([.div false 12 13 14, .rem false 12 13 14] : List Instr),
        Issues (probeOf [(13, 7), (14, 0xFFFFFFFFFFFFFFFE)] id id) p0 i := ⟨by decide, issues_of_list (by decide)⟩

/-- The residues of the probe's registers match their values, and a register whose residue does not (R105). -/
theorem witness_Residues : ((probe.strand p0).sreg 13).ok = true ∧ ((probe.strand p0).sreg 14).ok = true
    ∧ (let s := probeOf [] (fun z => z.setSReg 14 { val := 7, lo := 8, hi := 0 }) id;
       s.actor = .strand 0 0 0 ∧ s.canIssue p0 = true ∧ (s.strand p0).await = []
         ∧ (s.core 0 0).operandsReady (s.strand p0) (s.cyc 0 0) (.mul 12 13 14) = true ∧ ((s.strand p0).sreg 14).ok = false) := by decide

/-- Branches, calls and LOOP issue; JX with an aligned target and with another (R342); LOOP at a counter of 1, 0 and 2. -/
theorem witness_BranchesAndCalls : (∀ i ∈ ([.b 1, .bLong 4, .bc .eq 1, .brz true 12 1, .call 1, .callLong 4, .jx 12 13, .exit] : List Instr),
    Issues probe p0 i) ∧ (let s := handlerProbe [(13, 0x102)];
      readyB s p0 (.jx 12 13) = true ∧ (s.reg p0 13).toNat % 4 ≠ 0 ∧ (s.strand p0).trapvec ≠ 0 ∧ (s.core 0 0).page 0 = .code) :=
  ⟨issues_of_list (by decide), by decide⟩

/-- A handler in a code page (TrapsAndReturn), none, and one in a free page; TRAP, SYSC and ERET with an aligned %trappc and with
another. -/
theorem witness_TrapsAndReturn :
    (let s := handlerProbe [];
      (s.strand p0).trapvec ≠ 0 ∧ (s.core 0 0).page ((s.strand p0).trapvec.toNat / 4096) ≠ .free
        ∧ ([.trap 5, .sysc 1, .eret] : List Instr).all (readyB s p0) = true ∧ (s.strand p0).trappc.toNat % 4 = 0)
    ∧ (probe.strand p0).trapvec = 0
    ∧ (let s := probeOf [] (fun z => { z with trapvec := 0x2000, trappc := 2 }) id;
        (s.core 0 0).page ((s.strand p0).trapvec.toNat / 4096) = .free ∧ readyB s p0 .eret = true
          ∧ (s.strand p0).trappc.toNat % 4 ≠ 0) := by decide

/-- The last place of the scratchpad, which the probe's core owns. -/
theorem witness_Stores : (let s := probeOf [(13, 0x80000000003FFFF8), (14, 7)] id id;
    let i : Instr := .st .w64 13 14 0;
    let l : Instr := .ld .w64 12 13 0;
    let t := s.acting p0 i;
    readyB s p0 i = true ∧ readyB s p0 l = true ∧ ((s.reg p0 13).toNat : Int) + 0 = 2 ^ 63 + (0x3FFFF8 : Int)
      ∧ t.judgeStrand 0 0 .write 0x3FFFF8 8 = .ok ∧ (s.acting p0 l).judgeStrand 0 0 .read 0x3FFFF8 8 = .ok
      ∧ (t.core 0 0).storeHeld 0 0 0x3FFFF8 8 = false ∧ (t.core 0 0).meetsStore 0 0x3FFFF8 8 = false) := by decide

/-- Accesses past the scratchpad, below it and off their alignment; and one in another core's scratchpad, which no right covers. -/
theorem witness_LoadsAndFaults :
    (let s := handlerProbe [(13, 0x8000000000400000)];
      readyB s p0 (.ld .i8 12 13 0) = true ∧ readyB s p0 (.st .b8 13 14 0) = true ∧ 2 ^ 63 + 0x400000 < (s.reg p0 13).toNat + 1)
    ∧ (let s := handlerProbe [(13, 0x8000000000000001)];
      readyB s p0 (.ld .n32 12 13 0) = true ∧ (s.reg p0 13).toNat % 4 ≠ 0)
    ∧ (let s := (handlerProbe [(13, 0x8000000000000000)]).modDie 0 (fun x => { x with brands := [] });
      readyB s p0 (.ld .w64 12 13 0) = true ∧ readyB s p0 (.st .w64 13 14 0) = true
        ∧ (s.acting p0 (.ld .w64 12 13 0)).judgeStrand 0 0 .read 0 8 = .bad .unowned none
        ∧ (s.acting p0 (.st .w64 13 14 0)).judgeStrand 0 0 .write 0 8 = .bad .unowned none) := by decide

/-- The offset that an access reaches. -/
def offOf : Reached → Option Nat
  | .at_ n => some n
  | _ => none

/-- CALLX of entry 255 through a register and of entry 7 through the immediate, with an import table at the scratchpad's base that holds
there an entry that is not valid, and one that is and asks for a window of 12, and for one of 16. -/
theorem witness_ImportCalls :
    (let s := (probeOf [(13, 255)] (fun z => { z with importTab := 0x8000000000000000 }) (fun y =>
        { y with spad := Mem.write (Mem.write y.spad 56 (leBytes 8 0x8000000C00003000)) 2040 (leBytes 8 0x8000001000000000) }));
      let s2 := s.modStrand p0 (fun z => { z with trapvec := 0x100 });
      let e (n : Nat) : Nat := ofLeBytes (strandBytes (s.core 0 0) 0 (8 * n) 8);
      readyB s p0 (.callxReg 13) = true ∧ readyB s p0 (.callxImm 7) = true ∧ readyB s2 p0 (.callxImm 3) = true
        ∧ (s.reg p0 13).toNat = 255 ∧ (s.strand p0).importTab.toNat % 8 = 0
        ∧ offOf (s.reach p0 .read ((s.strand p0).importTab.toNat + 8 * 255) 8 8) = some 2040
        ∧ offOf (s.reach p0 .read ((s.strand p0).importTab.toNat + 8 * 7) 8 8) = some 56
        ∧ e 3 / 2 ^ 63 = 0 ∧ e 7 / 2 ^ 63 = 1 ∧ e 7 / 2 ^ 37 % 2 ^ 26 = 0 ∧ e 7 / 2 ^ 18 % 2 ^ 14 = 0 ∧ e 7 % 4 = 0
        ∧ e 7 / 2 ^ 32 % 32 = 12 ∧ e 255 / 2 ^ 32 % 32 = 16 ∧ (s.strand p0).vsize = 12) := by decide

/-- A gang of cores 0 and 1: a transfer of the longest range to the neighbour, with and without a receive posted for it, and one that
names number 4. -/
theorem witness_NeighbourData :
    (let s := gangProbe (probeOf [(13, 0x8000000000000000), (14, 1), (15, 4)] (fun z => { z with trapvec := 0x100 }) id)
        (fun g => { g with cores := [0, 1] });
      let s2 := s.modCore 0 0 (fun y => { y with nrecvs := [{ sender := 1, off := 0, len := 65536, push := none, strand := 0, taken := false }] });
      let i : Instr := .nsend 13 14 65536 .none; let j : Instr := .nrecv 13 14 65536 (.push 3);
      readyB s p0 i = true ∧ readyB s p0 j = true ∧ readyB s2 p0 j = true ∧ readyB s p0 (.nsend 13 15 256 .none) = true
        ∧ readyB s p0 (.nrecv 13 15 256 .none) = true ∧ 3 < (s.reg p0 15).toNat ∧ (s.reg p0 14).toNat ≤ 3
        ∧ (s.acting p0 i).neighbour p0 1 = some 1 ∧ (List.range 1).countP (fun x => x / 4 == 0 && [0, 1].contains x) = 1 ∧ offOf ((s.acting p0 i).reach p0 .read 0x8000000000000000 65536 256) = some 0
        ∧ offOf ((s.acting p0 i).reach p0 .write 0x8000000000000000 65536 256) = some 0
        ∧ (s.core 0 0).nrecvs = [] ∧ (s2.core 0 0).nrecvs.any (fun r => r.sender == 1) = true) := by decide

/-- Every special register is read in the probe and in a deterministic launch; every writable one is written, a window register with the
bounds of its values and one past them. -/
theorem witness_SpecialRegisters :
    ([RdReg.physcore, .seed, .flags, .trapvec, .cycle, .tick, .imcode].all (fun n => readyB probe p0 (.rds 12 n)) = true)
    ∧ (let s := gangProbe probe (fun g => { g with det := true }); s.det 0 0 = true ∧ readyB s p0 (.rds 12 .tick) = true)
    ∧ probe.ctx 0 0 = some (0, 0, probeGang)
    ∧ ([WrReg.importTab, .flags, .status, .prot, .trapvec, .trappc, .trapsave, .steptick].all (fun n => readyB probe p0 (.wrs n 13)) = true)
    ∧ (let s := handlerProbe [(13, 2)]; readyB s p0 (.wrs .trapvec 13) = true ∧ (s.reg p0 13).toNat % 4 ≠ 0)
    ∧ (let s := handlerProbe [(12, 16), (13, 52), (14, 11), (15, 8), (16, 32), (17, 0), (18, 33), (19, 1), (20, 15), (21, 53)];
        (∀ i ∈ ([.wrsWindow .vbase 12, .wrsWindow .vbase 13, .wrsWindow .vbase 20, .wrsWindow .vbase 21, .wrsWindow .vsize 19,
          .wrsWindow .vsize 12, .wrsWindow .vsize 17, .wrsWindow .vrot 14, .wrsWindow .vrot 12, .wrsPbase 15, .wrsPbase 16, .wrsPbase 17,
          .wrsPbase 18] : List Instr), readyB s p0 i = true)
        ∧ (s.strand p0).vsize = 12 ∧ (s.strand p0).vbase = 16)  := by decide

/-- A page that holds code, a free one and one that is filling are named; capability entries 0, 63, 16 in a deterministic launch, -1 and
64. -/
theorem witness_PagesAndCapabilities :
    (let s := probeOf [(13, 3)] id id; readyB s p0 (.wrsImfree 13) = true ∧ (s.core 0 0).page 0 = .code ∧ (s.core 0 0).page 1 = .free)
    ∧ (let s := probeOf [(13, 2)] (fun z => { z with trapvec := 0x100 }) (fun y => { y with pages := Tab.set y.pages 1 .filling });
        readyB s p0 (.wrsImfree 13) = true ∧ (s.core 0 0).page 1 = .filling ∧ (s.reg p0 13).getLsbD 1 = true)
    ∧ (let s := gangProbe (handlerProbe []) (fun g => { g with det := true }); s.det 0 0 = true
        ∧ ([.capr 12 0 0, .capr 12 0 63, .capr 12 0 16, .capr 12 0 18, .capr 12 0 0xFFFFF#20, .capr 12 0 64] : List Instr).all
            (readyB s p0) = true) := by decide

/-- SPUSH to an empty channel, to a full one and behind a held push; SPOP with a grant and with a count. -/
theorem witness_SparkChannels :
    (readyB probe p0 (.spush 5) = true ∧ (probe.core 0 0).held = [] ∧ (probe.core 0 0).spark 5 = 0)
    ∧ (let s := probeOf [] id (fun y => { y with sparks := [(5, 15)] }); readyB s p0 (.spush 5) = true ∧ (s.core 0 0).spark 5 = 15
        ∧ readyB s p0 (.spop 5) = true)
    ∧ (let s := probeOf [] id (fun y => { y with held := [{ ch := 5, agent := 0, strand := 0, fresh := true, by_ := .outside }] });
        readyB s p0 (.spush 5) = true ∧ (s.core 0 0).held.any (fun h => h.ch == 5) = true
          ∧ (s.core 0 0).held.any (fun h => h.by_ == Pusher.spush 0) = false)
    ∧ (let s := probeOf [] id (fun y => { y with held := [{ ch := 6, agent := 0, strand := 0, fresh := true, by_ := .spush 0 }] });
        readyB s p0 (.spush 5) = true ∧ (s.core 0 0).held.any (fun h => h.by_ == Pusher.spush 0) = true)
    ∧ (let s := probeOf [] (fun z => { z with granted := true, popWait := some 5 }) (fun y => { y with sparks := [(5, 1)] });
        readyB s p0 (.spop 5) = true) := by decide

/-- QFENCE and CWAIT with nothing to wait for and with one command; a wait for a tick to come, at its tick and past it. -/
theorem witness_WaitsAndDeadlines :
    ([.qfence 127, .cwait .copy 13, .cbar, .waittReg 13, .waittImm 13 1, .afence] : List Instr).all (readyB probe p0) = true
    ∧ (let s := probe.acceptCmd p0 0 none [] [] (.coll 0 none false);
        readyB s p0 (.qfence 1) = true ∧ readyB s p0 (.cwait .copy 0) = true ∧ (s.core 0 0).queue 0 ≠ [] ∧ (s.reg p0 0).toNat = 0)
    ∧ (let s := (gangProbe probe (fun g => { g with start := 5 })).modDie 0 (fun x => { x with tick := 10 });
        let l := gangProbe s (fun g => { g with start := 5, locked := true });
        let o := gangProbe s (fun g => { g with atomOpen := true });
        readyB s p0 (.waittImm 0 4) = true ∧ readyB s p0 (.waittImm 0 5) = true ∧ readyB l p0 (.waittReg 0) = true
          ∧ (s.ctx 0 0).isSome = true ∧ (l.ctx 0 0).isSome = true ∧ readyB o p0 .afence = true ∧ (o.strand p0).arrivedAtomic = false) := by
  decide

/-- BAR in Free mode; in Locked mode as the first arrival, as a later one, late, and with another deadline. -/
theorem witness_Barriers :
    readyB probe p0 (.bar false 13 5) = true
    ∧ (let s := (gangProbe probe (fun g => { g with locked := true })).modDie 0 (fun x => { x with tick := 10 });
        let t := gangProbe s (fun g => { g with locked := true, barDl := some (10, true) });
        let u := gangProbe s (fun g => { g with locked := true, barDl := some (9, true) });
        readyB s p0 (.bar true 0 10) = true ∧ readyB s p0 (.bar true 0 9) = true ∧ readyB s p0 (.bar true 0 0xFFFFF#20) = true
          ∧ readyB t p0 (.bar true 0 10) = true ∧ readyB u p0 (.bar true 0 9) = true ∧ readyB t p0 (.bar true 0 11) = true) := by decide

/-- The last strand of a gang and of a core that arrives, and one that is not the last. -/
theorem witness_ArrivalNotes :
    (let all (w : Wait) : State := [0, 1, 2, 3].foldl (fun s k => s.modStrand ⟨0, 0, k⟩ (fun z => { z with wait := w })) probe;
      (all .bar).ctx 0 0 = some (0, 0, probeGang) ∧ probeGang.barDone = none ∧ probeGang.cores = [0]
        ∧ ([0, 1, 2, 3].all (fun k => ((all .bar).strand ⟨0, 0, k⟩).wait == .bar)) = true
        ∧ ([0, 1, 2, 3].all (fun k => ((all .cbar).strand ⟨0, 0, k⟩).wait == .cbar)) = true
        ∧ ((all .cbar).core 0 0).cbarDone = none ∧ (probe.strand p0).wait = .none)  := by decide

/-- SEGEND with the signature of an empty segment, with another, and in Locked mode with a wrong count. -/
theorem witness_SegmentEnd :
    (readyB probe p0 (.segend false 0 0) = true ∧ readyB probe p0 (.segend false 0 1) = true
      ∧ (probe.strand p0).sig ^^^ 0xFFFFFFFF#32 = 0 ∧ (probe.strand p0).void = false)
    ∧ (let s := gangProbe (probeOf [(13, 5)] id id) (fun g => { g with locked := true });
        readyB s p0 (.segend true 13 0) = true ∧ s.locked 0 0 = true ∧ s.reg p0 13 ≠ 0 ∧ s.special p0 .cycle = 0) := by decide

/-- Names on both sides of the window's ends, and one outside the window of an instruction of the vector unit. -/
theorem witness_Windows : ((15 : VReg).val < 16 ∧ 16 ≤ (16 : VReg).val ∧ (7 : PReg).val < 8 ∧ 8 ≤ (8 : PReg).val)
    ∧ (let s := handlerProbe []; let i : Instr := .vmov ⟨.reg 28, .reg 4, false, ⟨0, false⟩⟩;
        i.unit = .vector ∧ s.actor = .strand 0 0 0 ∧ s.canIssue p0 = true ∧ 16 + (s.strand p0).vsize.toNat ≤ (28 : VReg).val
          ∧ (28 : VReg) ∈ (formOf i).names) := by decide

/-- Formats of each kind and codes in range: of a small float its NaN, its largest magnitude and another; numbers with a positive denominator
(ExactResults). -/
theorem witness_ExactResults :
    (EF.ok 144 = true ∧ 128 ≤ (144 : EF).val ∧ (∀ c ∈ [0x80, 0x7F, 0x11], c < 2 ^ (8 - 2 * ((144 : EF).val / 32 % 4))))
    ∧ ([0, 1, 3, 9, 144].all (fun ef => EF.ok (Fin.ofNat 256 ef)) = true) ∧ ((3 : EF), 32) ∈ [((3 : EF), 32), (5, 16), (7, 8), (9, 4)]
    ∧ (∀ w ∈ [0x3F800000#32, 0xC0400000, 0, 0x80000000], ∃ s n d e, f32v w = .num s n d e ∧ 0 < d) := by
  refine ⟨by decide, by decide, by decide, fun w h => ?_⟩
  simp only [List.mem_cons, List.not_mem_nil, or_false] at h
  rcases h with rfl | rfl | rfl | rfl <;> exact ⟨_, _, _, _, rfl, by decide⟩

/-- Operands of 2^x and log2 x: three halves, two, three, zero, a negative number, and one of each side of the range (FunctionValues). -/
theorem witness_FunctionValues :
    (∀ w ∈ [0x3FC00000#32, 0x40000000, 0x40400000, 0, 0xBF800000, 0x44800000, 0xC4800000], ∃ s n d e, f32v w = .num s n d e)
    ∧ (ratio false 3 1 (-1) = (1 : Int) + ((1 : Nat) : Rat) / 2 ^ 1) ∧ (1024 : Rat) ≤ ratio false 1024 1 0 ∧ ratio true 1024 1 0 ≤ (-1024 : Rat)
    ∧ (3 ≠ 2 ^ Nat.log2 3 ∧ ratio false 2 1 0 = (2 : Rat) ^ (1 : Int)) := by
  refine ⟨fun w h => ?_, by decide +kernel, by decide +kernel, by decide +kernel, by decide, by decide +kernel⟩
  simp only [List.mem_cons, List.not_mem_nil, or_false] at h
  rcases h with rfl | rfl | rfl | rfl | rfl | rfl | rfl <;> exact ⟨_, _, _, _, rfl⟩

/-- Vector instructions with registers, and with a head in the operand queue and room in the store queue. -/
theorem witness_VectorArithmetic :
    (let o : VOp := ⟨.reg 18, .reg 4, true, ⟨9, false⟩⟩; let r : Rnd := ⟨.near, false, 0⟩;
      ∀ i ∈ ([.vadd .f32 o 5 r, .vsub .f32 o 5 r, .vmul .i32 o 5 r, .vfma .n32 o 5 r, .vfnma .f32 o 5 ⟨.stoch, true, 13⟩, .vmin .f32 o 5,
        .vmax .i32 o 5, .vabs .f32 o, .vneg .i32 o, .vand o 5, .vor o 5, .vxor o 5, .vshl .i32 o (.reg 5), .vshl .n32 o (.imm 31),
        .vshr .i32 o (.reg 5), .vshr .n32 o (.imm 31), .vmov o, .vsel o 5 10, .vrcps o, .vrsqs o, .vexp2 o, .vlog2 o, .vcvt 1 .f32 o r,
        .vrotr o 13 1, .vrotc o 13 1, .vbcr o 13 1, .vbcc o 13 1, .vredr .f32 .sum o, .vredc .i32 .max o, .vsegr .n32 .min o 10,
        .vbcs (.reg 18) 13 false ⟨0, false⟩, .viota .i32 .row (.reg 18) 13 1 false ⟨0, false⟩, .vcmp .f32 .lt 9 (.reg 4) 5 false ⟨0, false⟩,
        .plog .and 9 10 11, .pset .lt 9 13 1 false ⟨0, false⟩, .vflag 10 ⟨9, false⟩, .vrng true true 18 13 ⟨0, false⟩ (.push 2)] :
        List Instr), readyB probe p0 i = true)
    ∧ (let s := probeOf [] id (fun y => { y with opq := [(1, [{ due := 0, present := true, data := zeroVec }])] });
        let o : VOp := ⟨.queue 1, .queue 1, false, ⟨0, false⟩⟩;
        readyB s p0 (.vmov o) = true ∧ o.a.ready (s.core 0 0) = true ∧ o.d.room (s.core 0 0) = true
          ∧ readyB s p0 (.vbcs (.queue 0) 13 false ⟨0, false⟩) = true) := by decide

/-- A tenant's configuration with the whole die, a translation table at 0x4000 and the first 16 schedule entries. -/
def probeCfg : TenantCfg :=
  { clamps := BitVec.allOnes 16, root := 0x4000, allotBase := 0, allotLimit := 0x100000000, poolFirst := 64, poolLast := 255, schedFirst := 0,
    schedSize := 16, slotFirst := 0, slotCount := 64, qps := [], ringAddr := 0, ringLog := 10, saveArea := 2 ^ 47, digestArea := 0,
    digestSize := 0, ikey := none, inject := false }

/-- A tenant so configured. -/
def probeTenant : Tenant :=
  { cfg := probeCfg, wslots := [], lowerActive := true, recovery := none, seq := 0, ring := [], pages := [], mark := 0 }

/-- A state with that tenant. -/
def tenanted (s : State) : State := s.setTenant 0 0 probeTenant

/-- The probe at a tick. -/
def probeAt (n : Nat) : State := probe.modDie 0 (fun x => { x with tick := n })

/-- A format word: bf16 activations and weights, bf16 out. -/
def fmtWord : Word := 0x010101

def okV (v : Verdict) : Bool := v == .ok

/-- The rows of a row form, checked as a computation. -/
def rowsB (s : State) (i : Instr) (acc : Access) (ef : EF) (offs : Nat → Nat) : Bool :=
  (List.range 16).all (fun r => offs r + 8 * ef.width ≤ 0x400000 && okV ((s.acting p0 i).judgeStrand 0 0 acc (offs r) (8 * ef.width)))

/-- VLD, VLDQ, VST and VSTQ of packed rows at the scratchpad's base, their bytes owned and no command in the way. -/
theorem witness_VectorStores :
    (let s := probeOf [(13, 0x8000000000000000)] id (fun y => { y with stq := [(0, [zeroVec])] });
      let offs (r : Nat) : Nat := 128 * r;
      ([.vld 1 false 18 13 0 0 ⟨0, false⟩ .none, .vldq 1 0 13 0 0 .none, .vst 1 .f32 13 18 0 0 ⟨0, false⟩ .none, .vstq 1 .f32 13 0 0 0 .none] :
        List Instr).all (readyB s p0) = true
      ∧ rowsB s (.vld 1 false 18 13 0 0 ⟨0, false⟩ .none) .read 1 offs = true ∧ rowsB s (.vldq 1 0 13 0 0 .none) .read 1 offs = true
      ∧ rowsB s (.vst 1 .f32 13 18 0 0 ⟨0, false⟩ .none) .write 1 offs = true ∧ rowsB s (.vstq 1 .f32 13 0 0 0 .none) .write 1 offs = true
      ∧ EF.width 1 = 16 ∧ (s.reg p0 13).toNat = 2 ^ 63 ∧ ((s.core 0 0).opq = []) ∧ (s.core 0 0).storeQueue 0 = [zeroVec]
      ∧ ((List.range 16).all (fun r => !(s.core 0 0).storeHeld 0 0 (offs r) 128)) = true) := by decide +kernel

/-- Rows that share no byte, and a vector of 1,024 elements. -/
theorem witness_ForwardingTable : zeroVec.length = 1024 ∧ (∀ r < 16, ∀ r' < 16, r < r' → 128 * r + 8 * EF.width 1 ≤ 128 * r') :=
  ⟨by decide +kernel, by decide⟩

/-- Gathers and scatters with no active element, whose base alone is checked, and with every element at the scratchpad's base. -/
theorem witness_GathersAndScatters :
    (let s := probeOf [(13, 0x8000000000000000)] (fun z => { z with trapvec := 0x100 }) (fun y =>
        { y with vregs := [(6, (List.range 1024).map (fun _ => 65#32))] });
      ([.vgath 0 false 3 18 13 5 0 ⟨0, false⟩ .none, .vrag 1 false 18 13 5 0 ⟨0, false⟩ .none, .vrag 1 false 18 13 6 0 ⟨0, false⟩ .none,
        .vscat 0 .f32 0 13 5 4 0 ⟨0, false⟩ .none] : List Instr).all (readyB s p0) = true
      ∧ okV (s.judgeStrand 0 0 .read 0 4) = true ∧ okV (s.judgeStrand 0 0 .write 0 4) = true
      ∧ (s.core 0 0).storeHeld 0 0 0 4 = false ∧ (s.core 0 0).vreg 5 = zeroVec
      ∧ 64 < ((((s.core 0 0).vreg 6).getD 1 0).toNat)) := by decide +kernel

/-- A record place that is aligned and owned: zero bytes are no record, and four records that VQUANT made are. -/
theorem witness_VectorLoadsAndRecords :
    (let s := probeOf [(13, 0x8000000000000000)] (fun z => { z with trapvec := 0x100 }) id;
      readyB s p0 (.vquant 144 13 18 0 0 .near false .none) = true ∧ readyB s p0 (.vdeq 144 false 20 13 0 ⟨0, false⟩ .none) = true
        ∧ okV (s.judgeStrand 0 0 .write 0 (4 * recBytes (EF.width 144))) = true ∧ okV (s.judgeStrand 0 0 .read 0 (4 * recBytes (EF.width 144))) = true
        ∧ (s.core 0 0).storeHeld 0 0 0 (4 * recBytes (EF.width 144)) = false) := by decide +kernel

/-- Bytes that are no record: all zero. -/
theorem witness_refused_record : readRecords 144 (List.replicate (4 * recBytes (EF.width 144)) 0) = none := by decide +kernel

/-- The engine port takes commands for each of its queues, 0 to 6. -/
theorem witness_CommandAcceptance : ∀ i ∈ ([.mlease, .mfree, .mswap, .mfmt 13, .mchk true 12, .mldw 13 0 .none, .mstrm 13 0 128 0 .none,
    .mdrain ⟨true, true, true, true, false⟩ 14 0 15 16 256 1 127 .none, .cpy 12 13 14 4096 (.push 1), .cpys 12 13 14 15 .none,
    .cpycs true true 20 12 13 14 15 0 (.push 3), .coll 12 0 (.push 2), .smpl 12 13 14 15 1 .none, .sbind .unbind 12 2047 .none,
    .bclaim 12 13 16 .none, .bfree 12 13 none, .blend 12 13 14 none, .bret 12 13 (some 7), .bxfer 12 13 14 (some 2), .bsplit 12 13 none,
    .bjoin 12 13 14 none, .bshare 12 13 14 none, .bshareAtomic 12 13 none, .bunsh 12 13 none, .bquery 12 13 none, .slotrd 12 13 63 none,
    .slotsw 12 0 none, .atom .add .i32 12 13 14 8 .none, .rsv .d3 12 13 14 15 .none, .tlbiq true 0 0 .none, .tlbiq false 12 13 .none] :
    List Instr), Issues (handlerProbe []) p0 i := issues_of_list (by decide)

/-- The format queue empty, with a word, and full; a good format word and one that is not; a tile in the scratchpad, one off its
alignment, and a drain whose rows overlap. -/
theorem witness_Matrix :
    (let s := probeOf [(13, 0x8000000000000000), (14, fmtWord), (15, 0x0F), (16, 0x8000000000000001)] (fun z => { z with trapvec := 0x100 })
        (fun y => { y with fmtq := [fmtWord] });
      let t := probeOf [] id (fun y => { y with fmtq := List.replicate 16 fmtWord });
      let b := (fmtOf fmtWord).tileBytes;
      ([.mfmt 14, .mfmt 15, .mldw 13 0 .none, .mldw 16 0 .none, .mstrm 13 128 128 0 .none, .mdrain ⟨false, false, true, false, false⟩ 13 0 0 0 16 2 126 .none,
          .mdrain ⟨false, false, true, false, false⟩ 13 0 0 0 0 2 126 .none] : List Instr).all (readyB s p0) = true
        ∧ readyB t p0 (.mfmt 14) = true ∧ (t.core 0 0).fmtq.length = 16
        ∧ (fmtOf fmtWord).ok = true ∧ (fmtOf 0x0F).ok = false ∧ (probe.core 0 0).fmtq = [] ∧ readyB probe p0 (.mldw 13 0 .none) = true
        ∧ (mldwSource s p0 (2 ^ 63) b).toOption.isSome = true ∧ (mldwSource s p0 (2 ^ 63 + 1) b).toOption.isSome = false
        ∧ drainRefused ⟨false, false, true, false, false⟩ 0 0 2 (fmtOf fmtWord) = true
        ∧ drainRefused ⟨false, false, true, false, false⟩ 0 16 2 (fmtOf fmtWord) = false) := by decide

/-- Copies of nothing and of 2^40 bytes; a full copy queue. -/
theorem witness_CopyAndServiceCommands :
    (let s := handlerProbe [(14, 0x10000000000), (15, 0x0010000000100000), (16, 0x8000800000000000), (17, 1)];
      (s.reg p0 13).toNat = 0 ∧ 2 ^ 40 ≤ (s.reg p0 14).toNat ∧ 2 ^ 40 ≤ (s.reg p0 15).toNat / 2 ^ 32 * ((s.reg p0 15).toNat % 2 ^ 32)
        ∧ (([.cpy 12 13 14 0 .none, .cpys 12 13 15 0 .none, .cpycs true true 20 12 13 14 0 0 .none, .cpy 12 13 13 0 .none,
          .smpl 12 17 14 15 2048 .none, .smpl 12 13 14 15 1 .none, .rsv .d3 13 13 17 13 .none, .rsv .d1 13 13 13 13 .none,
          .rsv .d1 13 13 17 17 .none, .tlbiq true 0 0 .none, .tlbiq false 16 13 .none] : List Instr).all (readyB s p0)) = true)
    ∧ (let s := (List.range 16).foldl (fun s _ => s.acceptCmd p0 0 none [] [] (.coll 0 none false)) probe;
        (s.core 0 0).copyQ.length = 16 ∧ readyB s p0 (.cpy 12 13 14 0 .none) = true)
    ∧ (let s := probeOf [(13, 0x8000000000000000)] id id; let i : Instr := .atom .add .i32 12 13 14 4 .none;
        readyB s p0 i = true ∧ (s.acting p0 i).ctx 0 0 = some (0, 0, probeGang)
          ∧ (match atomSpot (s.acting p0 i) p0 (2 ^ 63 + 4) with
            | .ok va => decide (va = 4)
            | .error _ => false) = true)
    ∧ (probe.die 0).rsvs = [] := by decide

/-- Names and targets that are well formed and some that are not. -/
theorem witness_BrandCommands :
    (let s := handlerProbe [(13, 0x10000000), (14, 0x1FFFF), (15, 0x0000800000000000), (16, 0x0FFFFFFF), (17, 0x1000000000000000)];
      (∀ i ∈ ([.bclaim 12 15 8 .none, .bclaim 12 17 40 .none, .bfree 12 13 none, .bfree 12 16 none, .blend 12 16 0 none, .blend 12 16 14 none,
          .bret 12 13 none, .bxfer 12 16 14 none, .bsplit 12 13 none, .bjoin 12 16 13 none, .bshare 12 16 14 none, .bshareAtomic 12 13 none,
          .bunsh 12 13 none, .bquery 12 13 none, .slotrd 12 13 63 none, .slotsw 13 0 none, .slotsw 16 0 none] : List Instr), readyB s p0 i = true)
        ∧ agentOk 0 = true ∧ agentOk (0x1FFFF % 65536) = false ∧ (s.reg p0 16).toNat < 2 ^ 28 ∧ 2 ^ 28 ≤ (s.reg p0 13).toNat
        ∧ (s.reg p0 15).toNat < 2 ^ 60 ∧ (s.reg p0 15).toNat / 2 ^ 47 % 2 = 1 ∧ 2 ^ 60 ≤ (s.reg p0 17).toNat) := by decide

/-- Every strand of a core in a way of waiting. -/
def allWait (s : State) (w : Wait) : State := [0, 1, 2, 3].foldl (fun s k => s.modStrand ⟨0, 0, k⟩ (fun z => { z with wait := w })) s

/-- A barrier of a running gang that opens and one that does not, in each mode; a core barrier at its tick and before (BarrierReleases). -/
theorem witness_BarrierReleases :
    (let s (g : Gang) : State := gangProbe (allWait (probeAt 20) .bar) (fun _ => g);
      (∀ g ∈ [{ probeGang with barDone := some (4, true) }, { probeGang with barDone := some (5, true) },
          { probeGang with locked := true, barDone := some (4, true), barDl := some (20, false) },
          { probeGang with locked := true, barDone := some (4, true), barDl := some (21, false) },
          { probeGang with locked := true, barDone := some (19, true), barDl := some (21, true) },
          { probeGang with locked := true, barDone := some (19, false), barDl := some (21, true) }],
        (s g).gang 0 0 = some g ∧ g.phase.active = true ∧ g.barDone.isSome = true) ∧ (s probeGang).now 0 = 20)
    ∧ (let s := probeOf [] id (fun y => { y with cbarDone := some 3 });
        (s.core 0 0).cbarDone = some 3 ∧ s.now 0 < 3 + 2 ∧ 3 + 2 ≤ (s.modDie 0 (fun x => { x with tick := 5 })).now 0) := by decide

/-- Strand 1 of core 0 is missing at the deadline; a strand stalls, waits, and waits for a tick, under %steptick. -/
theorem witness_WaitDeadlines :
    (let s := (gangProbe ((allWait (probeAt 20) .bar).modStrand ⟨0, 0, 1⟩ (fun z => { z with wait := .none })) (fun g =>
        { g with locked := true, barDl := some (20, false) }));
      (s.gang 0 0).isSome = true ∧ (s.strand p0).wait = .bar ∧ (s.strand ⟨0, 0, 1⟩).wait = .none ∧ (s.strand ⟨0, 0, 1⟩).exited = false
        ∧ [0] = [] ++ 0 :: [])
    ∧ (∀ w ∈ [Wait.none, .bar, .cbar, .waitt 9, .qfence [1]],
        let s := gangProbe (probe.modStrand p0 (fun z => { z with wait := w, steptick := 5, stalled := w == Wait.none })) (fun g =>
          { g with locked := true });
        (s.ctx 0 0).isSome = true ∧ (s.strand p0).running = true ∧ (s.strand p0).exited = false ∧ (s.strand p0).steptick ≠ 0) := by decide

/-- A WAITT, two VFLAGs of which one is due, and an operand queue whose second entry is due; a pop that waits on a channel; held pushes of
each kind (LandingEvents, SparkEvents). -/
theorem witness_LandingsAndEngineFaults :
    (let e : OpEntry := { due := 3, present := false, data := [] };
      let s := probeOf [] (fun z => { z with wait := .waitt 0, vflags := [⟨0, true, false, false, 7⟩, ⟨1, false, false, true, 0⟩] }) (fun y =>
        { y with opq := [(1, [{ e with present := true }, e])] });
      (s.strand p0).wait = .waitt 0 ∧ (s.strand p0).vflags.filter (fun f => f.left = 0) ≠ []
        ∧ Tab.get (s.core 0 0).opq 1 [] = [{ e with present := true }] ++ e :: [])
    ∧ (let r : EngRec := { strand := 0, cause := .copyPage, progress := 0, cpc := 0, nopush := false, queue := 0, tick := 0, cmd := 0 };
        let s := probeOf [] (fun z => { z with trapvec := 0x100 }) (fun y => { y with records := [r] });
        (s.core 0 0).records.find? (fun r => r.strand == 0) = some r ∧ (s.strand p0).running = true ∧ (s.strand p0).exited = false
          ∧ (s.strand p0).wait = .none ∧ (s.strand p0).trapvec ≠ 0 ∧ (s.core 0 0).page 0 ≠ .free
          ∧ ((s.modStrand p0 (fun z => { z with wait := .bar })).strand p0).wait ≠ .none) := by decide

/-- A strand that waits for a pop, the channel with a count and without; one held push of each kind, and a full channel. -/
theorem witness_SparkEvents :
    (let s := probeOf [] (fun z => { z with popWait := some 5 }) id;
      let t := s.modCore 0 0 (fun y => { y with sparks := [(5, 1)] });
      (s.strand p0).running = true ∧ (s.strand p0).popWait = some 5 ∧ (s.cyc 0 0 + 0) % 4 = 0 ∧ 0 < (t.core 0 0).spark 5
        ∧ (s.core 0 0).spark 5 + (s.core 0 0).held.length = 0 ∧ Tab.get (t.core 0 0).popAt 5 0 ≤ t.cyc 0 0
        ∧ (∀ j < 4, ((t.core 0 0).strand j).granted = false) ∧ ∀ j < 4, ((probe.core 0 0).strand j).popWait = none)
    ∧ (∀ b ∈ [Pusher.spush 0, .retire 0, .cmd 3, .outside],
        let h : HeldPush := { ch := 5, agent := 0, strand := 0, fresh := true, by_ := b };
        let s := probeOf [] (fun z => { z with wait := if b = .retire 0 then .heldPush 5 else .none }) (fun y => { y with held := [h] });
        (s.core 0 0).held.filter (fun h => h.ch == 5) = [h] ∧ (s.core 0 0).spark 5 < 15
          ∧ (b = .retire 0 → (s.strand p0).wait = .heldPush 5) ∧ (b = .spush 0 → (s.strand p0).wait = .none)
          ∧ 15 ≤ ((s.modCore 0 0 (fun y => { y with sparks := [(5, 15)] })).core 0 0).spark 5) := by decide

/-- The first and the last 256 bytes of a neighbour's data. -/
theorem witness_NeighbourArrivals :
    (∀ n ∈ [257, 256], ∀ tg ∈ [none, some 1024],
      let j : NSendJob := { fromCore := 1, strand := 0, cpc := 0, push := none, data := List.replicate n 7, arrives := 0, target := tg };
      let r : NRecv := { sender := 1, off := 1024, len := n, push := some 2, strand := 0, taken := false };
      let y : Core := { Core.reset with arriving := [j], nrecvs := [r] };
      y.arriving = [] ++ j :: [] ∧ j.arrives ≤ 0 ∧ y.nrecvs.filter (fun r => r.sender == j.fromCore) = [r] ∧ j.fromCore ≠ 0
        ∧ (j.target = some 1024 ∨ j.target = none ∧ r.off = 1024 ∧ r.len = j.data.length)) := by decide +kernel

/-- Entry 1, and an entry of each state, of a tenant that holds entries 0 to 15. -/
def entryProbe (x : SchedEntry) : State := (tenanted (probeAt 100)).setSched 0 1 x

/-- The writes of CTL: VALID set and clear, in every state; reserved bits, a predecessor that is itself, and a START that has passed. -/
theorem witness_EntryWrites :
    ([SchedState.empty, .armed, .loading, .running, .retired, .failed].all (fun st =>
      let s := entryProbe { SchedEntry.reset with state := st };
      s.tenant 0 0 == some probeTenant && hasEntry probeCfg 1 && (s.sched 0 1).state == st)) = true
    ∧ (1#64).toNat % 2 = 1 ∧ (0#64).toNat % 2 = 0 ∧ (0x11#64).toNat / 2 ^ 4 % 2 ^ 4 ≠ 0
    ∧ (0x140001#64).toNat / 2 ^ 18 % 2 ^ 2 = 1 ∧ (0x140001#64).toNat / 2 ^ 20 % 2 ^ 12 = 1
    ∧ (3#64).toNat / 2 % 2 = 1 ∧ probeTenant.activeEntry 1 = true ∧ (entryProbe SchedEntry.reset).now 0 = 100 := by decide

/-- An armed entry for core 0 with a CTL and a START. -/
def armedEntry (ctl start : Word) : SchedEntry :=
  { SchedEntry.reset with state := .armed, words := [(0, start), (1, 1), (5, ctl)], snap := [(0, start), (1, 1), (5, ctl)] }

/-- Armed entries of each kind that stand in the active half: Locked and Free, with a predecessor (entry 2, RETIRED and FAILED), before
their time and at it, with the core busy and free. -/
theorem witness_EntriesDue :
    (∀ ctl ∈ [1#64, 3, 0x240001, 0x280001, 0x240003, 0xF01], ∀ start ∈ [100#64, 101],
      ((entryProbe (armedEntry ctl start)).die 0).liveEntry 1 = some (0, probeTenant, armedEntry ctl start)) := by
  intro ctl _ start _; rfl

theorem witness_EntriesDue_kinds :
    (let x := armedEntry 3 100; x.locked = true ∧ x.pkind = 0 ∧ (((entryProbe x).die 0).busyFor 0 x) = true
        ∧ ((((entryProbe x).modDie 0 (fun x => { x with gangs := [] })).die 0).busyFor 0 x) = false)
    ∧ (armedEntry 0x240003 100).locked = true ∧ (armedEntry 0x240003 100).pkind ≠ 0
    ∧ (armedEntry 0x240001 100).pkind = 1 ∧ (armedEntry 0x280001 100).pkind = 2 ∧ (armedEntry 0x240001 100).pred = 2
    ∧ (armedEntry 0xF01 100).prio = 15 ∧ (armedEntry 0xF01 100).cores = [0]
    ∧ (probeGang.phase = .running ∧ probeGang.locked = false ∧ probeGang.tenant ≠ 1 ∧ probeGang.prio < 15) := by decide

/-- HBM whose root table maps the whole stack, pinned, with an image of one code page at 0x10000. -/
def imageHbm : Mem :=
  Mem.write (Mem.write [] 0x4000 (leBytes 8 135)) 0x10000 (leBytes 4 0x4E4F4D44 ++ leBytes 4 1 ++ List.replicate 28 0 ++ leBytes 4 4096)

/-- A due entry whose image lies there, for free cores; without cores; with cores outside the clamps; without a free slot; with an image
that is none, and with one that does not translate. -/
def launchProbe (cores img : Word) (clamps : BitVec 16) : State :=
  let x : SchedEntry := { SchedEntry.reset with state := .armed, due := true, snap := [(1, cores), (2, img), (5, 1)] }
  ((State.reset.setTenant 0 0 { probeTenant with cfg := { probeCfg with clamps := clamps, allotLimit := 0x3000000000 } }).modDie 0 (fun y =>
    { y with hbm := imageHbm })).setSched 0 1 x

theorem witness_LaunchStarts :
    (∀ s ∈ [launchProbe 1 0x800000010000 0xFFFF, launchProbe 0 0 0xFFFF, launchProbe 0x10 0 1],
      ((s.die 0).liveEntry 1).isSome = true ∧ (s.sched 0 1).due = true ∧ (s.die 0).busyFor 0 (s.sched 0 1) = false ∧ s.gang 0 0 = none)
    ∧ ((launchProbe 0 0 0xFFFF).sched 0 1).cores = [] ∧ ((launchProbe 0x10 0 1).sched 0 1).cores = [4]
    ∧ (let s := launchProbe 1 0x800000010000 0xFFFF; let te := (s.tenant 0 0).getD probeTenant;
        let bad := launchProbe 1 0x800000000000 0xFFFF; let away := launchProbe 1 0x804000000000 0xFFFF;
        (match s.judgeImage 0 0 te (s.sched 0 1) with
          | .ok (h, _, _) => h.codesz == 4096
          | _ => false) = true
        ∧ (match bad.judgeImage 0 0 te (bad.sched 0 1) with
          | .bad c => c == 5
          | _ => false) = true
        ∧ (match away.judgeImage 0 0 te (away.sched 0 1) with
          | .page _ => true
          | _ => false) = true)
    ∧ (let s := (tenanted State.reset).setGang 0 0 { probeGang with entry := 1, phase := .suspendedLoad 0 };
        s.gangFor 0 1 = some (0, { probeGang with entry := 1, phase := .suspendedLoad 0 })
          ∧ (s.die 0).entryTenant 1 = some (0, probeTenant)) := by decide +kernel

/-- A load that is complete, one that is not, in both modes; a loaded gang at START and before. -/
theorem witness_LoadAndFirstIssue :
    (∀ g ∈ [{ probeGang with phase := .loading, loadDone := 20, start := 20 }, { probeGang with phase := .loading, loadDone := 20, start := 20, locked := true },
        { probeGang with phase := .loading, loadDone := 21, start := 20, locked := true }, { probeGang with phase := .loading, loadDone := 22, start := 21, locked := true },
        { probeGang with phase := .loaded, loadDone := 20, start := 20, locked := true }, { probeGang with phase := .loaded, loadDone := 19, start := 20 },
        { probeGang with phase := .loaded, loadDone := 20, start := 20 }],
      (gangProbe (probeAt 20) (fun _ => g)).gangFor 0 0 = some (0, g) ∧ (gangProbe (probeAt 20) (fun _ => g)).gang 0 0 = some g
        ∧ g.cores.Nodup) ∧ (probeAt 20).now 0 = 20 := by decide

/-- A core that is done and holds its home brand alone, one that holds another region, and one whose strands still run. -/
theorem witness_ExitAndRetirement :
    readyB probe p0 .exit = true
    ∧ (let s := [0, 1, 2, 3].foldl (fun s k => s.modStrand ⟨0, 0, k⟩ (fun z => { z with exited := true })) probe;
        let t := s.setBrand 0 70 { Brand.free with hdie := 0, base := 0x1000000, lsize := 16, state := .owned };
        (s.ctx 0 0).isSome = true ∧ (∀ k < 4, (s.strand ⟨0, 0, k⟩).exited = true) ∧ (s.core 0 0).copyQ = [] ∧ (s.core 0 0).matrixQ = []
          ∧ (s.core 0 0).collQ = [] ∧ (s.core 0 0).brandQ = [] ∧ (s.core 0 0).samplerQ = [] ∧ s.onlyHome 0 0 0 = true
          ∧ t.onlyHome 0 0 0 = false ∧ (probe.strand p0).exited = false ∧ probeGang.phase.active = true) := by decide

/-- A gang in each phase of pre-emption, its engines quiet and not; a saved gang with one core whose save area is mapped and pinned. -/
theorem witness_Preemption :
    (∀ ph ∈ [GangPhase.halting 1 0, .halting 1 9, .halted 1, .saving 1, .saved],
      let s := gangProbe (tenanted probe) (fun g => { g with phase := ph });
      s.gang 0 0 = some { probeGang with phase := ph } ∧ s.tenant 0 0 = some probeTenant
        ∧ s.gangQuiet 0 0 { probeGang with phase := ph } = true
        ∧ (s.acceptCmd p0 0 none [] [] (.coll 0 none false)).gangQuiet 0 0 { probeGang with phase := ph } = true)
    ∧ (let c : SavedCore := { core := 0, image := { Core.reset with ctx := some (0, 0) }, withSpad := false, entry := none, shares := [] };
        let g := { probeGang with phase := .saved, saved := [c] };
        let te := { probeTenant with cfg := { probeCfg with allotLimit := 0x3000000000, saveArea := 2 ^ 47 } };
        let s := ((State.reset.setTenant 0 0 te).modDie 0 (fun y => { y with hbm := imageHbm })).setGang 0 0 g;
        s.gang 0 0 = some g ∧ (s.die 0).mayResume 0 g = true ∧ pagesPinned (s.die 0) 0 0 false (te.cfg.saveArea + 0) 128 = true
          ∧ ((s.setGang 0 1 probeGang).die 0).mayResume 0 g = false) := by decide +kernel

/-- The probe with clamp 0 and cores changed. -/
def clampProbe (l : Clamp → Clamp) (f : Nat → Core → Core) : State :=
  let s := (probeAt 20000).setClamp 0 0 (l (probe.clamp 0 0));
  [0, 1, 2, 3].foldl (fun s c => s.modCore 0 c (f c)) s

/-- An idle array with one request, due and not; one chosen for core 2; tenures of core 0 that are over, and one with a command under way. -/
theorem witness_LeaseEvents :
    (∀ t0 ∈ [19996, 19997],
      let s := clampProbe (fun l => { l with holder := none, handover := none }) (fun c y => { y with leaseReq := if c = 1 then some t0 else none });
      (s.clamp 0 0).holder = none ∧ (s.clamp 0 0).handover = none ∧ ((s.die 0).core 1).leaseReq = some t0
        ∧ ∀ k < 4, k ≠ 1 → ((s.die 0).core k).leaseReq = none)
    ∧ (∀ due ∈ [20000, 20001],
      let s := clampProbe (fun l => { l with holder := none, handover := some (2, due) }) (fun c y => { y with leaseReq := if c = 2 then some 5 else none });
      (s.clamp 0 0).holder = none ∧ (s.clamp 0 0).handover = some (2, due) ∧ ((s.die 0).core 2).leaseReq.isSome = true ∧ s.now 0 = 20000)
    ∧ (∀ e ∈ [(64, false), (3, true)],
      let s := clampProbe (fun l => { l with holder := some 0, started := e.1, refused := e.2 }) (fun c y => { y with leaseReq := if c = 3 then some 5 else none });
      (s.clamp 0 0).holder = some 0 ∧ ((s.die 0).core 0).arrayRunning = false ∧ s.enginesRun 0 0 1 = true ∧ ((s.die 0).core 0).atFree = false
        ∧ ((s.clamp 0 0).started = 64 ∨ (s.clamp 0 0).refused = true) ∧ nextRequest (s.die 0) 0 = some 3)
    ∧ (let m : Cmd := { probe.core 0 0 |>.newCmd 0 none [] [] .mswap with stage := .running 0 1 };
        ({ (probe.core 0 0) with matrixQ := [m] } : Core).arrayRunning = true)
    ∧ (let m := (probe.core 0 0).newCmd 0 none [] [] .mfree;
      let s := clampProbe (fun l => { l with holder := some 0 }) (fun c y => if c = 0 then y.accept 1 m else { y with leaseReq := some 5 });
      ((s.die 0).core 0).arrayRunning = false ∧ ((s.die 0).core 0).atFree = true ∧ nextRequest (s.die 0) 0 = some 1
        ∧ ((s.die 0).core 0).matrixQ.find? (fun q => q.body == .mfree) = some m ∧ s.enginesRun 0 0 1 = true
        ∧ (s.modDie 0 (fun x => { x with dead := true })).enginesRun 0 0 1 = false) := by decide

/-- An MSWAP at the head of the matrix queue under a lease, with and without a valid shadow plane, early and late in the tenure; an MSTRM and
an MSWAP whose time is over. -/
theorem witness_ArrayEvents :
    (∀ gr ∈ [4024, 4023], ∀ v ∈ [true, false],
      let m := (probe.core 0 0).newCmd 0 none [] [] .mswap;
      let s := clampProbe (fun l => { l with holder := some 0, granted := gr, started := 3, shadow := { l.shadow with valid := v } })
        (fun c y => if c = 0 then y.accept 1 m else y);
      (s.core 0 0).matrixQ = [] ++ m :: [] ∧ m.isQueued = true ∧ s.mayStart 0 0 1 = true ∧ (∀ clr, m.body ≠ .mchk clr) ∧ m.body ≠ .mfree
        ∧ (s.clamp 0 0).holder = some 0 ∧ m.body.fetched = true ∧ s.rangeFree 0 0 m = true ∧ (s.clamp 0 0).shadow.valid = v
        ∧ (s.seek 0 0 (s.cmdIds 0 0 m)).isSome = true ∧ m.ranges = [] ∧ s.cyc 0 0 = 20000 ∧ (s.core 0 0).matrixQ.all (fun e => !(e.id < m.id)) = true) := by
  simp only [List.mem_cons, List.not_mem_nil, or_false]
  rintro gr (rfl | rfl) v (rfl | rfl) <;> refine ⟨by decide, by decide, by decide, fun clr h => ?_, by decide, by decide, by decide, by decide, by decide,
    by decide, by decide, by decide, by decide⟩ <;> cases h

/-- An MDRAIN whose range the brand window misses. -/
theorem witness_ArrayEvents_window :
    (let m := (probe.core 0 0).newCmd 0 none [] [⟨.spad, 0, 512, true⟩] (.mdrain 0 0 0 0 ⟨false, false, false, false, false⟩ fmtWord 32 1 0);
      let s := clampProbe (fun l => { l with holder := some 0, granted := 4024 }) (fun c y => if c = 0 then { y.accept 1 m with window := [] } else y);
      s.cmdIds 0 0 m = [0] ∧ (s.seek 0 0 (s.cmdIds 0 0 m)).isNone = true ∧ s.rangeFree 0 0 m = true) := by decide +kernel

theorem witness_ArrayEvents_done :
    (∀ b ∈ [CmdBody.mswap, .mstrm 0 fmtWord 256 1 0 false { mism := 3, voids := 1, first := some 0 }], ∀ t ∈ [20000, 20001],
      let m : Cmd := { (probe.core 0 0).newCmd 0 none [] [] b with stage := .running 0 t };
      let s := clampProbe id (fun c y => if c = 0 then y.accept 1 m else y);
      (s.core 0 0).cmd 1 m.id = some m ∧ m.bad = none ∧ m.push = none) := by decide

/-- A die with a request of some bytes that has stood by stack 0 since tick 0. -/
def asked (s : State) (agent : Nat) (tag : List Nat) (len : Nat) (lk : Bool) : State :=
  s.modDie 0 (fun x => { x with asks := [{ stack := 0, agent := agent, tag := tag, came := 0, bytes := len, locked := lk, seen := 0 }] })

/-- An MLDW from HBM at the head of its queue, a tenant that maps the whole stack, and a plan that opens it to the core. -/
def fetchProbe (lk : Bool) (m : Cmd) : State :=
  let s := gangProbe (((probe.setTenant 0 0 { probeTenant with cfg := { probeCfg with allotLimit := 0x3000000000 } }).modDie 0 (fun y =>
    { y with hbm := imageHbm })).modCore 0 0 (fun y => y.accept 1 m)) (fun g => { g with locked := lk })
  { s with pod := { s.pod with hbmWindows := [{ die := 0, stack := 0, agents := [s.cmdAgent 0 0 1], first := 0, until_ := 100 }] } }

/-- Such a command with a tile that is there, and on a page that does not translate, in both modes: at its start, at its chunk, suspended, with a
fault noted. -/
theorem witness_TileFetches :
    (∀ va ∈ ([0x800000010000, 0x804000000000] : List Nat), ∀ lk ∈ [true, false], ∀ bad ∈ [none, some (Cause.copyPage, 0)], ∀ next ∈ [none, some 0, some 1],
      ∀ st ∈ [true, false],
      let m : Cmd := { (probe.core 0 0).newCmd 0 none [] [] (.mldw (va : Int) fmtWord true none false next []) with bad := bad };
      let s := if st then asked (fetchProbe lk m) (agentOf 2 0 0) [0, m.id] 4096 lk else fetchProbe lk m;
      s.mayStart 0 0 1 = true ∧ (s.core 0 0).matrixQ = [] ++ m :: [] ∧ m.bad = bad ∧ s.locked 0 0 = lk ∧ s.cyc 0 0 = 0
        ∧ (s.fetchTurn 0 0 m va 4096).1 = (st || va == 0x804000000000) ∧ (s.seek 0 0 ((s.die 0).entryIds (s.tenantOf 0 0) va 4096)).isSome = true
        ∧ (match (s.die 0).read (.cached 0 (s.cmdAgent 0 0 1)) (s.tenantOf 0 0) (s.locked 0 0) va 4096 with
            | .ok _ _ => va == 0x800000010000
            | .page _ => va == 0x804000000000
            | _ => false) = true) := by decide +kernel

/-- A tile of zeros for a format: every code and every position of its metadata is 0. -/
def zeroTile (f : Fmt) : List Byte := List.replicate f.tileBytes 0

/-- A sparse format of the narrow class: 8-bit integers, two weights kept of four. -/
def sparseWord : Word := 0x01070707

/-- Formats of both classes, dense and sparse, and a tile of their length whose metadata repeat no position (a group of one position after the
first) (TileWeights). -/
theorem witness_TileWeights :
    (fmtOf fmtWord).ok = true ∧ (fmtOf fmtWord).sparse = 0 ∧ (fmtOf sparseWord).ok = true ∧ (fmtOf sparseWord).sparse ≠ 0
    ∧ (zeroTile (fmtOf fmtWord)).length = (fmtOf fmtWord).tileBytes ∧ (zeroTile (fmtOf sparseWord)).length = (fmtOf sparseWord).tileBytes
    ∧ 0 < (fmtOf sparseWord).ks / (fmtOf sparseWord).keep
    ∧ (∀ q, q < (fmtOf sparseWord).keep → codeIn (fun i => (zeroTile (fmtOf sparseWord)).getD i 0) (16 * 8 * (fmtOf sparseWord).ks + 16 * 2 * q) 2 0 ≠ 1) := by
  refine ⟨by decide, by decide, by decide, by decide, List.length_replicate, List.length_replicate, by decide, fun q hq => ?_⟩
  have z (i : Nat) : (zeroTile (fmtOf sparseWord)).getD i 0 = 0 := by
    simp only [zeroTile, List.getD_eq_getElem?_getD, List.getElem?_replicate]
    split <;> rfl
  simp only [z]
  revert hq
  revert q
  decide

/-- Terms that are numbers, a NaN, an infinity times zero, and infinities of both signs; a leaf of the tree, and two parts of it (ColumnSums). -/
theorem witness_ColumnSums :
    (∀ x ∈ ([(f32v 0x3F800000, some (f32v 0xC0000000)), (f32v 0, none)] : List (XVal × Option XVal)), x.1.isFin = true ∧ x.2.all XVal.isFin = true)
    ∧ (XVal.mul (f32v 0) (.inf false)).2 = true ∧ (XVal.mul (f32v 0x3F800000) (.inf true)).1 = .inf true
    ∧ (XVal.mul (f32v 0x3F800000) (.inf false)).1 = .inf false ∧ (f32v 0x3F800000).isFin = true
    ∧ ([0x3F800000#32, 0x40000000].length = 2 ^ 1 ∧ [0x3F800000#32].length ≤ 2 ^ 1) := by decide

/-- A core under its own plane, for a row in its scratchpad. -/
def streamProbe (m : Cmd) (p : Plane → Plane) : State :=
  clampProbe (fun l => { l with active := p { l.active with valid := true, tag := .own 0, fw := fmtWord, wef := 1, sparse := 0 } })
    (fun c y => if c = 0 then y.accept 1 m else y)

/-- An MSTRM of one row whose checks hold; one without a right to its plane, one of another format, and one off the scratchpad (StreamedRows). -/
theorem witness_StreamedRows :
    (let m (a : Nat) : Cmd := (probe.core 0 0).newCmd 0 none [] [] (.mstrm a fmtWord 32 1 0 false { mism := 0, voids := 0, first := none });
      let f := fmtOf fmtWord;
      let s := streamProbe (m 0x8000000000000000) id;
      s.entitled 0 0 (s.clamp 0 0).active = true ∧ (s.clamp 0 0).active.wef = f.wef.val ∧ (s.clamp 0 0).active.sparse = f.sparse ∧ f.cken = false
        ∧ (s.ownRanges 0 0 (m 0x8000000000000000) .read f.rowBytes [0x8000000000000000]).toOption = some [0]
        ∧ (s.ownRanges 0 0 (m 0x8000000000400000) .read f.rowBytes [0x8000000000400000]).toOption = none
        ∧ f.alay = false ∧ (accRow (s.core 0 0).acc 0).length = 128
        ∧ (let u := streamProbe (m 0) (fun p => { p with valid := false }); u.entitled 0 0 (u.clamp 0 0).active = false)
        ∧ (let u := streamProbe (m 0) (fun p => { p with wef := 9 }); (u.clamp 0 0).active.wef ≠ f.wef.val)) := by decide +kernel

/-- An MDRAIN of one row whose checks hold without an option; a bias in the scratchpad, and a table from 0 to 1 in it; one off its alignment
(DrainChain, DrainedRows). -/
theorem witness_DrainedRows :
    (let opt : DrainOpt := ⟨false, false, true, false, false⟩;
      let m : Cmd := (probe.core 0 0).newCmd 0 none [] [] (.mdrain 0x8000000000000000 0 0 0 opt fmtWord 64 1 0);
      let table : List Byte := leBytes 4 0 ++ leBytes 4 0x3F800000;
      let s := (streamProbe m id).modCore 0 0 (fun y => { y with spad := Mem.write y.spad 0x1000 table });
      let f := fmtOf fmtWord;
      (s.ownRanges 0 0 m .write (f.outBytes opt.req) [0x8000000000000000]).toOption = some [0]
        ∧ (s.drainInputs 0 0 m 0 0 0 opt f).toOption.isSome = true ∧ f.outBytes opt.req ≤ 16 * 64 ∧ f.orec = false
        ∧ (s.ownRange 0 0 m .read 0x8000000000002000 512).toOption = some 0x2000
        ∧ (s.ownRange 0 0 m .read 0x8000000000001000 2064).toOption = some 0x1000 ∧ 0x8000000000001000 % 16 = 0
        ∧ f32v (BitVec.ofNat 32 (leSum (fun i => Mem.byte (s.core 0 0).spad (0x1000 + i)) 4)) = f32v 0
        ∧ f32v (BitVec.ofNat 32 (leSum (fun i => Mem.byte (s.core 0 0).spad (0x1000 + 4 + i)) 4)) = f32v 0x3F800000
        ∧ (accRow (s.core 0 0).acc 0).length = 128 ∧ 0x8000000000000008 % 16 ≠ 0) := by decide +kernel

/-- An MLDW from the scratchpad whose dense tile has no metadata, and a format whose metadata may fail (LoadedPlane). -/
theorem witness_LoadedPlane :
    (fmtOf fmtWord).badGroup (zeroTile (fmtOf fmtWord)) = none ∧ ((fmtOf sparseWord).badGroup (zeroTile (fmtOf sparseWord))).isSome = true
    ∧ (probe.core 0 0).ctx = some (0, 0) := by decide +kernel

/-- A copy of 4096 bytes from the scratchpad into the second page of instruction memory. -/
def copyJob : CopyJob :=
  { dst := 0xA000000000001000, src := 0x8000000000000000, rows := 1, rlen := 4096, dstr := 4096, sstr := 4096, crc := true, first := true, last := true,
    expect := 0, row := 0, off := 0, moved := 0, crcNext := 0, pages := [], leaf := none, phase := .queued }

/-- The probe with a copy at the head of its queue. -/
def copyProbe (j : CopyJob) (st : Stage) (f : Core → Core) : State :=
  (probeAt 20).modCore 0 0 (fun y => f (y.accept 0 { y.newCmd 0 none [] [] (.copy j) with stage := st }))

/-- A copy that may start, without a FIRST in its chain, and with a source that names nothing; into instruction memory, whose page is free
and not. -/
theorem witness_CopyStarts :
    (let s := copyProbe copyJob .queued id;
      s.mayStart 0 0 0 = true ∧ ((s.core 0 0).copyQ.all (fun m => s.rangeFree 0 0 m && m.isQueued)) = true
        ∧ (s.checkRows 0 0 copyJob 1 0).toOption = some [1] ∧ (s.endAway 0 0 0xA000000000001000 4096 true).2 = false
        ∧ (s.endAway 0 0 0x8000000000000000 4096 false).2 = false ∧ (s.core 0 0).page 1 = .free ∧ ((s.core 0 0).setPages [1] .code).page 1 ≠ .free)
    ∧ (let s := copyProbe { copyJob with first := false } .queued id;
        s.mayStart 0 0 0 = true ∧ (s.core 0 0).crcValid = false)
    ∧ (let s := copyProbe copyJob .queued id; (s.checkRows 0 0 { copyJob with src := 0xF000000000000000 } 1 0).toOption.isNone = true)
    ∧ ((probe.setDie 0 { probe.die 0 with dead := true }).mayStart 0 0 0 = false) := by decide +kernel

/-- Copies under way: moving with its time over and not, with rows left and without, suspended, its chain's value right and wrong. -/
theorem witness_CopyEvents :
    (∀ ph ∈ [CopyPhase.moving, .held, .remote], ∀ t ∈ [20, 21], ∀ row ∈ [0, 1], ∀ ex ∈ [0#32, 1],
      let j : CopyJob := { copyJob with phase := ph, row := row, expect := ex };
      let s := copyProbe j (.running 0 t) (fun y => { y with crcR := 0xFFFFFFFF });
      (s.core 0 0).copyQ = [{ (probe.core 0 0).newCmd 0 none [] [] (.copy j) with stage := .running 0 t }] ∧ s.enginesRun 0 0 0 = true
        ∧ s.now 0 = 20 ∧ (s.core 0 0).crcR ^^^ 0xFFFFFFFF#32 = 0) := by
  intro ph _ t _ row _ ex _; exact ⟨rfl, rfl, rfl, BitVec.xor_self⟩

/-- A chunk from the scratchpad into instruction memory whose ends the copy may reach, one whose source is nowhere, and one whose right is
wanting (CopiedBytes). -/
theorem witness_CopiedBytes :
    (let s := copyProbe copyJob (.running 0 20) id;
      let m := (probe.core 0 0).newCmd 0 none [] [] (.copy copyJob);
      let (a, b, len) := copyJob.chunk;
      len = 4096 ∧ s.spot 0 0 anySpace b len = .spad 0 ∧ brandless .read 0 = false ∧ s.judgeCmd 0 0 0 m .read 0 len = .ok
        ∧ s.spot 0 0 anySpace a len = .imem 4096 ∧ (s.die 0).injections = [] ∧ (s.core 0 0).crcR = (s.core 0 0).crcW
        ∧ s.spot 0 0 anySpace 0xF000000000000000 256 = .bad .reservedField
        ∧ ((s.modDie 0 (fun x => { x with brands := [] })).judgeCmd 0 0 0 m .read 0 256 = .bad .unowned none)) := by decide +kernel

/-- An invalidation under way that core 0's context has to acknowledge, at ticks about its limit. -/
def tlbiProbe (pending : List (Nat × Nat)) (now : Nat) : State :=
  let m : Cmd := (probe.core 0 0).newCmd 0 none [] [] (.tlbiq true 0 0)
  let i : Tlbi := { core := 0, cmd := m.id, tenant := 0, start := 0, len := 0, accepted := 100, pending := pending, late := [] }
  ((probeAt now).modDie 0 (fun x => { x with tlbis := [i] })).modCore 0 0 (fun y => y.accept 6 m)

theorem witness_InvalidationEvents :
    (∀ pend ∈ [[], [(0, 0)], [(5, 0), (6, 1)]], ∀ now ∈ [200099, 200100],
      let s := tlbiProbe pend now; let id := (probe.core 0 0).newCmd 0 none [] [] .drain |>.id;
      ((s.die 0).tlbi 0 id).any (fun i => i.pending == pend && i.accepted == 100 && i.late == []) = true ∧ ((s.core 0 0).cmd 6 id).isSome = true ∧ s.now 0 = now
        ∧ s.gang 0 5 = none ∧ s.gang 0 6 = none ∧ s.gang 0 0 = some probeGang ∧ probeGang.cores[0]? = some 0) := by decide

/-- Entries of each state with agent 64 as title holder and agent 65 as borrower, a home brand and a slot's brand among them. -/
theorem witness_BrandTransitions :
    (∀ st ∈ [BState.owned, .lent, .atomic, .shared], ∀ home ∈ [true, false], ∀ inslot ∈ [true, false],
      let b : Brand := { Brand.free with tenant := 0, title := 64, cur := 65, state := st, home := home, inslot := inslot };
      let x := ((tenanted probe).setBrand 0 71 b).die 0;
      x.otherPool 0 71 = false ∧ x.brand 71 = b ∧ b.proxy = false ∧ x.shareCount < 16384) := by decide

/-- A pod of two dies, port 0 of each cabled to the other, with a hop of 40 ticks. -/
def twoDies : PodCfg :=
  { members := [0, 1], root := 0, cables := [(0, { farDie := 1, farPort := 0, hop := 40 }), (16, { farDie := 0, farPort := 0, hop := 40 })],
    parents := [(1, 0)], planTenants := [(0, 0), (16, 0)], routes := [(0, [(1, 0)]), (1, [(0, 0)])], recoveryLag := 1000, hbmWindows := [], sideTables := [] }

def podProbe : State := { (probeAt 100).modDie 1 (fun x => { x with tick := 100 }) with pod := twoDies }

/-- A BFREE at the head of its queue that may start, whose brand has none and one older store to wait for; one at its time and before. Messages
to the other die: one that waits, one that leaves, one that has arrived; a reply that has arrived. -/
theorem witness_BrandEvents :
    (∀ st ∈ [Stage.queued, .running 0 100, .running 0 101],
      let m : Cmd := { (probe.core 0 0).newCmd 0 none [] [] (.brand (.free 7) false) with stage := st };
      let s := podProbe.modCore 0 0 (fun y => y.accept 4 m);
      (s.core 0 0).brandQ = m :: [] ∧ s.mayStart 0 0 4 = true ∧ s.flushed 0 0 m (.free 7) = true ∧ s.now 0 = 100
        ∧ (s.setDie 0 { s.die 0 with dead := true }).mayStart 0 0 4 = false)
    ∧ (∀ r ∈ [none, some (BrandAnswer.failed .unowned), some (.done [3])], ∀ at_ ∈ [0, 1], ∀ due ∈ [100, 101],
        let b : BrandMsg := { tr := { fromDie := 0, toDie := 1, at_ := at_, due := due, via := none, agent := 64, gone := 0, spent := false }, core := 0, cmd := 1, tenant := 0, agent := 64,
                              op := .free (65536 + 7), reply := r, touched := [], pledge := none };
        let s := { podProbe with brandMsgs := [b] };
        s.brandMsgs[0]? = some b ∧ s.now at_ = 100 ∧ s.hop b.tr = if due = 100 ∧ at_ = 1 then .here else .stay)
    ∧ (let t : Transit := { fromDie := 0, toDie := 1, at_ := 0, due := 100, via := none, agent := 64, gone := 0, spent := false };
        (podProbe.setPort 0 0 { podProbe.port 0 0 with failed := true }).hop t = .lost)
    ∧ (let m : Cmd := (probe.core 0 0).newCmd 0 none [] [] (.brand (.free (65536 + 7)) true);
        (((podProbe.modCore 1 0 (fun y => y.accept 4 m)).core 1 0).cmd 4 m.id).isSome = true) := by decide

/-- The probe's gang with an open interval: strands 0 to 3 of core 0 arrived, or one of them not. -/
theorem witness_IntervalCloses :
    (∀ op ∈ [true, false], ∀ a ∈ [true, false],
      let s := gangProbe ([0, 1, 2, 3].foldl (fun s k => s.modStrand ⟨0, 0, k⟩ (fun z => { z with arrivedAtomic := k != 2 || a, exited := k == 3 })) podProbe)
        (fun g => { g with atomOpen := op });
      s.gang 0 0 = some { probeGang with atomOpen := op } ∧ ((s.strand ⟨0, 0, 2⟩).arrivedAtomic = a ∧ (s.strand ⟨0, 0, 2⟩).exited = false)) := by decide

/-- Batches for this die, the other die and one outside the pod: due and not, with their ends and without. -/
theorem witness_AtomicBatches :
    (∀ home ∈ [0, 1, 2], ∀ at_ ∈ [0, 1], ∀ due ∈ [100, 101], ∀ ends ∈ [none, some [AtomEnd.failed .unowned]],
      let r : AtomReq := { core := 0, agent := 64, rank := 0, strand := 0, seq := 0, cmd := 1, op := .add, ty := .i32, addr := 0, val := 1,
                            refused := none };
      let b : Batch := { tr := { fromDie := 0, toDie := home, at_ := at_, due := due, via := none, agent := 64, gone := 0, spent := false }, slot := 0, tenant := 0, reqs := [r], ends := ends };
      let s := podProbe.modDie 0 (fun x => { x with batches := [b] });
      (s.die 0).batches[0]? = some b ∧ (s.inPod home = decide (home ≠ 2)) ∧ s.now at_ = 100 ∧ (s.die 0).batches.take 0 = [] ∧ b.tr.spent = false
        ∧ (home ≠ 2 → s.hop b.tr = if due = 100 ∧ at_ = home then .here else .stay)) := by decide

/-- A request on an element of HBM at its own die, which its agent owns, and on one that does not translate; an ATOM that its core has queued, in an
open interval (AtomValues, AtomOrder). -/
theorem witness_AtomValues :
    (∀ va ∈ ([0x800000010000, 0x804000000000] : List Nat),
      let te : Tenant := { probeTenant with cfg := { probeCfg with allotLimit := 0x3000000000 } };
      let s := ((podProbe.setTenant 0 0 te).modDie 0 (fun y => { y with hbm := imageHbm })).setBrand 0 70
        { Brand.free with base := 0x800000010000, lsize := 16, tenant := 0, title := agentOf 0 0 0, cur := agentOf 0 0 0, state := .atomic };
      let r : AtomReq := { core := 0, agent := agentOf 0 0 0, rank := 0, strand := 0, seq := 0, cmd := 1, op := .add, ty := .i32, addr := va, val := 1,
                           refused := none };
      let tr : Transit := { fromDie := 0, toDie := 0, at_ := 0, due := 100, via := none, agent := 64, gone := 0, spent := false };
      let b : Batch := { tr := tr, slot := 0, tenant := 0, reqs := [r], ends := none };
      (match (s.die 0).read .walker b.tenant false r.addr 4 with
      | .ok bs x => va == 0x800000010000 && bs == leBytes 4 0x4E4F4D44 && s.judge 0 0 [r.agent] none .atom r.addr 4 == .ok
          && (s.atomAt 0 b r).1 == .ticket 0x4E4F4D44 0 && (match x.write .walker 0 false r.addr [0x45, 0x4D, 0x4F, 0x4E] with
            | .ok _ _ => true
            | _ => false)
      | .page _ => va == 0x804000000000
      | _ => false) = true)
    ∧ (let m : Cmd := (probe.core 0 0).newCmd 0 none [12] [] (.atom .add .i32 0x800000010000 1 0);
      let s := probe.modCore 0 0 (fun y => y.accept 6 m);
      (s.core 0 0).cmd 6 m.id = some m ∧ m.dregs = [(12 : Reg).val] ∧ m.push = none ∧ m.isQueued = true ∧ m.bad = none
        ∧ (s.intervalReqs 0 0 probeGang).length = 1 ∧ (s.core 0 0).otherQ = [m]) := by decide +kernel

/-- A run of the sampler over a row of four logits. -/
def rowProbe (xs : List W32) (k0 : W32) (prob : Bool) : State :=
  { State.reset.withLogitWord 0xD with agenda := [], actor := .logit 0 }.modDie 0 (fun (x : Die) =>
    { x with run := x.run.map (fun (r : LogitRun) => { r with x := xs, k := [(0, k0), (1, 0x3F800000), (2, 0x3F800000)], prob := prob }) })

/-- Rows with finite values, with a NaN and of -∞ alone; parameters that are finite and positive, 0, and a NaN. -/
theorem witness_LogitReshaping (xs : List W32) (k0 : W32) (prob : Bool) :
    (rowProbe xs k0 prob).actor = .logit 0 ∧ ∃ r, ((rowProbe xs k0 prob).die 0).run = some r ∧ r.done = false ∧ r.x = xs ∧ r.prob = prob
      ∧ Tab.get r.k 0 0 = k0 := ⟨rfl, _, rfl, rfl, rfl, rfl, rfl⟩

theorem witness_LogitReshaping_values :
    posFinite 0x3F000000 = true ∧ posFinite 0 = false ∧ finite32 0x3F800000 = true ∧ finite32 0x7FC00000 = false
    ∧ (f32v 0x7FC00000).isNan = true ∧ (f32v 0x40000000).isNan = false := by decide

/-- Of the rows that witness_LogitReshaping admits: a NaN among the values, -∞ alone, a sum of zero; a greatest token; a parameter in range. -/
theorem witness_LogitSelection :
    greatest [0xFF800000, 0xFF800000] = 0xFF800000 ∧ greatest [0x3F800000, 0x40000000] = 0x40000000
    ∧ (exactSum [f32v 0, f32v 0]).isZero = true ∧ (exactSum [f32v 0x3F800000, f32v 0]).isZero = false
    ∧ (f32v 0x3F000000).isNan = false ∧ (f32v 0x3F000000).lt (.ofInt 0) = false ∧ (XVal.ofInt 1).lt (f32v 0x3F000000) = false
    ∧ (f32v 0x40000000).lt (f32v 0x3F800000) = false ∧ (f32v 0x3F800000).lt (f32v 0x40000000) = true := by decide

/-- The probe with rows in HBM at 0x800000010000 that stand LENT to the sampler, slot 5 bound, and a command of the sampler that has reached it. -/
def samplerProbe (b : CmdBody) (bound : Bool) : State :=
  let te : Tenant := { probeTenant with cfg := { probeCfg with allotLimit := 0x3000000000 } }
  let s := (probeAt 20).setTenant 0 0 te
  let s := s.modDie 0 (fun y => { y with hbm := imageHbm, slots := [(5, { SeqSlot.reset with bound := bound })] })
  let s := s.setBrand 0 70 { Brand.free with hdie := 0, base := 0x800000010000, lsize := 16, tenant := 0, title := 64, cur := samplerAgent, state := .lent }
  s.modCore 0 0 (fun y => { y with samplerQ := [{ y.newCmd 0 none [] [] b with stage := .running 20 20 }], spad := Mem.write [] 0 (leBytes 4 5) })

set_option maxRecDepth 8000 in
/-- SBIND of the unbound slot 5, of the bound one by UNBIND, and of a slot outside the range (SlotBinding). -/
theorem witness_SlotBinding :
    (∀ bound ∈ [true, false],
      let s := (samplerProbe (.sbind .unbind 0 5) bound).samplerArrive 0;
      (s.die 0).job = none ∧ (s.nextSampler 0).isSome = true
        ∧ (match (s.core 0 0).samplerQ, s.bindCheck 0 0 ((s.core 0 0).newCmd 0 none [] [] .drain) .unbind 0 5 with
            | [m], .ok (q, n, _) => bound && q == SeqSlot.reset && n == 0 && !m.isPushing
            | [_], .error (.fault c none 0) => !bound && c == .brandState
            | _, _ => false) = true) := by decide

set_option maxRecDepth 8000 in
/-- An SMPL of one sequence whose batch passes its checks, and one whose list is misaligned (SamplingEvents). -/
theorem witness_SamplingEvents :
    (∀ list ∈ [0x8000000000000000, 0x8000000000000002],
      let s := (samplerProbe (.smpl 0x800000010000 4 list 0x8000000000000100 1) true).samplerArrive 0;
      (s.die 0).job = none ∧ (s.nextSampler 0).isSome = true
        ∧ (match s.batchCheck 0 0 ((s.core 0 0).newCmd 0 none [] [] .drain) 0x800000010000 4 list 0x8000000000000100 1 with
            | .ok (slots, _) => slots == [5] && list == 0x8000000000000000
            | .error (.fault c _ _) => c == .reservedField && list == 0x8000000000000002
            | _ => false) = true) := by decide

/-- A batch under way with a sequence to open, one whose run is over, and none left. -/
theorem witness_SamplingEvents_runs :
    (∀ next ∈ [0, 1], ∀ t ∈ [20, 21], ∀ run ∈ [true, false],
      let m : Cmd := { (probe.core 0 0).newCmd 0 none [] [] (.smpl 0x800000010000 4 0x8000000000000000 0x8000000000000100 1) with stage := .running 20 t };
      let r : LogitRun := { slot := 5, tenant := 0, prog := [0xD], pc := 1, x := [], prob := false, k := [], code := 0, token := some 2, count := true,
                            done := true, st := 0, maskBits := [], held := 0 };
      let s := ((samplerProbe .drain true).modCore 0 0 (fun y => { y with samplerQ := [m] })).modDie 0 (fun x =>
        { x with job := some (.smpl 0 m.id [5] next 0), run := if run then some r else none });
      (s.die 0).job = some (.smpl 0 m.id [5] next 0) ∧ (s.core 0 0).cmd 3 m.id = some m ∧ s.samplerCycle 0 = 20
        ∧ (s.die 0).run = (if run then some r else none) ∧ r.done = true) := by
  intro next _ t _ run _; exact ⟨rfl, rfl, rfl, by cases run <;> rfl, rfl⟩

/-- A row and a record whose places are the batch's; a run that has no mask yet, with a mask in the scratchpad; one that waits for its word (R277). -/
theorem witness_SamplingEvents_places :
    (let m : Cmd := { (probe.core 0 0).newCmd 0 none [] [] (.smpl 0x800000010000 4 0x8000000000000000 0x8000000000000100 1) with stage := .running 20 20 };
      let s := (samplerProbe .drain true).modCore 0 0 (fun y => { y with samplerQ := [m] });
      let s := s.modDie 0 (fun x => { x with job := some (.smpl 0 m.id [5] 0 0) });
      (s.place 0 0 0x800000010000 16).toOption = some 0x800000010000 ∧ (s.place 0 0 0x8000000000000100 8).toOption = some 0x100
        ∧ (match (asked s samplerAgent [0, m.id, 0x800000010000] 16 false).samplerFetch 0 0 m.id 0x800000010000 16, s.samplerAccess 0 0 m.id 0x100 8 (some (leBytes 8 7)) with
          | .ready row _, .ready _ _ => row.take 4 == leBytes 4 0x4E4F4D44
          | _, _ => false) = true
        ∧ (match s.samplerFetch 0 0 m.id 0x800000010000 16 with
          | .wait _ => true
          | _ => false) = true) := by decide +kernel

/-- A COLL whose block is not read yet, in the own scratchpad and off its alignment; one whose block is read and malformed; one admitted,
with sections left and without. -/
theorem witness_CollectiveEvents :
    (∀ a ∈ [0x8000000000000000, 0x8000000000000004],
      let m : Cmd := (probe.core 0 0).newCmd 0 none [] [] (.coll a none false);
      let s := probe.modCore 0 0 (fun y => y.accept 2 m);
      (s.core 0 0).nextColl = some (m, a, none) ∧ m.isQueued = true ∧ s.mayStart 0 0 2 = true ∧ s.rangeFree 0 0 m = true
        ∧ (match s.blockRead 0 0 m a 128 128 with
            | .ok bs => bs.length == 128
            | .error (c, _) => c == .reservedField && a != 0x8000000000000000) = true) := by decide +kernel

theorem witness_CollectiveEvents_admission :
    (let b := parseBlock (List.replicate 128 0xFF) [];
      let m : Cmd := (probe.core 0 0).newCmd 0 none [] [] (.coll 0x8000000000000000 (some b) false);
      let s := probe.modCore 0 0 (fun y => y.accept 2 m);
      (s.core 0 0).nextColl = some (m, 0x8000000000000000, some b) ∧ s.rangeFree 0 0 m = true ∧ s.enginesRun 0 0 2 = true
        ∧ (match s.enrol 0 0 m b with
            | .error (c, none) => c == .reservedField
            | _ => false) = true) := by decide +kernel

/-- A block in the scratchpad whose fields are 0 but for the place of its list, and its list, which the core may read; a block of no elements whose
fields are whole. -/
theorem witness_CollectiveEvents_block :
    (let m : Cmd := (probe.core 0 0).newCmd 0 none [] [] (.coll 0x8000000000000000 none false);
      let s := probe.modCore 0 0 (fun y => { y.accept 2 m with spad := Mem.write y.spad 0x28 (leBytes 8 0x8000000000001000) });
      leSum (fun i => Mem.byte (s.core 0 0).spad (0x28 + i)) 8 = 2 ^ 63 + 4096
        ∧ s.judgeFar 0 (s.tenantOf 0 0) (s.agentsOf 0 0 1) (some (0, m.id)) .read (spadVa 0 0 0) 128 = .ok
        ∧ s.judgeFar 0 (s.tenantOf 0 0) (s.agentsOf 0 0 1) (some (0, m.id)) .read (spadVa 0 0 4096) 0 = .ok)
    ∧ (let b : CollBlock := { opn := 0, alg := 0, ef := 0, rop := 0, root := 0, rowlen := 0, stepabs := false, sat := false, rm := 0,
                              reservedOk := true, count := 0, send := 0, recv := 0, group := 0, nmem := 2, rank := 0, stept := 0, budget := 16,
                              stage := 0, stagesz := 0, spk := none, members := [0, 1] };
        b.fieldsOk 0 = true
          ∧ (probe.collPlaces 0 0 ((probe.core 0 0).newCmd 0 none [] [] .drain) b).toOption = some { send := 0, recv := 0, stage := 0 }) := by
  decide +kernel

/-- Port 0 of the probe with a running plan stream and registers. -/
def linkProbe (now : Nat) (regs : List (Nat × Word)) (f : Port → Port) (a : Actor) : State :=
  let q : Port := { Port.reset with state := .running, pc := 0x140, snapRegs := regs }
  { ((podProbe.setTenant 0 0 probeTenant).modDie 0 (fun x => { x with tick := now })).setPort 0 0 (f q) with actor := a }

/-- A stream that is decoded at a tick that has passed and at one to come; the ticks before it (LinkDecoding). -/
theorem witness_LinkDecoding :
    (∀ now ∈ [100, 101, 102], ∀ prev ∈ [101, 102],
      let s := linkProbe now [(3, 2)] (fun q => { q with decBase := 1, prevTick := prev }) (.link 0 0);
      s.actor = .link 0 0 ∧ (s.port 0 0).state = .running ∧ (s.port 0 0).ended = false ∧ (s.port 0 0).claims = [] ∧ s.now 0 = now
        ∧ (s.port 0 0).decBase + (100#32).toNat = 101 ∧ (s.port 0 0).xreg 3 = 2)
    ∧ countOk 2 false false = true ∧ countOk 0 false false = false ∧ countOk 0x3000002 true true = true
    ∧ relayTagOk 0 false 0x100000005 = true ∧ relayTagOk 0 true 0xF00000005 = true ∧ relayTagOk 0 false 5 = false := by decide

/-- An operation that stands first and its tick, with ranges in HBM that the port may use and one in another die's (LinkTaking). -/
theorem witness_LinkTaking :
    (∀ i ∈ ([.xsend true false 1 2 3 0 .none, .xrecv 1 2 3 4 10 .none, .xfwd 1 5 3 0 .none, .xred .sum true 1 6 7 1 0 .none, .xguard 4 0, .xopen 3 0,
        .xstep false 0 .none, .xstep true 0 (.to 8 2)] : List Instr),
      let op : LinkOp := { off := 0x140, tick := 100, instr := i };
      let s := linkProbe 100 [(1, 0x800000010000), (2, 9), (3, 2), (4, 5), (5, 0x100000005), (6, 0xF00000005), (7, 0x3000002), (8, 0)] (fun q =>
        { q with ops := [op] }) (.taken 0 0);
      s.actor = .taken 0 0 ∧ (s.port 0 0).state = .running ∧ (s.port 0 0).ops = op :: [] ∧ op.tick ≤ s.now 0 ∧ op.instr = i) := by
  intro i _; exact ⟨rfl, rfl, rfl, Nat.le_refl 100, rfl⟩

theorem witness_LinkTaking_checks :
    (let s := linkProbe 100 [(8, 0), (9, 0x10000)] id (.taken 0 0);
      let t := s.setTenant 0 0 { probeTenant with cfg := { probeCfg with allotLimit := 0x3000000000 } };
      let u := t.setBrand 0 70 { Brand.free with base := 0x800000010000, lsize := 16, tenant := 0, title := portAgent 0, cur := portAgent 0, state := .owned };
      u.linkRight 0 0 .write 0x800000010000 512 = none ∧ u.linkRight 0 0 .read 0x1800000010000 512 = some .reservedField
        ∧ t.linkRight 0 0 .read 0x800000010000 512 = some .unowned ∧ vaTranslated 0x800000010000 = true
        ∧ (s.port 0 0).pushOk .none = true ∧ (s.port 0 0).recvs = [] ∧ (s.port 0 0).landing = []) := by decide

/-- A receive of three flits at address 0, of which flit 1 is there: flits 0, 1 and 3 come, and flit 2 as the last one (Receives). -/
theorem witness_Receives :
    (∀ got ∈ [[1], [0, 1]], ∀ idx ∈ [0, 1, 2, 3],
      let r : Recv := { op := { off := 0x140, tick := 50, instr := .xrecv 1 2 3 4 0 .none }, tag := 9, flits := 3, addr := some 0x10000, posted := true,
                        deadline := none, got := got, relay := false, data := [], own := [], ownTo := 0, sent := 0, status := 0 };
      let f : Flit := { die := 0, port := 0, tag := 9, idx := idx, payload := .raw (List.replicate 256 7), src := 1, sent := 60, hop := 40, skew := 0,
                           bad := false, tick := 100, idle := false };
      let s := linkProbe 100 [] id .none;
      (s.port 0 0).recvs.any (fun y => y.open_ && y.tag == r.tag) = false ∧ ((s.die 0).laneFor 0 r.tag).isNone = true ∧ (s.port 0 0).landing = []
        ∧ (s.setPort 0 0 { s.port 0 0 with recvs := [r] } |>.port 0 0).recvs.any (fun y => y.open_ && y.tag == r.tag) = true
        ∧ r.relay = false ∧ (r.flits ≤ f.idx ∨ f.idx ∈ r.got ∨ r.got.length + 1 < r.flits ∨ r.got.length + 1 = r.flits)) := by decide

theorem witness_Receives_write :
    (let s := ((linkProbe 100 [] id .none).setTenant 0 0 { probeTenant with cfg := { probeCfg with allotLimit := 0x3000000000 } }).modDie 0 (fun x =>
        { x with hbm := imageHbm });
      let u := s.setBrand 0 70 { Brand.free with base := 0x800000010000, lsize := 16, tenant := 0, title := portAgent 0, cur := portAgent 0, state := .owned };
      (match u.linkWrite 0 0 0x800000010000 (List.replicate 8 7) with
        | .ok _ _ => true
        | .bad _ => false) = true) := by decide

/-- An idle engine and an armed one, for the plan tenant and for another, with a START that has passed and one to come (EngineStarts). -/
theorem witness_EngineStarts :
    (∀ st ∈ [LState.idle, .armed, .running, .done, .faulted], ∀ start ∈ [99, 100, 101], ∀ pm ∈ [0, 1, 2],
      let s := linkProbe 100 [] (fun q => { q with state := st, start := start, snapStart := start, pmode := pm }) .none;
      s.planTenant 0 0 = some 0 ∧ (s.port 0 0).state = st ∧ (s.port 0 0).start = start ∧ (s.port 0 0).pmode = pm ∧ (s.port 0 0).failed = false
        ∧ s.now 0 = 100) := by decide

/-- A flit at its tick and before it, whole and not, on a port that works and one that has failed; a flit that waits 255 and 256 ticks; a late
receive; a guard that is overdue; an idle port at the guard's tick and after it; open messages that wait, are there and lose their way. -/
theorem witness_LinkEvents :
    (∀ t ∈ [100, 101], ∀ fl ∈ [true, false], ∀ bad ∈ [true, false],
      let f : Flit := { die := 0, port := 0, tag := 9, idx := 0, payload := .raw [], src := 1, sent := t - 40, hop := 40, skew := 0, bad := bad,
                           tick := t, idle := false };
      let s : State := { linkProbe 100 [] (fun q => { q with failed := fl }) .none with flits := [f] };
      s.flits.find? (fun f => f.die == 0 && f.port == 0) = some f ∧ (s.port 0 0).failed = fl ∧ (s.port 0 0).recvs = [] ∧ (s.port 0 0).landing = []
        ∧ (s.die 0).laneFor 0 9 = none ∧ (f.sent : Int) + f.hop + ((s.now 0 : Int) - (s.now f.src : Int) - f.skew) = t)
    ∧ (∀ t ∈ [400, 401],
        let f : Flit := { die := 0, port := 0, tag := 9, idx := 0, payload := .raw [], src := 1, sent := t - 40, hop := 40, skew := 0, bad := false,
                           tick := t, idle := false };
        let r : Recv := { op := { off := 0x140, tick := 50, instr := .xrecv 1 2 3 4 0 .none }, tag := 9, flits := 3, addr := none, posted := true,
                          deadline := some 656, got := [], relay := false, data := [], own := [], ownTo := 0, sent := 0, status := 0 };
        let s := linkProbe 656 [] (fun q => { q with landing := [f], recvs := [r] }) .none;
        (s.port 0 0).state = .running ∧ (s.port 0 0).landing = [f] ∧ s.now 0 = 656 ∧ ((s.port 0 0).recvs.find? (fun r => (s.port 0 0).lateRecv 657 r)).isSome = true
          ∧ (s.port 0 0).recvs.find? (fun r => (s.port 0 0).lateRecv 100 r) = none)
    ∧ (∀ n ∈ [65535, 65536], let s := linkProbe n [] id .none; (s.port 0 0).state = .running ∧ (s.port 0 0).inGuard n = false ∧ s.now 0 = n)
    ∧ (∀ n ∈ [32784, 32785], let s := linkProbe n [] (fun q => { q with state := .idle }) .none;
        (s.port 0 0).state ≠ .running ∧ (s.cable 0 0).isSome = true ∧ s.linkUp 0 0 = true ∧ s.now 0 = n) := by decide

/-- Open messages that wait, are there and lose their way; an answer and a request. -/
theorem witness_LinkEvents_opens :
    (∀ at_ ∈ [0, 1], ∀ due ∈ [100, 101], ∀ b ∈ [OpenBody.ack 0, .read 0 256 0], ∀ way ∈ [none, some 0],
        let o : OpenMsg := { tr := { fromDie := 0, toDie := 1, at_ := at_, due := due, via := way, agent := 64, gone := 0, spent := false },
                             by_ := .copy, core := 0, cmd := 1, tenant := 0, locked := false, body := b };
        let s : State := { podProbe with opens := [o] };
        s.opens[0]? = some o ∧ s.hop o.tr = (if due = 100 ∧ at_ = 1 then .here else .stay)
          ∧ (s.setPort 0 0 { s.port 0 0 with failed := true }).hop o.tr
            = (if due = 100 ∧ at_ = 1 then .here else if at_ = 0 ∧ (due = 100 ∨ way = some 0) then .lost else .stay)
          ∧ (s.openTurn o).1 = true ∧ (o.body.isAnswer = false → ((s.endOpen 0).serveOpen 1 o).isSome = true)) := by decide +kernel


/-- A child of the time tree with the four stamps of an exchange, far and near, without them, and the root; slews to add, to withhold and none; a pod
that may be formed and is idle, one that is not idle, one that has launched, and a configuration of no pod. -/
theorem witness_PodTime :
    (∀ t4 ∈ [180, 300],
      let e : Exchange := { Exchange.none with t1 := some 100, t2 := some 140, t3 := some 142, t4 := some t4 };
      let s := podProbe.setPort 1 0 { podProbe.port 1 0 with exch := e };
      Tab.find s.pod.parents 1 = some 0 ∧ Tab.find s.pod.parents 0 = none ∧ (s.port 1 0).exch = e ∧ (podProbe.port 1 0).exch.t1 = none)
    ∧ ((((140 : Int) - 100) - (180 - 142)).natAbs ≤ 8 ∧ 8 < (((140 : Int) - 100) - (300 - 142)).natAbs)
    ∧ (∀ left ∈ [2, 1, 0, -1, -2], ∀ next ∈ [100, 101], ∀ w ∈ [true, false],
        let x := (podProbe.modDie 1 (fun x => { x with slewLeft := left, slewNext := next, withhold := w })).die 1;
        x.slewLeft = left ∧ x.slewNext = next ∧ x.withhold = w ∧ x.tick = 100)
    ∧ (∀ e ∈ State.reset.dies, e.2.idle = true) ∧ (∃ e ∈ podProbe.dies, e.2.idle = false)
    ∧ (State.reset.launched = false ∧ podOk lonePod = true ∧ podOk twoDies = false)
    ∧ ((podProbe.die 0).lockedOp = false ∧ ((gangProbe podProbe (fun g => { g with locked := true })).die 0).lockedOp = true) := by decide

/-- A cabled port that works, one that has failed, one without a cable; an abort that arrives and is new, and one that is known. -/
theorem witness_PortEvents :
    (podProbe.cable 0 0 = some { farDie := 1, farPort := 0, hop := 40 } ∧ (podProbe.port 0 0).failed = false ∧ podProbe.cable 0 3 = none
      ∧ ((podProbe.setPort 0 0 { podProbe.port 0 0 with failed := true }).port 0 0).failed = true)
    ∧ (let a : AbortId := { die := 1, tick := 60, cause := .timeFault, lcause := 0 };
        ∀ l ∈ [[], [{ a with lcause := 4 }]],
          let s := podProbe.modDie 0 (fun x => { x with abortIn := [(1, 50, a), (0, 100, a), (0, 101, a)], aborts := l });
          (s.die 0).abortIn = [(1, 50, a)] ++ (0, 100, a) :: [(0, 101, a)] ∧ (s.die 0).aborts.all (fun b => b.same a) = true ∧ s.now 0 = 100)
    ∧ (podProbe.die 0).abortIn = [] := by decide

/-- A die in reset and one that runs; firmware older than the fuses (which firmware verifies rests on the vendor's root, log entry 5); dies with no gang, with a Free and with a Locked one. -/
theorem witness_BoardEvents :
    ((podProbe.die 0).inReset = false ∧ ((podProbe.modDie 0 (fun x => { x with inReset := true })).die 0).inReset = true)
    ∧ ¬ ((podProbe.modDie 0 (fun x => { x with fused := 5 })).die 0).fused.toNat ≤ 4
    ∧ (State.reset.die 0).gangs = [] ∧ (∀ g ∈ (podProbe.die 0).gangs, g.2.locked = false)
    ∧ (∃ g ∈ ((gangProbe podProbe (fun g => { g with locked := true })).die 0).gangs, g.2.locked = true) := by decide

/-- A die with a tenant whose queue pair stands at port 0. -/
def hostProbe (lk : Bool) : State :=
  let te : Tenant := { probeTenant with cfg := { probeCfg with allotLimit := 0x3000000000, qps := [(1, 0)] } }
  let s := gangProbe ((podProbe.setTenant 0 0 te).modDie 0 (fun y => { y with hbm := imageHbm })) (fun g => { g with locked := lk })
  s.setBrand 0 70 { Brand.free with base := 0x800000010000, lsize := 16, tenant := 0, title := etherAgent 0, cur := etherAgent 0, state := .owned }

/-- Requests by the tenant's pair and by a tenant that has none: at memory that the port may write, at memory that it may not, at another die's, at the
schedule table within the partition and past it, at a link program and at a slot. -/
theorem witness_HostTraffic :
    (let s := hostProbe false;
      s.pairAt 0 0 0 = true ∧ s.pairAt 0 0 1 = false ∧ s.tenant 0 0 ≠ none
        ∧ hostRange 0 0x800000010000 8 = .memory ∧ vaDie 0x800000010000 = 0 ∧ s.judge 0 0 [etherAgent 0] none .write 0x800000010000 8 = .ok
        ∧ s.judge 0 0 [etherAgent 0] none .write 0x800000020000 8 = .bad .unowned none
        ∧ (match (s.die 0).write .walker 0 false 0x800000010000 [1, 2, 3, 4, 5, 6, 7, 8] with
            | .ok _ _ => true
            | _ => false) = true
        ∧ (match (s.die 0).read .walker 0 false 0x800000010000 4 with
            | .ok bs _ => bs == leBytes 4 0x4E4F4D44
            | _ => false) = true
        ∧ hostRange 0 0x11200000 64 = .table 0 ∧ inPartition probeCfg 0 64 = true ∧ inPartition probeCfg 1024 64 = false
        ∧ hostRange 0 0x11240000 8 = .link 0 0 ∧ s.planTenant 0 0 = some 0 ∧ s.planTenant 0 1 = none
        ∧ hostRange 0 0x11300000 8 = .landing 0 0 ∧ hostRange 0 0x12000000 8 = .slot) := by decide

theorem witness_HostTraffic_far :
    (let s := (hostProbe false).setBrand 0 71 { Brand.free with hdie := 1, base := 0x800000010000, lsize := 16, title := etherAgent 0, cur := etherAgent 0,
                                                                state := .owned };
      hostRange 0 0x1800000010000 8 = .memory ∧ vaDie 0x1800000010000 = 1 ∧ s.judge 0 0 [etherAgent 0] none .write 0x1800000010000 8 = .ok
        ∧ s.reaches 0 1 = true ∧ (s.setPort 0 0 { s.port 0 0 with failed := true }).reaches 0 1 = false ∧ hostRange 0 0x1000012000000 8 = .slot)
    ∧ (∀ lk ∈ [true, false], ((hostProbe lk).gang 0 ((0#32).toNat / 2 ^ 22 % 64)).any (fun g => g.locked == lk) = true)
    ∧ (hostProbe true).gang 0 ((0x400000#32).toNat / 2 ^ 22 % 64) = none := by decide

/-- Configurations that are well formed and not, of a tenant that is not there, that is there, and whose change cuts nothing off. -/
theorem witness_Tenancy :
    ((State.reset.die 0).configOk 0 probeCfg = true ∧ State.reset.tenant 0 0 = none
      ∧ (State.reset.die 0).configOk 0 { probeCfg with schedSize := 7 } = false)
    ∧ (let s := tenanted State.reset;
        s.tenant 0 0 = some probeTenant ∧ (s.die 0).configOk 0 { probeCfg with schedSize := 32 } = true
          ∧ (s.die 0).cutsOff 0 probeTenant { probeCfg with schedSize := 32 } = false ∧ (∀ g ∈ (s.die 0).gangs, g.2.tenant ≠ 0))
    ∧ (let s := tenanted probe;
        (s.die 0).cutsOff 0 probeTenant { probeCfg with clamps := 0xFFFE } = true ∧ (∃ g ∈ (s.die 0).gangs, g.2.tenant = 0)) := by decide

/-- A tenant that may inject and one that may not; a core that its gang holds and one that none holds (Management). -/
theorem witness_Management :
    (let te : Tenant := { probeTenant with cfg := { probeCfg with inject := true } };
      let s := probe.setTenant 0 0 te;
      s.tenant 0 0 = some te ∧ te.cfg.inject = true ∧ probeTenant.cfg.inject = false ∧ s.tenant 0 1 = none
        ∧ (s.ctx 0 0).any (fun e => e.2.2.tenant == 0) = true ∧ s.ctx 0 1 = none ∧ ((s.strand ⟨0, 0, 3⟩).sreg 31).ok = true) := by decide

/-- Words that are none, that lack an instruction's length, and an address without code, with a handler and at it; a plan stream of such words. -/
theorem witness_IllegalWords_fetch (w0 w1 w2 : BitVec 32) :
    let s := { State.reset.withStrandWord [w0.toNat, w1.toNat, w2.toNat] with agenda := [], actor := .strand 0 0 0 }.modStrand p0 (fun z =>
        { z with trapvec := 0x100 });
    s.canIssue p0 = true ∧ (s.strand p0).pc ≠ (s.strand p0).trapvec ∧ (s.strand p0).trapvec ≠ 0 ∧ (s.core 0 0).page 0 = .code :=
  ⟨rfl, fun h => absurd (show (0#18) = 0x100 from h) (by decide), fun h => absurd (show (0x100#18) = 0 from h) (by decide), rfl⟩

theorem witness_IllegalWords :
    (let s := { State.reset.withStrandWord [0x70, 0, 0] with agenda := [], actor := .strand 0 0 0 };
      (s.core 0 0).fetch (s.strand p0).fetchAt = .words 0x70 0 0)
    ∧ (decodeStrand 0x70 0 0).toOption = none
    ∧ (match decodeStrand 0x70 0 0, decodeStrand 7 0 0 with
        | .error a, .error b => a == .illegalOp && b == .illegalLen
        | _, _ => false) = true
    ∧ (let s := { State.reset.withLinkWord [0xFFFFFFFF, 0, 0] with agenda := [], actor := .link 0 0 };
        s.actor = .link 0 0 ∧ (s.port 0 0).state = .running ∧ (s.port 0 0).linkWord.toOption = none) := by decide

theorem witness_IllegalWords_invalid :
    (∀ v ∈ [0x100#18, 0x2000],
        let s := probeOf [] (fun z => { z with pc := 0x2000, trapvec := v }) id;
        s.canIssue p0 = true ∧ (s.strand p0).fetchAt = 0x2000 ∧ (s.core 0 0).fetch 0x2000 = .invalid 0x2000 ∧ (s.strand p0).far = none) := by
  intro v _; exact ⟨rfl, rfl, rfl, rfl⟩

/-- A gang of two cores of which one fails (FailedGangs). -/
theorem witness_FailedGangs :
    (let s := gangProbe (tenanted (probe.modCore 0 1 (fun y => { y with ctx := some (0, 1) }))) (fun g => { g with cores := [0, 1], locked := true });
      (s.ctx 0 0).any (fun e => e.1 == 0 && e.2.1 == 0 && e.2.2.locked) = true ∧ (s.core 0 1).ctx = some (0, 1)) := by decide

/-- A strand, an engine, an engine with a decoded instruction, and the sampler whose moves come next, and an event's (StepRunsDecoded). -/
theorem witness_StepRunsDecoded :
    (let s := State.reset.withStrandWord [0x0000C009, 3, 0];
      s.agenda = .strand 0 0 0 :: [] ∧ (s.strand p0).turn ≠ s.now 0 + 1 ∧ s.canIssue p0 = true
        ∧ (s.core 0 0).records.any (fun r => r.strand == 0) = false
        ∧ (s.core 0 0).fetch (s.strand p0).fetchAt = .words 0x0000C009 3 0 ∧ (decodeStrand 0x0000C009 3 0).toOption = some (.addi 12 0 3))
    ∧ (let s := State.reset.withLinkWord [0x00000712, 0x7D0, 0x10000000];
        s.agenda = .link 0 0 :: [] ∧ (s.port 0 0).state = .running ∧ (s.port 0 0).ended = false
          ∧ (s.port 0 0).linkWord.toOption = some (.xguard 16 2000))
    ∧ (let s := State.reset.withLogitWord 0x40200041;
        s.agenda = .logit 0 :: [] ∧ (match (s.die 0).run with
          | some r => r.prog.getD r.pc 0 == 0x40200041
          | none => false) = true ∧ (decodeLogit 0x40200041).toOption = some (.lset 1 (BitVec.ofNat 23 0x201000))) := by decide

/-- A strand whose granted pop of channel 5 comes next, with a push that has reached the channel (StepRunsDecoded). -/
theorem witness_StepRunsDecoded_pop :
    (let h : HeldPush := { ch := 5, agent := 0, strand := 0, fresh := true, by_ := .outside };
      let s := { (State.reset.withStrandWord [0x28000194, 0, 0]).modCore 0 0 (fun y => { y with held := [h] }) with agenda := [.sync 0 0 0] }.modStrand p0
        (fun z => { z with granted := true, popWait := some 5 });
      s.agenda = .sync 0 0 0 :: [] ∧ s.nextInstr p0 = some (.spop 5) ∧ (Instr.spop 5).unit = .sync ∧ (s.core 0 0).records = []
        ∧ (s.strand p0).granted = true ∧ (s.strand p0).popWait = some 5) := by decide

/-- An instruction of each stream that is well-formed (DecodeOfEncode, EncodeOfDecode). -/
theorem witness_DecodeOfEncode :
    wellFormed (.addi 12 0 3) = true ∧ streamOf (.addi 12 0 3) = .strand ∧ wellFormed (.xguard 16 2000) = true ∧ streamOf (.xguard 16 2000) = .link
    ∧ wellFormed (.ltopk 2) = true ∧ streamOf (.ltopk 2) = .logit ∧ decodedIn .strand [0x0000C009, 3, 0] = some (.addi 12 0 3)
    ∧ decodedIn .link [0x00000712, 0x7D0, 0x10000000] = some (.xguard 16 2000) ∧ decodedIn .logit [0x00000407, 0, 0] = some (.ltopk 2) := by decide

/-- A state whose memories are canonical, from which a step is taken that stores (CanonicalMemory). -/
theorem witness_CanonicalMemory :
    (let s := (State.reset.withStrandWord (encode (.st .b8 13 14 0))).setReg p0 13 0x8000000000000000 |>.setReg p0 14 7 |>.modCore 0 0 (fun y => { y with window := [0] });
      s.memWf = true ∧ (match step s with
        | .next t => (t.strand p0).fwd.length == 1
        | _ => false) = true) := by decide

/-- Transfers to the first address past instruction memory, and below 0; the strand there with a handler (FarTargets). -/
theorem witness_FarTargets :
    (let s := handlerProbe [(13, 0x40000)];
      (∀ i ∈ ([.bLong 0x40000, .callLong 0x40000, .b (-1), .jx 0 13] : List Instr), readyB s p0 i = true ∧ (goesTo s p0 i).isSome = true)
        ∧ goesTo s p0 (.bLong 0x40000) = some (2 ^ 18) ∧ goesTo s p0 (.b (-1)) = some (-4) ∧ goesTo s p0 (.jx 0 13) = some (2 ^ 18)
        ∧ s.canIssue p0 = true ∧ s.actor = .strand 0 0 0) := by decide

/-- A strand before a CALLX, with an import table at an address and a handler. -/
def callxProbe (tab : Word) : State := probeOf [(13, 256), (14, 0)] (fun z => { z with importTab := tab, trapvec := 0x100 }) id

/-- A CALLX of index 256, of a misaligned import table and of tables outside the scratchpad at both ends (ImportCalls). -/
theorem witness_ImportCalls_checks :
    readyB (callxProbe 0x8000000000000000) p0 (.callxReg 13) = true ∧ ((callxProbe 0x8000000000000000).reg p0 13).toNat = 256
    ∧ readyB (callxProbe 4) p0 (.callxReg 14) = true ∧ ((callxProbe 4).strand p0).importTab.toNat % 8 ≠ 0
    ∧ readyB (callxProbe 0x8000000000400000) p0 (.callxReg 14) = true ∧ readyB (callxProbe 0x7FFFFFFFFFFFFFF8) p0 (.callxReg 14) = true := by
  decide +kernel

/-- One of a table that the core may not read, and one of an entry over which a vector store of its own stands (ImportCalls). -/
theorem witness_ImportCalls_reads :
    (let u := (callxProbe 0x8000000000000000).modDie 0 (fun x => { x with brands := [] });
      readyB u p0 (.callxReg 14) = true ∧ (u.acting p0 (.callxReg 14)).judgeStrand 0 0 .read 0 8 = .bad .unowned none)
    ∧ (let v : VStore := { due := 20, strand := 0, seq := 0, rows := [(0, [1], [255])], cmd := none };
      let u := (callxProbe 0x8000000000000000).modCore 0 0 (fun y => { y with vstores := [v] });
      readyB u p0 (.callxReg 14) = true ∧ ((u.acting p0 (.callxReg 14)).core 0 0).meetsStore 0 0 8 = true) := by decide +kernel

/-- A register whose residue is wrong in both halves or in the low one, under instructions that check it; the same under a BAR in Locked mode
(WrongResidue). -/
theorem witness_WrongResidue :
    (∀ i ∈ ([.mul 12 13 14, .jx 12 14, .st .w64 14 14 0, .cpy 14 13 12 4096 .none, .waittReg 14, .bar false 14 5,
        .vbcs (.reg 18) 14 false ⟨0, false⟩] : List Instr),
      let s := gangProbe (probeOf [] (fun z => z.setSReg 14 { val := 7, lo := 8, hi := 0 }) id) (fun g => { g with locked := true });
      let f := formOf i; let z := s.strand p0;
      s.actor = .strand 0 0 0 ∧ s.canIssue p0 = true ∧ f.names.all z.vnameOk = true ∧ z.await = [] ∧ z.awaitFlags = none
        ∧ (s.core 0 0).operandsReady z (s.cyc 0 0) (s.readForm p0 i) = true ∧ (s.core 0 0).unitFree (s.cyc 0 0) i = true
        ∧ s.popMissing p0 f.sp = false ∧ (s.windowed p0 i).isSome = true
        ∧ ((14 : Reg) ∈ f.checked ∧ (z.sreg 14).ok = false ∨ (14 : Reg) ∈ f.lowChecked ∧ (z.sreg 14).lowOk = false)) := by decide

/-- A strand whose turn comes at words with a reserved field that is not zero, at words that are none, at a free page and at one that is filling,
with a handler (RefusedWords). -/
theorem witness_RefusedWords :
    (∀ ws ∈ [[0x80000684], [0x70], [7, 0, 0]], ∀ pg ∈ [Page.code, .filling, .free],
      let s := ((State.reset.withStrandWord ws).modStrand p0 (fun z => { z with trapvec := 0x1000 })).modCore 0 0 (fun y =>
        { y with pages := [(0, pg), (1, .code)] });
      s.agenda = .strand 0 0 0 :: [] ∧ (s.strand p0).turn ≠ s.now 0 + 1 ∧ s.canIssue p0 = true ∧ (s.strand p0).popWait = none
        ∧ (s.core 0 0).keptRecords = [] ∧ (s.strand p0).trapvec ≠ 0 ∧ (s.core 0 0).page 1 ≠ .free
        ∧ (pg = .free → (s.core 0 0).fetch (s.strand p0).fetchAt = .invalid 0) ∧ (pg = .filling → (s.core 0 0).fetch (s.strand p0).fetchAt = .hold)
        ∧ (pg = .code → (s.core 0 0).fetch (s.strand p0).fetchAt = .words (ws.getD 0 0) (ws.getD 1 0) (ws.getD 2 0))) := by decide +kernel

/-- What those words decode to, and a plan stream at words of both kinds (RefusedWords). -/
theorem witness_RefusedWords_decode :
    (∀ e ∈ [(0x80000684, true), (0x70, false), (7, false)], (match decodeStrand e.1 0 0 with
        | .error a => (a == DecodeFault.reservedField) == e.2
        | .ok _ => false) = true)
    ∧ (∀ w ∈ [0xF0000712, 0xFFFFFFFF], let s := State.reset.withLinkWord [w, 0, 0];
        s.agenda = .link 0 0 :: [] ∧ (s.port 0 0).state = .running ∧ (s.port 0 0).ended = false
          ∧ (match (s.port 0 0).linkWord with
              | .error e => (e == .reservedField) == (w == 0xF0000712)
              | .ok _ => false) = true) := by decide +kernel

/-- A due entry like launchProbe's, in Free mode or in Locked mode, on a pod whose plan has some windows. -/
def windowProbe (ctl : Word) (ws : List HbmWindow) : State :=
  let s := launchProbe 1 0x800000010000 0xFFFF
  let t := s.setSched 0 1 { s.sched 0 1 with snap := [(1, 1), (2, 0x800000010000), (5, ctl)] }
  { t with pod := { t.pod with hbmWindows := ws } }

/-- The loader is let in in Free mode, and in Locked mode where the plan's windows name the tenant's pool; without a window it is not
(LaunchStarts). -/
theorem witness_LaunchStarts_windows :
    (let w : HbmWindow := { die := 0, stack := 0, agents := [poolAgent 0], first := 0, until_ := 100 };
      let shut (ctl : Word) (ws : List HbmWindow) : Bool := ((windowProbe ctl ws).loaderShut 0 0 ((windowProbe ctl ws).sched 0 1)).isSome;
      shut 1 [] = false ∧ shut 1 [w] = false ∧ shut 3 [w] = false ∧ shut 3 [] = true) := by decide +kernel

/-- A load whose image has no section, and one with data and imports (LoadedContents); a Locked load held for the plan's windows at START and
before (FirstIssue). -/
theorem witness_LoadedContents :
    (∀ e ∈ [(0, 0, 0), (0, 24, 2)],
      let img := List.replicate 0x24 (0 : Byte) ++ leBytes 4 e.1 ++ leBytes 4 e.2.1 ++ leBytes 4 e.2.2 ++ List.replicate (0xD0 + e.1 + e.2.1 + 8 * e.2.2) 0;
      let g := { probeGang with phase := .loading, loadDone := 20, image := img };
      let s := gangProbe (probeAt 20) (fun _ => g);
      s.gangFor 0 0 = some (0, g) ∧ g.loadDone ≤ s.now 0 ∧ g.cores.Nodup ∧ g.argBlock.length = 64 * (s.sched 0 0).argsz
        ∧ img.length = 0x100 + e.1 + e.2.1 + 8 * e.2.2 ∧ ofLeBytes (slice img 0x24 4) = e.1 ∧ ofLeBytes (slice img 0x28 4) = e.2.1
        ∧ ofLeBytes (slice img 0x2C 4) = e.2.2)
    ∧ (∀ g ∈ [{ probeGang with phase := .suspendedLoad 0, locked := true, start := 20 }, { probeGang with phase := .suspendedLoad 0, locked := true, start := 21 },
          { probeGang with phase := .loading, loadDone := 21, locked := true, start := 20 }],
        (gangProbe (probeAt 20) (fun _ => g)).gangFor 0 0 = some (0, g) ∧ g.locked = true) := by decide +kernel

/-- Entries of each state that cover the first bytes of a range, and a second one that covers the rest, on a die without saved contexts
(RightsTable). -/
theorem witness_RightsTable :
    (∀ st ∈ [BState.owned, .lent, .shared, .atomic, .forfeit], ∀ st' ∈ [BState.owned, .forfeit], ∀ a ∈ [64, 65, 66],
      let b : Brand := { Brand.free with base := 0x1000, lsize := 8, title := 64, cur := if st = .lent then 65 else 64, state := st };
      let f : Brand := { b with base := 0x1100, state := st', cur := 64 };
      let x : Die := { Die.reset with brands := [(70, b), (71, f)], shares := [{ agent := 66, gang := false, idx := 70 }] };
      let s : State := State.reset.setDie 0 x;
      let covers (b : Brand) (at_ : Nat) : Bool :=
        b.tenant == 0 && b.state != .free && b.hdie == 0 && decide (b.base ≤ at_) && decide (at_ < b.base + 2 ^ b.lsize);
      vaDie 0x10F8 = 0 ∧ vaLow 0x10F8 = 0x10F8 ∧ (s.die 0).gangs = [] ∧ x.brands.map (fun e => covers e.2 0x10F8) = [true, false]
        ∧ x.brands.map (fun e => covers e.2 0x1100) = [false, true] ∧ x.brands.any (fun e => covers e.2 0x1200) = false
        ∧ 0x10F8 + 8 ≤ b.base + 2 ^ b.lsize ∧ b.base + 2 ^ b.lsize < 0x10F8 + 16 ∧ 0x10F8 + 16 ≤ f.base + 2 ^ f.lsize
        ∧ (s.judge 0 0 [a] none .read 0x10F8 8 == .ok) = (match st with
          | .owned => a == 64
          | .lent => a == 65
          | .shared => a == 64 || a == 66
          | _ => false)) := by decide +kernel

/-- Entries of a root table: invalid ones, with reserved bits, pointers well placed and misplaced, and leaves (PageWalks). -/
theorem witness_PageWalks :
    (∀ e ∈ [0, 2 ^ 38 + 1, 0x101, 0x8001, 0x9001, 0x8005, 0x87, 0x83, 0x1087, 0x9F, 0x3000000087],
      let x : Die := { Die.reset with hbm := Mem.write [] 0x4000 (leBytes 8 e) };
      let cfg := { probeCfg with allotLimit := 0x2000000000 };
      (match walkLevel x cfg 0 0 true 3 1 0x4000 with
        | .page => e == 0 || e == 0x83 || e == 0x8001
        | .hard .unowned => false
        | .hard .reservedField => e == 2 ^ 38 + 1 || e == 0x101 || e == 0x9001 || e == 0x8005 || e == 0x1087 || e == 0x9F || e == 0x3000000087
        | .leaf l => e == 0x87 && l.size == 2 ^ 36 && l.pin
        | _ => false) = true)
    ∧ (let x : Die := { Die.reset with hbm := Mem.write [] 0x4000 (leBytes 8 0x87), tenants := [(0, { probeTenant with cfg := { probeCfg with allotLimit := 0x2000000000 } })] };
        (match walk x 0 0x800000000000 true with
          | .leaf l => l.va == 0x800000000000
          | _ => false) = true ∧ Tab.find x.tenants 1 = none ∧ probeCfg.root % 0x4000 = 0 ∧ x.memTlb = []) := by decide +kernel

/-- Mappings of each method with both places of the marks, a sector apart from its marks and the page's last one (CompressedSectors). -/
theorem witness_CompressedSectors :
    (∀ cmp ∈ [0, 1, 2], ∀ mt ∈ [true, false], ∀ pa ∈ [0x20100, 0x2FF00],
      let l : TlbEntry := { tenant := 0, va := 2 ^ 47, size := 2 ^ 36, pa := 0, w := true, cmp := cmp, meta_ := mt, pin := true };
      let x : Die := { Die.reset with sideBase := 0x100000, memTlb := [l] };
      let marks := if l.meta_ then x.sideBase + 64 * (pa / 65536) else pa / 65536 * 65536 + 0xFFC0;
      l.cmp < 3 ∧ pa % 256 = 0 ∧ (l.meta_ = false ∨ pa + 256 ≤ marks ∨ marks + 64 ≤ pa)
        ∧ (List.replicate (if l.cmp ≠ 0 ∧ l.meta_ = false ∧ pa % 65536 = 0xFF00 then 192 else 256) (7 : Byte)).length = sectorData l pa
        ∧ (pa + 0x80) / 65536 = pa / 65536 ∧ (match (x.translate .memSide 0 0x800000020100 false).1 with
          | .leaf e => e == l
          | _ => false) = true) := by decide +kernel

/-- A host's request that the stacks serve at once, and one during a Locked operation for which the plan has no window (HostTraffic). -/
theorem witness_HostTraffic_turns :
    ((hostProbe false).hostTurn 0 0 0 0x800000010000 8 true).1 = true
    ∧ ((hostProbe true).die 0).lockedOp = true ∧ ((hostProbe true).hostTurn 0 0 0 0x800000010000 8 true).1 = false := by decide +kernel

/-- A failed port whose far end works, and one whose far end has failed too (PortEvents). -/
theorem witness_PortEvents_restore :
    (∀ f ∈ [true, false],
      let s := (podProbe.setPort 0 0 { podProbe.port 0 0 with failed := true }).setPort 1 0 { podProbe.port 1 0 with failed := f };
      s.cable 0 0 = some { farDie := 1, farPort := 0, hop := 40 } ∧ (s.port 0 0).failed = true ∧ (s.port 1 0).failed = f) := by decide


/-- A plan stream before an XSEND of two flits at ticks 101 and 102, on a port where a claim stands (SlotCollisions). -/
def claimProbe (cs : List Claim) : State :=
  (linkProbe 100 [(1, 0x800000010000), (2, 9), (3, 2)] (fun q => { q with decBase := 1, claims := cs }) (.link 0 0)).setPort 0 1
    { Port.reset with state := .running }

def wallAt (first tick port : Nat) : Claim := { first := first, flits := 1, rate := 1, wall := true, tick := tick, port := port, off := 0x200, coll := none }

/-- A claim that leaves the slots of the XSEND free, one that holds a tick of it, one of another plan taken later that does too, and a send
elsewhere in both ticks (SlotCollisions). -/
theorem witness_SlotCollisions :
    (∀ e ∈ [(wallAt 103 100 0, false), (wallAt 102 100 0, true), ({ wallAt 102 100 0 with wall := false }, true)],
      let s := claimProbe [e.1]; let y := s.port 0 0; let i : Instr := .xsend false false 1 2 3 100 .none;
      s.actor = .link 0 0 ∧ y.state = .running ∧ y.ended = false ∧ firstClash (portRate 0) [] (takenOrder y.claims) = none
        ∧ (match claimsAt y 0 i with
            | some (o, c, _) => o == 0 && decide (y.prevTick ≤ c.tick) && decide (s.now 0 ≤ c.tick) && !e.1.later c && !y.idleClash c
                && (((e.1.meets c && e.1.wall != c.wall)
                  || (!c.wall && (List.range 4).any (fun n => c.uses (100 + n) != 0 && decide (1 < c.uses (100 + n) + usesAt y.claims (100 + n))))) == e.2)
            | none => false) = true)
    ∧ (let e := wallAt 102 102 1; let s := claimProbe [e];
        (match claimsAt (s.port 0 0) 0 (.xsend false false 1 2 3 100 .none) with
            | some (o, c, _) => o == 0 && e.later c && e.meets c && e.wall != c.wall
            | none => false) = true
          ∧ e.coll = none ∧ e.port ≠ 0 ∧ (s.port 0 1).state = .running ∧ (s.port 0 1).snapLocked = false) := by decide +kernel

/-- An XSTEP alone whose receives and landings allow it, with a region lent to the port, one shared with it once, and a push to a running gang
(StepReturns). -/
theorem witness_StepReturns :
    (∀ st ∈ [BState.lent, .shared, .owned], ∀ shr ∈ [1, 2],
      let op : LinkOp := { off := 0x140, tick := 100, instr := .xstep true 0 (.to 8 2) };
      let f : Flit := { die := 0, port := 0, tag := 9, idx := 0, payload := .raw [], src := 1, sent := 60, hop := 40, skew := 0, bad := false,
                        tick := 99, idle := true };
      let s := ((linkProbe 100 [(8, 0)] (fun q => { q with ops := [op], landing := [f] }) (.taken 0 0)).setBrand 0 70
        { Brand.free with base := 0x800000010000, lsize := 16, tenant := 0, title := 64, cur := if st = .lent then portAgent 0 else 64, state := st,
                          shr := shr }).modDie 0 (fun x => { x with shares := if st = .shared then [{ agent := portAgent 0, gang := false, idx := 70 }] else [] });
      let b := s.brand 0 70;
      s.actor = .taken 0 0 ∧ (s.port 0 0).state = .running ∧ (s.port 0 0).ops = [op] ∧ op.tick ≤ s.now 0 ∧ (s.port 0 0).pushOk (.to 8 2) = true
        ∧ (s.port 0 0).recvs = [] ∧ (s.port 0 0).toWrite = [] ∧ b.proxy = false ∧ (s.die 0).otherPool b.tenant 70 = false ∧ b.state = st
        ∧ agentClass b.title ≠ 7
        ∧ ((s.die 0).shares.filter (fun h => h.agent == portAgent 0 && h.idx == 70)).length = (if st = .shared then 1 else 0)
        ∧ (s.port 0 0).xreg 8 = 0 ∧ (s.gang 0 0).isSome = true ∧ s.planTenant 0 0 = some 0
        ∧ (s.gang 0 0).any (fun g => g.cores[0]? == some 0 && g.tenant == 0 && g.phase == .running) = true
        ∧ (s.core 0 0).ctx = some (0, 0)) := by decide +kernel

/-- A send of two flits, raw and of partials, that has sent none and all, with and without what it read; before its slot, in it and in a
guard (SentFlits). -/
theorem witness_SentFlits :
    (∀ part ∈ [true, false], ∀ sent ∈ [0, 2], ∀ now ∈ [99, 100], ∀ there ∈ [true, false],
      let op : LinkOp := { off := 0x140, tick := 100, instr := .xsend false part 1 2 3 0 .none };
      let x : Send := { op := op, addr := 0x800000010000, tag := 9, flits := 2, part := part, ef := 0, read := if there then [(0, List.replicate 8 7)] else [],
                        readTo := 1, sent := sent };
      let s := linkProbe now [] (fun q => { q with sends := [x] }) .none;
      (s.port 0 0).sends.find? (fun y => y.op == op) = some x ∧ (s.port 0 0).ops = [] ∧ (s.port 0 0).usedAt (s.now 0) = 0
        ∧ (s.port 0 0).inGuard (s.now 0) = false ∧ s.cable 0 0 = some { farDie := 1, farPort := 0, hop := 40 } ∧ s.linkUp 0 0 = true
        ∧ Tab.find x.read 0 = (if there then some (List.replicate 8 7) else none) ∧ (s.port 0 0).snapLocked = false
        ∧ s.linkHeld 0 0 .read x.addr 256 = false ∧ (s.linkTurn 0 0 [0, op.off, 1] (x.addr + 256) 256 false).1 = true) := by decide +kernel

/-- The same send where its stack has no window, in Locked mode; a read that fails, and one that is made (SentFlits). -/
theorem witness_SentFlits_reads :
    (let q0 : Port → Port := fun q => { q with snapLocked := true };
      let s := (linkProbe 100 [] q0 .none).setTenant 0 0 { probeTenant with cfg := { probeCfg with allotLimit := 0x3000000000 } };
      let t := (s.modDie 0 (fun x => { x with hbm := imageHbm })).setBrand 0 70
        { Brand.free with base := 0x800000010000, lsize := 16, tenant := 0, title := portAgent 0, cur := portAgent 0, state := .owned };
      (t.linkTurn 0 0 [0, 0x140, 0] 0x800000010000 8 false).1 = false
        ∧ (match s.linkRead 0 0 0x800000010000 8 with
            | .bad _ => true
            | .ok _ _ => false) = true
        ∧ (match t.linkRead 0 0 0x800000010000 8 with
            | .ok _ _ => true
            | .bad _ => false) = true) := by decide +kernel

/-- A relay of two flits, of raw flits and of partials, posted and not, before its slot and in it, whose flit is there and is not; one that has
sent both (RelaySteps). -/
theorem witness_RelaySteps :
    (∀ i ∈ ([.xfwd 0 5 3 0 .none, .xred .sum false 1 5 7 1 0 .none, .xred .sum true 1 6 7 1 0 .none] : List Instr), ∀ posted ∈ [true, false],
      ∀ now ∈ [107, 108], ∀ sent ∈ [0, 2], ∀ load ∈ [none, some (Payload.part (List.replicate 64 (0, false, false)))],
      let op : LinkOp := { off := 0x140, tick := 100, instr := i };
      let r : Recv := { op := op, tag := 9, flits := 2, addr := none, posted := posted, deadline := none, got := [0], relay := true,
                        data := (load.map (fun z => (0, z))).toList, own := [(0, List.replicate 256 0)], ownTo := 1, sent := sent, status := 0 };
      let s := linkProbe now [(1, 0x800000010000), (3, 2), (5, 0x100000005), (6, 0xF00000005), (7, 0x2)] (fun q => { q with recvs := [r] }) .none;
      (s.port 0 0).recv op = some r ∧ r.op = op ∧ r.relay = true ∧ (s.port 0 1).noSlot 1 now = false ∧ Tab.find r.own 0 = some (List.replicate 256 0)
        ∧ Tab.find r.data 0 = load ∧ (s.port 0 0).xreg 5 / 2 ^ 32 % 16 = 1 ∧ (s.port 0 0).writing op = false) := by decide +kernel

/-- The chain of dies 0 and 1 with a second cable at port 1, by which relays of die 0 go on (RelaySteps). -/
theorem witness_RelaySteps_cable :
    (let s := linkProbe 108 [] id .none;
      let more : Tab Cable := [(1, { farDie := 1, farPort := 1, hop := 40 }), (17, { farDie := 0, farPort := 1, hop := 40 })];
      let t := { s with pod := { s.pod with cables := s.pod.cables ++ more } };
      t.cable 0 1 = some { farDie := 1, farPort := 1, hop := 40 } ∧ t.linkUp 0 1 = true) := by decide

/-- A store of a relay's result where the port may write, and the combination of a partial with the codes of its own contribution (RelaySteps). -/
theorem witness_RelaySteps_store :
    (let s := ((linkProbe 108 [] id .none).setTenant 0 0 { probeTenant with cfg := { probeCfg with allotLimit := 0x3000000000 } }).modDie 0 (fun x =>
        { x with hbm := imageHbm });
      let u := s.setBrand 0 70 { Brand.free with base := 0x800000010000, lsize := 16, tenant := 0, title := portAgent 0, cur := portAgent 0, state := .owned };
      let op : LinkOp := { off := 0x140, tick := 100, instr := .xred .sum true 1 6 7 1 0 .none };
      (match u.linkStore 0 0 op 0x800000010000 (List.replicate 8 7) with
        | .ok _ _ => true
        | .bad _ => false) = true)
    ∧ (List.replicate 64 ((0 : W32), false, false)).length = (partsOfBytes 0 (List.replicate 256 0)).length := by decide +kernel

/-- Two dies with two cables between them, and a block of a collective on them. -/
def ringPod : State :=
  { podProbe with pod := { twoDies with cables := [(0, { farDie := 1, farPort := 1, hop := 40 }), (17, { farDie := 0, farPort := 0, hop := 40 }),
                                                   (16, { farDie := 0, farPort := 1, hop := 50 }), (1, { farDie := 1, farPort := 0, hop := 50 })] } }

def ringBlock (opn alg count stept : Nat) : CollBlock :=
  { opn := opn, alg := alg, ef := 0, rop := 0, root := 0, rowlen := 0, stepabs := true, sat := false, rm := 0, reservedOk := true, count := count,
    send := 2 ^ 63, recv := 2 ^ 63 + 0x10000, group := 5, nmem := 2, rank := 0, stept := stept, budget := 4000, stage := 0, stagesz := 0, spk := none,
    members := [0, 1] }

def ringPlaces : CollPlaces := { send := spadVa 0 0 0, recv := spadVa 0 0 0x10000, stage := 0 }

def ringLanes : List Lane := (ringPod.expand (ringBlock 3 0 64 200) ringPlaces 0).getD []

def ringCmd : Cmd := (ringPod.core 0 0).newCmd 0 none [] [] .drain

/-- Every operation on the ring of two dies, both ways where the ring has them; the same ring without its links (CollectiveLanes). -/
theorem witness_CollectiveLanes :
    (∀ b ∈ [ringBlock 0 0 128 200, ringBlock 0 1 256 200, ringBlock 1 0 128 200, ringBlock 2 0 64 200, ringBlock 3 0 64 200, ringBlock 4 0 64 200],
      b.fieldsOk 0 = true ∧ (ringPod.collPlaces 0 0 ringCmd b).toOption.isSome = true ∧ b.count ≠ 0 ∧ b.alg < 2 ∧ b.rank < b.members.length
        ∧ (ringPod.ring none b.members b.rank).isSome = true ∧ b.members.length = b.nmem ∧ (ringPod.expand b ringPlaces 200).isSome = true
        ∧ (podProbe.setPort 0 0 { podProbe.port 0 0 with failed := true }).ring none b.members b.rank = none) := by decide +kernel

/-- A broadcast over it is admitted wherever the free bytes of a section of one hop fit the collective area (CollectiveLanes). -/
theorem witness_CollectiveLanes_admitted (h : Config.sectionBytes 1 ≤ 0x8000) :
    (ringPod.enrol 0 0 ringCmd (ringBlock 3 0 64 200)).toOption.isSome = true := by
  have h1 : (ringBlock 3 0 64 200).fieldsOk 0 = true := by decide
  have h2 : ringPod.collPlaces 0 0 ringCmd (ringBlock 3 0 64 200) = .ok ringPlaces := by rfl
  have h3 : ringPod.expand (ringBlock 3 0 64 200) ringPlaces 0 = some ringLanes := by rfl
  have h4 : lanePorts ringLanes = [0, 1] := by rfl
  have h5 : ¬([0, 1].any (fun _ => decide (0x8000 < Config.sectionBytes 1 + 0)) = true) := by simpa using h
  unfold State.enrol
  simp only [h1, h2, h3, h4]
  rw [if_neg (by decide), if_neg (by decide), if_neg (by decide +kernel), if_neg (by decide +kernel), if_neg (by decide +kernel), if_neg (by decide +kernel),
    if_neg (by intro k; exact h5 k), if_neg (by decide +kernel)]
  rfl

/-- Four dies as a torus of two rows and two columns, and what its members make of a block over it (CollectiveLanes). -/
theorem witness_CollectiveLanes_torus :
    (let link (a p b : Nat) : Tab Cable := [(16 * a + p, { farDie := b, farPort := p, hop := 40 }), (16 * b + p, { farDie := a, farPort := p, hop := 40 })];
      let s := { podProbe with pod := { twoDies with members := [0, 1, 2, 3], cables := link 0 0 1 ++ link 2 0 3 ++ link 0 2 2 ++ link 1 2 3 } };
      let pl : CollPlaces := { send := 0, recv := 0x10000, stage := 0x20000 };
      ∀ opn ∈ [0, 1, 2], let b := { ringBlock opn 2 256 0 with nmem := 4, rowlen := 2, stagesz := 0x10000, members := [0, 1, 2, 3] };
        b.fieldsOk 0 = true ∧ b.count ≠ 0 ∧ b.rowlen ≠ b.nmem ∧ (s.expand b pl 200).isSome = true
          ∧ (s.ring none [0, 1] 0).isSome = true ∧ (s.ring none [0, 2] 0).isSome = true) := by decide +kernel

/-- A lane of an all-reduce that sends a flit of its own that it has read, by a cable that works, and adds its contribution to what it takes; the
other one takes a flit whole in its last hop (CollectiveLanes). -/
theorem witness_CollectiveLanes_flit :
    ((ringPod.expand (ringBlock 0 0 128 200) ringPlaces 200).getD []).any (fun l =>
      let l : Lane := { l with read := [(0, List.replicate 256 (7 : Byte))] };
      (ringPod.cable 0 l.out).isSome && ringPod.linkUp 0 l.out && Tab.find l.read 0 == some (List.replicate 256 7)
        && (match l.sendOf 0 with
            | some (.own p none) => !p.wide
            | _ => false)
        && l.hops.any (fun h => match h.recv with
            | some v => v.own.isNone && !v.fin
            | none => false)
        && l.hops.any (fun h => match h.recv with
            | some v => v.own.any (fun p => !p.wide)
            | none => false)) = true := by decide +kernel

/-- A port that owns the last bytes of a core's scratchpad which belong to a pre-empted context with its scratchpad in place. -/
def heldProbe (lk : Bool) : State :=
  let sc : SavedCore := { core := 1, image := { Core.reset with ctx := some (3, 0) }, withSpad := true, entry := none, shares := [] }
  let op : LinkOp := { off := 0x140, tick := 100, instr := .xsend true false 1 2 3 0 .none }
  ((linkProbe 100 [(1, 0x7FFE00), (3, 2)] (fun q => { q with ops := [op], snapLocked := lk }) (.taken 0 0)).setGang 0 3
    { probeGang with phase := .saved, saved := [sc] }).setBrand 0 70
    { Brand.free with base := 0x700000, lsize := 20, tenant := 0, title := portAgent 0, cur := portAgent 0, state := .owned }

/-- An XSEND of such bytes in Free mode waits (LinkTaking); its reads do (SentFlits); an ATOM there does (AtomicBatches). -/
theorem witness_LinkTaking_held :
    (heldProbe false).rangesHeld 0 0 (.xsend true false 1 2 3 0 .none) = true ∧ ((heldProbe false).port 0 0).snapLocked = false
    ∧ (heldProbe false).linkHeld 0 0 .read 0x7FFE00 256 = true ∧ ((heldProbe true).port 0 0).snapLocked = true
    ∧ (let r : AtomReq := { core := 0, agent := portAgent 0, rank := 0, strand := 0, seq := 0, cmd := 1, op := .add, ty := .i32, addr := 0x7FFE00, val := 1,
                            refused := none };
        let tr : Transit := { fromDie := 0, toDie := 0, at_ := 0, due := 100, via := none, agent := 64, gone := 0, spent := false };
        ((heldProbe false).setBrand 0 70 { (heldProbe false).brand 0 70 with state := .atomic }).atomsHeld 0
              { tr := tr, slot := 0, tenant := 0, reqs := [r], ends := none } = true) := by decide +kernel

/-- Flits of the line whose CRC has been found wrong, by ticks; a flit that a lane takes (LinkEvents). -/
theorem witness_LinkEvents_line :
    (let s := linkProbe 100 [] (fun q => { q with line := [(99, true), (100, true), (100, false), (101, true)] }) .none;
      s.now 0 = 100 ∧ (s.port 0 0).line.length = 4)
    ∧ (let l : Lane := { out := 0, inn := 0, start := 90, period := 100, flits := 2, hops := [{ send := none, recv := none }], part := false, claimed := 0, sent := 0, rhop := 0, got := [],
                         held := [], read := [], readTo := 0, mine := [], mineTo := 0, left := none };
        let run : CollRun := { core := 0, cmd := 1, tag := 0x8005, ef := 0, rop := 0, rm := 0, sat := false, locked := false, first := 90, budget := 400,
                               stage := 0, stagesz := 0, spk := none, side := [], lanes := [l], status := 0, lastWrite := 0, spkDone := false, toWrite := [] };
        let f : Flit := { die := 0, port := 0, tag := 0x8005, idx := 0, payload := .raw [], src := 1, sent := 60, hop := 40, skew := 0, bad := false,
                          tick := 100, idle := false };
        let s : State := { (linkProbe 100 [] id .none).modDie 0 (fun x => { x with colls := [run] }) with flits := [f] };
        s.flits.find? (fun f => f.die == 0 && f.port == 0) = some f ∧ (s.port 0 0).recvs = [] ∧ (s.die 0).laneFor 0 0x8005 = some (run, 0, l)
          ∧ (f.sent : Int) + f.hop + ((s.now 0 : Int) - (s.now f.src : Int) - f.skew) ≤ (s.now 0 : Int)) := by decide +kernel

/-- An operation of each kind on a port that holds no claim (LinkDecoding). -/
theorem witness_LinkDecoding_free :
    (let s := linkProbe 100 [(3, 2), (6, 0xF00000005), (7, 0x2)] (fun q => { q with decBase := 1 }) (.link 0 0);
      s.actor = .link 0 0 ∧ (s.port 0 0).claims = [] ∧ (s.port 0 0).decBase + (0xFFFFFFFF#32).toNat < 2 ^ 33
        ∧ countOk ((s.port 0 0).xreg 7) true true = true ∧ relayTagOk 0 true ((s.port 0 0).xreg 6) = true) := by decide

/-- A save under way, before and at its end; a batch that its stacks serve at once (Preemption, AtomicBatches). -/
theorem witness_Preemption_ends :
    (∀ due ∈ [100, 101], let g := { probeGang with phase := .saving 1, loadDone := due, saved :=
        [{ core := 0, image := { Core.reset with ctx := some (0, 0) }, withSpad := false, entry := none, shares := [] }] };
      (gangProbe podProbe (fun _ => g)).gang 0 0 = some g ∧ (gangProbe podProbe (fun _ => g)).now 0 = 100)
    ∧ (let tr : Transit := { fromDie := 0, toDie := 0, at_ := 0, due := 100, via := none, agent := 64, gone := 0, spent := false };
        let b : Batch := { tr := tr, slot := 0, tenant := 0, reqs := [], ends := none };
        let s := podProbe.modDie 0 (fun x => { x with batches := [b] });
        s.atomsHeld 0 b = false ∧ (s.batchTurn 0 b).1 = true ∧ s.hop tr = .here) := by decide +kernel

/-- A reply that has come and one that has lost its way, for a command that still stands at its core (BrandEvents). -/
theorem witness_BrandEvents_replies :
    (∀ fl ∈ [true, false],
      let m : Cmd := (probe.core 0 0).newCmd 0 none [] [] (.brand (.free (65536 + 7)) true);
      let tr : Transit := { fromDie := 1, toDie := 0, at_ := if fl then 1 else 0, due := 100, via := none, agent := 64, gone := 0, spent := false };
      let b : BrandMsg := { tr := tr, core := 0, cmd := m.id, tenant := 0, agent := 64, op := .free (65536 + 7), reply := some (.done []), touched := [],
                            pledge := none };
      let s := { (podProbe.modCore 0 0 (fun y => y.accept 4 m)) with brandMsgs := [b] };
      let t := s.setPort 1 0 { s.port 1 0 with failed := fl };
      t.brandMsgs[0]? = some b ∧ ((t.core 0 0).cmd 4 b.cmd).isSome = true ∧ t.hop b.tr = if fl then .lost else .here) := by decide +kernel

/-! Single steps whose results the spec states. -/

/-- One step of strand 0 on the words of an instruction, with registers set. -/
def ran (ws : List Nat) (regs : List (Nat × Word)) : Option State :=
  match step (regs.foldl (fun s e => s.setReg p0 (Fin.ofNat 32 e.1) e.2) (State.reset.withStrandWord ws)) with
  | .next t => some t
  | _ => none

/-- A register after that step. -/
def result (ws : List Nat) (regs : List (Nat × Word)) (r : Reg) : Option Word := (ran ws regs).map (fun t => t.reg p0 r)

/-- R313: the example word of ADDI writes s0 + 3; s0 reads as zero. -/
theorem test_addi : result [0x0000C009, 3] [] 12 = some 3 := by decide

/-- R312: ADD wraps modulo 2^64, and a source may be the destination. -/
theorem test_add_wraps : result (encode (.add 12 12 13)) [(12, 0xFFFFFFFFFFFFFFFF), (13, 2)] 12 = some 1 := by decide

/-- R360: MULH's high half, signed and unsigned. -/
theorem test_mulh : result (encode (.mulh false 12 13 14)) [(13, 0xFFFFFFFFFFFFFFFF), (14, 2)] 12 = some 0xFFFFFFFFFFFFFFFF
    ∧ result (encode (.mulh true 12 13 14)) [(13, 0xFFFFFFFFFFFFFFFF), (14, 2)] 12 = some 1 := by decide

/-- R338, R360: a quotient truncates toward zero, and its remainder has the dividend's sign. -/
theorem test_div_rem : result (encode (.div false 12 13 14)) [(13, 0xFFFFFFFFFFFFFFF9), (14, 2)] 12 = some 0xFFFFFFFFFFFFFFFD
    ∧ result (encode (.rem false 12 13 14)) [(13, 0xFFFFFFFFFFFFFFF9), (14, 2)] 12 = some 0xFFFFFFFFFFFFFFFF := by decide

/-- R326: the example CMP of 5 with -1 leaves EQ = 0, LT = 0 and LTU = 1. -/
theorem test_cmp : (ran [0x0018005D, 0x000FFFFF] [(12, 5)]).map (fun t =>
    ((t.strand p0).flags.getLsbD 0, (t.strand p0).flags.getLsbD 1, (t.strand p0).flags.getLsbD 2)) = some (false, false, true) := by decide

/-- R325: CAPR's example reads 0x0000_0000_0204_0040. -/
theorem test_capr : result [0x0000C691, 3] [] 12 = some 0x0000000002040040 := by decide

/-- R314: ADR adds its literal to its own address. -/
theorem test_adr : result [0x0000C06E, 0x240, 0] [] 12 = some 0x240 := by decide

/-- R319: the branch of the example goes back by 0x20 when it is taken, by 8 to the next instruction when it is not. -/
theorem test_brz : (ran [0x08180109, 0x000FFFF8] [(12, 0)]).map (fun t => (t.strand p0).pc) = some 8
    ∧ (ran [0x00180109, 8] [(12, 0)]).map (fun t => (t.strand p0).pc) = some 0x20 := by decide

/-- R54: with key and counter all zero Philox4x32-10 gives these words. -/
theorem test_philox : let w := philox 0 ⟨0, 0, 0, 0⟩; (w.a, w.b, w.c, w.d) = (0x6627E8D5#32, 0xE169C58D, 0xBC57AC4C, 0x9B00DBD8) := by decide

/-- R393: the row of the example sums along the tree to 2^24 + 60 with INEXACT. -/
theorem test_vredr_tree :
    let row : List W32 := (List.range 64).map (fun c => if c = 3 then 0x4B800000 else if c = 5 then 0x80000000 else 0x3F800000)
    treeSum row = (0x4B80001E#32, 0x40) := by decide

/-- R20: %group, %clamp, %core and the rank of the example's five cores. -/
theorem test_logical_ids : [5, 6, 7, 17, 48].map (logicalIds [5, 6, 7, 17, 48]) = [(0, 0, 0), (0, 0, 1), (0, 0, 2), (1, 0, 0), (2, 0, 0)] := by decide

/-- R75, R287: a word that is no instruction enters the handler with ILLEGAL_OP. -/
theorem test_illegal : (match step ((State.reset.withStrandWord [0x70]).modStrand p0 (fun z => { z with trapvec := 0x100 })) with
    | .next t => some ((t.strand p0).pc, (t.strand p0).trapcause, (t.strand p0).trappc)
    | _ => none) = some (0x100, 1, 0) := by decide

/-- The digest of the three bytes "abc" that the published standard of SHA-256 prints (R37, R236, R307). -/
theorem test_sha256 : (sha256 [0x61#8, 0x62#8, 0x63#8]).map BitVec.toNat
    = [0xBA, 0x78, 0x16, 0xBF, 0x8F, 0x01, 0xCF, 0xEA, 0x41, 0x41, 0x40, 0xDE, 0x5D, 0xAE, 0x22, 0x23,
       0xB0, 0x03, 0x61, 0xA3, 0x96, 0x17, 0x7A, 0x9C, 0xB4, 0x10, 0xFF, 0x61, 0xF2, 0x00, 0x15, 0xAD] := by decide +kernel

end Sys2Proof.Tests
end

section
/-!
PROOFS. Scalar instructions of the family ADD to CWAIT: how an instruction that changes its strand alone computes one register, and
ADD, AND, ANDN and CLZ (R312).
-/
namespace Sys2Proof.Machine
open Sys2Proof.Claims

/-! How a strand-local instruction computes. -/

/-- A strand-local instruction that writes one register writes what it forms from the strand as it acts. -/
theorem computes_of_strandOp {s : State} {p : At} {i : Instr} {d : Reg} (x : Strand → SReg) (h : Issues s p i)
    (he : exec i s = strandOp i (formOf i) s (fun z => z.setSReg d (x z))) (hp : pushCh (formOf i).sp = none) :
    Computes s p i d (x ((s.acting p i).strand p)).val := by
  obtain ⟨t, ht, hval, -, hret⟩ := issue_writes (x := x ((s.acting p i).strand p)) h he rfl (by rw [hp, ite_self])
  rw [State.acting_seq] at hret
  exact ⟨t, ht, hval, hret⟩

/-- An instruction of two sources and one result writes what it forms from the sources' values. -/
theorem computes_of_aluOp {s : State} {p : At} {i : Instr} {d a b : Reg} (g : Word → Word → Word) (h : Issues s p i)
    (he : exec i s = aluOp i d a b s g) (hf : formOf i = { uses := [d, a, b], checked := [a, b] }) :
    Computes s p i d (g (s.reg p a) (s.reg p b)) := by
  have hc := computes_of_strandOp (d := d) (fun z => SReg.of (g (z.reg a) (z.reg b))) h (by rw [he, hf]; rfl) (by rw [hf]; rfl)
  rw [← State.acting_reg s p i a, ← State.acting_reg s p i b]
  exact hc

/-- An instruction of one source and one result writes what it forms from the source's value. -/
theorem computes_of_unaryOp {s : State} {p : At} {i : Instr} {d a : Reg} (g : Word → Word) (h : Issues s p i)
    (he : exec i s = unaryOp i d a s g) (hf : formOf i = { uses := [d, a], checked := [a] }) :
    Computes s p i d (g (s.reg p a)) := by
  have hc := computes_of_strandOp (d := d) (fun z => SReg.of (g (z.reg a))) h (by rw [he, hf]; rfl) (by rw [hf]; rfl)
  rw [← State.acting_reg s p i a]
  exact hc

/-! Values. -/

/-- A sum of words is the sum of their numbers modulo 2^64. -/
theorem SReg.add_val (x y : SReg) : (x.add y).val = BitVec.ofNat 64 (x.val.toNat + y.val.toNat) := by
  simp only [SReg.add, BitVec.ofNat_add, BitVec.ofNat_toNat, BitVec.setWidth_eq]

/-- Of the numbers below n, those from m on are n - m. -/
theorem countP_le_range (m n : Nat) : (List.range n).countP (fun k => m ≤ k) = n - m := by
  induction n with
  | zero => rw [List.range_zero, List.countP_nil, Nat.zero_sub]
  | succ n ih =>
    rw [List.range_succ, List.countP_append, ih, List.countP_singleton]
    simp only [decide_eq_true_eq]
    split <;> omega

/-- The zero bits above the highest 1 bit are as many as the powers of two, below 2^64, that exceed the word. -/
theorem leadingZeros_eq_countP (w : Word) : leadingZeros w = (List.range 64).countP (fun k => w.toNat < 2 ^ k) := by
  by_cases hw : w = 0
  · subst hw; decide
  · have hn : w.toNat ≠ 0 := fun h => hw (BitVec.eq_of_toNat_eq h)
    have hlt : ∀ k, w.toNat < 2 ^ k ↔ w.toNat.log2 + 1 ≤ k := fun k => (Nat.log2_lt hn).symm
    simp only [leadingZeros, if_neg hw, hlt, countP_le_range]
    omega

/-! R312. -/

theorem add_computes {s : State} {p : At} {d a b : Reg} (h : Issues s p (.add d a b)) :
    Computes s p (.add d a b) d (BitVec.ofNat 64 ((s.reg p a).toNat + (s.reg p b).toNat)) := by
  have hc := computes_of_strandOp (d := d) (fun z => (z.sreg a).add (z.sreg b)) h rfl rfl
  rw [SReg.add_val, State.acting_sreg, State.acting_sreg] at hc
  exact hc

theorem clz_computes {s : State} {p : At} {d a : Reg} (h : Issues s p (.clz d a)) :
    Computes s p (.clz d a) d (BitVec.ofNat 64 ((List.range 64).countP (fun k => (s.reg p a).toNat < 2 ^ k))) := by
  rw [← leadingZeros_eq_countP]
  exact computes_of_unaryOp (fun x => BitVec.ofNat 64 (leadingZeros x)) h rfl rfl

/-- Settles O1: each of the four is a strand-local instruction with one result, and none is among the delayed ones. -/
theorem sumAndConjunctions : Obligations.SumAndConjunctions := by
  intro s p d a b
  refine ⟨add_computes, fun h => ?and, fun h => ?andn, clz_computes, rfl, rfl, rfl, rfl⟩
  case and => exact computes_of_aluOp (fun x y => x &&& y) h rfl rfl
  case andn => exact computes_of_aluOp (fun x y => x &&& ~~~y) h rfl rfl

end Sys2Proof.Machine
end

section
/-!
PROOFS. Condition codes (R320): what each code tests of %flags, the words that hold a reserved code, and the flags that an
instruction sees (R111).
-/
namespace Sys2Proof

/-! Words that differ in their field F alone (R61). -/

/-- A field F added to a word 0 whose own is zero changes nothing else of the head. -/
theorem Head.ofWord_add_f (w : Nat) (hw : w < 2 ^ 27) (c : Fin 32) :
    Head.ofWord (w + c.val * 2 ^ 27) = { Head.ofWord w with f := c } := by
  have hc := c.isLt
  simp only [Head.ofWord, fieldFin, Head.mk.injEq, Fin.ext_iff, Fin.val_ofNat]
  omega

/-- Such a word that is a 32-bit instruction is in format R. -/
theorem Raw.ofWords_add_f_r (w : Nat) (hw : w < 2 ^ 27) (hl : w % 4 = 0) (c : Fin 32) (w1 w2 : Nat) :
    Raw.ofWords (w + c.val * 2 ^ 27) w1 w2 = some (.r { Head.ofWord w with f := c }) := by
  have hm : (w + c.val * 2 ^ 27) % 4 = 0 := by omega
  simp only [Raw.ofWords, hm, if_true, Head.ofWord_add_f w hw]

/-- Such a word that begins a 64-bit instruction is in format I where its opcode has no layout V. -/
theorem Raw.ofWords_add_f_i (w : Nat) (hw : w < 2 ^ 27) (hl : w % 4 = 1) (hv : layoutV (Head.ofWord w).op.val = false) (c : Fin 32)
    (w1 w2 : Nat) : Raw.ofWords (w + c.val * 2 ^ 27) w1 w2
      = some (.i { Head.ofWord w with f := c } (fieldFin w1 25 128) (fieldFin w1 20 32) (BitVec.ofNat 20 w1)) := by
  have hm : (w + c.val * 2 ^ 27) % 4 = 1 := by omega
  simp only [Raw.ofWords, hm, Head.ofWord_add_f w hw, hv, Nat.one_ne_zero, Bool.false_eq_true, if_false, if_true]

/-! Reserved codes. -/

theorem whenZ_none (b : Bool) : whenZ b none = none := by cases b <;> rfl

/-- The fifteen codes in their order; every other code is none (R320). -/
theorem Cond.ofCode_eq (c : Fin 32) :
    Cond.ofCode c = [Cond.eq, .ne, .lt, .ge, .ltu, .geu, .le, .gt, .leu, .gtu, .any, .none, .all, .nall, .al][c.val]? := by
  revert c; decide

theorem Cond.ofCode_reserved (c : Fin 32) (h : 15 ≤ c.val) : Cond.ofCode c = Option.none := by
  rw [Cond.ofCode_eq]; exact List.getElem?_eq_none h

/-- BC with a reserved code in F. -/
theorem decode_bc_reserved (h : Head) (top : Fin 128) (c : Fin 32) (imm : BitVec 20) (ho : h.op = 0x041)
    (hc : Cond.ofCode h.f = none) : (Raw.i h top c imm).decode = .error .reservedField := by
  obtain ⟨f, b, a, d, op⟩ := h
  subst ho
  have hr : Raw.readI ⟨f, b, a, d, 0x041⟩ top c imm
      = some (whenZ (top == 0 && c == 0 && d == 0 && a == 0 && b == 0) ((Cond.ofCode f).map fun k => .bc k imm)) := rfl
  rw [Raw.decode, hr, hc, Option.map_none, whenZ_none]; rfl

/-- SEL with a reserved code in F. -/
theorem decode_sel_reserved (h : Head) (ho : h.op = 0x016) (hc : Cond.ofCode h.f = none) :
    (Raw.r h).decode = .error .reservedField := by
  obtain ⟨f, b, a, d, op⟩ := h
  subst ho
  have hr : Raw.readR ⟨f, b, a, d, 0x016⟩ = some ((Cond.ofCode f).map fun c => .sel c d a b) := rfl
  rw [Raw.decode, hr, hc]; rfl

/-- SETC with a reserved code in F. -/
theorem decode_setc_reserved (h : Head) (ho : h.op = 0x018) (hc : Cond.ofCode h.f = none) :
    (Raw.r h).decode = .error .reservedField := by
  obtain ⟨f, b, a, d, op⟩ := h
  subst ho
  have hr : Raw.readR ⟨f, b, a, d, 0x018⟩ = some (whenZ (a == 0 && b == 0) ((Cond.ofCode f).map fun c => .setc c d)) := rfl
  rw [Raw.decode, hr, hc, Option.map_none, whenZ_none]; rfl

end Sys2Proof

namespace Sys2Proof.Machine

/-! The flags that an instruction sees (R111). -/

/-- VFLAG results that land change %flags one after the other. -/
theorem Strand.foldl_land_flags (l : List PendFlag) (z : Strand) : (l.foldl Strand.land z).flags = l.foldl vectorFlags z.flags := by
  induction l generalizing z with
  | nil => rfl
  | cons f l ih => exact ih (z.land f)

theorem Strand.landDue_flags (z : Strand) :
    z.landDue.flags = (z.vflags.filter (fun f => f.left == 0)).foldl vectorFlags z.flags :=
  Strand.foldl_land_flags _ _

theorem State.acting_flags (s : State) (p : At) (i : Instr) : ((s.acting p i).strand p).flags
    = ((s.strand p).vflags.filter (fun e => e.left == 0)).foldl vectorFlags (s.strand p).flags := by
  rw [State.acting_strand, Strand.landDue_flags]

/-- Settles O6: the codes by their table, a reserved one by the field F of the three words, the flags by what lands before the
instruction acts. -/
theorem conditionCodes : Obligations.ConditionCodes := by
  refine ⟨fun f => rfl, Cond.ofCode_eq, fun c hc => ?reserved, State.acting_flags⟩
  case reserved =>
    have hn := Cond.ofCode_reserved c hc
    refine ⟨?bc, ?sel, ?setc⟩
    case bc =>
      rw [decodeStrand, Raw.ofWords_add_f_i 0x00000105 (by decide) (by decide) (by decide) c]
      exact decode_bc_reserved _ _ _ _ rfl hn
    case sel =>
      rw [decodeStrand, Raw.ofWords_add_f_r 0x039AC058 (by decide) (by decide) c]
      exact decode_sel_reserved _ rfl hn
    case setc =>
      rw [decodeStrand, Raw.ofWords_add_f_r 0x0000C060 (by decide) (by decide) c]
      exact decode_setc_reserved _ rfl hn

end Sys2Proof.Machine
end

section
/-!
PROOFS. MIN and MAX (R352): their words in format R, the refusal of the reserved bits of F, and their results by a comparison that is
signed, or unsigned under U.
-/
namespace Sys2Proof

/-! Words of format R with the flag U in F[0] (R61). -/

theorem flagF_mul (u : Bool) : (flagF u).val * 2 ^ 27 = if u then 2 ^ 27 else 0 := by cases u <;> rfl

/-- An instruction in format R with U is one word: its opcode, its three registers and the bit 27. -/
theorem encode_of_raw_r {i : Instr} {op : Fin 1024} {u : Bool} {d a b : Fin 32} (h : toRaw i = some (.r (hd op (flagF u) b a d))) :
    encode i = [op.val * 4 + d.val * 2 ^ 12 + a.val * 2 ^ 17 + b.val * 2 ^ 22 + (if u then 2 ^ 27 else 0)] := by
  simp only [encode, h, Raw.toWords, Head.toWord, hd, List.cons.injEq, and_true, ← flagF_mul]
  omega

theorem flagOf_reserved (f : Fin 32) (hf : 2 ≤ f.val) : flagOf f = none := by
  revert f; decide

/-- An instruction of format R that reads U from F is refused with another bit of F set (R75). -/
theorem decode_r_flag_reserved {h : Head} (mk : Bool → Instr) (hr : Raw.readR h = some ((flagOf h.f).map mk)) (hf : 2 ≤ h.f.val) :
    (Raw.r h).decode = .error .reservedField := by
  rw [Raw.decode, hr, flagOf_reserved h.f hf]; rfl

end Sys2Proof

namespace Sys2Proof.Machine
open Sys2Proof.Claims

/-! The lesser and the greater of two words (R352). -/

/-- Signed or unsigned, the weak order is the strict one or equality: a word is determined by its number in either reading. -/
theorem le_iff_lt_or_eq_under (u : Bool) (x y : Word) : (if u then x.toNat ≤ y.toNat else x.toInt ≤ y.toInt) ↔
    (if u then x.toNat < y.toNat else x.toInt < y.toInt) ∨ x = y := by
  cases u with
  | true => exact Nat.le_iff_lt_or_eq.trans (or_congr_right BitVec.toNat_inj)
  | false => exact Int.le_iff_lt_or_eq.trans (or_congr_right BitVec.toInt_inj)

/-- A choice by the strict order is one by the weak order where equal operands do not tell the choices apart. -/
theorem ite_le_eq_ite_lt_under (u : Bool) {x y v w : Word} (hvw : x = y → v = w) :
    (if (if u then x.toNat ≤ y.toNat else x.toInt ≤ y.toInt) then v else w)
      = if (if u then x.toNat < y.toNat else x.toInt < y.toInt) then v else w := by
  simp only [le_iff_lt_or_eq_under]
  by_cases heq : x = y
  · rw [hvw heq, ite_self, ite_self]
  · simp only [heq, or_false]

theorem min_computes {s : State} {p : At} {u : Bool} {d a b : Reg} (h : Issues s p (.min u d a b)) :
    Computes s p (.min u d a b) d
      (if (if u then (s.reg p a).toNat < (s.reg p b).toNat else (s.reg p a).toInt < (s.reg p b).toInt) then s.reg p a
        else s.reg p b) := by
  rw [← ite_le_eq_ite_lt_under u id]
  exact computes_of_aluOp (fun x y => if (if u then x.toNat ≤ y.toNat else x.toInt ≤ y.toInt) then x else y) h rfl rfl

theorem max_computes {s : State} {p : At} {u : Bool} {d a b : Reg} (h : Issues s p (.max u d a b)) :
    Computes s p (.max u d a b) d
      (if (if u then (s.reg p a).toNat < (s.reg p b).toNat else (s.reg p a).toInt < (s.reg p b).toInt) then s.reg p b
        else s.reg p a) := by
  rw [← ite_le_eq_ite_lt_under u Eq.symm]
  exact computes_of_aluOp (fun x y => if (if u then x.toNat ≤ y.toNat else x.toInt ≤ y.toInt) then y else x) h rfl rfl

/-- Settles O4: the words by format R with U in F[0], the refusals by the reserved bits of F, the results by a comparison that the
weak order of the model and the strict one of the statement decide alike. -/
theorem lesserAndGreater : Obligations.LesserAndGreater := by
  refine ⟨fun u d a b => ⟨encode_of_raw_r (op := 0x010) rfl, encode_of_raw_r (op := 0x011) rfl⟩, rfl, rfl, rfl,
    fun f hf => ⟨?min, ?max⟩,
    fun s p u d a b => ⟨rfl, rfl, fun h => ⟨fun hl => ?minLess, fun hl => ?minNotLess⟩,
      fun h => ⟨fun hl => ?maxLess, fun hl => ?maxNotLess⟩⟩⟩
  case min =>
    rw [decodeStrand, Raw.ofWords_add_f_r 0x039AC040 (by decide) (by decide) f]
    exact decode_r_flag_reserved (fun u => .min u 12 13 14) rfl hf
  case max =>
    rw [decodeStrand, Raw.ofWords_add_f_r 0x039AC044 (by decide) (by decide) f]
    exact decode_r_flag_reserved (fun u => .max u 12 13 14) rfl hf
  case minLess => simpa only [if_pos hl] using min_computes h
  case minNotLess => simpa only [if_neg hl] using min_computes h
  case maxLess => simpa only [if_pos hl] using max_computes h
  case maxNotLess => simpa only [if_neg hl] using max_computes h

end Sys2Proof.Machine
end

section
/-!
PROOFS. Products, remainders and the rest of R360: the number of 1 bits, the integers that an operand stands for under the flag U, and
the identity of DIV and REM.
-/
namespace Sys2Proof.Machine
open Sys2Proof.Claims

/-! The number of 1 bits. -/

/-- The 1 bits among the k lowest are the places below k that test as set. -/
theorem popcount_eq_countP (k n : Nat) : popcount k n = (List.range k).countP (fun j => n.testBit j) := by
  induction k generalizing n with
  | zero => rfl
  | succ k ih =>
    have hhigh : ((fun j => n.testBit j) ∘ Nat.succ) = fun j => (n / 2).testBit j := funext fun j => Nat.testBit_succ n j
    rw [popcount, ih, List.range_succ_eq_map, List.countP_cons, List.countP_map, hhigh, Nat.add_comm]
    have hlow : n % 2 = if n.testBit 0 then 1 else 0 := by
      rw [Nat.testBit_zero]
      rcases Nat.mod_two_eq_zero_or_one n with h | h <;> rw [h] <;> rfl
    rw [hlow]

/-! The integer of an operand. -/

/-- The integer that an operand stands for: unsigned under U, else signed (R338, R360). -/
def operandInt (u : Bool) (x : Word) : Int := if u then x.toNat else x.toInt

/-- Both readings of a word leave the word modulo 2^64. -/
@[simp] theorem ofInt_operandInt (u : Bool) (x : Word) : BitVec.ofInt 64 (operandInt u x) = x := by
  cases u with
  | true => exact (BitVec.ofInt_natCast 64 x.toNat).trans ((BitVec.ofNat_toNat 64 x).trans (BitVec.setWidth_eq x))
  | false => exact BitVec.ofInt_toInt

theorem operandInt_eq_zero_iff (u : Bool) (x : Word) : operandInt u x = 0 ↔ x = 0 := by
  cases u with
  | true => exact Int.natCast_eq_zero.trans (BitVec.toNat_inj (y := 0))
  | false => exact BitVec.toInt_inj (y := 0)

/-! Products, quotients and remainders as integers modulo 2^64. -/

theorem mulHigh_eq (u : Bool) (x y : Word) : mulHigh u x y = BitVec.ofInt 64 (operandInt u x * operandInt u y / 2 ^ 64) := by
  cases u with
  | true => exact (BitVec.ofInt_natCast 64 (x.toNat * y.toNat / 2 ^ 64)).symm
  | false => rfl

theorem quotient_eq (u : Bool) (x y : Word) : quotient u x y
    = if operandInt u y = 0 then BitVec.allOnes 64 else BitVec.ofInt 64 (Int.tdiv (operandInt u x) (operandInt u y)) := by
  simp only [quotient, operandInt_eq_zero_iff]
  cases u with
  | true => rw [← BitVec.ofInt_natCast]; rfl
  | false => rfl

/-- The remainder is what the truncated quotient times the divisor leaves of the dividend. -/
theorem remainder_eq (u : Bool) (x y : Word) : remainder u x y = if operandInt u y = 0 then x
    else BitVec.ofInt 64 (operandInt u x - operandInt u y * Int.tdiv (operandInt u x) (operandInt u y)) := by
  rw [← Int.tmod_def]
  simp only [remainder, operandInt_eq_zero_iff]
  cases u with
  | true => rw [← BitVec.ofInt_natCast]; rfl
  | false => rfl

/-- For a divisor that is not 0, the quotient times it and the remainder give the dividend modulo 2^64, whichever way the words are
read: words that agree modulo 2^64 have products and sums that agree. -/
theorem quotient_mul_add_remainder (u : Bool) (x y : Word) (hy : operandInt u y ≠ 0) :
    BitVec.ofInt 64 ((quotient u x y).toInt * y.toInt + (remainder u x y).toInt) = x := by
  rw [quotient_eq, remainder_eq, if_neg hy, if_neg hy]
  generalize hq : Int.tdiv (operandInt u x) (operandInt u y) = q
  calc
    _ = BitVec.ofInt 64 q * y + BitVec.ofInt 64 (operandInt u x - operandInt u y * q) := by
      rw [BitVec.ofInt_add, BitVec.ofInt_mul, BitVec.ofInt_toInt, BitVec.ofInt_toInt, BitVec.ofInt_toInt]
    _ = BitVec.ofInt 64 (q * operandInt u y + (operandInt u x - operandInt u y * q)) := by
      rw [BitVec.ofInt_add, BitVec.ofInt_mul, ofInt_operandInt]
    _ = BitVec.ofInt 64 (operandInt u x) := by rw [Int.mul_comm, Int.add_comm, Int.sub_add_cancel]
    _ = x := ofInt_operandInt u x

/-- A difference of words is the difference of their numbers modulo 2^64. -/
theorem SReg.sub_val (x y : SReg) : (x.sub y).val = BitVec.ofInt 64 ((x.val.toNat : Int) - y.val.toNat) := by
  have hof : ∀ w : Word, BitVec.ofInt 64 w.toNat = w := ofInt_operandInt true
  rw [Int.sub_eq_add_neg, BitVec.ofInt_add, BitVec.ofInt_neg, hof, hof, ← BitVec.sub_eq_add_neg]
  rfl

/-! R360. -/

section
variable {s : State} {p : At} {u : Bool} {d a b : Reg}

theorem mul_computes (h : Issues s p (.mul d a b)) :
    Computes s p (.mul d a b) d (BitVec.ofNat 64 ((s.reg p a).toNat * (s.reg p b).toNat)) := by
  simp only [BitVec.ofNat_mul, BitVec.ofNat_toNat, BitVec.setWidth_eq]
  exact computes_of_aluOp (fun x y => x * y) h rfl rfl

theorem mulh_computes (h : Issues s p (.mulh u d a b)) : Computes s p (.mulh u d a b) d
    (BitVec.ofInt 64 (operandInt u (s.reg p a) * operandInt u (s.reg p b) / 2 ^ 64)) := by
  rw [← mulHigh_eq]
  exact computes_of_aluOp (mulHigh u) h rfl rfl

theorem popc_computes (h : Issues s p (.popc d a)) : Computes s p (.popc d a) d
    (BitVec.ofNat 64 ((List.range 64).countP (fun k => (s.reg p a).getLsbD k))) := by
  have hc := computes_of_unaryOp (fun x => BitVec.ofNat 64 (popcount 64 x.toNat)) h rfl rfl
  rw [popcount_eq_countP] at hc
  exact hc

theorem div_computes (h : Issues s p (.div u d a b)) :
    Computes s p (.div u d a b) d (quotient u (s.reg p a) (s.reg p b)) :=
  computes_of_aluOp (quotient u) h rfl rfl

theorem rem_computes (h : Issues s p (.rem u d a b)) :
    Computes s p (.rem u d a b) d (remainder u (s.reg p a) (s.reg p b)) :=
  computes_of_aluOp (remainder u) h rfl rfl

theorem sub_computes (h : Issues s p (.sub d a b)) :
    Computes s p (.sub d a b) d (BitVec.ofInt 64 (((s.reg p a).toNat : Int) - (s.reg p b).toNat)) := by
  have hc := computes_of_strandOp (d := d) (fun z => (z.sreg a).sub (z.sreg b)) h rfl rfl
  rw [SReg.sub_val, State.acting_sreg, State.acting_sreg] at hc
  exact hc

end

/-- Settles O2: each of the six is a strand-local instruction with one result; the identity of DIV and REM is that of the truncated
quotient and its remainder, taken modulo 2^64. -/
theorem productsAndRemainders : Obligations.ProductsAndRemainders := by
  intro s p d a b u x y m n
  refine ⟨mul_computes, mulh_computes, fun h => ?or, popc_computes, fun h => ?rem, sub_computes, fun hn hdiv hrem => ?identity⟩
  case or => exact computes_of_aluOp (fun x y => x ||| y) h rfl rfl
  case rem => exact remainder_eq u x y ▸ rem_computes h
  case identity =>
    exact ⟨_, _, div_computes hdiv, rem_computes hrem, (quotient_mul_add_remainder u x y hn).symm⟩

end Sys2Proof.Machine
end

section
/-!
PROOFS. XOR (R405): its words in format R, the refusal of a field F that is not zero, and its result.
-/
namespace Sys2Proof

/-- An instruction in format R with F zero is one word: its opcode and its three registers. -/
theorem encode_of_raw_r_f_zero {i : Instr} {op : Fin 1024} {d a b : Fin 32} (h : toRaw i = some (.r (hd op 0 b a d))) :
    encode i = [op.val * 4 + d.val * 2 ^ 12 + a.val * 2 ^ 17 + b.val * 2 ^ 22] := by
  rw [encode_of_raw_r (u := false) h, if_neg Bool.false_ne_true, Nat.add_zero]

/-- An instruction of format R that leaves F unused is refused with a bit of F set (R75). -/
theorem decode_r_f_reserved {h : Head} (i : Option Instr) (hr : Raw.readR h = some (whenZ (h.f == 0) i)) (hf : h.f ≠ 0) :
    (Raw.r h).decode = .error .reservedField := by
  rw [Raw.decode, hr, beq_false_of_ne hf]; rfl

end Sys2Proof

namespace Sys2Proof.Machine

/-- Settles O3: the word by format R with F zero, the refusals by the bits of F, the result as that of every strand-local instruction
of two sources. -/
theorem exclusiveOr : Obligations.ExclusiveOr := by
  refine ⟨fun d a b => encode_of_raw_r_f_zero (op := 0x00A) rfl, rfl, fun f hf => ?refused,
    fun s p d a b => ⟨rfl, fun h => ?result⟩⟩
  case refused =>
    rw [decodeStrand, Raw.ofWords_add_f_r 0x039AC028 (by decide) (by decide) f]
    exact decode_r_f_reserved (some (.xor 12 13 14)) rfl hf
  case result => exact computes_of_aluOp (fun x y => x ^^^ y) h rfl rfl

end Sys2Proof.Machine
end
